-- ==== Sys2Proof/Word.lean ====
section
/-! DEFINITION. Word.lean: the widths the manual gives its fields (R172), and banks of a fixed number of like things. -/

namespace Sys2Proof

/-- One byte of a frame or of a record. -/
abbrev Byte := BitVec 8
/-- A two-byte field (R172). -/
abbrev Half := BitVec 16
/-- A four-byte field (R172). -/
abbrev Word := BitVec 32
/-- A count of the timebase, 32 bits (R120). -/
abbrev Tick := BitVec 32

/-- Two like things: the image slots A and B (R137). -/
structure Bank2 (α : Type) where
  a : α
  b : α
deriving DecidableEq, Repr

/-- Four like things, numbered 0 to 3: the chains C0 to C3 (R63). -/
structure Bank4 (α : Type) where
  e0 : α
  e1 : α
  e2 : α
  e3 : α
deriving DecidableEq, Repr

/-- Six like things, numbered 0 to 5: the profiles P0 to P5 (R99). -/
structure Bank6 (α : Type) where
  e0 : α
  e1 : α
  e2 : α
  e3 : α
  e4 : α
  e5 : α
deriving DecidableEq, Repr

/-- Eight like things, numbered 0 to 7: the outputs (R39) and the claim lines (R91). -/
structure Bank8 (α : Type) where
  e0 : α
  e1 : α
  e2 : α
  e3 : α
  e4 : α
  e5 : α
  e6 : α
  e7 : α
deriving DecidableEq, Repr

/-- One thing for each source other than RCO (R1). -/
structure BankOsc (α : Type) where
  xa : α
  xb : α
  ref : α
  syn : α
deriving DecidableEq, Repr

end Sys2Proof
end

