-- ==== Sys2Proof/Syntax.lean ====
section
/-! DEFINITION. Syntax.lean: the commands of the CS58, one constructor of Instr per row of spec/opcode_table.json.

A request constructor stands for the event in which a whole frame of that kind completes with a good CRC (R151); its
operands are the tag and the body's fields as section 11.4 lays them out, raw, so that every value a frame can carry
is a command. Frames of a length their kind does not permit come in through `characterReceived`. -/

namespace Sys2Proof

/-- The four sources that start and stop (section 1.2). -/
inductive Osc where
  | xa | xb | ref | syn
deriving DecidableEq, Repr

/-- The five sources (R1). -/
inductive Src where
  | rco
  | osc (o : Osc)
deriving DecidableEq, Repr

/-- Body of SOURCE SET: SOURCE CONFIG (section 11.4). -/
structure SourceSetReq where
  source : Byte
  nominal : Word
  startTimeout : Half
  quarantine : Half
  retryCount : Byte
  rehabilitation : Half
  synInput : Byte
  m : Byte
  n : Byte
deriving DecidableEq, Repr

/-- Tolerance (for RCO the consensus threshold), K and F as sent in MONITOR SET. -/
structure RawJudge where
  band : Byte
  k : Byte
  f : Byte
deriving DecidableEq, Repr

/-- Body of MONITOR SET (section 11.4). -/
structure MonitorSetReq where
  period : Half
  osc : BankOsc RawJudge
  rco : RawJudge
deriving DecidableEq, Repr

/-- Body of OUTPUT SET: OUTPUT CONFIG (section 11.4). -/
structure OutputSetReq where
  output : Byte
  enable : Byte
  mode : Byte
  sourceOrChain : Byte
  divider : Half
  essential : Byte
  stopLevel : Byte
  timeout : Half
deriving DecidableEq, Repr

/-- One entry as sent in CHAIN SET. -/
structure RawEntry where
  source : Byte
  divider : Half
deriving DecidableEq, Repr

/-- Body of CHAIN SET: CHAIN RECORD (section 11.4). -/
structure ChainSetReq where
  chain : Byte
  holdOff : Half
  leaveOnSuspect : Byte
  warmStandby : Byte
  lastResort : Half
  entries : List RawEntry
deriving DecidableEq, Repr

/-- Body of CLAIM: CLAIM REQUEST (section 11.4). -/
structure ClaimReq where
  claimant : Half
  output : Byte
  options : Byte
  lease : Word
  tag : Half
deriving DecidableEq, Repr

/-- One pair as sent in LINE MAP SET. -/
structure RawPair where
  output : Byte
  level : Byte
deriving DecidableEq, Repr

/-- Body of LINE MAP SET (section 11.4). -/
structure LineMapReq where
  line : Byte
  activeLevel : Byte
  holdTime : Half
  pairs : List RawPair
deriving DecidableEq, Repr

/-- Body of PROFILE SET: PROFILE RECORD (section 11.4). -/
structure ProfileSetReq where
  profile : Byte
  policy : Bank8 Byte
  permitted : Byte
  honour : Byte
  wakeMask : Half
  wakeProfile : Byte
deriving DecidableEq, Repr

/-- Body of ACTION ADD (section 11.4). -/
structure ActionAddReq where
  number : Byte
  whenForm : Byte
  value : Word
  period : Word
  kind : Byte
  op0 : Byte
  op1 : Byte
  op2 : Byte
deriving DecidableEq, Repr

/-- The commands: requests, link events, start-up events, source, output, claim, profile, time and image events. -/
inductive Instr where
  -- requests on the link (chapter 9)
  | identify (tag : Byte)
  | echo (tag : Byte) (body : List Byte)
  | restart (tag : Byte)
  -- requests on sources and the monitor (chapters 1 and 2)
  | sourceSet (tag : Byte) (req : SourceSetReq)
  | sourceQuery (tag source : Byte)
  | sourceKeep (tag source flag : Byte)
  | sourceClear (tag source : Byte)
  | monitorSet (tag : Byte) (req : MonitorSetReq)
  | monitorQuery (tag : Byte)
  -- requests on outputs and chains (chapters 3 and 4)
  | outputSet (tag : Byte) (req : OutputSetReq)
  | outputQuery (tag output : Byte)
  | outputSelect (tag output entry : Byte)
  | chainSet (tag : Byte) (req : ChainSetReq)
  | chainQuery (tag chain : Byte)
  -- requests on claims and lines (chapter 5)
  | claim (tag : Byte) (req : ClaimReq)
  | release (tag : Byte) (claimant : Half) (output : Byte)
  | releaseAll (tag : Byte) (claimant : Half)
  | claimList (tag first : Byte)
  | lineMapSet (tag : Byte) (req : LineMapReq)
  | lineQuery (tag line : Byte)
  -- requests on profiles and the stack (chapter 6)
  | profileSet (tag : Byte) (req : ProfileSetReq)
  | profileQuery (tag profile : Byte)
  | profileEnter (tag profile : Byte)
  | resume (tag : Byte)
  | resumeTarget (tag profile : Byte)
  | stackQuery (tag : Byte)
  -- requests on time and actions (chapter 7)
  | timeQuery (tag : Byte)
  | actionAdd (tag : Byte) (req : ActionAddReq)
  | actionCancel (tag number : Byte)
  | actionList (tag first : Byte)
  -- requests on notices (chapter 10) and images (chapter 8)
  | noticeAck (tag : Byte) (number : Half)
  | noticeResend (tag : Byte)
  | noticeFilter (tag : Byte) (filter : Half)
  | imageSave (tag profile : Byte)
  | imageInfo (tag : Byte)
  /-- A taken frame whose kind is no request kind (R153). -/
  | unknownKind (tag kind : Byte)
  -- link events (chapter 9)
  /-- A character on LRX, with whether its stop bit sampled low (R148, R149). -/
  | characterReceived (char : Byte) (framingError : Bool)
  | gap
  | linkBreak
  | frameSent
  -- start-up events (chapter 8)
  /-- A cold start is taken; `supply` tells a fall of VDD below 2.75 V from a low of RST# (R134). -/
  | coldStart (supply : Bool)
  | powerupEnd (br1 br0 : Bool)
  | selectDone
  /-- LIVE is reached; `pins` is how CLM0 (bit 0) to CLM7 (bit 7) stand then (R97). -/
  | live (pins : Byte)
  -- source events (chapters 1 and 2)
  | startDetection (source : Osc)
  | startTimerExpiry (source : Osc)
  | lockDetection
  | lockTimerExpiry
  | quarantineExpiry (source : Osc)
  | rehabilitationExpiry (source : Osc)
  /-- A survey completes; the operands are the edges each source's counter has counted (R23). -/
  | surveyCompletion (xa xb ref syn : Word)
  -- output and chain events (chapters 3 and 4)
  | releaseEnd (output : Fin 8)
  | releaseTimeout (output : Fin 8)
  | acquireEnd (output : Fin 8)
  | acquireTimeout (output : Fin 8)
  | dividerChange (output : Fin 8)
  | revertTimerExpiry (output : Fin 8)
  -- claim events (chapter 5)
  | leaseExpiry (claimant : Byte) (output : Fin 8)
  | lineActivation (line : Fin 8)
  | lineDeactivation (line : Fin 8)
  | holdExpiry (line : Fin 8)
  -- profile, time and image events (chapters 6, 7 and 8)
  | wakePinEdge
  | tick
  | actionFiring
  | eraseComplete
  | writeComplete
  /-- CHECK ends; `good` tells whether the read-back CRC-32 matches (R142). -/
  | checkComplete (good : Bool)
  | resetRelease
deriving DecidableEq, Repr

end Sys2Proof
end

