-- ==== Sys2Proof/Decode.lean ====
section
/-! DEFINITION. Decode.lean: the command a word spells by the table's bits. spec/opcode_table.json gives no row any bits
(98_reader.md: 68 rows unread), so no word spells a command. Frames are decoded where the machine decodes them, in the
receiver (Machine/Operands.lean and Machine/Receive.lean). -/

namespace Sys2Proof

/-- No row of the table has bits: every word is refused. -/
def decodeTableWord (_nbits _w : Nat) : Option Instr := none

end Sys2Proof
end

