-- ==== Sys2Proof/Config.lean ====
section
/-! DEFINITION. Config.lean: what this implementation fixes, and the free values the manual leaves open. -/

namespace Sys2Proof.Config

/-- The part code of the CS58 (R159). -/
def partCode : Half := 0x0C58#16
/-- The silicon revision documented (R159). -/
def siliconRevision : Byte := 1#8
/-- The highest output frequency in Hz (R39, R64). -/
def maxOutputHz : Nat := 200000000
/-- RCO's fixed nominal frequency in Hz (R1). -/
def rcoNominal : Nat := 24000000
/-- SYN's derived nominal frequency lies between these two (R2). -/
def synMinHz : Nat := 50000000
def synMaxHz : Nat := 400000000
/-- The least expected count any source may have (R24). -/
def minExpected : Nat := 64
/-- The verify limit, which cannot be set (R22). -/
def verifyLimit : Nat := 16
/-- The room of the claim table (R82). -/
def claimRoom : Nat := 32
/-- The most mapped pairs over all lines (R82, R94). -/
def mappedRoom : Nat := 16
/-- The room of the action list (R124). -/
def actionRoom : Nat := 16
/-- The room of the notice queue (R162). -/
def noticeRoom : Nat := 24
/-- The places of the link's window (R152). -/
def windowRoom : Nat := 4
/-- The greatest depth of the profile stack (R102). -/
def stackRoom : Nat := 6
/-- Records in one reply of CLAIM LIST and of ACTION LIST (R90, R131). -/
def listRoom : Nat := 8
/-- The sync byte (section 11.1). -/
def syncByte : Byte := 0xA5#8

/-- DESIGN CHOICE (log 24, unsafe): the code of the CS58's image format, which R137 does not give. -/
def formatCode : Byte := 0x58#8
/-- DESIGN CHOICE (log 24, unsafe): what an erased byte of a slot reads as. -/
def erasedByte : Byte := 0xFF#8

/-- Free value (log 3): where inside its bounds the time since a phase start lies (R60). -/
opaque freeMicros : Nat → Nat
/-- Free value (log 23): whether a slot whose save was cut off in ERASE or WRITE reads as ERASED (R143). -/
opaque freeReadsErased : Nat → Bool

end Sys2Proof.Config
end

