-- ==== Sys2Proof/Machine/Bank.lean ====
section
/-! DEFINITION. Machine/Bank.lean: reading and writing one place of a bank by its number. -/

namespace Sys2Proof

namespace Bank2
variable {α : Type}
/-- `true` names B. -/
def get (b : Bank2 α) (i : Bool) : α := if i then b.b else b.a
def set (b : Bank2 α) (i : Bool) (v : α) : Bank2 α := if i then ⟨b.a, v⟩ else ⟨v, b.b⟩
end Bank2

namespace Bank4
variable {α β : Type}
def get (b : Bank4 α) : Fin 4 → α
  | 0 => b.e0 | 1 => b.e1 | 2 => b.e2 | 3 => b.e3
def set (b : Bank4 α) (i : Fin 4) (v : α) : Bank4 α :=
  match i with
  | 0 => { b with e0 := v } | 1 => { b with e1 := v } | 2 => { b with e2 := v } | 3 => { b with e3 := v }
def toList (b : Bank4 α) : List α := [b.e0, b.e1, b.e2, b.e3]
def fill (v : α) : Bank4 α := ⟨v, v, v, v⟩
end Bank4

namespace Bank6
variable {α : Type}
def get (b : Bank6 α) : Fin 6 → α
  | 0 => b.e0 | 1 => b.e1 | 2 => b.e2 | 3 => b.e3 | 4 => b.e4 | 5 => b.e5
def set (b : Bank6 α) (i : Fin 6) (v : α) : Bank6 α :=
  match i with
  | 0 => { b with e0 := v } | 1 => { b with e1 := v } | 2 => { b with e2 := v }
  | 3 => { b with e3 := v } | 4 => { b with e4 := v } | 5 => { b with e5 := v }
def toList (b : Bank6 α) : List α := [b.e0, b.e1, b.e2, b.e3, b.e4, b.e5]
def fill (v : α) : Bank6 α := ⟨v, v, v, v, v, v⟩
end Bank6

namespace Bank8
variable {α β : Type}
def get (b : Bank8 α) : Fin 8 → α
  | 0 => b.e0 | 1 => b.e1 | 2 => b.e2 | 3 => b.e3 | 4 => b.e4 | 5 => b.e5 | 6 => b.e6 | 7 => b.e7
def set (b : Bank8 α) (i : Fin 8) (v : α) : Bank8 α :=
  match i with
  | 0 => { b with e0 := v } | 1 => { b with e1 := v } | 2 => { b with e2 := v } | 3 => { b with e3 := v }
  | 4 => { b with e4 := v } | 5 => { b with e5 := v } | 6 => { b with e6 := v } | 7 => { b with e7 := v }
/-- The bank whose place `i` holds `f i`. -/
def ofFn (f : Fin 8 → α) : Bank8 α := ⟨f 0, f 1, f 2, f 3, f 4, f 5, f 6, f 7⟩
/-- Every place rewritten, with its number in hand. -/
def mapIdx (b : Bank8 α) (f : Fin 8 → α → β) : Bank8 β := ofFn fun i => f i (b.get i)
def map (b : Bank8 α) (f : α → β) : Bank8 β := b.mapIdx fun _ v => f v
def toList (b : Bank8 α) : List α := [b.e0, b.e1, b.e2, b.e3, b.e4, b.e5, b.e6, b.e7]
def fill (v : α) : Bank8 α := ofFn fun _ => v
end Bank8

/-- The numbers of the eight outputs or lines, lowest first. -/
def eight : List (Fin 8) := [0, 1, 2, 3, 4, 5, 6, 7]

namespace BankOsc
variable {α β : Type}
def get (b : BankOsc α) : Osc → α
  | .xa => b.xa | .xb => b.xb | .ref => b.ref | .syn => b.syn
def set (b : BankOsc α) (o : Osc) (v : α) : BankOsc α :=
  match o with
  | .xa => { b with xa := v } | .xb => { b with xb := v } | .ref => { b with ref := v } | .syn => { b with syn := v }
def ofFn (f : Osc → α) : BankOsc α := ⟨f .xa, f .xb, f .ref, f .syn⟩
def mapIdx (b : BankOsc α) (f : Osc → α → β) : BankOsc β := ofFn fun o => f o (b.get o)
def toList (b : BankOsc α) : List α := [b.xa, b.xb, b.ref, b.syn]
end BankOsc

/-- The four sources in the order of their codes. -/
def oscs : List Osc := [.xa, .xb, .ref, .syn]
/-- The four sources in the order in which verdicts and demand changes are taken: SYN before its input (R30; log 11). -/
def oscsSynFirst : List Osc := [.syn, .xa, .xb, .ref]

end Sys2Proof
end

