-- ==== Sys2Proof/Machine/State.lean ====
section
/-! DEFINITION. Machine/State.lean: everything the spec gives the CS58 to hold, as plain data, and the part right after
power-on. Derived facts (demand, wanted-ness, anchors, ALERT#, RDY, pin levels) are functions of it, in other files. -/

namespace Sys2Proof.Machine

/-! ### Clock sources (chapter 1) -/

/-- States of XA, XB, REF and SYN (section 1.2). -/
inductive OscState where
  | off | starting | verifying | running | suspect | faulted | quarantined | lockedOut
deriving DecidableEq, Repr

/-- States of RCO (section 1.7). -/
inductive RcoState where
  | unchecked | running | suspect | faulted
deriving DecidableEq, Repr

/-- Fault kinds (R1). -/
inductive FaultKind where
  | noStart | stopped | slow | fast | unstable | inputLost | disagree
deriving DecidableEq, Repr

/-- Timers of a source (R19). -/
inductive TimerKind where
  | start | lock | quarantine | rehabilitation
deriving DecidableEq, Repr

/-- A running timer and its due tick (R121). -/
structure SourceTimer where
  kind : TimerKind
  due : Tick
deriving DecidableEq, Repr

/-- What SYN may multiply (R2). -/
inductive SynInput where
  | xa | ref | rco
deriving DecidableEq, Repr

/-- Configuration of XA, XB, REF or SYN (R1, R2). SYN's nominal frequency is derived, and its field stays 0. -/
structure OscConfig where
  nominal : Nat
  startTimeout : Nat
  quarantine : Nat
  retryCount : Nat
  rehabilitation : Nat
  keep : Bool
deriving DecidableEq, Repr

/-- SYN's further configuration (R1). -/
structure SynConfig where
  input : SynInput
  m : Nat
  n : Nat
deriving DecidableEq, Repr

/-- Source record of XA, XB, REF or SYN (R1). `startFor`: the start timeout that holds since the last entry into STARTING
(R16; log 40). -/
structure OscRec where
  cfg : OscConfig
  state : OscState
  budget : Nat
  fault : Option FaultKind
  runningSince : Option Tick
  timer : Option SourceTimer
  startFor : Nat
deriving DecidableEq, Repr

/-- Source record of RCO: the fields it uses (R1). -/
structure RcoRec where
  state : RcoState
  fault : Option FaultKind
  runningSince : Option Tick
deriving DecidableEq, Repr

/-- The source controller's five records (R1). -/
structure Sources where
  rco : RcoRec
  osc : BankOsc OscRec
  syn : SynConfig
deriving DecidableEq, Repr

/-! ### Rate monitor (chapter 2) -/

/-- Results of a survey (R25). -/
inductive SurveyResult where
  | none | good | slow | fast | stopped
deriving DecidableEq, Repr

/-- What a capture did to the counters (R28). -/
inductive Disposition where
  | judged | excused | suspended
deriving DecidableEq, Repr

/-- Tolerance (for RCO the consensus threshold), K and F (R22). -/
structure JudgeSettings where
  band : Nat
  k : Nat
  f : Nat
deriving DecidableEq, Repr

/-- Monitor settings (R22). -/
structure MonitorSettings where
  period : Nat
  osc : BankOsc JudgeSettings
  rco : JudgeSettings
deriving DecidableEq, Repr

/-- What a capture recorded; the three fields are absent together (R22, R172). -/
structure Capture where
  count : Word
  survey : Word
  disposition : Disposition
deriving DecidableEq, Repr

/-- Monitor record of XA, XB, REF or SYN, with its edge counter (R22, R23). -/
structure OscMonitor where
  expected : Nat
  mark : Bool
  edges : Word
  good : Nat
  bad : Nat
  verify : Nat
  last : Option Capture
  lastResult : SurveyResult
deriving DecidableEq, Repr

/-- Monitor record of RCO (R22). -/
structure RcoMonitor where
  good : Nat
  bad : Nat
  lastResult : SurveyResult
  lastSurvey : Option Word
  witnesses : Nat
deriving DecidableEq, Repr

/-- The rate monitor. `surveyStart` is the tick in which the present survey began. -/
structure Monitor where
  settings : MonitorSettings
  osc : BankOsc OscMonitor
  rco : RcoMonitor
  surveyNumber : Word
  surveyStart : Tick
deriving DecidableEq, Repr

/-! ### Outputs (chapter 3) and their standing in a chain (chapter 4) -/

/-- A source with the divider it is used with: an entry, a target, a current source. -/
structure Use where
  src : Src
  div : Nat
deriving DecidableEq, Repr

/-- FIXED with its source and divider, or CHAIN with its chain (R39). -/
inductive OutMode where
  | fixed (use : Use)
  | chain (c : Fin 4)
deriving DecidableEq, Repr

inductive StopLevel where
  | low | float
deriving DecidableEq, Repr

/-- Output configuration record (R39). -/
structure OutConfig where
  enable : Bool
  mode : OutMode
  essential : Bool
  stop : StopLevel
  timeout : Nat
deriving DecidableEq, Repr

inductive Phase where
  | release | acquire
deriving DecidableEq, Repr

/-- Output states; the phase is present in SWITCHING (R41). -/
inductive OutState where
  | off | parked | waiting | running | switching (p : Phase) | dark
deriving DecidableEq, Repr

/-- Phase start, as its tick, and the timeout that holds for the phase (R41, R58; log 3). -/
structure PhaseClock where
  start : Tick
  timeout : Nat
deriving DecidableEq, Repr

/-- Position in a chain (R65). -/
inductive Position where
  | entry (i : Fin 4)
  | lastResort
  | dark
deriving DecidableEq, Repr

inductive ResultKind where
  | use | wait | dark
deriving DecidableEq, Repr

/-- A position with the kind of the result that gave it (R65). -/
structure Place where
  pos : Position
  kind : ResultKind
deriving DecidableEq, Repr

/-- Revert state, with its expiry in TIMING (R65). -/
inductive Revert where
  | none | timing (expiry : Tick) | held | due
deriving DecidableEq, Repr

/-- Reasons of FAILOVER (R75). -/
inductive FailReason where
  | fault | suspect | permission | stopped | refused | revert | restore | pinLost | chainSet | restart
deriving DecidableEq, Repr

/-- An output: configuration (R39), runtime record (R41) and standing in its chain (R65). `awaits`: the reason, come up in the release
phase, of the change of position that its end may make (R75; log 22). -/
structure OutRec where
  cfg : OutConfig
  state : OutState
  current : Option Use
  nextDiv : Option Nat
  target : Option Use
  pending : Option Use
  refused : List Src
  pin : Option (Fin 4)
  phase : Option PhaseClock
  place : Option Place
  revert : Revert
  awaits : Option FailReason
deriving DecidableEq, Repr

/-- Chain record (R63). -/
structure ChainRec where
  entries : List Use
  holdOff : Nat
  leaveOnSuspect : Bool
  warmStandby : Bool
  lastResort : Option Nat
deriving DecidableEq, Repr

/-- The part of the state that one event can move through source states, selection and demand. -/
structure Clocks where
  src : Sources
  mon : Monitor
  outs : Bank8 OutRec
deriving DecidableEq, Repr

/-! ### Claims (chapter 5) -/

inductive Claimant where
  | line (l : Fin 8)
  | soft (n : Byte)
deriving DecidableEq, Repr

inductive Level where
  | run | hold
deriving DecidableEq, Repr

/-- Claim record (R80). -/
structure Claim where
  claimant : Claimant
  output : Fin 8
  level : Level
  lease : Option Tick
  tag : Option Half
  created : Tick
deriving DecidableEq, Repr

structure MapPair where
  output : Fin 8
  level : Level
deriving DecidableEq, Repr

/-- Settings of a claim line (R91). -/
structure LineSettings where
  map : List MapPair
  activeHigh : Bool
  holdTime : Nat
deriving DecidableEq, Repr

/-- Claim line record; `hold` is the hold expiry while the hold state is RUNNING (R91). -/
structure LineRec where
  set : LineSettings
  pinHigh : Bool
  active : Bool
  hold : Option Tick
deriving DecidableEq, Repr

/-! ### Profiles (chapter 6) -/

inductive Policy where
  | run | onClaim | stop
deriving DecidableEq, Repr

/-- A subset of XA, XB, REF, SYN (R99). -/
abbrev SrcSet := BankOsc Bool

/-- Profile record; wake mask bits 0 to 7 are CLM0 to CLM7, bit 8 the WAKE pin (R99, R172). -/
structure ProfileRec where
  policy : Bank8 Policy
  permitted : SrcSet
  honour : SrcSet
  wakeMask : BitVec 9
  wakeProfile : Option (Fin 6)
deriving DecidableEq, Repr

/-- Profile stack: the active profile on top, the entries below it bottom first (R102). -/
structure Stack where
  below : List (Fin 6)
  top : Fin 6
deriving DecidableEq, Repr

/-- Settling record in SETTLING (R102). -/
structure Settling where
  profile : Fin 6
  since : Tick
  transitions : Nat
deriving DecidableEq, Repr

/-! ### Scheduled actions (chapter 7) -/

/-- Kinds of action with their operands (R124); `none` is ALL in RELEASE and AUTO in SELECT. -/
inductive ActionKind where
  | enter (p : Fin 6)
  | wake
  | resume
  | release (claimant : Byte) (output : Option (Fin 8))
  | select (output : Fin 8) (entry : Option (Fin 4))
  | remind (value : Half)
deriving DecidableEq, Repr

/-- Scheduled action (R124). -/
structure Action where
  number : Byte
  due : Tick
  period : Option Nat
  kind : ActionKind
deriving DecidableEq, Repr

/-! ### Start-up and the stored image (chapter 8) -/

/-- The configuration an image holds beside its start profile (R139). -/
structure BoardConfig where
  osc : BankOsc OscConfig
  syn : SynConfig
  monitor : MonitorSettings
  outs : Bank8 OutConfig
  chains : Bank4 ChainRec
  lines : Bank8 LineSettings
  profiles : Bank6 ProfileRec
  filter : Half
deriving DecidableEq, Repr

/-- The five fields of an image (R137). -/
structure StoredImage where
  format : Byte
  generation : Word
  startProfile : Fin 6
  body : BoardConfig
  crc : Word
deriving DecidableEq, Repr

/-- What a slot holds: nothing, what an erase or a write leaves before its end, or all fields of an image (R137, R142). -/
inductive SlotContents where
  | erased
  /-- No format code; some byte is not erased (log 23). -/
  | unfinished
  | written (img : StoredImage)
deriving DecidableEq, Repr

inductive SlotReason where
  | erased | format | crc | saving | check | abandoned
deriving DecidableEq, Repr

/-- Slot record (R137). -/
inductive SlotRecord where
  | valid (generation : Word) (startProfile : Fin 6)
  | invalid (reason : SlotReason)
deriving DecidableEq, Repr

inductive SavePhase where
  | erase | write | check
deriving DecidableEq, Repr

/-- A save in flight with its buffer (R141); slot `true` is B. -/
structure Save where
  phase : SavePhase
  slot : Bool
  generation : Word
  startProfile : Fin 6
  buffer : BoardConfig
deriving DecidableEq, Repr

inductive SaveOutcome where
  | saved | failed | abandoned
deriving DecidableEq, Repr

/-- Last-save record other than NONE (R142). -/
structure LastSave where
  outcome : SaveOutcome
  slot : Bool
  generation : Word
deriving DecidableEq, Repr

/-- The image store (R137, R142). -/
structure ImageStore where
  contents : Bank2 SlotContents
  records : Bank2 SlotRecord
  save : Option Save
  lastSave : Option LastSave
deriving DecidableEq, Repr

inductive StartState where
  | powerup | select | apply | live
deriving DecidableEq, Repr

inductive StartCause where
  | powerOn | pin | restart
deriving DecidableEq, Repr

/-- The slot applied, with its generation, or DEFAULT (R138). -/
inductive Chosen where
  | slot (b : Bool) (generation : Word)
  | builtIn
deriving DecidableEq, Repr

/-- Start record (R133). -/
structure StartRecord where
  cause : StartCause
  chosen : Chosen
deriving DecidableEq, Repr

/-- Start-up controller (R133, R134, R137). `warm`: the start in progress, or the last one, is a warm restart. -/
structure Startup where
  state : StartState
  warm : Bool
  released : Bool
  supplyFell : Bool
  chosen : Option Chosen
  abandoned : Option Bool
  record : StartRecord
deriving DecidableEq, Repr

/-! ### The host link (chapter 9) -/

inductive RxState where
  | hunt | header | body | check
deriving DecidableEq, Repr

/-- Receiver: state, bytes of the frame in progress in order of arrival, bytes still expected in the state, gap timer
running (section 9.2). -/
structure Rx where
  state : RxState
  bytes : List Byte
  expected : Nat
  gap : Bool
deriving DecidableEq, Repr

/-- Status codes (section 11.3). -/
inductive Status where
  | ok | accepted | unknownKind | badLength | badValue | noSuch | busy | full | conflict | duplicate | noClaim
  | stackBottom | notPermitted
deriving DecidableEq, Repr

/-- A request held behind a RESTART (R153; log 31). -/
structure Held where
  tag : Byte
  kind : Byte
deriving DecidableEq, Repr

/-- A reply formed and not yet begun on LTX; `restart` marks RESTART's own reply (R145, R153). -/
structure Reply where
  tag : Byte
  kind : Byte
  status : Status
  result : List Byte
  restart : Bool
deriving DecidableEq, Repr

/-- The frame on LTX, all its bytes from the sync byte to the CRC (R156). -/
structure TxFrame where
  bytes : List Byte
  isReply : Bool
  restart : Bool
deriving DecidableEq, Repr

/-- The link (R148 to R161). `restartTaken`: a RESTART has been taken and has not taken effect. -/
structure Link where
  rate : BitVec 2
  rx : Rx
  held : List Held
  queued : List Reply
  onLtx : Option TxFrame
  missed : Bool
  restartTaken : Bool
deriving DecidableEq, Repr

/-! ### Notices (chapter 10) -/

inductive NoticeKind where
  | started | lost | sourceState | outputState | failover | claimExpired | profileEntered | profileSettled | wake
  | actionDone | imageSaved | imageFailed
deriving DecidableEq, Repr

/-- Notice record (R162). -/
structure NoticeRec where
  number : Half
  kind : NoticeKind
  tick : Tick
  subject : Byte
  details : List Byte
  sent : Bool
deriving DecidableEq, Repr

/-- The notice queue (R162). -/
structure Notices where
  records : List NoticeRec
  next : Half
  lost : Nat
  filter : Half
deriving DecidableEq, Repr

/-! ### The whole part -/

structure State where
  clk : Clocks
  chains : Bank4 ChainRec
  claims : List Claim
  lines : Bank8 LineRec
  profiles : Bank6 ProfileRec
  stack : Stack
  settling : Option Settling
  tick : Tick
  actions : List Action
  startup : Startup
  image : ImageStore
  link : Link
  notices : Notices
  /-- The model's own: how many free values have been drawn (log 3, log 23). -/
  freeCount : Nat
  /-- Commands waiting, first in, first out. -/
  pending : List Instr
deriving DecidableEq, Repr

/-- No command stops the machine: the spec gives every one of them an effect in every state. -/
inductive Fault where
deriving DecidableEq, Repr

/-- Why a command has no meaning. -/
inductive Refusal where
  /-- The command has no meaning in the model yet. Raised by Machine/Dispatch.lean only. Safe: the machine stops. -/
  | notModelled (mnemonic : String)
deriving DecidableEq, Repr

/-! ### The built-in default configuration (R140) -/

/-- Default column of R2. -/
def defaultOscs : BankOsc OscConfig where
  xa := ⟨25000000, 5, 1000, 3, 60, false⟩
  xb := ⟨32768, 1000, 1000, 3, 60, false⟩
  ref := ⟨10000000, 10, 1000, 3, 60, false⟩
  syn := ⟨0, 2, 1000, 3, 60, false⟩

/-- Default column of R22. -/
def defaultMonitor : MonitorSettings where
  period := 10
  osc := ⟨⟨50, 3, 2⟩, ⟨50, 3, 2⟩, ⟨50, 3, 2⟩, ⟨50, 3, 2⟩⟩
  rco := ⟨40, 3, 2⟩

/-- Default column of R39; OUT0 alone is enabled and essential. -/
def defaultOut (first : Bool) : OutConfig := ⟨first, .fixed ⟨.rco, 1⟩, first, .low, 1000⟩

/-- Default column of R63. -/
def defaultChain : ChainRec := ⟨[⟨.osc .xa, 2⟩], 10, false, false, none⟩

/-- Default column of R99. -/
def defaultProfile : ProfileRec :=
  ⟨.fill .run, ⟨true, true, true, true⟩, ⟨false, false, false, false⟩, 0#9, none⟩

/-- The filter that holds every notice kind: the codes 1 to 12 (R140, R173; log 28). -/
def everyKind : Half := 0x1FFE#16

/-- The built-in default (R140); its start profile is P0. -/
def defaultConfig : BoardConfig where
  osc := defaultOscs
  syn := ⟨.xa, 1, 8⟩
  monitor := defaultMonitor
  outs := .ofFn fun i => defaultOut (i = 0)
  chains := .fill defaultChain
  lines := .fill ⟨[], true, 0⟩
  profiles := .fill defaultProfile
  filter := everyKind

/-! ### Records as a cold start leaves them -/

/-- R20. -/
def OscRec.cold (cfg : OscConfig) : OscRec := ⟨cfg, .off, cfg.retryCount, none, none, none, 0⟩
/-- R20. -/
def RcoRec.cold : RcoRec := ⟨.unchecked, none, none⟩
/-- R37. -/
def OscMonitor.cold : OscMonitor := ⟨0, false, 0#32, 0, 0, 0, none, .none⟩
/-- R37. -/
def RcoMonitor.cold : RcoMonitor := ⟨0, 0, .none, none, 0⟩
/-- R61: an output with no gate open, in the given state. -/
def OutRec.cold (cfg : OutConfig) (st : OutState) : OutRec :=
  ⟨cfg, st, none, none, none, none, [], none, none, none, .none, none⟩
/-- R97: a line before LIVE. -/
def LineRec.cold (set : LineSettings) : LineRec := ⟨set, false, false, none⟩

/-- Sources, monitor and outputs as a cold start sets them, with a configuration and a state for each output. -/
def Clocks.cold (c : BoardConfig) (outState : OutConfig → OutState) : Clocks where
  src := ⟨.cold, .ofFn fun o => .cold (c.osc.get o), c.syn⟩
  mon := ⟨c.monitor, .ofFn fun _ => .cold, .cold, 0#32, 0#32⟩
  outs := .ofFn fun i => .cold (c.outs.get i) (outState (c.outs.get i))

/-- HUNT with nothing received (R149, R161). -/
def Rx.hunting : Rx := ⟨.hunt, [], 0, false⟩
/-- The link at a cold start, at the given rate (R161). -/
def Link.cold (rate : BitVec 2) : Link := ⟨rate, .hunting, [], [], none, false, false⟩
/-- The notice queue at a cold start (R169). -/
def Notices.cold (filter : Half) : Notices := ⟨[], 1#16, 0, filter⟩

/-- The part right after power-on: in POWERUP (R134), both slots erased as at manufacture (R137), every block as a cold
start sets it. Where the spec states no value the built-in default stands until APPLY (log 7). -/
def State.reset : State where
  clk := .cold defaultConfig fun _ => .off
  chains := defaultConfig.chains
  claims := []
  lines := .ofFn fun i => .cold (defaultConfig.lines.get i)
  profiles := defaultConfig.profiles
  stack := ⟨[], 0⟩
  settling := none
  tick := 0#32
  actions := []
  startup := ⟨.powerup, false, false, true, none, none, ⟨.powerOn, .builtIn⟩⟩
  image := ⟨⟨.erased, .erased⟩, ⟨.invalid .erased, .invalid .erased⟩, none, none⟩
  link := .cold 0#2
  notices := .cold everyKind
  freeCount := 0
  pending := []

end Sys2Proof.Machine
end

