-- ==== Sys2Proof/Machine/Ops.lean ====
section
/-! DEFINITION. Machine/Ops.lean: the named operations every family uses: byte order, CRCs, due ticks, the notice queue,
the window and the transmitter. -/

namespace Sys2Proof.Machine

/-! ### Byte order and CRCs -/

/-- One byte of a value (R172). -/
def b1 (n : Nat) : List Byte := [BitVec.ofNat 8 n]
/-- Two bytes, high byte first (R172). -/
def b2 (h : Half) : List Byte := [h.extractLsb' 8 8, h.extractLsb' 0 8]
/-- Four bytes, high byte first (R172). -/
def b4 (w : Word) : List Byte := [w.extractLsb' 24 8, w.extractLsb' 16 8, w.extractLsb' 8 8, w.extractLsb' 0 8]
def n2 (n : Nat) : List Byte := b2 (BitVec.ofNat 16 n)
def n4 (n : Nat) : List Byte := b4 (BitVec.ofNat 32 n)
/-- A yes/no field (R172). -/
def flag (b : Bool) : Byte := if b then 1#8 else 0#8

/-- `f` applied `n` times. -/
def iter {α : Type} (f : α → α) : Nat → α → α
  | 0, x => x
  | n + 1, x => iter f n (f x)

/-- One bit of the CRC-16: generator 0x1021, most significant bit first (R171). -/
def crc16Bit (r : Half) : Half := if r.msb then (r <<< 1) ^^^ 0x1021#16 else r <<< 1
/-- One byte taken into the CRC-16 register (R171). -/
def crc16Byte (r : Half) (b : Byte) : Half := iter crc16Bit 8 (r ^^^ (b.setWidth 16 <<< 8))
/-- CRC-16 of the length, tag, kind and body bytes (R171). -/
def crc16 (bytes : List Byte) : Half := bytes.foldl crc16Byte 0xFFFF#16

/-- One bit of the CRC-32: polynomial 0x04C11DB7, reflected (R137). -/
def crc32Bit (r : Word) : Word := if r.getLsbD 0 then (r >>> 1) ^^^ 0xEDB88320#32 else r >>> 1
def crc32Byte (r : Word) (b : Byte) : Word := iter crc32Bit 8 (r ^^^ b.setWidth 32)
/-- CRC-32 with initial value 0xFFFFFFFF and a final inversion (R137). -/
def crc32 (bytes : List Byte) : Word := ~~~ (bytes.foldl crc32Byte 0xFFFFFFFF#32)

/-! ### Due ticks (R121) -/

/-- The due tick `u` is reached at the tick `n`: n - u, modulo 2^32, is below 2^31. -/
def reached (n u : Tick) : Bool := decide ((n - u).toNat < 2 ^ 31)
/-- The due tick of a timer of `d` ticks started at `t`. -/
def dueIn (t : Tick) (d : Nat) : Tick := t + BitVec.ofNat 32 d
/-- Ticks left until `u`, 0 when it is reached. -/
def ticksLeft (n u : Tick) : Tick := if reached n u then 0#32 else u - n

/-! ### When the blocks run -/

/-- The blocks run and time counts: LIVE, and SELECT and APPLY of a warm restart (R133, R146). -/
def Startup.running (u : Startup) : Bool :=
  match u.state with
  | .live => true
  | .select => u.warm
  | .apply => u.warm
  | .powerup => false

/-- The start-up state is LIVE. -/
def State.isLive (s : State) : Bool := decide (s.startup.state = .live)

/-! ### The notice queue (chapter 10) -/

/-- A notice as a block offers it: kind, subject and details. -/
structure Posting where
  kind : NoticeKind
  subject : Byte
  details : List Byte
deriving DecidableEq, Repr

/-- Kind codes (R173). -/
def NoticeKind.code : NoticeKind → Nat
  | .started => 1 | .lost => 2 | .sourceState => 3 | .outputState => 4 | .failover => 5 | .claimExpired => 6
  | .profileEntered => 7 | .profileSettled => 8 | .wake => 9 | .actionDone => 10 | .imageSaved => 11
  | .imageFailed => 12

/-- Step 1 of R163: STARTED and LOST always pass the filter. -/
def Notices.passes (q : Notices) (k : NoticeKind) : Bool :=
  match k with
  | .started => true
  | .lost => true
  | k => q.filter.getLsbD k.code

/-- The number after `n`: 1 after 65,535 (R163). -/
def nextNumber (n : Half) : Half := if n = 0xFFFF#16 then 1#16 else n + 1#16

/-- Step 3 of R163: the notice is added at the end. -/
def Notices.enter (q : Notices) (tick : Tick) (p : Posting) : Notices :=
  { q with records := q.records ++ [⟨q.next, p.kind, tick, p.subject, p.details, false⟩], next := nextNumber q.next }

/-- R163: filter, room, entry. -/
def Notices.post (q : Notices) (tick : Tick) (p : Posting) : Notices :=
  if !q.passes p.kind then q
  else if q.records.length ≥ Config.noticeRoom then { q with lost := min 255 (q.lost + 1) }
  else q.enter tick p

/-- R164: after records have left the queue, a lost count above 0 is posted as a LOST notice and cleared. -/
def Notices.testLost (q : Notices) (tick : Tick) : Notices :=
  if q.lost = 0 then q
  else { (q.post tick ⟨.lost, 0#8, b1 q.lost⟩) with lost := 0 }

/-- Every record marked unsent (R157, R167). -/
def Notices.unsend (q : Notices) : Notices :=
  { q with records := q.records.map fun r => { r with sent := false } }

/-- The records with the oldest unsent one marked sent, and that record, if there is one (R165). -/
def takeUnsent : List NoticeRec → Option (NoticeRec × List NoticeRec)
  | [] => none
  | r :: rs =>
    if r.sent then (takeUnsent rs).map fun (x, xs) => (x, r :: xs)
    else some (r, { r with sent := true } :: rs)

/-- A block posts a notice in the present tick. -/
def State.post (s : State) (p : Posting) : State := { s with notices := s.notices.post s.tick p }
/-- Notices posted in order. -/
def State.postAll (s : State) (ps : List Posting) : State := ps.foldl State.post s

/-! ### Frames, window and transmitter (chapter 9) -/

/-- The bytes of a frame (section 11.1, R171). -/
def frameBytes (tag kind : Byte) (body : List Byte) : List Byte :=
  let inner := BitVec.ofNat 8 body.length :: tag :: kind :: body
  Config.syncByte :: inner ++ b2 (crc16 inner)

/-- The body of a notice frame (R173). -/
def NoticeRec.body (r : NoticeRec) : List Byte :=
  b2 r.number ++ b1 r.kind.code ++ b4 r.tick ++ [r.subject] ++ r.details

/-- Status codes (section 11.3). -/
def Status.code : Status → Byte
  | .ok => 0x00#8 | .accepted => 0x01#8 | .unknownKind => 0x10#8 | .badLength => 0x11#8 | .badValue => 0x12#8
  | .noSuch => 0x13#8 | .busy => 0x14#8 | .full => 0x15#8 | .conflict => 0x16#8 | .duplicate => 0x17#8
  | .noClaim => 0x18#8 | .stackBottom => 0x19#8 | .notPermitted => 0x1A#8

/-- The link flags byte: bit 0 MISSED, bit 1 PENDING (R171). -/
def linkFlags (missed waiting : Bool) : Byte := flag missed ||| (flag waiting <<< 1)

/-- The window count: held requests, queued replies and the reply on LTX (R152). -/
def Link.windowCount (l : Link) : Nat :=
  l.held.length + l.queued.length + (match l.onLtx with | some f => if f.isReply then 1 else 0 | none => 0)

/-- PENDING: the notice queue holds at least one notice (R155). -/
def State.noticesWait (s : State) : Bool := !s.notices.records.isEmpty

/-- The transmitter begins a frame if it is idle in LIVE and has something to send: the oldest queued reply, else the
oldest unsent notice (R156). A reply takes the link flags as it begins, and MISSED is cleared (R155). -/
def State.transmit (s : State) : State :=
  if !s.isLive || s.link.onLtx.isSome then s
  else match s.link.queued with
  | r :: rs =>
    let body := r.status.code :: linkFlags s.link.missed s.noticesWait :: r.result
    { s with link := { s.link with
        queued := rs, missed := false, onLtx := some ⟨frameBytes r.tag r.kind body, true, r.restart⟩ } }
  | [] =>
    match takeUnsent s.notices.records with
    | none => s
    | some (r, rs) =>
      { s with
        link := { s.link with onLtx := some ⟨frameBytes 0#8 0x7E#8 r.body, false, false⟩ }
        notices := { s.notices with records := rs } }

/-- MISSED set (R155). -/
def State.setMissed (s : State) : State := { s with link := { s.link with missed := true } }

/-- A fresh free value's index, and the state with the counter advanced (log 3, log 23). -/
def State.drawFree (s : State) : Nat × State := (s.freeCount, { s with freeCount := s.freeCount + 1 })

/-! ### Requests: what a block answers -/

/-- A performed request: the state after its effects, the status and the result fields. -/
structure Done where
  state : State
  status : Status
  result : List Byte

/-- A refusal changes nothing and carries no result fields (R153). -/
def Done.refuse (s : State) (st : Status) : Done := ⟨s, st, []⟩
/-- OK with result fields. -/
def Done.ok (s : State) (result : List Byte) : Done := ⟨s, .ok, result⟩

end Sys2Proof.Machine
end

