-- ==== Sys2Proof/Machine/Operands.lean ====
section
/-! DEFINITION. Machine/Operands.lean: the codes of section 11.3 in both directions, and the request bodies of section 11.4
read from their bytes. -/

namespace Sys2Proof.Machine

/-! ### Codes (section 11.3) -/

def oscCode : Osc → Nat
  | .xa => 1 | .xb => 2 | .ref => 3 | .syn => 4
def srcCode : Src → Nat
  | .rco => 0 | .osc o => oscCode o
/-- A source code, if it names a source. -/
def srcOfCode (b : Byte) : Option Src :=
  match b.toNat with
  | 0 => some .rco | 1 => some (.osc .xa) | 2 => some (.osc .xb) | 3 => some (.osc .ref) | 4 => some (.osc .syn)
  | _ => none
def synInputSrc : SynInput → Src
  | .xa => .osc .xa | .ref => .osc .ref | .rco => .rco
/-- A SYN input is XA, REF or RCO (R2). -/
def synInputOfCode (b : Byte) : Option SynInput :=
  match b.toNat with
  | 0 => some .rco | 1 => some .xa | 3 => some .ref | _ => none
def oscStateCode : OscState → Nat
  | .off => 0 | .starting => 1 | .verifying => 2 | .running => 3 | .suspect => 4 | .faulted => 5 | .quarantined => 6
  | .lockedOut => 7
def rcoStateCode : RcoState → Nat
  | .running => 3 | .suspect => 4 | .faulted => 5 | .unchecked => 8
def faultCode : Option FaultKind → Nat
  | none => 0 | some .noStart => 1 | some .stopped => 2 | some .slow => 3 | some .fast => 4 | some .unstable => 5
  | some .inputLost => 6 | some .disagree => 7
def timerCode : Option SourceTimer → Nat
  | none => 0
  | some t => match t.kind with
    | .start => 1 | .lock => 2 | .quarantine => 3 | .rehabilitation => 4
def resultCode : SurveyResult → Nat
  | .none => 0 | .good => 1 | .slow => 2 | .fast => 3 | .stopped => 4
def dispositionCode : Disposition → Nat
  | .judged => 1 | .excused => 2 | .suspended => 3
/-- An output or line number, if it is one of 0 to 7. -/
def eightOfCode (b : Byte) : Option (Fin 8) := if h : b.toNat < 8 then some ⟨b.toNat, h⟩ else none
def chainOfCode (b : Byte) : Option (Fin 4) := if h : b.toNat < 4 then some ⟨b.toNat, h⟩ else none
def profileOfCode (b : Byte) : Option (Fin 6) := if h : b.toNat < 6 then some ⟨b.toNat, h⟩ else none
def stopCode : StopLevel → Nat
  | .low => 0 | .float => 1
def outStateCode : OutState → Nat
  | .off => 0 | .parked => 1 | .waiting => 2 | .running => 3 | .switching _ => 4 | .dark => 5
def phaseCode : OutState → Nat
  | .switching .release => 1 | .switching .acquire => 2 | _ => 0
def positionCode : Option Position → Nat
  | none => 0xFF | some .lastResort => 0xFE | some .dark => 0xFD | some (.entry i) => i.val
def kindCode : ResultKind → Nat
  | .use => 0 | .wait => 1 | .dark => 2
def revertCode : Revert → Nat
  | .none => 0 | .timing _ => 1 | .held => 2 | .due => 3
def claimantCode : Claimant → Half
  | .soft n => n.setWidth 16 | .line l => 0x0100#16 + BitVec.ofNat 16 l.val
def levelCode : Level → Nat
  | .run => 0 | .hold => 1
def levelOfCode (b : Byte) : Option Level :=
  match b.toNat with
  | 0 => some .run | 1 => some .hold | _ => none
def policyCode : Policy → Nat
  | .run => 0 | .onClaim => 1 | .stop => 2
def policyOfCode (b : Byte) : Option Policy :=
  match b.toNat with
  | 0 => some .run | 1 => some .onClaim | 2 => some .stop | _ => none
/-- A profile or NONE. -/
def profileCode : Option (Fin 6) → Nat
  | none => 0xFF | some p => p.val
/-- A yes/no field of a request (R172). -/
def yesNoOfCode (b : Byte) : Option Bool :=
  match b.toNat with
  | 0 => some false | 1 => some true | _ => none
def causeCode : StartCause → Nat
  | .powerOn => 1 | .pin => 2 | .restart => 3
def slotCode (b : Bool) : Nat := if b then 1 else 0
def chosenCode : Chosen → Nat
  | .slot b _ => slotCode b | .builtIn => 2
/-- Generation 0 is the absent generation (section 11.3). -/
def chosenGeneration : Chosen → Word
  | .slot _ g => g | .builtIn => 0#32
def slotReasonCode : SlotReason → Nat
  | .erased => 1 | .format => 2 | .crc => 3 | .saving => 4 | .check => 5 | .abandoned => 6
def savePhaseCode : SavePhase → Nat
  | .erase => 1 | .write => 2 | .check => 3
def saveOutcomeCode : SaveOutcome → Nat
  | .saved => 1 | .failed => 2 | .abandoned => 3
def actionKindCode : ActionKind → Nat
  | .enter _ => 1 | .wake => 2 | .resume => 3 | .release _ _ => 4 | .select _ _ => 5 | .remind _ => 6

/-- A set of sources: bit n for the source whose code is n (R172). -/
def srcSetCode (s : SrcSet) : Byte :=
  (flag s.xa <<< 1) ||| (flag s.xb <<< 2) ||| (flag s.ref <<< 3) ||| (flag s.syn <<< 4)
/-- A set of XA, XB, REF and SYN; any other bit, RCO's included, is no member (R110, R172). -/
def srcSetOfCode (b : Byte) : Option SrcSet :=
  if b &&& 0xE1#8 = 0#8 then some ⟨b.getLsbD 1, b.getLsbD 2, b.getLsbD 3, b.getLsbD 4⟩ else none
/-- A wake mask; a bit above 8 is no member (R172). -/
def wakeMaskOfCode (h : Half) : Option (BitVec 9) :=
  if h &&& 0xFE00#16 = 0#16 then some (h.setWidth 9) else none

/-- A claimant code: a line, a soft claimant 1 to 250, or neither (R84). -/
inductive ClaimantArg where
  | line | soft (n : Byte) | bad
deriving DecidableEq, Repr

def claimantOfCode (h : Half) : ClaimantArg :=
  if 0x0100 ≤ h.toNat ∧ h.toNat ≤ 0x0107 then .line
  else if 1 ≤ h.toNat ∧ h.toNat ≤ 250 then .soft (h.setWidth 8)
  else .bad

/-- An entry index 0 to 3, or AUTO; `none` is neither (R59). -/
def entryOfCode (b : Byte) : Option (Option (Fin 4)) :=
  if b = 0xFF#8 then some none else (chainOfCode b).map some

/-- All of a list's items present, in order. -/
def allSome {α β : Type} (f : α → Option β) : List α → Option (List β)
  | [] => some []
  | x :: xs => match f x, allSome f xs with
    | some y, some ys => some (y :: ys)
    | _, _ => none

/-! ### Request bodies -/

/-- A request with its body's fields, as the owner gets it. -/
inductive Request where
  | identify | echo (body : List Byte) | restart
  | sourceSet (r : SourceSetReq) | sourceQuery (s : Byte) | sourceKeep (s f : Byte) | sourceClear (s : Byte)
  | monitorSet (r : MonitorSetReq) | monitorQuery
  | outputSet (r : OutputSetReq) | outputQuery (o : Byte) | outputSelect (o e : Byte)
  | chainSet (r : ChainSetReq) | chainQuery (c : Byte)
  | claim (r : ClaimReq) | release (c : Half) (o : Byte) | releaseAll (c : Half) | claimList (f : Byte)
  | lineMapSet (r : LineMapReq) | lineQuery (l : Byte)
  | profileSet (r : ProfileSetReq) | profileQuery (p : Byte) | profileEnter (p : Byte) | resume
  | resumeTarget (p : Byte) | stackQuery
  | timeQuery | actionAdd (r : ActionAddReq) | actionCancel (n : Byte) | actionList (f : Byte)
  | noticeAck (n : Half) | noticeResend | noticeFilter (f : Half) | imageSave (p : Byte) | imageInfo
deriving DecidableEq, Repr

/-- What checks 2 and 3 of R153 make of a frame. -/
inductive Parsed where
  | unknownKind
  | badLength
  | request (r : Request)
deriving DecidableEq, Repr

/-- Two bytes, high first (R172). -/
def half (h l : Byte) : Half := h ++ l
/-- Four bytes, high first (R172). -/
def word (b3 b2 b1 b0 : Byte) : Word := b3 ++ b2 ++ b1 ++ b0

/-- The entries of CHAIN SET, three bytes each; the count byte must agree with the length (R153). -/
def readEntries : Nat → List Byte → Option (List RawEntry)
  | 0, [] => some []
  | n + 1, s :: h :: l :: rest => (readEntries n rest).map (⟨s, half h l⟩ :: ·)
  | _, _ => none

/-- The pairs of LINE MAP SET, two bytes each. -/
def readPairs : Nat → List Byte → Option (List RawPair)
  | 0, [] => some []
  | n + 1, o :: v :: rest => (readPairs n rest).map (⟨o, v⟩ :: ·)
  | _, _ => none

def Parsed.ofOption : Option Request → Parsed
  | some r => .request r
  | none => .badLength

/-- A body of no fields. -/
def noFields (r : Request) : List Byte → Parsed
  | [] => .request r
  | _ => .badLength
/-- A body of one byte. -/
def oneByte (r : Byte → Request) : List Byte → Parsed
  | [x] => .request (r x)
  | _ => .badLength
/-- A body of one two-byte field. -/
def oneHalf (r : Half → Request) : List Byte → Parsed
  | [h, l] => .request (r (half h l))
  | _ => .badLength

def parseSourceSet : List Byte → Parsed
  | [s, n3, n2, n1, n0, t1, t0, q1, q0, r, h1, h0, i, m, n] =>
    .request (.sourceSet ⟨s, word n3 n2 n1 n0, half t1 t0, half q1 q0, r, half h1 h0, i, m, n⟩)
  | _ => .badLength
def parseMonitorSet : List Byte → Parsed
  | [p1, p0, a0, a1, a2, b0, b1, b2, c0, c1, c2, d0, d1, d2, r0, r1, r2] =>
    .request (.monitorSet ⟨half p1 p0, ⟨⟨a0, a1, a2⟩, ⟨b0, b1, b2⟩, ⟨c0, c1, c2⟩, ⟨d0, d1, d2⟩⟩, ⟨r0, r1, r2⟩⟩)
  | _ => .badLength
def parseOutputSet : List Byte → Parsed
  | [o, e, m, s, d1, d0, ess, st, t1, t0] => .request (.outputSet ⟨o, e, m, s, half d1 d0, ess, st, half t1 t0⟩)
  | _ => .badLength
def parseChainSet : List Byte → Parsed
  | c :: h1 :: h0 :: l :: w :: r1 :: r0 :: n :: rest =>
    .ofOption ((readEntries n.toNat rest).map fun es => .chainSet ⟨c, half h1 h0, l, w, half r1 r0, es⟩)
  | _ => .badLength
def parseClaim : List Byte → Parsed
  | [c1, c0, o, v, l3, l2, l1, l0, t1, t0] => .request (.claim ⟨half c1 c0, o, v, word l3 l2 l1 l0, half t1 t0⟩)
  | _ => .badLength
def parseLineMapSet : List Byte → Parsed
  | l :: a :: h1 :: h0 :: n :: rest =>
    .ofOption ((readPairs n.toNat rest).map fun ps => .lineMapSet ⟨l, a, half h1 h0, ps⟩)
  | _ => .badLength
def parseProfileSet : List Byte → Parsed
  | [p, a0, a1, a2, a3, a4, a5, a6, a7, pm, hn, w1, w0, wp] =>
    .request (.profileSet ⟨p, ⟨a0, a1, a2, a3, a4, a5, a6, a7⟩, pm, hn, half w1 w0, wp⟩)
  | _ => .badLength
def parseActionAdd : List Byte → Parsed
  | [n, w, v3, v2, v1, v0, p3, p2, p1, p0, k, o0, o1, o2] =>
    .request (.actionAdd ⟨n, w, word v3 v2 v1 v0, word p3 p2 p1 p0, k, o0, o1, o2⟩)
  | _ => .badLength

/-- Checks 2 and 3 of R153: the kind names a request, and the length is one the kind permits (section 11.4). -/
def parseRequest (kind : Byte) (body : List Byte) : Parsed :=
  match kind.toNat with
  | 0x01 => noFields .identify body
  | 0x02 => if body.length ≤ 118 then .request (.echo body) else .badLength
  | 0x03 => noFields .restart body
  | 0x10 => parseSourceSet body
  | 0x11 => oneByte .sourceQuery body
  | 0x12 => match body with
    | [s, f] => .request (.sourceKeep s f)
    | _ => .badLength
  | 0x13 => oneByte .sourceClear body
  | 0x18 => parseMonitorSet body
  | 0x19 => noFields .monitorQuery body
  | 0x20 => parseOutputSet body
  | 0x21 => oneByte .outputQuery body
  | 0x22 => match body with
    | [o, e] => .request (.outputSelect o e)
    | _ => .badLength
  | 0x28 => parseChainSet body
  | 0x29 => oneByte .chainQuery body
  | 0x30 => parseClaim body
  | 0x31 => match body with
    | [c1, c0, o] => .request (.release (half c1 c0) o)
    | _ => .badLength
  | 0x32 => oneHalf .releaseAll body
  | 0x33 => oneByte .claimList body
  | 0x34 => parseLineMapSet body
  | 0x35 => oneByte .lineQuery body
  | 0x38 => parseProfileSet body
  | 0x39 => oneByte .profileQuery body
  | 0x3A => oneByte .profileEnter body
  | 0x3B => noFields .resume body
  | 0x3C => oneByte .resumeTarget body
  | 0x3D => noFields .stackQuery body
  | 0x40 => noFields .timeQuery body
  | 0x41 => parseActionAdd body
  | 0x42 => oneByte .actionCancel body
  | 0x43 => oneByte .actionList body
  | 0x48 => oneHalf .noticeAck body
  | 0x49 => noFields .noticeResend body
  | 0x4A => oneHalf .noticeFilter body
  | 0x50 => oneByte .imageSave body
  | 0x51 => noFields .imageInfo body
  | _ => .unknownKind

end Sys2Proof.Machine
end

