-- ==== Sys2Proof/Machine/Chains.lean ====
section
/-! DEFINITION. Machine/Chains.lean: what one event sees of claims, profile and chains; permission, eligibility and
selection (R45, R65 to R68, R73, R101), as functions of the source states and one output's record. -/

namespace Sys2Proof.Machine

/-- What began the event, where a reason depends on it (R55, R75). -/
inductive Cause where
  | ordinary
  /-- OUTPUT SET of this output. -/
  | outputSet (o : Fin 8)
  /-- OUTPUT SELECT on this output. -/
  | outputSelect (o : Fin 8)
  /-- CHAIN SET of this chain. -/
  | chainSet (c : Fin 4)
  /-- LIVE after a cold start. -/
  | live
  /-- LIVE after a warm restart; `kept`: the outputs that the old configuration wants with the claims R98 keeps; `before`: sources and
  outputs as the restart found them. -/
  | restart (kept : Bank8 Bool) (before : Clocks)
deriving DecidableEq, Repr

def Cause.isRestart : Cause → Bool
  | .restart _ _ => true
  | _ => false

/-- What an event sees beside sources and outputs: it does not change while the event runs its course. -/
structure Env where
  tick : Tick
  chains : Bank4 ChainRec
  profile : ProfileRec
  claims : List Claim
  cause : Cause
  /-- Each output's wanted-ness before the event (R44). -/
  wantedBefore : Bank8 Bool
  /-- The chain each CHAIN output was on before the event, as it stood then (R50, R75). -/
  chainBefore : Bank8 (Option (Fin 4 × ChainRec))

/-! ### Claimed, held, wanted, permitted -/

/-- At least one record names the output (R83). -/
def claimed (cs : List Claim) (o : Fin 8) : Bool := cs.any fun c => decide (c.output = o)
/-- At least one record names the output at level HOLD (R83). -/
def held (cs : List Claim) (o : Fin 8) : Bool := cs.any fun c => decide (c.output = o) && decide (c.level = .hold)

/-- R43: enabled, and the policy, a claim or the essential setting requires it to run. -/
def wanted (p : ProfileRec) (cs : List Claim) (o : Fin 8) (cfg : OutConfig) : Bool :=
  cfg.enable &&
    (match p.policy.get o with
     | .run => true
     | .onClaim => claimed cs o || cfg.essential
     | .stop => cfg.essential)

/-- R101: RCO, or a member of the permitted set. -/
def permitted (p : ProfileRec) : Src → Bool
  | .rco => true
  | .osc o => p.permitted.get o
/-- Membership in the honour set (R99). -/
def honoured (p : ProfileRec) : Src → Bool
  | .rco => false
  | .osc o => p.honour.get o

/-- The output's current source is `s` (R41). -/
def OutRec.runsFrom (r : OutRec) (s : Src) : Bool :=
  match r.current with
  | some u => decide (u.src = s)
  | none => false

/-- R101: permitted, or the output's current source, in the honour set, while the output is held. -/
def permittedOrKept (e : Env) (o : Fin 8) (r : OutRec) (s : Src) : Bool :=
  permitted e.profile s || (honoured e.profile s && r.runsFrom s && held e.claims o)

/-! ### Source states as outputs see them -/

/-- The source may feed a gate: RUNNING or SUSPECT, or RCO (R54). -/
def feeds (c : Sources) : Src → Bool
  | .rco => true
  | .osc o => match (c.osc.get o).state with
    | .running => true
    | .suspect => true
    | _ => false

/-- The source is OFF, STARTING or VERIFYING: it is coming up, or would on demand (R45, R67). -/
def comingUp (c : Sources) : Src → Bool
  | .rco => false
  | .osc o => match (c.osc.get o).state with
    | .off => true
    | .starting => true
    | .verifying => true
    | _ => false

/-- SYN's derived nominal frequency (R2). -/
def synNominal (c : Sources) : Nat :=
  (match c.syn.input with
   | .xa => c.osc.xa.cfg.nominal
   | .ref => c.osc.ref.cfg.nominal
   | .rco => Config.rcoNominal) * c.syn.n / c.syn.m

/-- A source's nominal frequency (R1, R2). -/
def nominal (c : Sources) : Src → Nat
  | .rco => Config.rcoNominal
  | .osc .syn => synNominal c
  | .osc o => (c.osc.get o).cfg.nominal

/-! ### Selection results -/

/-- R45, with the place in the chain for a CHAIN output. -/
inductive Pick where
  | use (u : Use) (pos : Option Position)
  | wait (u : Use) (pos : Option Position)
  | dark
deriving DecidableEq, Repr

/-- The source would give USE to a FIXED output (first row of R45). -/
def fixedUsable (e : Env) (c : Sources) (o : Fin 8) (r : OutRec) (s : Src) : Bool :=
  feeds c s && permittedOrKept e o r s && !r.refused.contains s

/-- The result of a FIXED output (R45). -/
def fixedSelect (e : Env) (c : Sources) (o : Fin 8) (r : OutRec) (u : Use) : Pick :=
  if fixedUsable e c o r u.src then .use u none
  else if comingUp c u.src && permitted e.profile u.src && !r.refused.contains u.src then .wait u none
  else .dark

/-! ### Chains -/

/-- The entries with their numbers (R63). -/
def ChainRec.numbered (ch : ChainRec) : List (Fin 4 × Use) := List.zip [0, 1, 2, 3] ch.entries
/-- The entry with index `i`, if the chain is that long. -/
def ChainRec.entry (ch : ChainRec) (i : Fin 4) : Option Use := ch.entries[i.val]?
/-- The index of the entry of source `s`. -/
def ChainRec.indexOf (ch : ChainRec) (s : Src) : Option (Fin 4) :=
  (ch.numbered.find? fun x => decide (x.2.src = s)).map (·.1)

/-- R66: state, permission, refusal. -/
def eligible (e : Env) (c : Sources) (o : Fin 8) (r : OutRec) (ch : ChainRec) (s : Src) : Bool :=
  (match s with
   | .rco => true
   | .osc x => match (c.osc.get x).state with
     | .running => true
     | .suspect => r.runsFrom s && !ch.leaveOnSuspect
     | _ => false)
  && permittedOrKept e o r s && !r.refused.contains s

/-- The last resort is usable: it has a divider, and RCO is not refused (R66). -/
def lastResortUsable (r : OutRec) (ch : ChainRec) : Bool :=
  ch.lastResort.isSome && !r.refused.contains .rco

/-- R67: permitted, not refused, and RCO or in OFF, STARTING, VERIFYING, RUNNING or SUSPECT. -/
def standbyCandidate (e : Env) (c : Sources) (r : OutRec) (s : Src) : Bool :=
  permitted e.profile s && !r.refused.contains s && (feeds c s || comingUp c s)

/-- R67: a standby candidate, not RCO, in OFF, STARTING or VERIFYING. -/
def startable (e : Env) (c : Sources) (r : OutRec) (s : Src) : Bool :=
  standbyCandidate e c r s && comingUp c s

/-- The place of a source the output runs from or moves to (R65). -/
def anchorOf (ch : ChainRec) (s : Src) : Option Position :=
  match ch.indexOf s with
  | some i => some (.entry i)
  | none => if decide (s = .rco) && ch.lastResort.isSome then some .lastResort else none

/-- The anchor (R65). -/
def anchor (r : OutRec) (ch : ChainRec) : Option Position :=
  match r.state with
  | .running => r.current.bind fun u => anchorOf ch u.src
  | .switching _ => r.target.bind fun u => anchorOf ch u.src
  | _ => none

/-- Some entry before `j` is eligible (R71). -/
def earlierEligible (e : Env) (c : Sources) (o : Fin 8) (r : OutRec) (ch : ChainRec) (j : Fin 4) : Bool :=
  ch.numbered.any fun x => decide (x.1 < j) && eligible e c o r ch x.2.src

/-- An earlier entry than the anchor entry is eligible; false when the anchor is the last resort or none (R71). -/
def betterPlaced (e : Env) (c : Sources) (o : Fin 8) (r : OutRec) (ch : ChainRec) : Bool :=
  match anchor r ch with
  | some (.entry j) => earlierEligible e c o r ch j
  | _ => false

/-- Step 2 of R68: the anchor entry that the revert state holds the output on. -/
def holdBack (e : Env) (c : Sources) (o : Fin 8) (r : OutRec) (ch : ChainRec) : Option (Fin 4 × Use) :=
  match anchor r ch with
  | some (.entry j) =>
    match ch.entry j with
    | some u =>
      if eligible e c o r ch u.src && earlierEligible e c o r ch j && decide (r.revert ≠ .due) then some (j, u) else none
    | none => none
  | _ => none

/-- The last resort as a use of RCO, if it is usable. -/
def lastResortUse (r : OutRec) (ch : ChainRec) : Option Use :=
  if lastResortUsable r ch then ch.lastResort.map fun d => ⟨.rco, d⟩ else none

/-- Step 4 of R68 applies: the anchor is the last resort. -/
def onLastResort (r : OutRec) (ch : ChainRec) : Bool := decide (anchor r ch = some .lastResort)

/-- Steps 2 to 7 of R68. -/
def chainSelect (e : Env) (c : Sources) (o : Fin 8) (r : OutRec) (ch : ChainRec) : Pick :=
  match holdBack e c o r ch with
  | some (j, u) => .use u (some (.entry j))
  | none =>
  match ch.numbered.find? fun x => eligible e c o r ch x.2.src with
  | some (i, u) => .use u (some (.entry i))
  | none =>
  match (if onLastResort r ch then lastResortUse r ch else none) with
  | some u => .use u (some .lastResort)
  | none =>
  match ch.numbered.find? fun x => startable e c r x.2.src with
  | some (i, u) => .wait u (some (.entry i))
  | none =>
  match lastResortUse r ch with
  | some u => .use u (some .lastResort)
  | none => .dark

/-- Step 1 of R68: the pinned entry's use, if the entry is eligible. -/
def pinnedUse (e : Env) (c : Sources) (o : Fin 8) (r : OutRec) (ch : ChainRec) (i : Fin 4) : Option Use :=
  match ch.entry i with
  | some u => if eligible e c o r ch u.src then some u else none
  | none => none

/-- What a selection gives: the record with a lost pin removed and a HELD revert whose last HOLD claim is gone made DUE
(R71, R74), whether a pin was lost, and the result. -/
structure Selected where
  out : OutRec
  pinLost : Bool
  pick : Pick

/-- R71: HELD enters DUE when the last HOLD claim is removed. -/
def releaseHeld (e : Env) (o : Fin 8) (r : OutRec) : OutRec :=
  if decide (r.revert = .held) && !held e.claims o then { r with revert := .due } else r

/-- Selection of one output (R45, R68). -/
def select (e : Env) (c : Sources) (o : Fin 8) (r : OutRec) : Selected :=
  match r.cfg.mode with
  | .fixed u => ⟨r, false, fixedSelect e c o r u⟩
  | .chain k =>
    let ch := e.chains.get k
    let r := releaseHeld e o r
    match r.pin with
    | none => ⟨r, false, chainSelect e c o r ch⟩
    | some i =>
      match pinnedUse e c o r ch i with
      | some u => ⟨r, false, .use u (some (.entry i))⟩
      | none => let r := { r with pin := none }; ⟨r, true, chainSelect e c o r ch⟩

/-- The standby entry of an output (R73). -/
def standbyEntry (e : Env) (c : Sources) (r : OutRec) : Option (Fin 4 × Use) :=
  match r.cfg.mode with
  | .fixed _ => none
  | .chain k =>
    let ch := e.chains.get k
    match anchor r ch with
    | some (.entry j) =>
      if ch.warmStandby then ch.numbered.find? fun x => decide (j < x.1) && standbyCandidate e c r x.2.src else none
    | some .lastResort => ch.numbered.find? fun x => standbyCandidate e c r x.2.src
    | _ => none

/-- The revert state after a selection has been acted on or taken note of (R71). -/
def nextRevert (e : Env) (c : Sources) (o : Fin 8) (r : OutRec) (ch : ChainRec) : Revert :=
  if r.pin.isSome || !betterPlaced e c o r ch then .none
  else match r.revert with
    | .none => if ch.holdOff = 0 then .none else .timing (dueIn e.tick (ch.holdOff * 1000))
    | v => v

end Sys2Proof.Machine
end

