-- ==== Sys2Proof/Machine/Outputs.lean ====
section
/-! DEFINITION. Machine/Outputs.lean: what one output does in one event: wanted-ness (R44), selection results (R46), release and
acquire (R47 to R51), the gate law (R54), and the notices of the output switch and the chain selector (R55, R75). -/

namespace Sys2Proof.Machine

/-- Reasons of OUTPUT STATE (R55). -/
inductive OutReason where
  | select | complete | forced | sourceLost | timeout | abandoned | unwanted | config | live
deriving DecidableEq, Repr

def outReasonCode : OutReason → Nat
  | .select => 1 | .complete => 2 | .forced => 3 | .sourceLost => 4 | .timeout => 5 | .abandoned => 6 | .unwanted => 7
  | .config => 8 | .live => 9

def failReasonCode : FailReason → Nat
  | .fault => 1 | .suspect => 2 | .permission => 3 | .stopped => 4 | .refused => 5 | .revert => 6 | .restore => 7
  | .pinLost => 8 | .chainSet => 9 | .restart => 10

/-- A notice of an output, before it is posted. -/
inductive OutNote where
  | failover (chain : Fin 4) (before : Option Place) (after : Option Position) (kind : ResultKind) (reason : FailReason)
  | state (before after : OutState) (current target : Option Use) (reason : OutReason)
deriving DecidableEq, Repr

/-! ### The gate -/

/-- The gate stands open: RUNNING, and the release phase until it ends (R42). -/
def OutRec.gateOpen (r : OutRec) : Bool :=
  match r.state with
  | .running => true
  | .switching .release => true
  | _ => false

/-- The gate stands open on a source that no longer feeds gates (R54). -/
def gateLost (c : Sources) (r : OutRec) : Bool :=
  r.gateOpen && (match r.current with
    | some u => !feeds c u.src
    | none => true)

/-- The gate closed: the target of a release still counts as the anchor of the selection that follows (R47, R65; log 41). -/
def OutRec.shut (r : OutRec) : OutRec := { r with current := none, nextDiv := none }

/-- The gate closed, with no switch in progress (R47, R48, R50). -/
def OutRec.closed (r : OutRec) : OutRec :=
  { r with current := none, nextDiv := none, target := none, pending := none, phase := none }

/-- PARKED, or OFF when disabled, with nothing of a switch or of a place in a chain left (R44, R65, R71). -/
def OutRec.rested (r : OutRec) : OutRec :=
  { r.closed with state := if r.cfg.enable then .parked else .off, place := none, revert := .none, awaits := none }

/-- A result acted on with a closed gate (R46). -/
def actClosed (e : Env) (r : OutRec) (p : Pick) : OutRec :=
  match p with
  | .use u _ => { r.closed with
      state := .switching .acquire, target := some u, phase := some ⟨e.tick, r.cfg.timeout⟩ }
  | .wait u _ => { r.closed with state := .waiting, target := some u }
  | .dark => { r.closed with state := .dark }

/-- A release phase begins (R47); a divider change not yet taken is dropped (R52). -/
def beginRelease (e : Env) (r : OutRec) (target : Option Use) : OutRec :=
  { r with
    state := .switching .release, target := target, pending := none, nextDiv := none
    phase := some ⟨e.tick, r.cfg.timeout⟩ }

/-- A result acted on by a RUNNING output (R46, R52). -/
def actRunning (e : Env) (r : OutRec) (p : Pick) : OutRec :=
  match p, r.current with
  | .use u _, some c =>
    if u.src = c.src then { r with nextDiv := if u.div = c.div then none else some u.div }
    else beginRelease e r (some u)
  | .use u _, none => beginRelease e r (some u)
  | .wait u _, _ => beginRelease e r (some u)
  | .dark, _ => beginRelease e r none

/-- A result acted on in the acquire phase, its target still usable (R46, R51). -/
def actAcquire (e : Env) (r : OutRec) (p : Pick) : OutRec :=
  match p, r.target with
  | .use u _, some t =>
    if u.src = t.src then { r with target := some u, pending := none } else { r with pending := some u }
  | p, _ => actClosed e r p

/-- The target of a release set from a fresh selection (R44). -/
def pickTarget : Pick → Option Use
  | .use u _ => some u
  | .wait u _ => some u
  | .dark => none

/-! ### Place in the chain and FAILOVER (R65, R75) -/

/-- The place a result puts a CHAIN output in; a FIXED output has none (R65). -/
def Pick.place : Pick → Option Place
  | .use _ (some p) => some ⟨p, .use⟩
  | .wait _ (some p) => some ⟨p, .wait⟩
  | .dark => some ⟨.dark, .dark⟩
  | _ => none

/-- The kind of a result (R65). -/
def Pick.kind : Pick → ResultKind
  | .use _ _ => .use
  | .wait _ _ => .wait
  | .dark => .dark

/-- The source of a position (R75). -/
def positionSource (ch : ChainRec) : Position → Option Src
  | .entry i => (ch.entry i).map (·.src)
  | .lastResort => some .rco
  | .dark => none

/-- `a` is an entry before `b`. -/
def earlierEntry (a b : Position) : Bool :=
  match a, b with
  | .entry i, .entry j => decide (i < j)
  | _, _ => false

/-- The reason that lies in the source `s` of the old position `old`, none where that is as good as it was (R75; log 22). `r` is the
record before the event closed any gate: a source that lost permission, its keeping by honour included, gives PERMISSION before
STOPPED. -/
def sourceReason (e : Env) (c : Sources) (o : Fin 8) (r : OutRec) (ch : ChainRec) (old : Place) (s : Src) : Option FailReason :=
  if r.refused.contains s then some .refused
  else match s with
  | .rco => none
  | .osc x =>
    match (c.osc.get x).state with
    | .faulted => some .fault
    | .quarantined => some .fault
    | .lockedOut => some .fault
    | st =>
      if !permittedOrKept e o r s then some .permission
      else match st with
      | .suspect => if r.runsFrom s && !ch.leaveOnSuspect then none else some .suspect
      | .running => none
      | _ => if decide (old.kind = .use) then some .stopped else none

/-- The same for the old position itself. -/
def positionReason (e : Env) (c : Sources) (o : Fin 8) (r : OutRec) (ch : ChainRec) (old : Place) : Option FailReason :=
  (positionSource ch old.pos).bind (sourceReason e c o r ch old)

/-- The source of the old position, in the chain as it stood before the event. -/
def sourceBefore (e : Env) (o : Fin 8) (old : Place) : Option Src :=
  (e.chainBefore.get o).bind fun x => positionSource x.2 old.pos

/-- The warm restart has stopped or restarted the source that the output had to use at its old position (R75, R79). -/
def stoppedByRestart (e : Env) (c : Sources) (o : Fin 8) (old : Place) : Bool :=
  match e.cause, sourceBefore e o old with
  | .restart _ before, some s => decide (old.kind = .use) && feeds before.src s && comingUp c s
  | _, _ => false

/-- The reason that the event itself gives a change of position: CHAIN SET of the chain, or a warm restart (R75, R76, R79). -/
def eventReason (e : Env) (c : Sources) (o : Fin 8) (k : Fin 4) (old : Place) : Option FailReason :=
  if decide (e.cause = .chainSet k) then some .chainSet
  else if e.cause.isRestart then some (if stoppedByRestart e c o old then .stopped else .restart)
  else none

/-- The reason given by the event itself, or awaited since before; an awaited lost pin goes before both (log 22). -/
def standingReason (e : Env) (c : Sources) (o : Fin 8) (r : OutRec) (k : Fin 4) (old : Place) : Option FailReason :=
  if r.awaits = some .pinLost then some .pinLost else (eventReason e c o k old).or r.awaits

/-- A reason that stands, where the source of the old position now gives `now`: the first reason stays, but a source that was SUSPECT
and then faults gives FAULT (log 22). -/
def FailReason.given (old : FailReason) (now : Option FailReason) : FailReason :=
  if old = .suspect ∧ now = some .fault then .fault else old

/-- The reason `old` that stands, if any, and else the reason `now` that lies in the source of the old position. -/
def awaited (old now : Option FailReason) : Option FailReason :=
  match old with
  | some w => some (w.given now)
  | none => now

/-- Why a CHAIN output's position changed, no pin being lost (R75; log 22). `r` is the record before the event closed any gate. A
revert is the reason only where the source of the old position gives none: DUE moves an output off an eligible anchor (R71). A change
whose cause the table of R75 does not list gives RESTORE: the model's choice, log 22. -/
def failReason (e : Env) (c : Sources) (o : Fin 8) (r : OutRec) (k : Fin 4) (old new : Place) : FailReason :=
  (awaited (standingReason e c o r k old) (positionReason e c o r (e.chains.get k) old)).getD
    (if decide (r.revert = .due) && earlierEntry new.pos old.pos then .revert else .restore)

/-- The FAILOVER notice of one selection, if it gives one (R75): a lost pin, whatever the position does (R74), or a change from
one position to another, but not one made by OUTPUT SET or OUTPUT SELECT of the output. A pin that stands is of an eligible entry,
and the change to its entry is OUTPUT SELECT's, also where the output takes it up in a later event (R59). `after` is the place of
the result, if it was acted on; where it was not, a lost pin's notice repeats the stored position beside the result's kind
(log 42). -/
def failoverNote (e : Env) (c : Sources) (o : Fin 8) (r : OutRec) (lost : Bool) (after : Option Place)
    (kind : ResultKind) : List OutNote :=
  match r.cfg.mode with
  | .fixed _ => []
  | .chain k =>
    if lost then [.failover k r.place ((after.or r.place).map Place.pos) kind .pinLost]
    else match r.place, after with
    | some a, some b =>
      if decide (a.pos = b.pos) || r.pin.isSome || decide (e.cause = .outputSet o) || decide (e.cause = .outputSelect o) then []
      else [.failover k (some a) (some b.pos) kind (failReason e c o r k a b)]
    | _, _ => []

/-- The record after a selection: the place its result gives, where it was acted on, and the revert state (R65, R69, R71). -/
def afterSelect (e : Env) (c : Sources) (o : Fin 8) (r : OutRec) (place : Option Place) : OutRec :=
  match r.cfg.mode with
  | .fixed _ => { r with place := none, revert := .none, awaits := none }
  | .chain k =>
    let r := { r with place := place, awaits := none }
    { r with revert := nextRevert e c o r (e.chains.get k) }

/-- A reason that lies in the source of the old position. -/
def FailReason.ofSource : FailReason → Bool
  | .fault => true
  | .suspect => true
  | .permission => true
  | .stopped => true
  | .refused => true
  | _ => false

/-- The result that selection would give without the pin that stands. -/
def unpinned (e : Env) (c : Sources) (o : Fin 8) (k : Fin 4) (sel : Selected) : Pick :=
  if sel.out.pin.isSome then chainSelect e c o { sel.out with revert := .none } (e.chains.get k) else sel.pick

/-- Neither the result nor, under a pin, the result that would come without it is at the position. -/
def movesAway (e : Env) (c : Sources) (o : Fin 8) (k : Fin 4) (sel : Selected) (a : Place) : Bool :=
  let leaves := fun p : Pick => match p.place with
    | some b => decide (a.pos ≠ b.pos)
    | none => false
  leaves sel.pick && leaves (unpinned e c o k sel)

/-- What a selection in the release phase leaves for its end (R75; log 22). A result away from the position leaves the reason of the
change to come: a lost pin, CHAIN SET, a warm restart, or what the source of the position has met with. A result at the position
leaves only the last, until the source is as good again. -/
def nextAwaits (e : Env) (c : Sources) (o : Fin 8) (r : OutRec) (sel : Selected) : Option FailReason :=
  match r.cfg.mode, r.place with
  | .chain k, some a =>
    let now := positionReason e c o r (e.chains.get k) a
    if movesAway e c o k sel a then
      awaited (if sel.pinLost then some .pinLost else standingReason e c o r k a) now
    else if now.isSome then awaited (r.awaits.filter FailReason.ofSource) now
    else none
  | _, _ => none

/-- What the release phase of an output that is not wanted keeps: no selection runs, but the source of the position may meet with
something (R75; log 22). -/
def idleAwaits (e : Env) (c : Sources) (o : Fin 8) (r : OutRec) : Option FailReason :=
  match r.cfg.mode, r.place with
  | .chain k, some a =>
    let now := positionReason e c o r (e.chains.get k) a
    if now.isSome then awaited r.awaits now else r.awaits.filter fun w => !w.ofSource
  | _, _ => none

/-- One OUTPUT STATE notice for a change of state or phase (R55); `again` marks an acquire that ends as another begins
(log 14). -/
def stateNote (before : OutState) (r : OutRec) (reason : OutReason) (again : Bool) : List OutNote :=
  if decide (before = r.state) && !again then [] else [.state before r.state r.current r.target reason]

/-- The output's record and its notices. -/
abbrev Moved := OutRec × List OutNote

/-! ### One output in one event -/

/-- Selection runs with the gate closed and its result is acted on. `was` is the record before the gate closed; `r` the
record with the gate closed (R46, R47, R50, R54). -/
def selectClosed (e : Env) (c : Sources) (o : Fin 8) (was r : OutRec) (reason : OutReason) (again : Bool) : Moved :=
  let sel := select e c o r
  let place := sel.pick.place
  let r' := afterSelect e c o (actClosed e sel.out sel.pick) place
  (r', failoverNote e c o { was with revert := sel.out.revert } sel.pinLost place sel.pick.kind
        ++ stateNote was.state r' reason (again && decide (r'.state = .switching .acquire)))

/-- The output comes to rest in PARKED or OFF (R44). -/
def rest (r : OutRec) (reason : OutReason) : Moved :=
  (r.rested, stateNote r.state r.rested reason false)

/-- Selection of a RUNNING output, acted on with the gate open (R46). -/
def selectRunning (e : Env) (c : Sources) (o : Fin 8) (r : OutRec) : Moved :=
  let sel := select e c o r
  let place := sel.pick.place
  let r' := afterSelect e c o (actRunning e sel.out sel.pick) place
  (r', failoverNote e c o { r with revert := sel.out.revert } sel.pinLost place sel.pick.kind
        ++ stateNote r.state r' .select false)

/-- Selection in the acquire phase, with the target still usable (R46). A WAIT or DARK abandons the acquire with reason ABANDONED, at a
warm restart too (R55, R62; log 21). -/
def selectAcquire (e : Env) (c : Sources) (o : Fin 8) (r : OutRec) : Moved :=
  let sel := select e c o r
  let place := sel.pick.place
  let r' := afterSelect e c o (actAcquire e sel.out sel.pick) place
  (r', failoverNote e c o { r with revert := sel.out.revert } sel.pinLost place sel.pick.kind
        ++ stateNote r.state r' .abandoned false)

/-- Selection in the release phase: the result is taken up at release end, a pin is tested, the revert state follows
(R46, R71, R74). -/
def selectRelease (e : Env) (c : Sources) (o : Fin 8) (r : OutRec) : Moved :=
  let sel := select e c o r
  ({ afterSelect e c o sel.out r.place with awaits := nextAwaits e c o r sel },
   failoverNote e c o r sel.pinLost none sel.pick.kind)

/-- The output is wanted again in the release phase: its target is set from a fresh selection, which counts as a result acted on
(R44, R65; log 43). -/
def retargetRelease (e : Env) (c : Sources) (o : Fin 8) (r : OutRec) : Moved :=
  let sel := select e c o r
  let place := sel.pick.place
  (afterSelect e c o { sel.out with target := pickTarget sel.pick } place,
   failoverNote e c o { r with revert := sel.out.revert, awaits := idleAwaits e c o r } sel.pinLost place sel.pick.kind)

/-- The release phase of an output that is not wanted goes on without a target (R44). -/
def idleRelease (e : Env) (c : Sources) (o : Fin 8) (r : OutRec) : OutRec :=
  { r with target := none, revert := .none, awaits := idleAwaits e c o r }

/-- The event has taken the source out of the output's chain: its entry is gone, and it is not the last resort (R50, R65). An
OUTPUT SET that puts the output on another chain does not do that (R58). -/
def removedFromChain (e : Env) (o : Fin 8) (k : Fin 4) (s : Src) : Bool :=
  match e.chainBefore.get o with
  | some (j, old) => decide (j = k) && (anchorOf old s).isSome && (anchorOf (e.chains.get k) s).isNone
  | none => false

/-- The target of an acquire is still usable for the output (R50; log 38). -/
def targetUsable (e : Env) (c : Sources) (o : Fin 8) (r : OutRec) : Bool :=
  match r.target with
  | none => false
  | some t => match r.cfg.mode with
    | .fixed _ => fixedUsable e c o r t.src
    | .chain k => eligible e c o r (e.chains.get k) t.src && !removedFromChain e o k t.src

/-- The reason of leaving OFF: OUTPUT SET, LIVE, or a configuration a warm restart brings (R55, R62). -/
def enableReason (e : Env) : OutReason :=
  match e.cause with
  | .live => .live
  | .restart _ _ => .select
  | _ => .config

/-- The reason of leaving PARKED when wanted (R55). -/
def wantReason (e : Env) : OutReason :=
  match e.cause with
  | .live => .live
  | _ => .select

/-- The reason of ceasing to run: disabled, or no longer wanted (R44, R55); SELECT where the configuration a warm restart
brings takes the wanted-ness away (R62; log 21). -/
def stopReason (e : Env) (o : Fin 8) (r : OutRec) : OutReason :=
  if !r.cfg.enable then enableReason e
  else match e.cause with
  | .restart kept _ => if kept.get o then .select else .unwanted
  | _ => .unwanted

/-- An output evaluated in an event: the gate law first (R54), then wanted-ness (R44), then selection (R46). An acquire whose target
is no longer usable is ABANDONED, at a warm restart too (R50, R55, R62; log 21). -/
def evalOut (e : Env) (c : Sources) (o : Fin 8) (r : OutRec) : Moved :=
  let w := wanted e.profile e.claims o r.cfg
  if gateLost c r then
    if w then selectClosed e c o r r.shut .sourceLost false else rest r .sourceLost
  else match r.state with
  | .off => if !r.cfg.enable then (r, []) else if w then selectClosed e c o r r (enableReason e) false
      else rest r (enableReason e)
  | .parked => if w then selectClosed e c o r r (wantReason e) false
      else if r.cfg.enable then (r, []) else rest r (stopReason e o r)
  | .waiting => if w then selectClosed e c o r r .select false else rest r (stopReason e o r)
  | .dark => if w then selectClosed e c o r r .select false else rest r (stopReason e o r)
  | .running =>
    if w then selectRunning e c o r
    else let r' := idleRelease e c o (beginRelease e r none)
      (r', stateNote r.state r' (stopReason e o r) false)
  | .switching .release =>
    if !w then (idleRelease e c o r, [])
    else if e.wantedBefore.get o then selectRelease e c o r
    else retargetRelease e c o r
  | .switching .acquire =>
    if !w then rest r (stopReason e o r)
    else if targetUsable e c o r then selectAcquire e c o r
    else selectClosed e c o r r.closed .abandoned true

/-! ### The output's own events -/

/-- A release ends: the gate is closed, and the output takes up its target (R47, R48; logs 13, 41). -/
def endRelease (e : Env) (c : Sources) (o : Fin 8) (r : OutRec) (reason : OutReason) : Moved :=
  if wanted e.profile e.claims o r.cfg then selectClosed e c o r r.shut reason false else rest r reason

/-- The gate opens on the target (R49). -/
def openGate (r : OutRec) : OutRec :=
  { r with state := .running, current := r.target, nextDiv := none, target := none, pending := none, phase := none }

/-- An acquire times out: its target is refused, and selection runs with the gate closed (R50, R53). -/
def refuseTarget (r : OutRec) : OutRec :=
  match r.target with
  | some t => { r with refused := if r.refused.contains t.src then r.refused else r.refused ++ [t.src] }
  | none => r

end Sys2Proof.Machine
end

