-- ==== Sys2Proof/Machine/Engine.lean ====
section
/-! DEFINITION. Machine/Engine.lean: one event running its course through sources and outputs: the hand-over of source states
to the outputs (R8, R9, R54, R69), demand (R3, R4), the lock timer (R6), the loss of SYN's input (R7), and the notices the event
posts, in their order (R9, R14, R55, R75; log 9). -/

namespace Sys2Proof.Machine

/-- An event in progress: sources, monitor and outputs as they stand, and the notices it has caused so far. -/
structure Ev where
  clk : Clocks
  outNotes : List (Fin 8 × OutNote)
  srcNotes : List Posting
deriving DecidableEq

/-! ### Notices of outputs -/

/-- Two OUTPUT STATE notices of one output that make one: a release that begins and ends in the event, or an acquire that
begins and is abandoned in it (R55; log 14). -/
def mergeNotes (a b : OutNote) : Option OutNote :=
  match a, b with
  | .state before mid _ _ why, .state mid' after cur tgt why' =>
    if decide (mid = mid') && (decide (mid = .switching .release)
        || (decide (mid = .switching .acquire) && decide (after ≠ .running)))
    then some (.state before after cur tgt (if why = .sourceLost then why else why')) else none
  | _, _ => none

/-- The notices with `n` of output `o` added: merged with the output's last OUTPUT STATE notice of the event where R55 makes
one notice of the two, at the end otherwise. -/
def addNote (o : Fin 8) (n : OutNote) : List (Fin 8 × OutNote) → List (Fin 8 × OutNote)
  | [] => [(o, n)]
  | (p, m) :: rest =>
    match (if p = o then mergeNotes m n else none) with
    | some k => rest ++ [(o, k)]
    | none => (p, m) :: addNote o n rest

def addNotes (o : Fin 8) (ns : List OutNote) (acc : List (Fin 8 × OutNote)) : List (Fin 8 × OutNote) :=
  ns.foldl (fun acc n => addNote o n acc) acc

/-- A use in a notice: source and divider, 0xFF and 0 when absent (R173). -/
def noticeUse : Option Use → List Byte
  | some u => b1 (srcCode u.src) ++ n2 u.div
  | none => b1 0xFF ++ n2 0

/-- A notice of an output, laid out (R173). -/
def OutNote.posting (o : Fin 8) : OutNote → Posting
  | .failover k before after kind why => ⟨.failover, BitVec.ofNat 8 o.val,
      b1 k.val ++ b1 (positionCode (before.map Place.pos)) ++ b1 (positionCode after) ++ b1 (kindCode kind) ++ b1 (failReasonCode why)⟩
  | .state before after cur tgt why => ⟨.outputState, BitVec.ofNat 8 o.val,
      b1 (outStateCode before) ++ b1 (phaseCode before) ++ b1 (outStateCode after) ++ b1 (phaseCode after)
      ++ noticeUse cur ++ noticeUse tgt ++ b1 (outReasonCode why)⟩

/-- The output uses the source in the sense of R3 (a), before the filter of the profile. -/
def OutRec.uses (r : OutRec) (s : Src) : Bool :=
  let targets := match r.target with
    | some u => decide (u.src = s)
    | none => false
  match r.state with
  | .running => r.runsFrom s
  | .waiting => targets
  | .switching .acquire => targets
  | .switching .release => r.runsFrom s || targets
  | _ => false

/-- R3 (a) for one output, with its filter. -/
def usedBy (e : Env) (o : Fin 8) (r : OutRec) (s : Src) : Bool := r.uses s && permittedOrKept e o r s

/-- The output, as the warm restart found it, demands the source of the old position under the new profile: the source would have stayed
for it. -/
def keptForOutput (e : Env) (o : Fin 8) (old : Place) : Bool :=
  match e.cause, sourceBefore e o old with
  | .restart _ before, some s => usedBy e o (before.outs.get o) s
  | _, _ => false

/-- A notice as the end of the event's course has it: where a warm restart stops the source of the old position only after the
output has left it, and the output's own leaving is not why, the reason is STOPPED all the same (R79; log 22). -/
def OutNote.settled (e : Env) (c : Sources) (o : Fin 8) : OutNote → OutNote
  | .failover k (some a) after kind .restart =>
    .failover k (some a) after kind (if stoppedByRestart e c o a && !keptForOutput e o a then .stopped else .restart)
  | n => n

/-- The event's notices in their order: those of the outputs by output number, then those of the sources (R9, R55, R75). -/
def Ev.postings (e : Env) (v : Ev) : List Posting :=
  (eight.flatMap fun o => (v.outNotes.filter fun x => decide (x.1 = o)).map fun x => (x.2.settled e v.clk.src o).posting o)
    ++ v.srcNotes

/-! ### Writing one output or one source -/

/-- One output replaced, with its notices. -/
def Ev.putOut (v : Ev) (o : Fin 8) (m : Moved) : Ev :=
  { v with clk := { v.clk with outs := v.clk.outs.set o m.1 }, outNotes := addNotes o m.2 v.outNotes }

def Ev.osc (v : Ev) (o : Osc) : OscRec := v.clk.src.osc.get o

def Ev.putOsc (v : Ev) (o : Osc) (r : OscRec) : Ev :=
  { v with clk := { v.clk with src := { v.clk.src with osc := v.clk.src.osc.set o r } } }

def Ev.putMon (v : Ev) (o : Osc) (m : OscMonitor) : Ev :=
  { v with clk := { v.clk with mon := { v.clk.mon with osc := v.clk.mon.osc.set o m } } }

/-- One SOURCE STATE notice (R14, R173). -/
def sourceNote (code before after budget : Nat) (fault : Option FaultKind) : Posting :=
  ⟨.sourceState, BitVec.ofNat 8 code, b1 before ++ b1 after ++ b1 budget ++ b1 (faultCode fault)⟩

/-- A change of state of XA, XB, REF or SYN: the record is written and its notice posted (R14). -/
def Ev.changeOsc (v : Ev) (o : Osc) (r : OscRec) : Ev :=
  { v.putOsc o r with srcNotes := v.srcNotes ++
      [sourceNote (oscCode o) (oscStateCode (v.osc o).state) (oscStateCode r.state) r.budget
        (if r.state = .faulted then r.fault else none)] }

/-- R32: counts cleared and the whole-survey mark cleared, on entry into STARTING or OFF. -/
def OscMonitor.cleared (m : OscMonitor) : OscMonitor := { m with mark := false, good := 0, bad := 0, verify := 0 }
/-- R32: entry into FAULTED or QUARANTINED clears the mark and leaves the counts. -/
def OscMonitor.unmarked (m : OscMonitor) : OscMonitor := { m with mark := false }

def Ev.clearCounts (v : Ev) (o : Osc) : Ev := v.putMon o (v.clk.mon.osc.get o).cleared

/-! ### Entries into source states -/

/-- The record of a source that enters STARTING: XA, XB and REF start the start timer (R5); SYN waits for its input (R6). -/
def OscRec.started (r : OscRec) (o : Osc) (tick : Tick) : OscRec :=
  { r with
    state := .starting, runningSince := none, startFor := r.cfg.startTimeout
    timer := if o = .syn then none else some ⟨.start, dueIn tick r.cfg.startTimeout⟩ }
/-- The record of a source stopped and OFF (R4). -/
def OscRec.stopped (r : OscRec) : OscRec := { r with state := .off, runningSince := none, timer := none }
/-- The record of a source that enters RUNNING: the rehabilitation timer starts (R8, R12). -/
def OscRec.ran (r : OscRec) (tick : Tick) : OscRec :=
  { r with
    state := .running, runningSince := some tick
    timer := some ⟨.rehabilitation, dueIn tick (r.cfg.rehabilitation * 1000)⟩ }
/-- The record of a source that enters FAULTED (R9). -/
def OscRec.faultedWith (r : OscRec) (k : FaultKind) : OscRec :=
  { r with state := .faulted, fault := some k, runningSince := none, timer := none }
/-- The record of a source that enters QUARANTINED (R9). -/
def OscRec.quarantinedAt (r : OscRec) (tick : Tick) : OscRec :=
  { r with state := .quarantined, timer := some ⟨.quarantine, dueIn tick r.cfg.quarantine⟩ }

def enterStarting (e : Env) (o : Osc) (v : Ev) : Ev := (v.changeOsc o ((v.osc o).started o e.tick)).clearCounts o
def enterOff (o : Osc) (v : Ev) : Ev := (v.changeOsc o (v.osc o).stopped).clearCounts o
def enterVerifying (o : Osc) (v : Ev) : Ev := v.changeOsc o { v.osc o with state := .verifying, timer := none }
def enterSuspect (o : Osc) (v : Ev) : Ev :=
  v.changeOsc o { v.osc o with state := .suspect, runningSince := none, timer := none }
def enterLockedOut (o : Osc) (v : Ev) : Ev := v.changeOsc o { v.osc o with state := .lockedOut, timer := none }

/-- R53: the source leaves every refused set. -/
def unrefuse (s : Src) (outs : Bank8 OutRec) : Bank8 OutRec :=
  outs.map fun r => { r with refused := r.refused.filter fun x => decide (x ≠ s) }

def Ev.unrefuse (v : Ev) (s : Src) : Ev :=
  { v with clk := { v.clk with outs := Machine.unrefuse s v.clk.outs } }

def enterRunning (e : Env) (o : Osc) (v : Ev) : Ev :=
  (v.changeOsc o ((v.osc o).ran e.tick)).unrefuse (.osc o)

/-! ### The outputs take the source states as they stand -/

/-- One output evaluated and replaced. -/
def Ev.evalOne (e : Env) (v : Ev) (o : Fin 8) : Ev :=
  v.putOut o (evalOut e v.clk.src o (v.clk.outs.get o))

/-- Every output evaluated, OUT0 first. -/
def outputsPass (e : Env) (v : Ev) : Ev := eight.foldl (Ev.evalOne e) v

/-! ### Faults (R7, R9) -/

/-- SYN in a state in which it loses with its input (R7). -/
def synDepends (c : Sources) : Bool :=
  match c.osc.syn.state with
  | .starting => true
  | .verifying => true
  | .running => true
  | .suspect => true
  | _ => false

/-- SYN with its fault kind, if the source is SYN's input and SYN is in one of the four states (R7). -/
def inputLost (c : Sources) (s : Src) : List (Osc × FaultKind) :=
  if decide (synInputSrc c.syn.input = s) && synDepends c then [(.syn, .inputLost)] else []

/-- Steps 1 and 2 of R9: kind recorded, source stopped, in FAULTED. -/
def markFaulted (v : Ev) (f : Osc × FaultKind) : Ev :=
  let v := v.putOsc f.1 ((v.osc f.1).faultedWith f.2)
  v.putMon f.1 (v.clk.mon.osc.get f.1).unmarked

/-- Steps 4 and 5 of R9: the notices into FAULTED and QUARANTINED, and the quarantine timer. -/
def quarantine (e : Env) (before : Sources) (v : Ev) (f : Osc × FaultKind) : Ev :=
  let r := v.osc f.1
  let v := { v with srcNotes := v.srcNotes ++
    [sourceNote (oscCode f.1) (oscStateCode (before.osc.get f.1).state) (oscStateCode .faulted) r.budget (some f.2)] }
  v.changeOsc f.1 (r.quarantinedAt e.tick)

/-- R9 for the sources that fault together: FAULTED, then the hand-over to the outputs, then notices and QUARANTINED. -/
def faultAll (e : Env) (fs : List (Osc × FaultKind)) (v : Ev) : Ev :=
  if fs.isEmpty then v
  else fs.foldl (quarantine e v.clk.src) (outputsPass e (fs.foldl markFaulted v))

/-- A source other than RCO faults, and SYN with it if it is SYN's input (R7, R9; log 10). -/
def fault (e : Env) (o : Osc) (k : FaultKind) (v : Ev) : Ev :=
  faultAll e ((o, k) :: inputLost v.clk.src (.osc o)) v

/-- A SYN that depends on the source faults (R7). -/
def loseInput (e : Env) (s : Src) (v : Ev) : Ev := faultAll e (inputLost v.clk.src s) v

/-! ### Demand (R3, R4) -/

/-- R3 (a) with its filter. -/
def usedByOutput (e : Env) (outs : Bank8 OutRec) (s : Src) : Bool :=
  eight.any fun o => usedBy e o (outs.get o) s

/-- R3 (b): the source is some output's standby entry. -/
def usedAsStandby (e : Env) (k : Clocks) (s : Src) : Bool :=
  eight.any fun o => match standbyEntry e k.src (k.outs.get o) with
    | some (_, u) => decide (u.src = s)
    | none => false

/-- R3 without (c). -/
def demandedDirectly (e : Env) (k : Clocks) (o : Osc) : Bool :=
  (k.src.osc.get o).cfg.keep || usedByOutput e k.outs (.osc o) || usedAsStandby e k (.osc o)

/-- R3. SYN is never its own input. -/
def demanded (e : Env) (k : Clocks) (o : Osc) : Bool :=
  demandedDirectly e k o
  || (decide (o ≠ .syn) && decide (synInputSrc k.src.syn.input = .osc o) && demandedDirectly e k .syn)

/-- A running source that nothing demands: R4 stops it. -/
def mustStop (want : Bool) (st : OscState) : Bool :=
  !want && (match st with
    | .starting => true
    | .verifying => true
    | .running => true
    | .suspect => true
    | _ => false)

/-- R4 for one source, its demand given. -/
def applyDemand (e : Env) (want : BankOsc Bool) (v : Ev) (o : Osc) : Ev :=
  if want.get o && decide ((v.osc o).state = .off) then enterStarting e o v
  else if mustStop (want.get o) (v.osc o).state then enterOff o v
  else v

/-- Demand of every source at once (R69). -/
def demands (e : Env) (k : Clocks) : BankOsc Bool := .ofFn fun o => demanded e k o

/-- R6: the lock timer starts when SYN is in STARTING and its input is RUNNING or SUSPECT, or is RCO. It runs for the start
timeout in force at the entry into STARTING (R16; log 40). -/
def lockCheck (e : Env) (v : Ev) : Ev :=
  let r := v.osc .syn
  if decide (r.state = .starting) && r.timer.isNone && feeds v.clk.src (synInputSrc v.clk.src.syn.input) then
    v.putOsc .syn { r with timer := some ⟨.lock, dueIn e.tick r.startFor⟩ }
  else v

/-- Demand evaluated and acted on, SYN before its input. -/
def demandPass (e : Env) (v : Ev) : Ev := lockCheck e (oscsSynFirst.foldl (applyDemand e (demands e v.clk)) v)

/-- Some source is to be stopped. -/
def someStop (e : Env) (v : Ev) : Bool :=
  oscs.any fun o => mustStop ((demands e v.clk).get o) (v.osc o).state

/-- Outputs and demand in turn, until a round stops no source (log 30). It ends with the outputs having taken every source
state. -/
def settleRounds (e : Env) : Nat → Ev → Ev
  | 0, v => outputsPass e v
  | n + 1, v =>
    let v := outputsPass e v
    if someStop e v then settleRounds e n (demandPass e v) else demandPass e v

/-- The event runs its course. -/
def settle (e : Env) (v : Ev) : Ev := settleRounds e 8 v

/-! ### An event over the whole state -/

/-- The active profile's record (R102). -/
def State.active (s : State) : ProfileRec := s.profiles.get s.stack.top

/-- The output is wanted (R43). -/
def State.wants (s : State) (o : Fin 8) : Bool := wanted s.active s.claims o (s.clk.outs.get o).cfg

/-- What an event sees: claims, profile and chains after its own change `s`, wanted-ness before it `s0`. -/
def envOf (cause : Cause) (s0 s : State) : Env where
  tick := s.tick
  chains := s.chains
  profile := s.active
  claims := s.claims
  cause := cause
  wantedBefore := .ofFn s0.wants
  chainBefore := s0.clk.outs.map fun r => match r.cfg.mode with
    | .fixed _ => none
    | .chain k => some (k, s0.chains.get k)

/-- An event: `f` on sources and outputs, then the course it takes, then its notices. `s0` is the state before the event,
`s` the state after the event's own change of configuration, claims or profile. -/
def runEvent (cause : Cause) (s0 s : State) (f : Env → Ev → Ev) : State :=
  let e := envOf cause s0 s
  let v := settle e (f e ⟨s.clk, [], []⟩)
  { s with clk := v.clk }.postAll (v.postings e)

/-- Outputs, chains and sources evaluate a change of configuration, claims or profile (R83, R113). -/
def reevaluate (cause : Cause) (s0 s : State) : State := runEvent cause s0 s fun _ v => v

end Sys2Proof.Machine
end

