-- ==== Sys2Proof/Machine/Flags.lean ====
section
/-! DEFINITION. Machine/Flags.lean: what the pins show (R40, R42, R56, R152, R156) and the facts and counts the part derives
(R24, R82, R114), as functions of the state. -/

namespace Sys2Proof.Machine

/-! ### ALERT#, RDY and LTX -/

/-- An output is DARK, a source is FAULTED, QUARANTINED or LOCKED_OUT, or RCO is FAULTED (R56). -/
def alertCondition (k : Clocks) : Bool :=
  (k.outs.toList.any fun r => decide (r.state = .dark))
  || (k.src.osc.toList.any fun r => match r.state with
      | .faulted => true
      | .quarantined => true
      | .lockedOut => true
      | _ => false)
  || decide (k.src.rco.state = .faulted)

/-- ALERT# is driven low: released in POWERUP and SELECT, following its conditions in APPLY and LIVE (R56, R133; log 20). -/
def State.alertLow (s : State) : Bool :=
  match s.startup.state with
  | .powerup => false
  | .select => false
  | .apply => alertCondition s.clk
  | .live => alertCondition s.clk

/-- RDY is high while LIVE and the window count is below 4 (R152). -/
def State.rdy (s : State) : Bool := s.isLive && decide (s.link.windowCount < Config.windowRoom)

/-- LTX idles high: no frame is on it (R156). -/
def State.ltxIdle (s : State) : Bool := s.link.onLtx.isNone

/-! ### The output pins -/

/-- What drives a pin OUTn. -/
inductive PinDrive where
  | low
  | highImpedance
  /-- The clock of the current source and divider (R40). -/
  | clock (u : Use)
deriving DecidableEq, Repr

/-- The stop level (R40). -/
def stopDrive : StopLevel → PinDrive
  | .low => .low
  | .float => .highImpedance

/-- The pin of an output in its state (R42). -/
def OutRec.drive (r : OutRec) : PinDrive :=
  match r.state with
  | .running => match r.current with
    | some u => .clock u
    | none => .low
  | .switching .release => match r.current with
    | some u => .clock u
    | none => .low
  | .switching .acquire => .low
  | _ => stopDrive r.cfg.stop

/-- The pin OUTn: high impedance in POWERUP and in SELECT of a cold start, else by the output's state (R61, R133). -/
def State.outPin (s : State) (o : Fin 8) : PinDrive :=
  match s.startup.state with
  | .powerup => .highImpedance
  | .select => if s.startup.warm then (s.clk.outs.get o).drive else .highImpedance
  | _ => (s.clk.outs.get o).drive

/-- The level of a clocking pin: with divider 1 the source's own level; with a larger divider d, high in the first d/2
source periods of each output period, rounded up (R40). `period` counts source periods from the first of an output period;
`srcHigh` is the source's level. -/
def waveHigh (div period : Nat) (srcHigh : Bool) : Bool :=
  if div ≤ 1 then srcHigh else decide (period % div < (div + 1) / 2)

/-! ### Source and monitor facts -/

/-- VERIFYING, RUNNING and SUSPECT: the monitored states (R22). -/
def monitored : OscState → Bool
  | .verifying => true
  | .running => true
  | .suspect => true
  | _ => false

/-- The expected count of a nominal frequency over a survey period in ms (R24). -/
def expectedCount (hz period : Nat) : Nat := hz * period / 1000

/-- A gate stands open on the source, or an acquire targets it (check 5 of R15). -/
def inUse (outs : Bank8 OutRec) (s : Src) : Bool :=
  outs.toList.any fun r =>
    (r.gateOpen && r.runsFrom s)
    || (decide (r.state = .switching .acquire) && (match r.target with
        | some u => decide (u.src = s)
        | none => false))

/-- The use gives at most 200,000,000 Hz at the nominal frequencies of `c` (R39, R64). -/
def withinLimit (c : Sources) (u : Use) : Bool := decide (nominal c u.src ≤ Config.maxOutputHz * u.div)

/-! ### Claim table counts (R82) -/

def isSoft (c : Claim) : Bool :=
  match c.claimant with
  | .soft _ => true
  | .line _ => false
def softCount (cs : List Claim) : Nat := (cs.filter isSoft).length
def mappedTotal (ls : Bank8 LineRec) : Nat := (ls.toList.map fun l => l.set.map.length).sum
/-- Soft room exists (R82). -/
def softRoom (s : State) : Bool := decide (softCount s.claims < Config.claimRoom - mappedTotal s.lines)

/-! ### The stack (R102) and settling (R114) -/

def Stack.entries (k : Stack) : List (Fin 6) := k.below ++ [k.top]
def Stack.depth (k : Stack) : Nat := k.below.length + 1

/-- The output keeps a transition unsettled: it is enabled and WAITING or SWITCHING (R114). -/
def OutRec.moving (r : OutRec) : Bool :=
  r.cfg.enable && (match r.state with
    | .running => false
    | .parked => false
    | .dark => false
    | _ => true)

/-- How many enabled outputs are in a state. -/
def countOuts (outs : Bank8 OutRec) (st : OutState) : Nat :=
  (outs.toList.filter fun r => r.cfg.enable && decide (r.state = st)).length

/-- The PROFILE SETTLED notice (R114, R173). -/
def settledPosting (s : State) (g : Settling) : Posting :=
  ⟨.profileSettled, BitVec.ofNat 8 s.stack.top.val,
    b1 s.stack.depth ++ b4 g.since ++ b4 (s.tick - g.since) ++ n2 g.transitions
    ++ b1 (countOuts s.clk.outs .running) ++ b1 (countOuts s.clk.outs .parked) ++ b1 (countOuts s.clk.outs .dark)⟩

/-- R114: while SETTLING, when every enabled output is in RUNNING, PARKED or DARK, PROFILE SETTLED is posted and the
settling state becomes IDLE (log 15). -/
def State.testSettled (s : State) : State :=
  match s.settling with
  | none => s
  | some g => if s.clk.outs.toList.any OutRec.moving then s
    else { s.post (settledPosting s g) with settling := none }

/-- The end of every event: the settling test, then the transmitter (R114, R156; log 15, log 32). -/
def State.endEvent (s : State) : State := s.testSettled.transmit

/-! ### Taking a request frame (R151 to R153) -/

/-- The reply kind (R153). -/
def replyKind (kind : Byte) : Byte := if kind.toNat ≥ 0x7F then 0xFF#8 else kind + 0x80#8

/-- A reply joins the end of the queued replies (R153). The OK reply to RESTART is the one that lets the restart take effect
(R145). -/
def State.queueReply (s : State) (tag kind : Byte) (status : Status) (result : List Byte) : State :=
  { s with link := { s.link with
      queued := s.link.queued ++ [⟨tag, replyKind kind, status, result, decide (kind = 0x03#8) && decide (status = .ok)⟩] } }

/-- A taken request becomes a held request (check 1 of R153). -/
def State.hold (s : State) (tag kind : Byte) : State :=
  { s with link := { s.link with held := s.link.held ++ [⟨tag, kind⟩] } }

/-- The receiver enters HUNT with nothing in hand (R149, R151). -/
def State.hunt (s : State) : State := { s with link := { s.link with rx := .hunting } }

/-- A frame completes with a good CRC (R151, R161): outside LIVE or with the window full it is discarded and MISSED is set;
else it is taken, and held behind a RESTART or performed by its owner and answered (R153). Before LIVE of a cold start LRX
is ignored (R161). -/
def takeFrame (tag kind : Byte) (perform : State → Done) (s : State) : State :=
  if !s.startup.running then s
  else
    let s := s.hunt
    if !s.isLive then s.setMissed.endEvent
    else if s.link.windowCount ≥ Config.windowRoom then s.setMissed.endEvent
    else if s.link.restartTaken then (s.hold tag kind).endEvent
    else
      let d := perform s
      (d.state.queueReply tag kind d.status d.result).endEvent

end Sys2Proof.Machine
end

