-- ==== Sys2Proof/Machine/Layout.lean ====
section
/-! DEFINITION. Machine/Layout.lean: the records of section 11.4 as the part sends them. They also serve as the layout of the
image body (log 24). -/

namespace Sys2Proof.Machine

/-- SYN's input, M and N (R172: 0 for any other source). -/
def synBytes (c : SynConfig) : List Byte := b1 (srcCode (synInputSrc c.input)) ++ b1 c.m ++ b1 c.n

/-- SOURCE CONFIG of XA, XB, REF or SYN, with the nominal frequency to show. -/
def oscConfigBytes (o : Osc) (hz : Nat) (c : OscConfig) (syn : SynConfig) : List Byte :=
  b1 (oscCode o) ++ n4 hz ++ n2 c.startTimeout ++ n2 c.quarantine ++ b1 c.retryCount ++ n2 c.rehabilitation
  ++ (if o = .syn then synBytes syn else [0#8, 0#8, 0#8])

/-- Tolerance or threshold, K and F. -/
def judgeBytes (j : JudgeSettings) : List Byte := b1 j.band ++ b1 j.k ++ b1 j.f

/-- The 15 setting bytes of MONITOR SET after the period. -/
def monitorBytes (m : MonitorSettings) : List Byte :=
  judgeBytes m.osc.xa ++ judgeBytes m.osc.xb ++ judgeBytes m.osc.ref ++ judgeBytes m.osc.syn ++ judgeBytes m.rco

/-- OUTPUT CONFIG; the fixed divider is 0 in CHAIN mode (R172). -/
def outConfigBytes (o : Fin 8) (c : OutConfig) : List Byte :=
  b1 o.val ++ [flag c.enable]
  ++ (match c.mode with
      | .fixed u => b1 0 ++ b1 (srcCode u.src) ++ n2 u.div
      | .chain k => b1 1 ++ b1 k.val ++ n2 0)
  ++ [flag c.essential] ++ b1 (stopCode c.stop) ++ n2 c.timeout

/-- CHAIN RECORD; a last-resort divider of 0 is the absent last resort. -/
def chainBytes (k : Fin 4) (c : ChainRec) : List Byte :=
  b1 k.val ++ n2 c.holdOff ++ [flag c.leaveOnSuspect, flag c.warmStandby] ++ n2 (c.lastResort.getD 0)
  ++ b1 c.entries.length ++ c.entries.flatMap fun u => b1 (srcCode u.src) ++ n2 u.div

/-- The pairs of a line's map. -/
def pairBytes (ps : List MapPair) : List Byte := ps.flatMap fun p => b1 p.output.val ++ b1 (levelCode p.level)

/-- PROFILE RECORD. -/
def profileBytes (p : Fin 6) (r : ProfileRec) : List Byte :=
  b1 p.val ++ (r.policy.toList.flatMap fun x => b1 (policyCode x))
  ++ [srcSetCode r.permitted, srcSetCode r.honour] ++ b2 (r.wakeMask.setWidth 16) ++ b1 (profileCode r.wakeProfile)

/-- An optional four-byte field covered by a presence bit: 0 when absent (R172). -/
def opt4 (w : Option Word) : List Byte := b4 (w.getD 0#32)
/-- An optional two-byte field covered by a presence bit. -/
def opt2 (h : Option Half) : List Byte := b2 (h.getD 0#16)

/-- A use covered by a presence bit: 0 when absent (R172; log 26). -/
def optUse : Option Use → List Byte
  | some u => b1 (srcCode u.src) ++ n2 u.div
  | none => [0#8, 0#8, 0#8]

/-- An entry index, or absent. -/
def entryCode : Option (Fin 4) → Nat
  | some i => i.val
  | none => 0xFF

/-- CLAIM RECORD; the options byte holds the level, lease present and tag present. -/
def claimBytes (c : Claim) : List Byte :=
  b2 (claimantCode c.claimant) ++ b1 c.output.val
  ++ [BitVec.ofNat 8 (levelCode c.level) ||| (flag c.lease.isSome <<< 1) ||| (flag c.tag.isSome <<< 2)]
  ++ opt4 c.lease ++ opt2 c.tag ++ b4 c.created

/-- The three operand bytes of an action; bytes a kind does not take are 0 (R172). -/
def operandBytes : ActionKind → List Byte
  | .enter p => b1 p.val ++ [0#8, 0#8]
  | .wake => [0#8, 0#8, 0#8]
  | .resume => [0#8, 0#8, 0#8]
  | .release c o => [0#8, c] ++ b1 (match o with | some x => x.val | none => 0xFF)
  | .select o i => b1 o.val ++ b1 (entryCode i) ++ [0#8]
  | .remind v => b2 v ++ [0#8]

/-- ACTION RECORD. -/
def actionBytes (a : Action) : List Byte :=
  [a.number] ++ b1 (actionKindCode a.kind) ++ b4 a.due ++ n4 (a.period.getD 0) ++ operandBytes a.kind

/-- The whole configuration body of an image (R139; log 24). -/
def bodyBytes (c : BoardConfig) : List Byte :=
  (oscs.flatMap fun o => oscConfigBytes o (c.osc.get o).nominal (c.osc.get o) c.syn ++ [flag (c.osc.get o).keep])
  ++ n2 c.monitor.period ++ monitorBytes c.monitor
  ++ (eight.flatMap fun o => outConfigBytes o (c.outs.get o))
  ++ (([0, 1, 2, 3] : List (Fin 4)).flatMap fun k => chainBytes k (c.chains.get k))
  ++ (eight.flatMap fun l =>
      let s := c.lines.get l
      b1 l.val ++ [flag s.activeHigh] ++ n2 s.holdTime ++ b1 s.map.length ++ pairBytes s.map)
  ++ (([0, 1, 2, 3, 4, 5] : List (Fin 6)).flatMap fun p => profileBytes p (c.profiles.get p))
  ++ b2 c.filter

/-- The CRC-32 over format code, generation, start profile and body (R137). -/
def imageCrc (format : Byte) (generation : Word) (startProfile : Fin 6) (body : BoardConfig) : Word :=
  crc32 ([format] ++ b4 generation ++ b1 startProfile.val ++ bodyBytes body)

end Sys2Proof.Machine
end

