-- ==== Sys2Proof/Machine/Sources.lean ====
section
/-! DEFINITION. Machine/Sources.lean: the source controller's requests and events (chapter 1). -/

namespace Sys2Proof.Machine

/-! ### SOURCE SET (R15, R16) -/

/-- The ranges of R2 for a source. -/
structure OscRange where
  nominalMin : Nat
  nominalMax : Nat
  startMin : Nat
  startMax : Nat

/-- R2; SYN's nominal frequency is derived and has no range of its own here. -/
def oscRange : Osc → OscRange
  | .xa => ⟨8000000, 48000000, 1, 20⟩
  | .xb => ⟨30000, 40000, 100, 2000⟩
  | .ref => ⟨1000000, 100000000, 1, 100⟩
  | .syn => ⟨0, 0, 1, 10⟩

/-- `lo ≤ n ≤ hi`, as a Bool. -/
def inRange (lo hi n : Nat) : Bool := decide (lo ≤ n) && decide (n ≤ hi)

/-- Check 3 of R15: the ranges of R2. The nominal frequency of a SYN request, and the input, M and N of any other, are
ignored (R172). -/
def sourceSetInRange (o : Osc) (r : SourceSetReq) : Bool :=
  let g := oscRange o
  inRange g.startMin g.startMax r.startTimeout.toNat && inRange 10 60000 r.quarantine.toNat
  && decide (r.retryCount.toNat ≤ 15) && inRange 1 600 r.rehabilitation.toNat
  && (if o = .syn then (synInputOfCode r.synInput).isSome && inRange 1 8 r.m.toNat && inRange 4 64 r.n.toNat
      else inRange g.nominalMin g.nominalMax r.nominal.toNat)

/-- The configuration a SOURCE SET gives; the keep flag is not among its fields (R15). -/
def sourceSetConfig (o : Osc) (r : SourceSetReq) (old : OscConfig) : OscConfig where
  nominal := if o = .syn then old.nominal else r.nominal.toNat
  startTimeout := r.startTimeout.toNat
  quarantine := r.quarantine.toNat
  retryCount := r.retryCount.toNat
  rehabilitation := r.rehabilitation.toNat
  keep := old.keep

/-- SYN's further settings after a SOURCE SET. -/
def sourceSetSyn (o : Osc) (r : SourceSetReq) (old : SynConfig) : SynConfig :=
  if o = .syn then ⟨(synInputOfCode r.synInput).getD old.input, r.m.toNat, r.n.toNat⟩ else old

/-- R16: the configuration replaced; a budget above the new retry count is set to it. -/
def OscRec.configured (r : OscRec) (c : OscConfig) : OscRec :=
  { r with cfg := c, budget := min r.budget c.retryCount }

/-- The sources with the new configuration. -/
def sourceSetSources (o : Osc) (r : SourceSetReq) (c : Sources) : Sources :=
  let old := c.osc.get o
  { c with osc := c.osc.set o (old.configured (sourceSetConfig o r old.cfg)), syn := sourceSetSyn o r c.syn }

/-- The sources whose nominal frequency a SOURCE SET on `o` may touch: `o`, and SYN where its nominal changes. -/
def touchedSources (o : Osc) (c c' : Sources) : List Src :=
  if o ≠ .syn ∧ synNominal c ≠ synNominal c' then [.osc o, .osc .syn] else [.osc o]

/-- Every configured FIXED use and every chain entry (R15, R39, R64). -/
def configuredUses (s : State) : List Use :=
  (s.clk.outs.toList.filterMap fun r => match r.cfg.mode with
    | .fixed u => some u
    | .chain _ => none)
  ++ s.chains.toList.flatMap fun c => c.entries

/-- Check 4 of R15: SYN's derived nominal in range, expected counts of 64 or more, no use above 200,000,000 Hz. -/
def sourceSetFits (s : State) (o : Osc) (c' : Sources) : Bool :=
  let ts := touchedSources o s.clk.src c'
  (!ts.contains (.osc .syn) || inRange Config.synMinHz Config.synMaxHz (synNominal c'))
  && (ts.all fun t => decide (Config.minExpected ≤ expectedCount (nominal c' t) s.clk.mon.settings.period))
  && ((configuredUses s).all fun u => !ts.contains u.src || withinLimit c' u)

/-- Check 5 of R15: SYN's input or derived nominal would change while SYN is in use. -/
def sourceSetConflicts (s : State) (c' : Sources) : Bool :=
  (decide (s.clk.src.syn.input ≠ c'.syn.input) || decide (synNominal s.clk.src ≠ synNominal c'))
  && inUse s.clk.outs (.osc .syn)

/-- R16: a SYN that is STARTING, VERIFYING, RUNNING or SUSPECT restarts when its input, M or N changes. -/
def synRestarts (old new : Sources) : Bool := decide (old.syn ≠ new.syn) && synDepends old

/-- SYN is stopped and enters STARTING with the new settings, without a fault (R16, R21). -/
def restartSyn (e : Env) (v : Ev) : Ev := enterStarting e .syn v

def performSourceSet (r : SourceSetReq) (s : State) : Done :=
  match srcOfCode r.source with
  | none => .refuse s .noSuch
  | some .rco => .refuse s .notPermitted
  | some (.osc o) =>
    if !sourceSetInRange o r then .refuse s .badValue
    else
      let c' := sourceSetSources o r s.clk.src
      if !sourceSetFits s o c' then .refuse s .badValue
      else if sourceSetConflicts s c' then .refuse s .conflict
      else
        let s' := { s with clk := { s.clk with src := c' } }
        .ok (runEvent .ordinary s s' fun e v => if synRestarts s.clk.src c' then restartSyn e v else v) []

/-! ### SOURCE KEEP and SOURCE CLEAR (R17, R18) -/

def State.putOsc (s : State) (o : Osc) (r : OscRec) : State :=
  { s with clk := { s.clk with src := { s.clk.src with osc := s.clk.src.osc.set o r } } }

def State.osc (s : State) (o : Osc) : OscRec := s.clk.src.osc.get o

def performSourceKeep (source flagByte : Byte) (s : State) : Done :=
  match srcOfCode source with
  | none => .refuse s .noSuch
  | some .rco => .refuse s .notPermitted
  | some (.osc o) =>
    match yesNoOfCode flagByte with
    | none => .refuse s .badValue
    | some keep =>
      let r := s.osc o
      .ok (reevaluate .ordinary s (s.putOsc o { r with cfg := { r.cfg with keep := keep } })) []

/-- A change of RCO's state with its notice (R14); its counts as given (R31). -/
def Ev.changeRco (v : Ev) (r : RcoRec) (good bad : Nat) : Ev :=
  { v with
    clk := { v.clk with
      src := { v.clk.src with rco := r }
      mon := { v.clk.mon with rco := { v.clk.mon.rco with good := good, bad := bad } } }
    srcNotes := v.srcNotes ++ [sourceNote 0 (rcoStateCode v.clk.src.rco.state) (rcoStateCode r.state) 0
      (if r.state = .faulted then r.fault else none)] }

/-- QUARANTINED ends and the source enters OFF, with R7 for a SYN that it is the input of (R10, R18). -/
def unquarantine (e : Env) (o : Osc) (v : Ev) : Ev := loseInput e (.osc o) (enterOff o v)

/-- R18: what SOURCE CLEAR does to XA, XB, REF or SYN. A SYN that waits for a LOCKED_OUT input waits on (R11, R18; log 12). -/
def clearSource (o : Osc) (s : State) : State :=
  let r := s.osc o
  let s' := s.putOsc o { r with budget := r.cfg.retryCount }
  match r.state with
  | .quarantined => runEvent .ordinary s s' fun e v => unquarantine e o v
  | .lockedOut => runEvent .ordinary s s' fun _ v => enterOff o v
  | _ => s'

/-- R18, R33: RCO in FAULTED enters UNCHECKED with its counts cleared. -/
def clearRco (s : State) : State :=
  if s.clk.src.rco.state = .faulted then
    runEvent .ordinary s s fun _ v => v.changeRco { v.clk.src.rco with state := .unchecked } 0 0
  else s

def performSourceClear (source : Byte) (s : State) : Done :=
  match srcOfCode source with
  | none => .refuse s .noSuch
  | some .rco => .ok (clearRco s) []
  | some (.osc o) => .ok (clearSource o s) []

/-! ### SOURCE QUERY (R19) -/

/-- Ticks remaining on a source's timer, 0 when none runs (log 26). -/
def timerLeft (now : Tick) : Option SourceTimer → Word
  | some t => ticksLeft now t.due
  | none => 0#32

/-- SOURCE RUNTIME of XA, XB, REF or SYN. -/
def oscRuntimeBytes (s : State) (o : Osc) : List Byte :=
  let r := s.osc o
  b1 (oscStateCode r.state) ++ b1 r.budget ++ [flag r.cfg.keep]
  ++ [flag r.fault.isSome ||| (flag r.runningSince.isSome <<< 1)] ++ b1 (faultCode r.fault) ++ opt4 r.runningSince
  ++ [flag (demanded (envOf .ordinary s s) s.clk o)] ++ b1 (timerCode r.timer) ++ b4 (timerLeft s.tick r.timer)

/-- SOURCE RUNTIME of RCO: no budget, keep flag, demand or timer (R1; log 27). -/
def rcoRuntimeBytes (r : RcoRec) : List Byte :=
  b1 (rcoStateCode r.state) ++ [0#8, 0#8] ++ [flag r.fault.isSome ||| (flag r.runningSince.isSome <<< 1)]
  ++ b1 (faultCode r.fault) ++ opt4 r.runningSince ++ [0#8, 0#8] ++ b4 0#32

/-- SOURCE CONFIG and SOURCE RUNTIME of a source. -/
def sourceQueryBytes (s : State) : Src → List Byte
  | .rco => b1 0 ++ n4 Config.rcoNominal ++ n2 0 ++ n2 0 ++ b1 0 ++ n2 0 ++ [0#8, 0#8, 0#8]
      ++ rcoRuntimeBytes s.clk.src.rco
  | .osc o => oscConfigBytes o (nominal s.clk.src (.osc o)) (s.osc o).cfg s.clk.src.syn ++ oscRuntimeBytes s o

def performSourceQuery (source : Byte) (s : State) : Done :=
  match srcOfCode source with
  | none => .refuse s .noSuch
  | some x => .ok s (sourceQueryBytes s x)

/-! ### Events of sources -/

/-- The source's timer is of the kind and its due tick is reached (R121; log 2). -/
def timerDue (s : State) (o : Osc) (k : TimerKind) : Bool :=
  match (s.osc o).timer with
  | some t => decide (t.kind = k) && reached s.tick t.due
  | none => false

/-- Start detection: STARTING with the start timer running enters VERIFYING (R5). -/
def detectStart (o : Osc) (s : State) : State :=
  if decide ((s.osc o).state = .starting) && decide (o ≠ .syn) then
    runEvent .ordinary s s fun _ v => enterVerifying o v
  else s

/-- Expiry of the start timer or of the lock timer: FAULTED with NO_START (R5, R6, R9). -/
def failStart (o : Osc) (k : TimerKind) (s : State) : State :=
  if decide ((s.osc o).state = .starting) && timerDue s o k then
    runEvent .ordinary s s fun e v => fault e o .noStart v
  else s

/-- Lock detection with the lock timer running (R6). -/
def detectLock (s : State) : State :=
  if decide ((s.osc .syn).state = .starting) && (s.osc .syn).timer.isSome then
    runEvent .ordinary s s fun _ v => enterVerifying .syn v
  else s

/-- R10, with R7 for the input of SYN that enters LOCKED_OUT or OFF. -/
def leaveQuarantine (e : Env) (o : Osc) (v : Ev) : Ev :=
  let r := v.osc o
  if demanded e v.clk o then
    if r.budget = 0 then loseInput e (.osc o) (enterLockedOut o v)
    else enterStarting e o (v.putOsc o { r with budget := r.budget - 1 })
  else unquarantine e o v

def expireQuarantine (o : Osc) (s : State) : State :=
  if decide ((s.osc o).state = .quarantined) && timerDue s o .quarantine then
    runEvent .ordinary s s fun e v => leaveQuarantine e o v
  else s

/-- R12: the budget is set to the retry count; the timer does not restart. -/
def expireRehabilitation (o : Osc) (s : State) : State :=
  if decide ((s.osc o).state = .running) && timerDue s o .rehabilitation then
    let r := s.osc o
    s.putOsc o { r with budget := r.cfg.retryCount, timer := none }
  else s

/-- An event of the running part (R133, R146; log 2): outside it nothing happens; at its end the settling test and the
transmitter (R114, R156). -/
def whileRunning (f : State → State) (s : State) : State :=
  if s.startup.running then (f s).endEvent else s

/-! ### Meanings -/

def execSourceSet (tag : Byte) (r : SourceSetReq) (s : State) : Host.Outcome State Fault Refusal :=
  .next (takeFrame tag 0x10#8 (performSourceSet r) s)
def execSourceQuery (tag source : Byte) (s : State) : Host.Outcome State Fault Refusal :=
  .next (takeFrame tag 0x11#8 (performSourceQuery source) s)
def execSourceKeep (tag source flagByte : Byte) (s : State) : Host.Outcome State Fault Refusal :=
  .next (takeFrame tag 0x12#8 (performSourceKeep source flagByte) s)
def execSourceClear (tag source : Byte) (s : State) : Host.Outcome State Fault Refusal :=
  .next (takeFrame tag 0x13#8 (performSourceClear source) s)
/-- START_DETECTION (R5). -/
def execStartDetection (o : Osc) (s : State) : Host.Outcome State Fault Refusal :=
  .next (whileRunning (detectStart o) s)
/-- START_TIMER_EXPIRY (R5, R9). -/
def execStartTimerExpiry (o : Osc) (s : State) : Host.Outcome State Fault Refusal :=
  .next (whileRunning (failStart o .start) s)
/-- LOCK_DETECTION (R6). -/
def execLockDetection (s : State) : Host.Outcome State Fault Refusal := .next (whileRunning detectLock s)
/-- LOCK_TIMER_EXPIRY (R6, R9). -/
def execLockTimerExpiry (s : State) : Host.Outcome State Fault Refusal := .next (whileRunning (failStart .syn .lock) s)
/-- QUARANTINE_EXPIRY (R10). -/
def execQuarantineExpiry (o : Osc) (s : State) : Host.Outcome State Fault Refusal :=
  .next (whileRunning (expireQuarantine o) s)
/-- REHABILITATION_EXPIRY (R12). -/
def execRehabilitationExpiry (o : Osc) (s : State) : Host.Outcome State Fault Refusal :=
  .next (whileRunning (expireRehabilitation o) s)

end Sys2Proof.Machine
end

