-- ==== Sys2Proof/Machine/Switching.lean ====
section
/-! DEFINITION. Machine/Switching.lean: the output switch's requests OUTPUT SET, OUTPUT QUERY and OUTPUT SELECT (R57 to R60), and
the events of its phases (R47 to R53). -/

namespace Sys2Proof.Machine

/-! ### OUTPUT SET (R57, R58) -/

/-- The mode a request gives; the source or chain byte is read as the mode uses it, and the divider only in FIXED mode
(R57, R172). -/
def modeOfReq (r : OutputSetReq) : Option OutMode :=
  match r.mode.toNat with
  | 0 => match srcOfCode r.sourceOrChain with
    | some x => if inRange 1 1024 r.divider.toNat then some (.fixed ⟨x, r.divider.toNat⟩) else none
    | none => none
  | 1 => (chainOfCode r.sourceOrChain).map .chain
  | _ => none

def stopOfCode (b : Byte) : Option StopLevel :=
  match b.toNat with
  | 0 => some .low | 1 => some .float | _ => none

/-- Check 2 of R57: the configuration, if every field is in its range. -/
def outConfigOfReq (r : OutputSetReq) : Option OutConfig :=
  match yesNoOfCode r.enable, modeOfReq r, yesNoOfCode r.essential, stopOfCode r.stopLevel with
  | some en, some m, some ess, some st =>
    if inRange 50 10000 r.timeout.toNat then some ⟨en, m, ess, st, r.timeout.toNat⟩ else none
  | _, _, _, _ => none

/-- Check 3 of R57. -/
def OutConfig.fits (c : OutConfig) (k : Sources) : Bool :=
  match c.mode with
  | .fixed u => withinLimit k u
  | .chain _ => true

/-- Mode, fixed source and chain are unchanged (R58). -/
def sameFeed : OutMode → OutMode → Bool
  | .fixed a, .fixed b => decide (a.src = b.src)
  | .chain a, .chain b => decide (a = b)
  | _, _ => false

/-- The new record in force. A change of mode, fixed source or chain empties the refused set and removes the pin (R53, R58);
one of mode or chain ends the standing in the old chain (R65, R71; log 22). -/
def OutRec.reconfigured (r : OutRec) (c : OutConfig) : OutRec :=
  if sameFeed r.cfg.mode c.mode then { r with cfg := c }
  else match r.cfg.mode, c.mode with
    | .fixed _, .fixed _ => { r with cfg := c, refused := [], pin := none }
    | _, _ => { r with cfg := c, refused := [], pin := none, place := none, revert := .none, awaits := none }

/-- The output's record replaced. -/
def State.putOut (s : State) (o : Fin 8) (r : OutRec) : State :=
  { s with clk := { s.clk with outs := s.clk.outs.set o r } }
def State.out (s : State) (o : Fin 8) : OutRec := s.clk.outs.get o

def performOutputSet (r : OutputSetReq) (s : State) : Done :=
  match eightOfCode r.output with
  | none => .refuse s .noSuch
  | some o =>
    match outConfigOfReq r with
    | none => .refuse s .badValue
    | some c =>
      if !c.fits s.clk.src then .refuse s .badValue
      else .ok (reevaluate (.outputSet o) s (s.putOut o ((s.out o).reconfigured c))) []

/-! ### OUTPUT SELECT (R59) -/

/-- The pin set or removed; a pin that is set ends the revert (R71, R74). -/
def OutRec.pinned (r : OutRec) : Option (Fin 4) → OutRec
  | none => { r with pin := none }
  | some i => { r with pin := some i, revert := .none }

/-- Checks 2 and 4 of R59 and the effect; SELECT of an action comes in here too (R128). -/
def selectOutput (o : Fin 8) (entry : Option (Fin 4)) (s : State) : Done :=
  match (s.out o).cfg.mode with
  | .fixed _ => .refuse s .conflict
  | .chain k =>
    if (match entry with
        | some i => ((s.chains.get k).entry i).isNone
        | none => false) then .refuse s .noSuch
    else
      let t := reevaluate (.outputSelect o) s (s.putOut o ((s.out o).pinned entry))
      .ok t (b1 (entryCode (t.out o).pin))

def performOutputSelect (output entry : Byte) (s : State) : Done :=
  match eightOfCode output with
  | none => .refuse s .noSuch
  | some o =>
    match (s.out o).cfg.mode with
    | .fixed _ => .refuse s .conflict
    | .chain _ =>
      match entryOfCode entry with
      | none => .refuse s .badValue
      | some i => selectOutput o i s

/-! ### OUTPUT QUERY (R60) -/

/-- The refused set as a set of sources (R172). -/
def refusedCode (l : List Src) : Byte :=
  flag (l.contains .rco) ||| srcSetCode (.ofFn fun o => l.contains (.osc o))

/-- The output frequency, or 0 when the gate is closed (R60). What a division leaves over is dropped: the model's choice, log
44. -/
def outputHz (c : Sources) (r : OutRec) : Nat :=
  match r.gateOpen, r.current with
  | true, some u => nominal c u.src / u.div
  | _, _ => 0

/-- A value between `lo` and `hi`, picked by the free value `x`. -/
def between (lo hi x : Nat) : Nat := lo + x % (hi + 1 - lo)

/-- The µs since the phase start: a free value between the bounds that the ticks counted since and the timeout in force give
(R60; log 3). -/
def phaseMicros (now : Tick) (p : PhaseClock) (x : Nat) : Nat :=
  let k := (now - p.start).toNat
  let lo := (k - 1) * 1000
  let hi := (k + 1) * 1000 - 1
  min 65535 (between lo (max lo (min hi p.timeout)) x)

/-- OUTPUT RUNTIME with the µs in the phase given. -/
def outRuntimeBytes (s : State) (o : Fin 8) (micros : Nat) : List Byte :=
  let r := s.out o
  b1 (outStateCode r.state) ++ b1 (phaseCode r.state)
  ++ [flag r.current.isSome ||| (flag r.target.isSome <<< 1) ||| (flag r.pending.isSome <<< 2) ||| (flag r.pin.isSome <<< 3)]
  ++ optUse r.current ++ optUse r.target ++ optUse r.pending ++ [refusedCode r.refused]
  ++ b1 (match r.pin with | some i => i.val | none => 0)
  ++ [flag (s.wants o)] ++ n4 (outputHz s.clk.src r) ++ n2 micros

/-- R60; the µs in phase are sent as 0 outside SWITCHING (log 26). -/
def performOutputQuery (output : Byte) (s : State) : Done :=
  match eightOfCode output with
  | none => .refuse s .noSuch
  | some o =>
    match (s.out o).phase with
    | none => .ok s (outConfigBytes o (s.out o).cfg ++ outRuntimeBytes s o 0)
    | some p =>
      .ok s.drawFree.2 (outConfigBytes o (s.out o).cfg
        ++ outRuntimeBytes s o (phaseMicros s.tick p (Config.freeMicros s.freeCount)))

/-! ### Events of the phases -/

/-- A release ends (R47, R48); outside the release phase nothing happens (log 2). -/
def finishRelease (o : Fin 8) (reason : OutReason) (s : State) : State :=
  if (s.out o).state = .switching .release then
    runEvent .ordinary s s fun e v => v.putOut o (endRelease e v.clk.src o (v.clk.outs.get o) reason)
  else s

/-- The target's falling edge in the acquire phase opens the gate (R49). -/
def canOpen (s : State) (o : Fin 8) : Bool :=
  decide ((s.out o).state = .switching .acquire) && (match (s.out o).target with
    | some u => feeds s.clk.src u.src
    | none => false)

/-- The gate opened, with its notice (R49, R55). -/
def openedGate (r : OutRec) : Moved := (openGate r, stateNote r.state (openGate r) .complete false)

/-- R49, and R51 by the selection that follows in the event. -/
def finishAcquire (o : Fin 8) (s : State) : State :=
  if canOpen s o then runEvent .ordinary s s fun _ v => v.putOut o (openedGate (v.clk.outs.get o)) else s

/-- R50: the target is refused, and selection runs with the gate closed. -/
def timedOut (e : Env) (c : Sources) (o : Fin 8) (r : OutRec) : Moved :=
  if wanted e.profile e.claims o r.cfg then
    selectClosed e c o (refuseTarget r) (refuseTarget r).closed .timeout true
  else rest (refuseTarget r) .timeout

def timeoutAcquire (o : Fin 8) (s : State) : State :=
  if (s.out o).state = .switching .acquire then
    runEvent .ordinary s s fun e v => v.putOut o (timedOut e v.clk.src o (v.clk.outs.get o))
  else s

/-- The falling edge at which a divider change takes effect (R52). -/
def takeDivider (r : OutRec) : OutRec :=
  match r.state, r.current, r.nextDiv with
  | .running, some u, some d => { r with current := some { u with div := d }, nextDiv := none }
  | _, _, _ => r

/-! ### Meanings -/

def execOutputSet (tag : Byte) (r : OutputSetReq) (s : State) : Host.Outcome State Fault Refusal :=
  .next (takeFrame tag 0x20#8 (performOutputSet r) s)
def execOutputQuery (tag output : Byte) (s : State) : Host.Outcome State Fault Refusal :=
  .next (takeFrame tag 0x21#8 (performOutputQuery output) s)
def execOutputSelect (tag output entry : Byte) (s : State) : Host.Outcome State Fault Refusal :=
  .next (takeFrame tag 0x22#8 (performOutputSelect output entry) s)
/-- RELEASE_END (R47). -/
def execReleaseEnd (o : Fin 8) (s : State) : Host.Outcome State Fault Refusal :=
  .next (whileRunning (finishRelease o .complete) s)
/-- RELEASE_TIMEOUT (R48). -/
def execReleaseTimeout (o : Fin 8) (s : State) : Host.Outcome State Fault Refusal :=
  .next (whileRunning (finishRelease o .forced) s)
/-- ACQUIRE_END (R49). -/
def execAcquireEnd (o : Fin 8) (s : State) : Host.Outcome State Fault Refusal := .next (whileRunning (finishAcquire o) s)
/-- ACQUIRE_TIMEOUT (R50). -/
def execAcquireTimeout (o : Fin 8) (s : State) : Host.Outcome State Fault Refusal :=
  .next (whileRunning (timeoutAcquire o) s)
/-- DIVIDER_CHANGE (R52). -/
def execDividerChange (o : Fin 8) (s : State) : Host.Outcome State Fault Refusal :=
  .next (whileRunning (fun s => s.putOut o (takeDivider (s.out o))) s)

end Sys2Proof.Machine
end

