-- ==== Sys2Proof/Machine/Failover.lean ====
section
/-! DEFINITION. Machine/Failover.lean: the chain selector's requests CHAIN SET and CHAIN QUERY (R76, R77), and the expiry of a revert
timer (R71). -/

namespace Sys2Proof.Machine

/-! ### CHAIN SET (R76) -/

/-- One entry, its source and divider in range (check 3 of R76). -/
def entryOfRaw (r : RawEntry) : Option Use :=
  match srcOfCode r.source with
  | some x => if inRange 1 1024 r.divider.toNat then some ⟨x, r.divider.toNat⟩ else none
  | none => none

/-- A last-resort divider: 0 is absent (section 11.3); `none` is out of range. -/
def lastResortOfReq (h : Half) : Option (Option Nat) :=
  if h.toNat = 0 then some none else if h.toNat ≤ 1024 then some (some h.toNat) else none

/-- Check 3 of R76: the record, if every field is in its range. -/
def chainOfReq (r : ChainSetReq) : Option ChainRec :=
  match allSome entryOfRaw r.entries, yesNoOfCode r.leaveOnSuspect, yesNoOfCode r.warmStandby, lastResortOfReq r.lastResort with
  | some es, some l, some w, some d => if r.holdOff.toNat ≤ 600 then some ⟨es, r.holdOff.toNat, l, w, d⟩ else none
  | _, _, _, _ => none

/-- No source appears in two entries (check 4 of R76). -/
def distinctSources : List Use → Bool
  | [] => true
  | u :: us => (us.all fun x => decide (x.src ≠ u.src)) && distinctSources us

/-- Selection runs for the output: it is wanted and not OFF or PARKED (R69). -/
def selects (e : Env) (o : Fin 8) (r : OutRec) : Bool :=
  wanted e.profile e.claims o r.cfg && decide (r.state ≠ .off) && decide (r.state ≠ .parked)

/-- A pin beyond the new last entry, where no selection runs that would find it lost, or where the output has no position, so that no
notice tells it (R74, R76); with no result, the notice repeats the stored position and kind (log 42). -/
def dropPin (e : Env) (o : Fin 8) (k : Fin 4) (r : OutRec) : Moved :=
  match r.pin with
  | none => (r, [])
  | some i =>
    if ((e.chains.get k).entry i).isSome || (selects e o r && r.place.isSome) then (r, [])
    else ({ r with pin := none }, match r.place with
      | some a => [.failover k (some a) (some a.pos) a.kind .pinLost]
      | none => [])

/-- What CHAIN SET does to an output before selection runs: an output in CHAIN mode on the chain loses its revert timer and
its pin if it lies beyond the last entry (R76). -/
def chainReplaced (e : Env) (k : Fin 4) (o : Fin 8) (r : OutRec) : Moved :=
  if r.cfg.mode = .chain k then dropPin e o k { r with revert := .none } else (r, [])

/-- The effects on every output of the chain (R76). -/
def chainReplacedAll (e : Env) (k : Fin 4) (v : Ev) : Ev :=
  eight.foldl (fun v o => v.putOut o (chainReplaced e k o (v.clk.outs.get o))) v

def performChainSet (r : ChainSetReq) (s : State) : Done :=
  match chainOfCode r.chain with
  | none => .refuse s .noSuch
  | some k =>
    if !inRange 1 4 r.entries.length then .refuse s .badValue
    else match chainOfReq r with
    | none => .refuse s .badValue
    | some c =>
      if !distinctSources c.entries then .refuse s .badValue
      else if !(c.entries.all (withinLimit s.clk.src)) then .refuse s .badValue
      else
        let s' := { s with chains := s.chains.set k c }
        .ok (runEvent (.chainSet k) s s' fun e v => chainReplacedAll e k v) []

/-! ### CHAIN QUERY (R77) -/

/-- Bits 0 to 3 the eligible entries, bit 4 the last resort usable. -/
def eligibleCode (e : Env) (c : Sources) (o : Fin 8) (r : OutRec) (ch : ChainRec) : Byte :=
  (ch.numbered.filter fun x => eligible e c o r ch x.2.src).foldl
    (fun b x => b ||| (1#8 <<< x.1.val)) (flag (lastResortUsable r ch) <<< 4)

/-- STANDING of one output; the result kind of an absent position and the ticks remaining outside TIMING are sent as 0 (log 26). -/
def standingBytes (e : Env) (s : State) (k : Fin 4) (o : Fin 8) : List Byte :=
  let r := s.out o
  let ch := s.chains.get k
  b1 o.val ++ b1 (positionCode (r.place.map Place.pos))
  ++ b1 (match r.place with | some p => kindCode p.kind | none => 0)
  ++ b1 (positionCode (anchor r ch)) ++ b1 (revertCode r.revert)
  ++ b4 (match r.revert with | .timing t => ticksLeft s.tick t | _ => 0#32)
  ++ b1 (entryCode ((standbyEntry e s.clk.src r).map (·.1))) ++ b1 (entryCode r.pin)
  ++ [eligibleCode e s.clk.src o r ch]

/-- The outputs in CHAIN mode on the chain. -/
def outputsOf (s : State) (k : Fin 4) : List (Fin 8) := eight.filter fun o => decide ((s.out o).cfg.mode = .chain k)

def performChainQuery (chain : Byte) (s : State) : Done :=
  match chainOfCode chain with
  | none => .refuse s .noSuch
  | some k =>
    .ok s (chainBytes k (s.chains.get k) ++ b1 (outputsOf s k).length
      ++ (outputsOf s k).flatMap (standingBytes (envOf .ordinary s s) s k))

/-! ### The revert timer (R71) -/

/-- Expiry of the revert timer: HELD under a HOLD claim, else DUE and selection (R71; log 2). -/
def expireRevert (o : Fin 8) (s : State) : State :=
  match (s.out o).revert with
  | .timing t =>
    if !reached s.tick t then s
    else if held s.claims o then s.putOut o { s.out o with revert := .held }
    else reevaluate .ordinary s (s.putOut o { s.out o with revert := .due })
  | _ => s

/-! ### Meanings -/

def execChainSet (tag : Byte) (r : ChainSetReq) (s : State) : Host.Outcome State Fault Refusal :=
  .next (takeFrame tag 0x28#8 (performChainSet r) s)
def execChainQuery (tag chain : Byte) (s : State) : Host.Outcome State Fault Refusal :=
  .next (takeFrame tag 0x29#8 (performChainQuery chain) s)
/-- REVERT_TIMER_EXPIRY (R71). -/
def execRevertTimerExpiry (o : Fin 8) (s : State) : Host.Outcome State Fault Refusal :=
  .next (whileRunning (expireRevert o) s)

end Sys2Proof.Machine
end

