-- ==== Sys2Proof/Machine/Profiles.lean ====
section
/-! DEFINITION. Machine/Profiles.lean: the profile controller: transitions and settling (R113 to R115), wake events (R103, R104), and
its requests (R106 to R112). -/

namespace Sys2Proof.Machine

/-! ### Transitions (R113 to R115) -/

/-- Transition causes (R113). -/
inductive TransitionCause where
  | request | wake | resume | action
deriving DecidableEq, Repr

def transitionCode : TransitionCause → Nat
  | .request => 1 | .wake => 2 | .resume => 3 | .action => 4

/-- The settling record after a transition begins: a new run (R114), or a run superseded, its count staying at 65,535 once
there (R102, R115). -/
def nextSettling (old : Option Settling) (top : Fin 6) (tick : Tick) : Settling :=
  match old with
  | none => ⟨top, tick, 1⟩
  | some g => ⟨top, g.since, min 65535 (g.transitions + 1)⟩

/-- The PROFILE ENTERED notice (R113, R173). -/
def enteredPosting (before : Fin 6) (cause : TransitionCause) (k : Stack) : Posting :=
  ⟨.profileEntered, BitVec.ofNat 8 k.top.val, b1 before.val ++ b1 (transitionCode cause) ++ b1 k.depth⟩

/-- A transition begins: notice, settling record, and every block evaluates afresh (R113). `s0` is the state before the
change of stack or record, `s` the state with it. -/
def beginTransition (cause : TransitionCause) (s0 s : State) : State :=
  reevaluate .ordinary s0
    { s.post (enteredPosting s0.stack.top cause s.stack) with
      settling := some (nextSettling s.settling s.stack.top s.tick) }

/-- The stack with its top entry replaced (R106). -/
def Stack.replaceTop (k : Stack) (p : Fin 6) : Stack := { k with top := p }
/-- The stack with one entry more (R104). -/
def Stack.push (k : Stack) (p : Fin 6) : Stack := ⟨k.below ++ [k.top], p⟩

/-- The stack changed; a transition begins if the active profile is another (R106, R107). -/
def changeStack (cause : TransitionCause) (k : Stack) (s : State) : State :=
  if k.top = s.stack.top then { s with stack := k } else beginTransition cause s { s with stack := k }

/-! ### Wake events (R103, R104) -/

inductive WakeCause where
  | line (l : Fin 8)
  | pin
  | action (number : Byte)
deriving DecidableEq, Repr

inductive WakeResult where
  | none | same | stackFull | pushed
deriving DecidableEq, Repr

def wakeResultCode : WakeResult → Nat
  | .none => 0 | .same => 1 | .stackFull => 2 | .pushed => 3

/-- The active profile accepts the cause (R103). -/
def accepts (p : ProfileRec) : WakeCause → Bool
  | .line l => p.wakeMask.getLsbD l.val
  | .pin => p.wakeMask.getLsbD 8
  | .action _ => true

/-- The tests of R104 in their order. -/
def wakeResult (s : State) : WakeResult :=
  match s.active.wakeProfile with
  | none => .none
  | some w =>
    if w = s.stack.top then .same
    else if s.stack.depth ≥ Config.stackRoom then .stackFull
    else .pushed

/-- The stack after a wake event. -/
def wakeStack (s : State) : Stack :=
  match wakeResult s, s.active.wakeProfile with
  | .pushed, some w => s.stack.push w
  | _, _ => s.stack

/-- Subject and first detail of a WAKE notice (R173). -/
def wakeSubject : WakeCause → Nat × Byte
  | .line l => (l.val, 0#8)
  | .pin => (8, 0#8)
  | .action n => (9, n)

/-- The WAKE notice (R104, R173). -/
def wakePosting (c : WakeCause) (s : State) : Posting :=
  ⟨.wake, BitVec.ofNat 8 (wakeSubject c).1,
    [(wakeSubject c).2] ++ b1 s.stack.top.val ++ b1 (profileCode s.active.wakeProfile) ++ b1 (wakeResultCode (wakeResult s))
    ++ b1 (wakeStack s).depth⟩

/-- A wake event is taken: the notice, then the push with its transition (R104). -/
def wakeEvent (c : WakeCause) (s : State) : State := changeStack .wake (wakeStack s) (s.post (wakePosting c s))

/-- A wake cause is offered (R103). -/
def offerWake (c : WakeCause) (s : State) : State := if accepts s.active c then wakeEvent c s else s

/-! ### Requests on the stack (R106 to R109) -/

/-- PROFILE ENTER of a valid profile (R106, R117). -/
def enterProfile (cause : TransitionCause) (p : Fin 6) (s : State) : Done :=
  .ok (changeStack cause (s.stack.replaceTop p) s) []

def performProfileEnter (profile : Byte) (s : State) : Done :=
  match profileOfCode profile with
  | none => .refuse s .noSuch
  | some p => enterProfile .request p s

/-- The stack without its top entry, if another stands below (R107). -/
def Stack.pop (k : Stack) : Option Stack :=
  match k.below.getLast? with
  | none => none
  | some p => some ⟨k.below.dropLast, p⟩

/-- RESUME (R107, R117). -/
def resumeProfile (cause : TransitionCause) (s : State) : Done :=
  match s.stack.pop with
  | none => .refuse s .stackBottom
  | some k => .ok (changeStack cause k s) (b1 k.depth ++ b1 k.top.val)

def performResume (s : State) : Done := resumeProfile .resume s

/-- RESUME TARGET (R108). -/
def performResumeTarget (profile : Byte) (s : State) : Done :=
  match profileOfCode profile with
  | none => .refuse s .noSuch
  | some p =>
    if s.stack.below.isEmpty then .refuse s .stackBottom
    else .ok { s with stack := { s.stack with below := s.stack.below.dropLast ++ [p] } } []

/-- The six entry bytes, 0xFF beyond the depth. -/
def stackBytes (k : Stack) : List Byte :=
  (k.entries.map (fun p => BitVec.ofNat 8 p.val) ++ List.replicate 6 0xFF#8).take 6

/-- The settling fields of STACK QUERY (R109, section 11.4). -/
def settlingBytes (s : State) : List Byte :=
  match s.settling with
  | none => [0#8, 0xFF#8] ++ b4 0#32 ++ n2 0 ++ b1 0
  | some g => [1#8] ++ b1 g.profile.val ++ b4 g.since ++ n2 g.transitions
      ++ b1 (s.clk.outs.toList.filter OutRec.moving).length

def performStackQuery (s : State) : Done :=
  .ok s (b1 s.stack.depth ++ stackBytes s.stack ++ b1 s.stack.top.val ++ settlingBytes s)

/-! ### Requests on records (R110 to R112) -/

def allPolicies (b : Bank8 Byte) : Option (Bank8 Policy) :=
  match policyOfCode b.e0, policyOfCode b.e1, policyOfCode b.e2, policyOfCode b.e3, policyOfCode b.e4, policyOfCode b.e5,
    policyOfCode b.e6, policyOfCode b.e7 with
  | some p0, some p1, some p2, some p3, some p4, some p5, some p6, some p7 => some ⟨p0, p1, p2, p3, p4, p5, p6, p7⟩
  | _, _, _, _, _, _, _, _ => none

/-- A wake profile: P0 to P5 or NONE; the outer `none` is neither. -/
def wakeProfileOfCode (b : Byte) : Option (Option (Fin 6)) :=
  if b = 0xFF#8 then some none else (profileOfCode b).map some

/-- Check 2 of R110: the record, if every field is in its set. -/
def profileOfReq (r : ProfileSetReq) : Option ProfileRec :=
  match allPolicies r.policy, srcSetOfCode r.permitted, srcSetOfCode r.honour, wakeMaskOfCode r.wakeMask,
    wakeProfileOfCode r.wakeProfile with
  | some ps, some pm, some hn, some wm, some wp => some ⟨ps, pm, hn, wm, wp⟩
  | _, _, _, _, _ => none

def performProfileSet (r : ProfileSetReq) (s : State) : Done :=
  match profileOfCode r.profile with
  | none => .refuse s .noSuch
  | some p =>
    match profileOfReq r with
    | none => .refuse s .badValue
    | some q =>
      let s' := { s with profiles := s.profiles.set p q }
      .ok (if p = s.stack.top then beginTransition .request s s' else s') []

/-- The stack positions at which a profile stands, bottom first from 0 (R112). -/
def positionsOf (k : Stack) (p : Fin 6) : List Nat :=
  (List.zip (List.range k.depth) k.entries).filterMap fun x => if x.2 = p then some x.1 else none

def performProfileQuery (profile : Byte) (s : State) : Done :=
  match profileOfCode profile with
  | none => .refuse s .noSuch
  | some p =>
    .ok s (profileBytes p (s.profiles.get p) ++ [flag (decide (p = s.stack.top))] ++ b1 (positionsOf s.stack p).length
      ++ (positionsOf s.stack p).map (BitVec.ofNat 8))

/-! ### Meanings -/

def execProfileSet (tag : Byte) (r : ProfileSetReq) (s : State) : Host.Outcome State Fault Refusal :=
  .next (takeFrame tag 0x38#8 (performProfileSet r) s)
def execProfileQuery (tag profile : Byte) (s : State) : Host.Outcome State Fault Refusal :=
  .next (takeFrame tag 0x39#8 (performProfileQuery profile) s)
def execProfileEnter (tag profile : Byte) (s : State) : Host.Outcome State Fault Refusal :=
  .next (takeFrame tag 0x3A#8 (performProfileEnter profile) s)
def execResume (tag : Byte) (s : State) : Host.Outcome State Fault Refusal := .next (takeFrame tag 0x3B#8 performResume s)
def execResumeTarget (tag profile : Byte) (s : State) : Host.Outcome State Fault Refusal :=
  .next (takeFrame tag 0x3C#8 (performResumeTarget profile) s)
def execStackQuery (tag : Byte) (s : State) : Host.Outcome State Fault Refusal :=
  .next (takeFrame tag 0x3D#8 performStackQuery s)
/-- WAKE_PIN_EDGE, a rising edge on WAKE (R103). -/
def execWakePinEdge (s : State) : Host.Outcome State Fault Refusal := .next (whileRunning (offerWake .pin) s)

end Sys2Proof.Machine
end

