-- ==== Sys2Proof/Machine/Claims.lean ====
section
/-! DEFINITION. Machine/Claims.lean: the claim table and the claim lines (chapter 5). -/

namespace Sys2Proof.Machine

/-! ### The table (R81, R85, R92) -/

/-- The record is the claimant's on the output (R81). -/
def sameClaim (cl : Claimant) (o : Fin 8) (c : Claim) : Bool := decide (c.claimant = cl) && decide (c.output = o)

def hasClaim (cs : List Claim) (cl : Claimant) (o : Fin 8) : Bool := cs.any (sameClaim cl o)

/-- The record of the claimant and output removed. -/
def dropClaim (cs : List Claim) (cl : Claimant) (o : Fin 8) : List Claim := cs.filter fun c => !sameClaim cl o c
/-- Every record of the claimant removed. -/
def dropClaimant (cs : List Claim) (cl : Claimant) : List Claim := cs.filter fun c => decide (c.claimant ≠ cl)

/-- The claim's record refreshed in its place, or a new one added at the end (R81, R85). -/
def putClaim (cs : List Claim) (n : Claim) : List Claim :=
  if hasClaim cs n.claimant n.output then
    cs.map fun c => if sameClaim n.claimant n.output c then { n with created := c.created } else c
  else cs ++ [n]

/-- Step 2 of R92 for every pair: the line's record set to the pair's level, or added. -/
def addPairs (l : Fin 8) (tick : Tick) (ps : List MapPair) (cs : List Claim) : List Claim :=
  ps.foldl (fun cs p => putClaim cs ⟨.line l, p.output, p.level, none, none, tick⟩) cs

/-- Records of the line whose output is not in the map removed (R95). -/
def trimPairs (l : Fin 8) (ps : List MapPair) (cs : List Claim) : List Claim :=
  cs.filter fun c => decide (c.claimant ≠ .line l) || ps.any fun p => decide (p.output = c.output)

/-- Records of the line set to their pairs' levels, none added (second row of R95). -/
def relevelPairs (l : Fin 8) (ps : List MapPair) (cs : List Claim) : List Claim :=
  cs.map fun c => if c.claimant = .line l then
      match ps.find? fun p => decide (p.output = c.output) with
      | some p => { c with level := p.level }
      | none => c
    else c

/-! ### CLAIM (R84, R85) -/

/-- Level, lease and tag of a CLAIM, if level and lease are in range (check 4 of R84). -/
structure ClaimTerms where
  level : Level
  lease : Option Nat
  tag : Option Half
deriving DecidableEq, Repr

def claimTerms (r : ClaimReq) : Option ClaimTerms :=
  if r.options &&& 0xF8#8 ≠ 0#8 then none
  else if r.options.getLsbD 1 && !inRange 10 3600000 r.lease.toNat then none
  else some {
    level := if r.options.getLsbD 0 then .hold else .run
    lease := if r.options.getLsbD 1 then some r.lease.toNat else none
    tag := if r.options.getLsbD 2 then some r.tag else none }

/-- The record a CLAIM places in the present tick (R85). -/
def claimRecord (s : State) (n : Byte) (o : Fin 8) (t : ClaimTerms) : Claim :=
  ⟨.soft n, o, t.level, t.lease.map (dueIn s.tick), t.tag, s.tick⟩

/-- A change of the table handed on (R83). -/
def setClaims (s : State) (cs : List Claim) : State := reevaluate .ordinary s { s with claims := cs }

def performClaim (r : ClaimReq) (s : State) : Done :=
  match claimantOfCode r.claimant with
  | .line => .refuse s .notPermitted
  | .bad => .refuse s .badValue
  | .soft n =>
    match eightOfCode r.output with
    | none => .refuse s .noSuch
    | some o =>
      match claimTerms r with
      | none => .refuse s .badValue
      | some t =>
        let refresh := hasClaim s.claims (.soft n) o
        if !refresh && !softRoom s then .refuse s .full
        else
          let s' := setClaims s (putClaim s.claims (claimRecord s n o t))
          .ok s' [flag (!refresh), flag (s'.wants o)]

/-! ### RELEASE and RELEASE ALL (R88, R89) -/

/-- Removal of one soft record; RELEASE of an action comes in here too (R88, R128). -/
def releaseOne (n : Byte) (o : Fin 8) (s : State) : Done :=
  if hasClaim s.claims (.soft n) o then
    let s' := setClaims s (dropClaim s.claims (.soft n) o)
    .ok s' [flag (s'.wants o)]
  else .refuse s .noClaim

/-- Removal of every record of a soft claimant (R89, R128). -/
def releaseEvery (n : Byte) (s : State) : Done :=
  .ok (setClaims s (dropClaimant s.claims (.soft n)))
    (b1 (s.claims.length - (dropClaimant s.claims (.soft n)).length))

def performRelease (claimant : Half) (output : Byte) (s : State) : Done :=
  match claimantOfCode claimant with
  | .line => .refuse s .notPermitted
  | .bad => .refuse s .badValue
  | .soft n =>
    match eightOfCode output with
    | none => .refuse s .noSuch
    | some o => releaseOne n o s

def performReleaseAll (claimant : Half) (s : State) : Done :=
  match claimantOfCode claimant with
  | .line => .refuse s .notPermitted
  | .bad => .refuse s .badValue
  | .soft n => releaseEvery n s

/-! ### CLAIM LIST (R90) -/

/-- Up to 8 items from a position on. -/
def page {α : Type} (first : Nat) (xs : List α) : List α := (xs.drop first).take Config.listRoom

def performClaimList (first : Byte) (s : State) : Done :=
  if first.toNat > 31 then .refuse s .badValue
  else .ok s (b1 s.claims.length ++ b1 (softCount s.claims) ++ b1 (mappedTotal s.lines) ++ [first]
    ++ b1 (page first.toNat s.claims).length ++ (page first.toNat s.claims).flatMap claimBytes)

/-! ### Lease expiry (R86) -/

/-- The CLAIM EXPIRED notice (R86, R173). -/
def expiredPosting (n : Byte) (c : Claim) : Posting :=
  ⟨.claimExpired, n, b1 c.output.val ++ b1 (levelCode c.level) ++ [flag c.tag.isSome] ++ opt2 c.tag⟩

/-- The lease timer of the record is reached (R86, R121). -/
def leaseDue (s : State) (c : Claim) : Bool :=
  match c.lease with
  | some u => reached s.tick u
  | none => false

/-- The record is removed and its notice posted, then the removal is handed on (R86; log 2). -/
def expireLease (n : Byte) (o : Fin 8) (s : State) : State :=
  match s.claims.find? (sameClaim (.soft n) o) with
  | some c => if leaseDue s c then
      reevaluate .ordinary s { s.post (expiredPosting n c) with claims := dropClaim s.claims (.soft n) o }
    else s
  | none => s

/-! ### Lines (R91 to R95) -/

def State.line (s : State) (l : Fin 8) : LineRec := s.lines.get l
def State.putLine (s : State) (l : Fin 8) (r : LineRec) : State := { s with lines := s.lines.set l r }

/-- The line is active at its pin level (R91). -/
def LineRec.atActive (r : LineRec) : Bool := decide (r.pinHigh = r.set.activeHigh)

/-- Steps 1 and 2 of R92: the hold ends and the pairs' records are there. -/
def lineOn (l : Fin 8) (s : State) : State :=
  { (s.putLine l { s.line l with active := true, hold := none }) with
    claims := addPairs l s.tick (s.line l).set.map s.claims }

/-- The deactivation of R93: the records go at once, or the hold timer starts. -/
def lineOff (l : Fin 8) (s : State) : State :=
  let r := s.line l
  if r.set.holdTime = 0 then
    { (s.putLine l { r with active := false }) with claims := dropClaimant s.claims (.line l) }
  else s.putLine l { r with active := false, hold := some (dueIn s.tick r.set.holdTime) }

/-- LINE_ACTIVATION: the pin goes to the active level (R91, R92); a line that is active already has no activation (log 29).
The notices of the claims' change, PROFILE SETTLED included, stand before the wake event (R103; log 15), and none of them is made one with
a notice of the pushed profile's changes (R55; log 14). -/
def activateLine (l : Fin 8) (s : State) : State :=
  if (s.line l).active then s
  else
    let s' := lineOn l (s.putLine l { s.line l with pinHigh := (s.line l).set.activeHigh })
    offerWake (.line l) (reevaluate .ordinary s s').testSettled

/-- LINE_DEACTIVATION: the pin leaves the active level (R91, R93). -/
def deactivateLine (l : Fin 8) (s : State) : State :=
  if (s.line l).active then
    reevaluate .ordinary s (lineOff l (s.putLine l { s.line l with pinHigh := !(s.line l).set.activeHigh }))
  else s

/-- The hold timer is reached (R121). -/
def holdDue (s : State) (l : Fin 8) : Bool :=
  match (s.line l).hold with
  | some u => reached s.tick u
  | none => false

/-- HOLD_EXPIRY (R93). -/
def expireHold (l : Fin 8) (s : State) : State :=
  if holdDue s l then
    reevaluate .ordinary s
      { (s.putLine l { s.line l with hold := none }) with claims := dropClaimant s.claims (.line l) }
  else s

/-! ### LINE MAP SET (R94, R95) -/

def pairOfRaw (r : RawPair) : Option MapPair :=
  match eightOfCode r.output, levelOfCode r.level with
  | some o, some v => some ⟨o, v⟩
  | _, _ => none

def distinctOutputs : List MapPair → Bool
  | [] => true
  | p :: ps => (ps.all fun q => decide (q.output ≠ p.output)) && distinctOutputs ps

/-- Check 2 of R94: the settings, if every field is in range. -/
def lineOfReq (r : LineMapReq) : Option LineSettings :=
  match allSome pairOfRaw r.pairs, yesNoOfCode r.activeLevel with
  | some ps, some high =>
    if decide (ps.length ≤ 8) && distinctOutputs ps && decide (r.holdTime.toNat ≤ 1000)
    then some ⟨ps, high, r.holdTime.toNat⟩ else none
  | _, _ => none

/-- The rows of R95, with the line's new settings in place; `was` tells whether the line was active. -/
def remapLine (l : Fin 8) (was : Bool) (s : State) : State :=
  let r := s.line l
  let ps := r.set.map
  match was, r.atActive with
  | true, true => { s with claims := trimPairs l ps (addPairs l s.tick ps s.claims) }
  | true, false => lineOff l { s with claims := trimPairs l ps (addPairs l s.tick ps s.claims) }
  | false, false => { s with claims := relevelPairs l ps (trimPairs l ps s.claims) }
  | false, true => lineOn l { s with claims := relevelPairs l ps (trimPairs l ps s.claims) }

def performLineMapSet (r : LineMapReq) (s : State) : Done :=
  match eightOfCode r.line with
  | none => .refuse s .noSuch
  | some l =>
    match lineOfReq r with
    | none => .refuse s .badValue
    | some g =>
      let s' := s.putLine l { s.line l with set := g }
      if mappedTotal s'.lines > Config.mappedRoom then .refuse s .full
      else if softCount s.claims > Config.claimRoom - mappedTotal s'.lines then .refuse s .full
      else .ok (reevaluate .ordinary s (remapLine l (s.line l).active s')) []

/-! ### LINE QUERY (R96) -/

/-- Records the line claimant holds. -/
def lineCount (cs : List Claim) (l : Fin 8) : Nat := (cs.filter fun c => decide (c.claimant = .line l)).length

/-- The reply of LINE QUERY; the pin level is sent as 1 for a high pin and 0 for a low one (log 45), and the ticks remaining as 0
while the hold state is IDLE (log 26). -/
def lineBytes (s : State) (l : Fin 8) : List Byte :=
  let r := s.line l
  [flag r.pinHigh, flag r.active, flag r.hold.isSome]
  ++ n2 (match r.hold with | some u => (ticksLeft s.tick u).toNat | none => 0)
  ++ [flag r.set.activeHigh] ++ n2 r.set.holdTime ++ b1 (lineCount s.claims l) ++ b1 (mappedTotal s.lines)
  ++ b1 (softCount s.claims) ++ b1 r.set.map.length ++ pairBytes r.set.map

def performLineQuery (line : Byte) (s : State) : Done :=
  match eightOfCode line with
  | none => .refuse s .noSuch
  | some l => .ok s (lineBytes s l)

/-! ### Meanings -/

def execClaim (tag : Byte) (r : ClaimReq) (s : State) : Host.Outcome State Fault Refusal :=
  .next (takeFrame tag 0x30#8 (performClaim r) s)
def execRelease (tag : Byte) (claimant : Half) (output : Byte) (s : State) : Host.Outcome State Fault Refusal :=
  .next (takeFrame tag 0x31#8 (performRelease claimant output) s)
def execReleaseAll (tag : Byte) (claimant : Half) (s : State) : Host.Outcome State Fault Refusal :=
  .next (takeFrame tag 0x32#8 (performReleaseAll claimant) s)
def execClaimList (tag first : Byte) (s : State) : Host.Outcome State Fault Refusal :=
  .next (takeFrame tag 0x33#8 (performClaimList first) s)
def execLineMapSet (tag : Byte) (r : LineMapReq) (s : State) : Host.Outcome State Fault Refusal :=
  .next (takeFrame tag 0x34#8 (performLineMapSet r) s)
def execLineQuery (tag line : Byte) (s : State) : Host.Outcome State Fault Refusal :=
  .next (takeFrame tag 0x35#8 (performLineQuery line) s)
/-- LEASE_EXPIRY (R86). -/
def execLeaseExpiry (claimant : Byte) (o : Fin 8) (s : State) : Host.Outcome State Fault Refusal :=
  .next (whileRunning (expireLease claimant o) s)
/-- LINE_ACTIVATION (R92). -/
def execLineActivation (l : Fin 8) (s : State) : Host.Outcome State Fault Refusal :=
  .next (whileRunning (activateLine l) s)
/-- LINE_DEACTIVATION (R93). -/
def execLineDeactivation (l : Fin 8) (s : State) : Host.Outcome State Fault Refusal :=
  .next (whileRunning (deactivateLine l) s)
/-- HOLD_EXPIRY (R93). -/
def execHoldExpiry (l : Fin 8) (s : State) : Host.Outcome State Fault Refusal := .next (whileRunning (expireHold l) s)

end Sys2Proof.Machine
end

