-- ==== Sys2Proof/Machine/Actions.lean ====
section
/-! DEFINITION. Machine/Actions.lean: the timebase and the action list (chapter 7). -/

namespace Sys2Proof.Machine

/-! ### The list (R124) -/

/-- An action with due tick `u` stands before one with due tick `v` (R124). -/
def dueBefore (u v : Tick) : Bool := decide (1 ≤ (v - u).toNat) && decide ((v - u).toNat < 2 ^ 31)

/-- The waiting action `x` stays ahead of a new one with due tick `u` (R124). -/
def staysAhead (now u : Tick) (x : Action) : Bool :=
  reached now x.due || (!reached now u && !dueBefore u x.due)

/-- The place of an action that enters the list (R124). -/
def insertAction (now : Tick) (a : Action) : List Action → List Action
  | [] => [a]
  | x :: xs => if staysAhead now a.due x then x :: insertAction now a xs else a :: x :: xs

/-! ### ACTION ADD (R125, R126) -/

/-- Checks 2 and 3 of R125: the kind with its operands in range. -/
def actionKindOfReq (r : ActionAddReq) : Option ActionKind :=
  match r.kind.toNat with
  | 1 => (profileOfCode r.op0).map .enter
  | 2 => some .wake
  | 3 => some .resume
  | 4 => match claimantOfCode (half r.op0 r.op1) with
    | .soft n => if r.op2 = 0xFF#8 then some (.release n none) else (eightOfCode r.op2).map fun o => .release n (some o)
    | .line => none
    | .bad => none
  | 5 => match eightOfCode r.op0, entryOfCode r.op1 with
    | some o, some i => some (.select o i)
    | _, _ => none
  | 6 => some (.remind (half r.op0 r.op1))
  | _ => none

/-- Check 4 of R125 and the due tick of R126. -/
def dueOfReq (now : Tick) (r : ActionAddReq) : Option Tick :=
  match r.whenForm.toNat with
  | 0 => if r.value.toNat ≤ 2147483647 then some (now + r.value) else none
  | 1 => some r.value
  | _ => none

/-- Check 5 of R125; 0 is the absent period. -/
def periodOfReq (r : ActionAddReq) : Option (Option Nat) :=
  if r.period.toNat = 0 then some none
  else if inRange 10 86400000 r.period.toNat then some (some r.period.toNat) else none

/-- Checks 1 to 5 of R125. -/
def actionOfReq (now : Tick) (r : ActionAddReq) : Option Action :=
  match actionKindOfReq r, dueOfReq now r, periodOfReq r with
  | some k, some u, some p => if r.number.toNat = 0 then none else some ⟨r.number, u, p, k⟩
  | _, _, _ => none

def hasAction (as : List Action) (n : Byte) : Bool := as.any fun a => decide (a.number = n)

def performActionAdd (r : ActionAddReq) (s : State) : Done :=
  match actionOfReq s.tick r with
  | none => .refuse s .badValue
  | some a =>
    if hasAction s.actions a.number then .refuse s .duplicate
    else if s.actions.length ≥ Config.actionRoom then .refuse s .full
    else
      let l := insertAction s.tick a s.actions
      .ok { s with actions := l } (b4 a.due ++ b1 l.length)

/-! ### ACTION CANCEL and ACTION LIST (R130, R131) -/

def performActionCancel (number : Byte) (s : State) : Done :=
  if number.toNat = 0 then .refuse s .badValue
  else match s.actions.find? fun a => decide (a.number = number) with
    | none => .refuse s .noSuch
    | some a => .ok { s with actions := s.actions.filter fun x => decide (x.number ≠ number) } (b4 a.due)

def performActionList (first : Byte) (s : State) : Done :=
  if first.toNat > 15 then .refuse s .badValue
  else .ok s (b4 s.tick ++ b1 s.actions.length ++ [first] ++ b1 (page first.toNat s.actions).length
    ++ (page first.toNat s.actions).flatMap actionBytes)

/-! ### TIME QUERY (R123) -/

def timeBytes (s : State) : List Byte :=
  b4 s.tick ++ b4 s.clk.mon.surveyNumber ++ b1 (rcoStateCode s.clk.src.rco.state) ++ b1 s.actions.length
  ++ [flag (!s.actions.isEmpty)] ++ opt4 (s.actions.head?.map Action.due)

def performTimeQuery (s : State) : Done := .ok s (timeBytes s)

/-! ### Firing (R127 to R129) -/

/-- R128: what each kind performs, with its status. -/
def performAction (a : Action) (s : State) : Done :=
  match a.kind with
  | .enter p => enterProfile .action p s
  | .wake => ⟨wakeEvent (.action a.number) s, if wakeResult s = .stackFull then .full else .ok, []⟩
  | .resume => resumeProfile .action s
  | .release n none => releaseEvery n s
  | .release n (some o) => releaseOne n o s
  | .select o i => selectOutput o i s
  | .remind _ => .ok s []

/-- How often the period is added: until the due tick lies ahead (R129). -/
def additions (now due : Tick) (period : Nat) : Nat := (now - due).toNat / period + 1

/-- The skipped count (R129). -/
def skippedCount (now due : Tick) (period : Nat) : Nat := min 65535 (additions now due period - 1)

/-- The action with its next due tick (R129). -/
def nextOccurrence (now : Tick) (a : Action) : Option Action :=
  a.period.map fun p => { a with due := dueIn a.due (additions now a.due p * p) }

/-- The list after step 3 of R127. -/
def reinsert (now : Tick) (a : Action) (l : List Action) : List Action :=
  match nextOccurrence now a with
  | some b => insertAction now b l
  | none => l

/-- The ACTION DONE notice (R127, R173). -/
def donePosting (now : Tick) (a : Action) (st : Status) : Posting :=
  let next := (nextOccurrence now a).map Action.due
  ⟨.actionDone, a.number,
    b1 (actionKindCode a.kind) ++ [st.code] ++ [flag next.isSome] ++ b4 a.due
    ++ n2 (match a.period with | some p => skippedCount now a.due p | none => 0) ++ opt4 next
    ++ b2 (match a.kind with | .remind v => v | _ => 0#16)⟩

/-- The settling test of the outputs that a performance has moved, whose notice stands before ACTION DONE (R114, R127). The
kinds that may begin a transition have it at the end of the event (log 15). -/
def settleAction (a : Action) (s : State) : State :=
  match a.kind with
  | .release _ _ => s.testSettled
  | .select _ _ => s.testSettled
  | _ => s

/-- The four steps of R127 on the head of the list. -/
def fireAction (a : Action) (rest : List Action) (s : State) : State :=
  let d := performAction a { s with actions := rest }
  let t := settleAction a d.state
  { t with actions := reinsert s.tick a t.actions }.post (donePosting s.tick a d.status)

/-- The head of the list fires if its due tick is reached (R127; log 2). -/
def fireHead (s : State) : State :=
  match s.actions with
  | [] => s
  | a :: rest => if reached s.tick a.due then fireAction a rest s else s

/-! ### Meanings -/

def execTimeQuery (tag : Byte) (s : State) : Host.Outcome State Fault Refusal :=
  .next (takeFrame tag 0x40#8 performTimeQuery s)
def execActionAdd (tag : Byte) (r : ActionAddReq) (s : State) : Host.Outcome State Fault Refusal :=
  .next (takeFrame tag 0x41#8 (performActionAdd r) s)
def execActionCancel (tag number : Byte) (s : State) : Host.Outcome State Fault Refusal :=
  .next (takeFrame tag 0x42#8 (performActionCancel number) s)
def execActionList (tag first : Byte) (s : State) : Host.Outcome State Fault Refusal :=
  .next (takeFrame tag 0x43#8 (performActionList first) s)
/-- TICK (R120). -/
def execTick (s : State) : Host.Outcome State Fault Refusal :=
  .next (whileRunning (fun s => { s with tick := s.tick + 1#32 }) s)
/-- ACTION_FIRING (R127). -/
def execActionFiring (s : State) : Host.Outcome State Fault Refusal := .next (whileRunning fireHead s)

end Sys2Proof.Machine
end

