-- ==== Sys2Proof/Machine/NoticeQueue.lean ====
section
/-! DEFINITION. Machine/NoticeQueue.lean: the requests on the notice queue (R166 to R168). -/

namespace Sys2Proof.Machine

/-- How many records stand up to and including the one numbered `n`, if one carries `n` (R166). -/
def countThrough (n : Half) : List NoticeRec → Option Nat
  | [] => none
  | r :: rs => if r.number = n then some 1 else (countThrough n rs).map (· + 1)

def performNoticeAck (n : Half) (s : State) : Done :=
  if n = 0#16 then .refuse s .badValue
  else match countThrough n s.notices.records with
    | none => .refuse s .noSuch
    | some k =>
      let q := ({ s.notices with records := s.notices.records.drop k }).testLost s.tick
      .ok { s with notices := q } (b1 k ++ b1 q.records.length)

def performNoticeResend (s : State) : Done :=
  .ok { s with notices := s.notices.unsend } (b1 s.notices.records.length)

/-- A set bit at 0 or at 13 to 15 names no kind (R168, R173). -/
def performNoticeFilter (f : Half) (s : State) : Done :=
  if f &&& 0xE001#16 ≠ 0#16 then .refuse s .badValue
  else .ok { s with notices := { s.notices with filter := f } } (b2 f)

/-! ### Meanings -/

def execNoticeAck (tag : Byte) (n : Half) (s : State) : Host.Outcome State Fault Refusal :=
  .next (takeFrame tag 0x48#8 (performNoticeAck n) s)
def execNoticeResend (tag : Byte) (s : State) : Host.Outcome State Fault Refusal :=
  .next (takeFrame tag 0x49#8 performNoticeResend s)
def execNoticeFilter (tag : Byte) (f : Half) (s : State) : Host.Outcome State Fault Refusal :=
  .next (takeFrame tag 0x4A#8 (performNoticeFilter f) s)

end Sys2Proof.Machine
end

