-- ==== Sys2Proof/Machine/Images.lean ====
section
/-! DEFINITION. Machine/Images.lean: the image store: judging and choosing slots (R137, R138), saving (R141, R142), IMAGE INFO (R144). -/

namespace Sys2Proof.Machine

/-! ### Reading slots in SELECT (R137, R138) -/

/-- The judgement of a written slot by its fields (R137). -/
def judgeImage (i : StoredImage) : SlotRecord :=
  if i.format ≠ Config.formatCode ∨ i.generation = 0#32 then .invalid .format
  else if i.crc ≠ imageCrc i.format i.generation i.startProfile i.body then .invalid .crc
  else .valid i.generation i.startProfile

/-- The judgement of a slot (R137). -/
def judgeSlot (abandoned : Bool) (c : SlotContents) : SlotRecord :=
  if abandoned then .invalid .abandoned
  else match c with
    | .erased => .invalid .erased
    | .unfinished => .invalid .format
    | .written i => judgeImage i

/-- The newest valid image: slot and generation, A when equal (R138). -/
def newestValid (r : Bank2 SlotRecord) : Option (Bool × Word) :=
  match r.a, r.b with
  | .valid g _, .valid h _ => if g.toNat < h.toNat then some (true, h) else some (false, g)
  | .valid g _, .invalid _ => some (false, g)
  | .invalid _, .valid h _ => some (true, h)
  | .invalid _, .invalid _ => none

/-- R138. -/
def chooseSlot (r : Bank2 SlotRecord) : Chosen :=
  match newestValid r with
  | some (b, g) => .slot b g
  | none => .builtIn

/-- The configuration and start profile that APPLY hands on (R136, R140). -/
def chosenConfig (m : ImageStore) (c : Chosen) : BoardConfig × Fin 6 :=
  match c with
  | .slot b _ => match m.contents.get b with
    | .written i => (i.body, i.startProfile)
    | _ => (defaultConfig, 0)
  | .builtIn => (defaultConfig, 0)

/-! ### IMAGE SAVE (R141) -/

/-- The configuration the host has set, as the image holds it (R139). -/
def liveConfig (s : State) : BoardConfig where
  osc := .ofFn fun o => (s.osc o).cfg
  syn := s.clk.src.syn
  monitor := s.clk.mon.settings
  outs := .ofFn fun o => (s.out o).cfg
  chains := s.chains
  lines := .ofFn fun l => (s.line l).set
  profiles := s.profiles
  filter := s.notices.filter

/-- A slot is VALID with the last generation (check 3 of R141). -/
def generationsUsedUp (r : Bank2 SlotRecord) : Bool :=
  let isLast : SlotRecord → Bool
    | .valid g _ => decide (g = 0xFFFFFFFF#32)
    | .invalid _ => false
  isLast r.a || isLast r.b

/-- Target slot and new generation (R141). -/
def saveTarget (r : Bank2 SlotRecord) : Bool × Word :=
  match newestValid r with
  | some (b, g) => (!b, g + 1#32)
  | none => (false, 1#32)

/-- What a slot holds while it is being erased: an erased one stays so (log 23). -/
def erasing : SlotContents → SlotContents
  | .erased => .erased
  | _ => .unfinished

/-- ERASE begins: the target slot is INVALID, SAVING (R141, R142). -/
def beginSave (m : ImageStore) (p : Fin 6) (c : BoardConfig) : ImageStore :=
  let t := saveTarget m.records
  { m with
    contents := m.contents.set t.1 (erasing (m.contents.get t.1))
    records := m.records.set t.1 (.invalid .saving)
    save := some ⟨.erase, t.1, t.2, p, c⟩ }

def performImageSave (profile : Byte) (s : State) : Done :=
  match profileOfCode profile with
  | none => .refuse s .noSuch
  | some p =>
    if s.image.save.isSome then .refuse s .busy
    else if generationsUsedUp s.image.records then .refuse s .notPermitted
    else ⟨{ s with image := beginSave s.image p (liveConfig s) }, .accepted,
      b1 (slotCode (saveTarget s.image.records).1) ++ b4 (saveTarget s.image.records).2⟩

/-! ### The phases of a save (R142) -/

/-- The image WRITE leaves: every field but the format code. -/
def writtenImage (v : Save) : StoredImage :=
  ⟨Config.erasedByte, v.generation, v.startProfile, v.buffer,
    imageCrc Config.formatCode v.generation v.startProfile v.buffer⟩

/-- ERASE ends and WRITE begins. -/
def endErase (m : ImageStore) : ImageStore :=
  match m.save with
  | some ⟨.erase, b, g, p, c⟩ => { m with contents := m.contents.set b .unfinished, save := some ⟨.write, b, g, p, c⟩ }
  | _ => m

/-- WRITE ends and CHECK begins. -/
def endWrite (m : ImageStore) : ImageStore :=
  match m.save with
  | some ⟨.write, b, g, p, c⟩ =>
    { m with contents := m.contents.set b (.written (writtenImage ⟨.write, b, g, p, c⟩)), save := some ⟨.check, b, g, p, c⟩ }
  | _ => m

/-- A successful CHECK: the format code is written, and the slot is VALID. -/
def saveSucceeded (m : ImageStore) (v : Save) : ImageStore where
  contents := m.contents.set v.slot (.written { writtenImage v with format := Config.formatCode })
  records := m.records.set v.slot (.valid v.generation v.startProfile)
  save := none
  lastSave := some ⟨.saved, v.slot, v.generation⟩

/-- A failed CHECK: no format code, the slot INVALID with reason CHECK. -/
def saveFailed (m : ImageStore) (v : Save) : ImageStore where
  contents := m.contents
  records := m.records.set v.slot (.invalid .check)
  save := none
  lastSave := some ⟨.failed, v.slot, v.generation⟩

/-- The notice of a save's end (R142, R173). -/
def savePosting (good : Bool) (v : Save) : Posting :=
  if good then ⟨.imageSaved, BitVec.ofNat 8 (slotCode v.slot), b4 v.generation⟩
  else ⟨.imageFailed, BitVec.ofNat 8 (slotCode v.slot), b1 (slotReasonCode .check)⟩

/-- CHECK ends with its outcome (R142; log 25). -/
def endCheck (good : Bool) (s : State) : State :=
  match s.image.save with
  | some v =>
    if v.phase = .check then
      { s with image := if good then saveSucceeded s.image v else saveFailed s.image v }.post (savePosting good v)
    else s
  | none => s

/-! ### IMAGE INFO (R144) -/

/-- Status, reason, generation and start profile of a slot (log 26). -/
def slotBytes : SlotRecord → List Byte
  | .valid g p => b1 1 ++ b1 0 ++ b4 g ++ b1 p.val
  | .invalid r => b1 0 ++ b1 (slotReasonCode r) ++ b4 0#32 ++ b1 0xFF

/-- Cause, slot and generation of the start record. -/
def startBytes (r : StartRecord) : List Byte := b1 (causeCode r.cause) ++ b1 (chosenCode r.chosen) ++ b4 (chosenGeneration r.chosen)

/-- Save phase, target slot and new generation; 0 while IDLE (log 26). -/
def saveBytes : Option Save → List Byte
  | some v => b1 (savePhaseCode v.phase) ++ b1 (slotCode v.slot) ++ b4 v.generation
  | none => b1 0 ++ b1 0 ++ b4 0#32

/-- The last-save record; 0 while NONE (log 26). -/
def lastSaveBytes : Option LastSave → List Byte
  | some v => b1 (saveOutcomeCode v.outcome) ++ b1 (slotCode v.slot) ++ b4 v.generation
  | none => b1 0 ++ b1 0 ++ b4 0#32

def performImageInfo (s : State) : Done :=
  .ok s (slotBytes s.image.records.a ++ slotBytes s.image.records.b ++ startBytes s.startup.record
    ++ saveBytes s.image.save ++ lastSaveBytes s.image.lastSave)

/-! ### Meanings -/

def execImageSave (tag profile : Byte) (s : State) : Host.Outcome State Fault Refusal :=
  .next (takeFrame tag 0x50#8 (performImageSave profile) s)
def execImageInfo (tag : Byte) (s : State) : Host.Outcome State Fault Refusal :=
  .next (takeFrame tag 0x51#8 performImageInfo s)
/-- ERASE_COMPLETE (R142). -/
def execEraseComplete (s : State) : Host.Outcome State Fault Refusal :=
  .next (whileRunning (fun s => { s with image := endErase s.image }) s)
/-- WRITE_COMPLETE (R142). -/
def execWriteComplete (s : State) : Host.Outcome State Fault Refusal :=
  .next (whileRunning (fun s => { s with image := endWrite s.image }) s)
/-- CHECK_COMPLETE (R142). -/
def execCheckComplete (good : Bool) (s : State) : Host.Outcome State Fault Refusal :=
  .next (whileRunning (endCheck good) s)

end Sys2Proof.Machine
end

