-- ==== Sys2Proof/Machine/Survey.lean ====
section
/-! DEFINITION. Machine/Survey.lean: the rate monitor: surveys, results, consensus, counting and verdicts (R23 to R31), and its
requests (R35, R36). -/

namespace Sys2Proof.Machine

/-! ### Beginning a survey (R23, R24) -/

/-- A record at the beginning of a survey: counter from 0, mark from the state, expected count fixed. -/
def OscMonitor.begin (m : OscMonitor) (st : OscState) (hz period : Nat) : OscMonitor :=
  { m with edges := 0#32, mark := monitored st, expected := expectedCount hz period }

/-- A survey begins (R23, R24). -/
def beginSurvey (tick : Tick) (k : Clocks) : Clocks :=
  { k with mon := { k.mon with
      surveyStart := tick
      osc := k.mon.osc.mapIdx fun o m => m.begin (k.src.osc.get o).state (nominal k.src (.osc o)) k.mon.settings.period } }

/-! ### Results (R25) and directions (R26) -/

/-- R25, the tests in their order. -/
def surveyResult (count expected tol : Nat) : SurveyResult :=
  if count * 8 < expected then .stopped
  else if count * 1000 < expected * (1000 - tol) then .slow
  else if count * 1000 > expected * (1000 + tol) then .fast
  else .good

inductive Direction where
  | fast | slow | within
deriving DecidableEq, Repr

/-- The direction of a witness against the consensus threshold (R26). -/
def direction (count expected thr : Nat) (res : SurveyResult) : Direction :=
  if count * 1000 > expected * (1000 + thr) then .fast
  else if decide (res = .stopped) || decide (count * 1000 < expected * (1000 - thr)) then .slow
  else .within

/-- RCO's consensus result, NONE with fewer than two witnesses (R27). -/
def consensus (ds : List Direction) : SurveyResult :=
  if ds.length < 2 then .none
  else if ds.all fun d => decide (d = .fast) then .slow
  else if ds.all fun d => decide (d = .slow) then .fast
  else .good

/-! ### Counting (R29, R30, R31) -/

inductive Verdict where
  | verified | degraded | recovered | failed (k : FaultKind)
deriving DecidableEq, Repr

/-- The kind of a FAILED verdict is the result of the survey that completed it (R25). -/
def resultKindOf : SurveyResult → FaultKind
  | .slow => .slow
  | .fast => .fast
  | _ => .stopped

/-- Good, bad and verify counts with the verdict they give. -/
structure Counted where
  good : Nat
  bad : Nat
  verify : Nat
  verdict : Option Verdict
deriving DecidableEq, Repr

/-- R29: a source in VERIFYING. -/
def countVerifying (j : JudgeSettings) (m : OscMonitor) (res : SurveyResult) : Counted :=
  let n := m.verify + 1
  if res = .good then
    if m.good + 1 ≥ j.k then ⟨0, 0, 0, some .verified⟩
    else ⟨m.good + 1, 0, n, if n ≥ Config.verifyLimit then some (.failed .unstable) else none⟩
  else
    ⟨0, m.bad + 1, n,
      if m.bad + 1 ≥ j.f then some (.failed (resultKindOf res))
      else if n ≥ Config.verifyLimit then some (.failed .unstable) else none⟩

/-- R30: a source in RUNNING. -/
def countRunning (j : JudgeSettings) (m : OscMonitor) (res : SurveyResult) : Counted :=
  if res = .good then ⟨m.good, m.bad, m.verify, none⟩
  else ⟨0, 1, m.verify, some (if j.f ≤ 1 then .failed (resultKindOf res) else .degraded)⟩

/-- R30: a source in SUSPECT. -/
def countSuspect (j : JudgeSettings) (m : OscMonitor) (res : SurveyResult) : Counted :=
  if res = .good then
    if m.good + 1 ≥ j.k then ⟨0, 0, m.verify, some .recovered⟩ else ⟨m.good + 1, m.bad, m.verify, none⟩
  else ⟨0, m.bad + 1, m.verify, if m.bad + 1 ≥ j.f then some (.failed (resultKindOf res)) else none⟩

/-- A JUDGED source counted by its state; one that has left the monitored states is not counted (R30). -/
def countOsc (j : JudgeSettings) (st : OscState) (m : OscMonitor) (res : SurveyResult) : Counted :=
  match st with
  | .verifying => countVerifying j m res
  | .running => countRunning j m res
  | .suspect => countSuspect j m res
  | _ => ⟨m.good, m.bad, m.verify, none⟩

/-- What RCO's consensus result does: counts, and RCO's new state when a verdict moves it (R13, R31). -/
structure RcoCounted where
  good : Nat
  bad : Nat
  move : Option RcoState
deriving DecidableEq, Repr

/-- R31. Both counts are 0 after a change of state, but for the entry into SUSPECT: bad 1, good 0. -/
def countRco (j : JudgeSettings) (st : RcoState) (good bad : Nat) (res : SurveyResult) : RcoCounted :=
  match st, decide (res = .good) with
  | .unchecked, true => if good + 1 ≥ j.k then ⟨0, 0, some .running⟩ else ⟨good + 1, 0, none⟩
  | .unchecked, false => if bad + 1 ≥ j.f then ⟨0, 0, some .faulted⟩ else ⟨0, bad + 1, none⟩
  | .running, true => ⟨good, bad, none⟩
  | .running, false => if j.f ≤ 1 then ⟨0, 0, some .faulted⟩ else ⟨0, 1, some .suspect⟩
  | .suspect, true => if good + 1 ≥ j.k then ⟨0, 0, some .running⟩ else ⟨good + 1, bad, none⟩
  | .suspect, false => if bad + 1 ≥ j.f then ⟨0, 0, some .faulted⟩ else ⟨0, bad + 1, none⟩
  | .faulted, true => if good + 1 ≥ j.k then ⟨0, 0, some .running⟩ else ⟨good + 1, bad, none⟩
  | .faulted, false => ⟨0, bad, none⟩

/-! ### The completion of a survey, in the order of R30 -/

/-- One source's capture: the count and its result (R23, R25). -/
structure Captured where
  count : Word
  result : SurveyResult
deriving DecidableEq, Repr

/-- Step 1: the counts of the sources with the mark, with their results; `edges` is what the counters have counted since
they were last read (R23; log 5). -/
def captures (k : Clocks) (edges : BankOsc Word) : BankOsc (Option Captured) :=
  k.mon.osc.mapIdx fun o m =>
    if m.mark then
      let count := m.edges + edges.get o
      some ⟨count, surveyResult count.toNat m.expected (k.mon.settings.osc.get o).band⟩
    else none

/-- Step 2: the directions of the witnesses (R26). -/
def witnessDirections (k : Clocks) (caps : BankOsc (Option Captured)) : List Direction :=
  ([.xa, .xb, .ref] : List Osc).filterMap fun o =>
    match caps.get o with
    | some c => if feeds k.src (.osc o)
        then some (direction c.count.toNat (k.mon.osc.get o).expected k.mon.settings.rco.band c.result) else none
    | none => none

/-- RCO's record in a new state (R13): fault kind DISAGREE in FAULTED, running-since tick in RUNNING. -/
def RcoRec.moved (r : RcoRec) (st : RcoState) (tick : Tick) : RcoRec where
  state := st
  fault := if st = .faulted then some .disagree else r.fault
  runningSince := if st = .running then some tick else none

/-- RCO changes state: counts, notice, refused sets on entry into RUNNING (R53), SYN's input on entry into FAULTED (R7), and
the outputs and demand that follow. -/
def moveRco (e : Env) (st : RcoState) (good bad : Nat) (v : Ev) : Ev :=
  let v := v.changeRco (v.clk.src.rco.moved st e.tick) good bad
  let v := if st = .running then v.unrefuse .rco else v
  settle e (if st = .faulted then loseInput e .rco v else v)

def Ev.setRcoMonitor (v : Ev) (m : RcoMonitor) : Ev :=
  { v with clk := { v.clk with mon := { v.clk.mon with rco := m } } }

/-- Step 3: RCO judged, its verdict or the loss of witnesses delivered (R27, R31). The consensus result is recorded in either case, the
survey number `n` only where RCO is judged (R22). -/
def judgeRco (e : Env) (n : Word) (ds : List Direction) (v : Ev) : Ev :=
  let m := v.clk.mon.rco
  let st := v.clk.src.rco.state
  if ds.length < 2 then
    let v := v.setRcoMonitor ⟨0, 0, consensus ds, m.lastSurvey, ds.length⟩
    if decide (st = .running) || decide (st = .suspect) then moveRco e .unchecked 0 0 v else v
  else
    let res := consensus ds
    let t := countRco v.clk.mon.settings.rco st m.good m.bad res
    let v := v.setRcoMonitor ⟨t.good, t.bad, res, some n, ds.length⟩
    match t.move with
    | some st' => moveRco e st' t.good (if st' = .suspect then 1 else 0) v
    | none => v

/-- The survey is a bad RCO survey (R27). -/
def badRcoSurvey (ds : List Direction) : Bool :=
  match consensus ds with
  | .slow => true
  | .fast => true
  | _ => false

/-- Step 4: the disposition of every captured source, from RCO's state after its judgement (R28). -/
def disposition (ds : List Direction) (rco : RcoState) : Disposition :=
  if badRcoSurvey ds then .excused
  else match rco with
    | .suspect => .suspended
    | .faulted => .suspended
    | _ => .judged

/-- Steps 4 and 5 for one source: the record of its capture, and its counts if it is JUDGED (R28 to R30). A source that step 3 has taken
out of the monitored states is recorded all the same, and not counted: the model's choice, log 16. -/
def recordOsc (n : Word) (d : Disposition) (k : Clocks) (o : Osc) (c : Option Captured) : OscMonitor × Option Verdict :=
  let m := k.mon.osc.get o
  match c with
  | none => (m, none)
  | some c =>
    let m' := { m with last := some ⟨c.count, n, d⟩, lastResult := c.result }
    if d = .judged then
      let t := countOsc (k.mon.settings.osc.get o) (k.src.osc.get o).state m c.result
      ({ m' with good := t.good, bad := t.bad, verify := t.verify }, t.verdict)
    else (m', none)

/-- The verdict of step 6 delivered (R8); discarded when the source has left the states it is for (R30). -/
def deliver (e : Env) (v : Ev) (x : Osc × Option Verdict) : Ev :=
  match x.2, (v.osc x.1).state with
  | some .verified, .verifying => settle e (enterRunning e x.1 v)
  | some .degraded, .running => settle e (enterSuspect x.1 v)
  | some .recovered, .suspect => settle e (enterRunning e x.1 v)
  | some (.failed f), .verifying => settle e (fault e x.1 f v)
  | some (.failed f), .running => settle e (fault e x.1 f v)
  | some (.failed f), .suspect => settle e (fault e x.1 f v)
  | _, _ => v

/-- Steps 4 to 6 of R30. -/
def judgeOscs (e : Env) (n : Word) (ds : List Direction) (caps : BankOsc (Option Captured)) (v : Ev) : Ev :=
  let d := disposition ds v.clk.src.rco.state
  let recs := BankOsc.ofFn fun o => recordOsc n d v.clk o (caps.get o)
  let v := { v with clk := { v.clk with mon := { v.clk.mon with osc := recs.mapIdx fun _ x => x.1 } } }
  (oscsSynFirst.map fun o => (o, (recs.get o).2)).foldl (deliver e) v

/-- R30, then the next survey begins in the same event (R23). -/
def completeSurvey (edges : BankOsc Word) (e : Env) (v : Ev) : Ev :=
  let n := v.clk.mon.surveyNumber + 1#32
  let caps := captures v.clk edges
  let ds := witnessDirections v.clk caps
  let v := { v with clk := { v.clk with mon := { v.clk.mon with surveyNumber := n } } }
  let v := judgeOscs e n ds caps (judgeRco e n ds v)
  let v := settle e v
  { v with clk := beginSurvey e.tick v.clk }

/-! ### Requests -/

def judgeOfRaw (r : RawJudge) : JudgeSettings := ⟨r.band.toNat, r.k.toNat, r.f.toNat⟩
/-- The settings a MONITOR SET gives. -/
def monitorOfReq (r : MonitorSetReq) : MonitorSettings where
  period := r.period.toNat
  osc := r.osc.mapIdx fun _ j => judgeOfRaw j
  rco := judgeOfRaw r.rco

/-- K and F lie in 1 to 8, the band in its own range (R22). -/
def JudgeSettings.within (j : JudgeSettings) (lo hi : Nat) : Bool := inRange lo hi j.band && inRange 1 8 j.k && inRange 1 8 j.f

/-- R22. -/
def MonitorSettings.inRanges (m : MonitorSettings) : Bool :=
  inRange 2 1000 m.period && (m.osc.toList.all fun j => j.within 5 250) && m.rco.within 10 100

/-- Every source has an expected count of at least 64 at the period (R24). -/
def periodFits (c : Sources) (period : Nat) : Bool :=
  oscs.all fun o => decide (Config.minExpected ≤ expectedCount (nominal c (.osc o)) period)

/-- New settings in force; a changed period abandons the survey in progress and begins a new one (R34, R35, R38). -/
def Clocks.withMonitor (k : Clocks) (tick : Tick) (m : MonitorSettings) : Clocks :=
  let k' := { k with mon := { k.mon with settings := m } }
  if m.period = k.mon.settings.period then k' else beginSurvey tick k'

def performMonitorSet (r : MonitorSetReq) (s : State) : Done :=
  let m := monitorOfReq r
  if !m.inRanges || !periodFits s.clk.src m.period then .refuse s .badValue
  else .ok { s with clk := s.clk.withMonitor s.tick m } []

/-- MONITOR RESULT of a source. -/
def monitorResultBytes (s : State) (o : Osc) : List Byte :=
  let m := s.clk.mon.osc.get o
  b1 (oscStateCode (s.osc o).state) ++ [flag m.mark ||| (flag m.last.isSome <<< 1)] ++ n4 m.expected
  ++ b1 m.good ++ b1 m.bad ++ b1 m.verify ++ opt4 (m.last.map Capture.count) ++ b1 (resultCode m.lastResult)
  ++ opt4 (m.last.map Capture.survey) ++ b1 (match m.last with | some c => dispositionCode c.disposition | none => 0)

/-- RCO RESULT. -/
def rcoResultBytes (s : State) : List Byte :=
  let m := s.clk.mon.rco
  b1 (rcoStateCode s.clk.src.rco.state) ++ b1 m.good ++ b1 m.bad ++ b1 (resultCode m.lastResult)
  ++ [flag m.lastSurvey.isSome] ++ opt4 m.lastSurvey ++ b1 m.witnesses

/-- R36; the ticks elapsed are those counted since the survey began (log 18). -/
def monitorQueryBytes (s : State) : List Byte :=
  b4 s.clk.mon.surveyNumber ++ n2 s.clk.mon.settings.period ++ n2 (s.tick - s.clk.mon.surveyStart).toNat
  ++ (oscs.flatMap (monitorResultBytes s)) ++ rcoResultBytes s ++ monitorBytes s.clk.mon.settings

def performMonitorQuery (s : State) : Done := .ok s (monitorQueryBytes s)

/-! ### Meanings -/

def execMonitorSet (tag : Byte) (r : MonitorSetReq) (s : State) : Host.Outcome State Fault Refusal :=
  .next (takeFrame tag 0x18#8 (performMonitorSet r) s)
def execMonitorQuery (tag : Byte) (s : State) : Host.Outcome State Fault Refusal :=
  .next (takeFrame tag 0x19#8 performMonitorQuery s)
/-- SURVEY_COMPLETION (R30). -/
def execSurveyCompletion (xa xb ref syn : Word) (s : State) : Host.Outcome State Fault Refusal :=
  .next (whileRunning (fun s => runEvent .ordinary s s (completeSurvey ⟨xa, xb, ref, syn⟩)) s)

end Sys2Proof.Machine
end

