-- ==== Sys2Proof/Machine/Startup.lean ====
section
/-! DEFINITION. Machine/Startup.lean: the start-up controller: cold start, SELECT, APPLY and LIVE (R133 to R140), and the warm
restart (R145, R146, with R21, R38, R62, R79, R98, R119, R132, R170). -/

namespace Sys2Proof.Machine

/-! ### A save that is cut off (R143) -/

/-- What a cut off save leaves in its slot: after an ERASE or a WRITE that did not end, every byte may read as erased, as the free
value has it (log 23). -/
def cutContents (readsErased : Bool) (c : SlotContents) : SlotContents :=
  if decide (c = .unfinished) && readsErased then .erased else c

/-- The phase operation of the save in flight stops where it stands; a free value is drawn for its slot. -/
def cutSave (s : State) : State :=
  match s.image.save with
  | none => s
  | some v => { s with
      image := { s.image with
        contents := s.image.contents.set v.slot
          (cutContents (Config.freeReadsErased s.freeCount) (s.image.contents.get v.slot)) }
      freeCount := s.freeCount + 1 }

/-! ### Cold start (R134) -/

/-- POWERUP with every block in its cold-start state. The slots, the start record and the supply's history stand (R133,
R134, R143); configurations stand at the built-in default until APPLY (log 7). -/
def coldStart (supply : Bool) (s : State) : State :=
  { cutSave s with
    clk := .cold defaultConfig fun _ => .off
    chains := defaultConfig.chains
    claims := []
    lines := .ofFn fun l => .cold (defaultConfig.lines.get l)
    profiles := defaultConfig.profiles
    stack := ⟨[], 0⟩
    settling := none
    actions := []
    startup := ⟨.powerup, false, false, s.startup.supplyFell || supply, none, none, s.startup.record⟩
    image := { (cutSave s).image with save := none, lastSave := none }
    link := .cold s.link.rate
    notices := .cold everyKind }

/-- VDD and RST# are both released (R134). -/
def releaseReset (s : State) : State :=
  if s.startup.state = .powerup then { s with startup := { s.startup with released := true } } else s

/-- The end of POWERUP: the straps are sampled, and SELECT is entered (R134, R148). -/
def endPowerup (br1 br0 : Bool) (s : State) : State :=
  if decide (s.startup.state = .powerup) && s.startup.released then
    { s with
      link := { s.link with rate := BitVec.ofBool br1 ++ BitVec.ofBool br0 }
      startup := { s.startup with state := .select, warm := false } }
  else s

/-! ### SELECT (R135, R137) -/

/-- Both slots judged (R137). -/
def judgedSlots (abandoned : Option Bool) (m : ImageStore) : Bank2 SlotRecord :=
  ⟨judgeSlot (decide (abandoned = some false)) m.contents.a, judgeSlot (decide (abandoned = some true)) m.contents.b⟩

/-- APPLY of a cold start: every block takes the configuration (R20, R37, R61, R78, R97, R118, R136, R169; log 8). -/
def applyCold (c : BoardConfig) (p : Fin 6) (s : State) : State :=
  { s with
    clk := .cold c fun o => if o.enable then .parked else .off
    chains := c.chains
    claims := []
    lines := .ofFn fun l => .cold (c.lines.get l)
    profiles := c.profiles
    stack := ⟨[], p⟩
    settling := none
    notices := .cold c.filter }

/-- SELECT is done: slot records, the chosen slot, APPLY (R135). -/
def endSelect (s : State) : State :=
  if s.startup.state = .select then
    let records := judgedSlots s.startup.abandoned s.image
    let chosen := chooseSlot records
    let s' := { s with
      image := { s.image with records := records }
      startup := { s.startup with state := .apply, chosen := some chosen, abandoned := none } }
    if s.startup.warm then s' else applyCold (chosenConfig s'.image chosen).1 (chosenConfig s'.image chosen).2 s'
  else s

/-! ### LIVE (R136) -/

/-- The slot that APPLY carries. -/
def State.chosen (s : State) : Chosen := s.startup.chosen.getD .builtIn

/-- The STARTED notice (R136, R173). -/
def startedPosting (r : StartRecord) : Posting := ⟨.started, 0#8, startBytes r⟩

/-- The start-up state LIVE with its start record. -/
def enterLive (cause : StartCause) (s : State) : State :=
  { s with startup := { s.startup with
      state := .live, supplyFell := false, chosen := none, record := ⟨cause, s.chosen⟩ } }

/-- The pin of one line read at LIVE; a line at its active level is active, with its records (R97). -/
def readLine (pins : Byte) (s : State) (l : Fin 8) : State :=
  let r := { s.line l with pinHigh := pins.getLsbD l.val, active := false, hold := none }
  if r.atActive then lineOn l (s.putLine l r) else s.putLine l r

/-- The cause of a cold start (R134). -/
def coldCause (u : Startup) : StartCause := if u.supplyFell then .powerOn else .pin

/-- LIVE after a cold start: tick 0, STARTED first, the lines' pins, the first survey, then every output and source
(R61, R97, R120, R136). -/
def liveCold (pins : Byte) (s : State) : State :=
  let s := { enterLive (coldCause s.startup) s with tick := 0#32 }
  let s := s.post (startedPosting s.startup.record)
  let s := eight.foldl (readLine pins) s
  let s := { s with clk := beginSurvey s.tick s.clk }
  reevaluate .live s s

/-! ### LIVE after a warm restart (R146) -/

/-- R21: the new configuration with the budget set to its retry count. -/
def OscRec.restarted (r : OscRec) (c : OscConfig) : OscRec := { r with cfg := c, budget := c.retryCount }

/-- R62, R79: configuration replaced, refused set, pin and revert cleared, position kept. -/
def OutRec.restarted (r : OutRec) (c : OutConfig) : OutRec :=
  { r with
    cfg := c, refused := [], pin := none, revert := .none
    place := match c.mode with
      | .fixed _ => none
      | .chain _ => r.place
    awaits := match c.mode with
      | .fixed _ => none
      | .chain _ => r.awaits }

/-- The new settings of every block that holds clocks (R21, R38, R62). -/
def clocksRestarted (c : BoardConfig) (tick : Tick) (k : Clocks) : Clocks :=
  { k with
    src := { k.src with osc := k.src.osc.mapIdx fun o r => r.restarted (c.osc.get o), syn := c.syn }
    outs := k.outs.mapIdx fun o r => r.restarted (c.outs.get o) }.withMonitor tick c.monitor

/-- Steps 1 and 2 of R98. -/
def claimsKept (s : State) : List Claim :=
  s.claims.filter fun c => match c.claimant with
    | .soft _ => false
    | .line l => (s.line l).hold.isNone

/-- Step 3 of R98 for one line. -/
def LineRec.restarted (r : LineRec) (g : LineSettings) : LineRec :=
  ⟨g, r.pinHigh, decide (r.pinHigh = g.activeHigh), none⟩

/-- Step 4 of R98 for one line. -/
def lineRestarted (tick : Tick) (ls : Bank8 LineRec) (cs : List Claim) (l : Fin 8) : List Claim :=
  let r := ls.get l
  if r.active then trimPairs l r.set.map (addPairs l tick r.set.map cs) else dropClaimant cs (.line l)

/-- Every block takes the new configuration into its records (R146). -/
def applyWarm (c : BoardConfig) (p : Fin 6) (s : State) : State :=
  let lines := s.lines.mapIdx fun l r => r.restarted (c.lines.get l)
  { s with
    clk := clocksRestarted c s.tick s.clk
    chains := c.chains
    lines := lines
    claims := eight.foldl (lineRestarted s.tick lines) (claimsKept s)
    profiles := c.profiles
    stack := ⟨[], p⟩
    settling := none
    notices := { s.notices with filter := c.filter } }

/-- R21: LOCKED_OUT sources enter OFF, in the order XA, XB, REF, SYN (the model's choice, log 11), and a SYN with new settings
restarts (log 12). -/
def restartSources (old : SynConfig) (e : Env) (v : Ev) : Ev :=
  let v := oscs.foldl (fun v o => if (v.osc o).state = .lockedOut then enterOff o v else v) v
  if decide (v.clk.src.syn ≠ old) && synDepends v.clk.src then restartSyn e v else v

/-- The outputs that the old configuration wants with the claims R98 keeps: an output of these that the new configuration leaves
unwanted is stopped by that configuration (R62; log 21). -/
def stillWanted (s : State) : Bank8 Bool := s.clk.outs.mapIdx fun o r => wanted s.active (claimsKept s) o r.cfg

/-- LIVE after a warm restart: the configuration applied, STARTED, then the part evaluates once (R146). -/
def liveWarm (s : State) : State :=
  let c := chosenConfig s.image s.chosen
  let s' := enterLive .restart (applyWarm c.1 c.2 s)
  runEvent (.restart (stillWanted s) s.clk) s (s'.post (startedPosting s'.startup.record)) (restartSources s.clk.src.syn)

/-- LIVE is reached (R136, R146). -/
def reachLive (pins : Byte) (s : State) : State :=
  if s.startup.state = .apply then (if s.startup.warm then liveWarm s else liveCold pins s).endEvent else s

/-! ### The warm restart takes effect (R145, R146) -/

/-- The save in flight is abandoned (R143). -/
def abandonSave (m : ImageStore) : ImageStore :=
  match m.save with
  | some v => { m with
      records := m.records.set v.slot (.invalid .abandoned)
      save := none
      lastSave := some ⟨.abandoned, v.slot, v.generation⟩ }
  | none => m

/-- The notice queue emptied, its lost count tested if records left it (R170). -/
def emptyQueue (tick : Tick) (q : Notices) : Notices :=
  if q.records.isEmpty then q else ({ q with records := [] }).testLost tick

/-- Steps 1 to 4 of R146 (log 19). -/
def restartTakesEffect (s : State) : State :=
  { cutSave s with
    image := abandonSave (cutSave s).image
    actions := []
    link := { s.link with held := [], missed := true, restartTaken := false }
    notices := emptyQueue s.tick s.notices
    startup := { s.startup with
      state := .select, warm := true, chosen := none, abandoned := s.image.save.map Save.slot } }

/-- RESTART (R145). -/
def performRestart (s : State) : Done := .ok { s with link := { s.link with restartTaken := true } } []

/-! ### Meanings -/

def execRestart (tag : Byte) (s : State) : Host.Outcome State Fault Refusal := .next (takeFrame tag 0x03#8 performRestart s)
/-- COLD_START (R134). -/
def execColdStart (supply : Bool) (s : State) : Host.Outcome State Fault Refusal := .next (coldStart supply s)
/-- RESET_RELEASE (R134). -/
def execResetRelease (s : State) : Host.Outcome State Fault Refusal := .next (releaseReset s)
/-- POWERUP_END (R134). -/
def execPowerupEnd (br1 br0 : Bool) (s : State) : Host.Outcome State Fault Refusal := .next (endPowerup br1 br0 s)
/-- SELECT_DONE (R135). -/
def execSelectDone (s : State) : Host.Outcome State Fault Refusal := .next (endSelect s)
/-- LIVE (R136, R146). -/
def execLive (pins : Byte) (s : State) : Host.Outcome State Fault Refusal := .next (reachLive pins s)

end Sys2Proof.Machine
end

