-- ==== Sys2Proof/Machine/Receive.lean ====
section
/-! DEFINITION. Machine/Receive.lean: the host link: requests handed to their owners (R153), the receiver (R149 to R151), the link
break (R157), the end of a frame on LTX (R145, R156), and the link's own requests (R159, R160). -/

namespace Sys2Proof.Machine

/-! ### IDENTIFY and ECHO (R159, R160) -/

def identifyBytes (s : State) : List Byte :=
  b2 Config.partCode ++ [Config.siliconRevision] ++ startBytes s.startup.record ++ b1 s.link.rate.toNat
  ++ b1 (rcoStateCode s.clk.src.rco.state) ++ b4 s.tick

def performIdentify (s : State) : Done := .ok s (identifyBytes s)

/-- A longer body than 118 bytes is refused (R160). -/
def performEcho (body : List Byte) (s : State) : Done :=
  if body.length ≤ 118 then .ok s body else .refuse s .badLength

/-! ### The owner (check 4 of R153) -/

/-- The block that owns the kind performs the request. -/
def performRequest : Request → State → Done
  | .identify => performIdentify
  | .echo b => performEcho b
  | .restart => performRestart
  | .sourceSet r => performSourceSet r
  | .sourceQuery x => performSourceQuery x
  | .sourceKeep x f => performSourceKeep x f
  | .sourceClear x => performSourceClear x
  | .monitorSet r => performMonitorSet r
  | .monitorQuery => performMonitorQuery
  | .outputSet r => performOutputSet r
  | .outputQuery o => performOutputQuery o
  | .outputSelect o i => performOutputSelect o i
  | .chainSet r => performChainSet r
  | .chainQuery c => performChainQuery c
  | .claim r => performClaim r
  | .release c o => performRelease c o
  | .releaseAll c => performReleaseAll c
  | .claimList f => performClaimList f
  | .lineMapSet r => performLineMapSet r
  | .lineQuery l => performLineQuery l
  | .profileSet r => performProfileSet r
  | .profileQuery p => performProfileQuery p
  | .profileEnter p => performProfileEnter p
  | .resume => performResume
  | .resumeTarget p => performResumeTarget p
  | .stackQuery => performStackQuery
  | .timeQuery => performTimeQuery
  | .actionAdd r => performActionAdd r
  | .actionCancel n => performActionCancel n
  | .actionList f => performActionList f
  | .noticeAck n => performNoticeAck n
  | .noticeResend => performNoticeResend
  | .noticeFilter f => performNoticeFilter f
  | .imageSave p => performImageSave p
  | .imageInfo => performImageInfo

/-- Checks 2 to 4 of R153. -/
def performFrame (kind : Byte) (body : List Byte) (s : State) : Done :=
  match parseRequest kind body with
  | .unknownKind => .refuse s .unknownKind
  | .badLength => .refuse s .badLength
  | .request r => performRequest r s

/-! ### The receiver (R149 to R151) -/

def State.setRx (s : State) (r : Rx) : State := { s with link := { s.link with rx := r } }

/-- The frame in progress is abandoned (R150). -/
def abandonFrame (s : State) : State := s.hunt.setMissed

/-- A frame is complete: `bytes` from the length to the second CRC byte (R151). -/
def completeFrame (bytes : List Byte) (s : State) : State :=
  let n := bytes.length - 2
  match bytes.take n, bytes.drop n with
  | _ :: tag :: kind :: body, [hi, lo] =>
    if crc16 (bytes.take n) = half hi lo then takeFrame tag kind (performFrame kind body) s
    else (abandonFrame s).endEvent
  | _, _ => (abandonFrame s).endEvent

/-- A character in HEADER: the length, the tag, the kind (R149). -/
def receiveHeader (c : Byte) (r : Rx) (s : State) : State :=
  match r.bytes with
  | [] => if c.toNat > 120 then abandonFrame s else s.setRx ⟨.header, [c], 2, true⟩
  | [l] => s.setRx ⟨.header, [l, c], 1, true⟩
  | l :: rest => s.setRx (if l = 0#8 then ⟨.check, l :: (rest ++ [c]), 2, true⟩ else ⟨.body, l :: (rest ++ [c]), l.toNat, true⟩)

/-- A character without a framing error (R149). -/
def receiveChar (c : Byte) (s : State) : State :=
  let r := s.link.rx
  match r.state with
  | .hunt => if c = Config.syncByte then s.setRx ⟨.header, [], 3, true⟩ else s
  | .header => receiveHeader c r s
  | .body =>
    if r.expected ≤ 1 then s.setRx ⟨.check, r.bytes ++ [c], 2, true⟩
    else s.setRx ⟨.body, r.bytes ++ [c], r.expected - 1, true⟩
  | .check =>
    if r.expected ≤ 1 then completeFrame (r.bytes ++ [c]) s else s.setRx ⟨.check, r.bytes ++ [c], 1, true⟩

/-- A framing error: skipped in HUNT, else the frame is abandoned (R150). -/
def receiveBad (s : State) : State := if s.link.rx.state = .hunt then s else abandonFrame s

/-- The gap timer runs out inside a frame (R150). -/
def expireGap (s : State) : State :=
  if decide (s.link.rx.state ≠ .hunt) && s.link.rx.gap then abandonFrame s else s

/-! ### Link break and end of a frame (R145, R156, R157) -/

/-- The six steps of R157, and the cancelling of a RESTART whose reply is discarded (R145). -/
def breakLink (s : State) : State :=
  { s with
    link := { s.link with
      rx := .hunting
      held := []
      queued := []
      missed := true
      restartTaken := s.link.restartTaken && !s.link.queued.any Reply.restart }
    notices := s.notices.unsend }

/-- The last byte of the frame on LTX has left: after RESTART's reply the restart takes effect (R145); the transmitter
chooses again at the end of the event (R156). -/
def endFrame (s : State) : State :=
  match s.link.onLtx with
  | none => s
  | some f =>
    let s := { s with link := { s.link with onLtx := none } }
    if f.restart then restartTakesEffect s else s

/-! ### Meanings -/

def execIdentify (tag : Byte) (s : State) : Host.Outcome State Fault Refusal :=
  .next (takeFrame tag 0x01#8 performIdentify s)
def execEcho (tag : Byte) (body : List Byte) (s : State) : Host.Outcome State Fault Refusal :=
  .next (takeFrame tag 0x02#8 (performEcho body) s)
/-- UNKNOWN_KIND: a frame of no request kind (R153). -/
def execUnknownKind (tag kind : Byte) (s : State) : Host.Outcome State Fault Refusal :=
  .next (takeFrame tag kind (performFrame kind []) s)
/-- CHARACTER_RECEIVED (R149, R150). -/
def execCharacterReceived (c : Byte) (bad : Bool) (s : State) : Host.Outcome State Fault Refusal :=
  .next (whileRunning (if bad then receiveBad else receiveChar c) s)
/-- GAP (R150). -/
def execGap (s : State) : Host.Outcome State Fault Refusal := .next (whileRunning expireGap s)
/-- LINK_BREAK (R157). -/
def execLinkBreak (s : State) : Host.Outcome State Fault Refusal := .next (whileRunning breakLink s)
/-- FRAME_SENT (R145, R156). -/
def execFrameSent (s : State) : Host.Outcome State Fault Refusal := .next (whileRunning endFrame s)

end Sys2Proof.Machine
end

