-- ==== Sys2Proof/Machine/Dispatch.lean ====
section
/-! DEFINITION. Machine/Dispatch.lean: one arm per command, each one call of its meaning. -/

namespace Sys2Proof.Machine

def exec (i : Instr) (s : State) : Host.Outcome State Fault Refusal :=
  match i with
  | .identify tag => Sys2Proof.Machine.execIdentify tag s
  | .echo tag body => Sys2Proof.Machine.execEcho tag body s
  | .restart tag => Sys2Proof.Machine.execRestart tag s
  | .sourceSet tag req => Sys2Proof.Machine.execSourceSet tag req s
  | .sourceQuery tag source => Sys2Proof.Machine.execSourceQuery tag source s
  | .sourceKeep tag source flag => Sys2Proof.Machine.execSourceKeep tag source flag s
  | .sourceClear tag source => Sys2Proof.Machine.execSourceClear tag source s
  | .monitorSet tag req => Sys2Proof.Machine.execMonitorSet tag req s
  | .monitorQuery tag => Sys2Proof.Machine.execMonitorQuery tag s
  | .outputSet tag req => Sys2Proof.Machine.execOutputSet tag req s
  | .outputQuery tag output => Sys2Proof.Machine.execOutputQuery tag output s
  | .outputSelect tag output entry => Sys2Proof.Machine.execOutputSelect tag output entry s
  | .chainSet tag req => Sys2Proof.Machine.execChainSet tag req s
  | .chainQuery tag chain => Sys2Proof.Machine.execChainQuery tag chain s
  | .claim tag req => Sys2Proof.Machine.execClaim tag req s
  | .release tag claimant output => Sys2Proof.Machine.execRelease tag claimant output s
  | .releaseAll tag claimant => Sys2Proof.Machine.execReleaseAll tag claimant s
  | .claimList tag first => Sys2Proof.Machine.execClaimList tag first s
  | .lineMapSet tag req => Sys2Proof.Machine.execLineMapSet tag req s
  | .lineQuery tag line => Sys2Proof.Machine.execLineQuery tag line s
  | .profileSet tag req => Sys2Proof.Machine.execProfileSet tag req s
  | .profileQuery tag profile => Sys2Proof.Machine.execProfileQuery tag profile s
  | .profileEnter tag profile => Sys2Proof.Machine.execProfileEnter tag profile s
  | .resume tag => Sys2Proof.Machine.execResume tag s
  | .resumeTarget tag profile => Sys2Proof.Machine.execResumeTarget tag profile s
  | .stackQuery tag => Sys2Proof.Machine.execStackQuery tag s
  | .timeQuery tag => Sys2Proof.Machine.execTimeQuery tag s
  | .actionAdd tag req => Sys2Proof.Machine.execActionAdd tag req s
  | .actionCancel tag number => Sys2Proof.Machine.execActionCancel tag number s
  | .actionList tag first => Sys2Proof.Machine.execActionList tag first s
  | .noticeAck tag number => Sys2Proof.Machine.execNoticeAck tag number s
  | .noticeResend tag => Sys2Proof.Machine.execNoticeResend tag s
  | .noticeFilter tag filter => Sys2Proof.Machine.execNoticeFilter tag filter s
  | .imageSave tag profile => Sys2Proof.Machine.execImageSave tag profile s
  | .imageInfo tag => Sys2Proof.Machine.execImageInfo tag s
  | .unknownKind tag kind => Sys2Proof.Machine.execUnknownKind tag kind s
  | .characterReceived char framingError => Sys2Proof.Machine.execCharacterReceived char framingError s
  | .gap => Sys2Proof.Machine.execGap s
  | .linkBreak => Sys2Proof.Machine.execLinkBreak s
  | .frameSent => Sys2Proof.Machine.execFrameSent s
  | .coldStart supply => Sys2Proof.Machine.execColdStart supply s
  | .powerupEnd br1 br0 => Sys2Proof.Machine.execPowerupEnd br1 br0 s
  | .selectDone => Sys2Proof.Machine.execSelectDone s
  | .live pins => Sys2Proof.Machine.execLive pins s
  | .startDetection source => Sys2Proof.Machine.execStartDetection source s
  | .startTimerExpiry source => Sys2Proof.Machine.execStartTimerExpiry source s
  | .lockDetection => Sys2Proof.Machine.execLockDetection s
  | .lockTimerExpiry => Sys2Proof.Machine.execLockTimerExpiry s
  | .quarantineExpiry source => Sys2Proof.Machine.execQuarantineExpiry source s
  | .rehabilitationExpiry source => Sys2Proof.Machine.execRehabilitationExpiry source s
  | .surveyCompletion xa xb ref syn => Sys2Proof.Machine.execSurveyCompletion xa xb ref syn s
  | .releaseEnd output => Sys2Proof.Machine.execReleaseEnd output s
  | .releaseTimeout output => Sys2Proof.Machine.execReleaseTimeout output s
  | .acquireEnd output => Sys2Proof.Machine.execAcquireEnd output s
  | .acquireTimeout output => Sys2Proof.Machine.execAcquireTimeout output s
  | .dividerChange output => Sys2Proof.Machine.execDividerChange output s
  | .revertTimerExpiry output => Sys2Proof.Machine.execRevertTimerExpiry output s
  | .leaseExpiry claimant output => Sys2Proof.Machine.execLeaseExpiry claimant output s
  | .lineActivation line => Sys2Proof.Machine.execLineActivation line s
  | .lineDeactivation line => Sys2Proof.Machine.execLineDeactivation line s
  | .holdExpiry line => Sys2Proof.Machine.execHoldExpiry line s
  | .wakePinEdge => Sys2Proof.Machine.execWakePinEdge s
  | .tick => Sys2Proof.Machine.execTick s
  | .actionFiring => Sys2Proof.Machine.execActionFiring s
  | .eraseComplete => Sys2Proof.Machine.execEraseComplete s
  | .writeComplete => Sys2Proof.Machine.execWriteComplete s
  | .checkComplete good => Sys2Proof.Machine.execCheckComplete good s
  | .resetRelease => Sys2Proof.Machine.execResetRelease s

end Sys2Proof.Machine
end

