-- ==== Sys2Proof/Machine/Frames.lean ====
section
/-! DEFINITION. Machine/Frames.lean: the frame of each request command: tag, kind and body bytes as section 11.4 lays them out. It
says which frame on LRX a request command stands for (log 6). -/

namespace Sys2Proof.Machine

/-- Three bytes of a monitor setting. -/
def judgeFields (j : RawJudge) : List Byte := [j.band, j.k, j.f]

/-- The kind code of a request (section 11.3). -/
def Request.kind : Request → Byte
  | .identify => 0x01#8 | .echo _ => 0x02#8 | .restart => 0x03#8
  | .sourceSet _ => 0x10#8 | .sourceQuery _ => 0x11#8 | .sourceKeep _ _ => 0x12#8 | .sourceClear _ => 0x13#8
  | .monitorSet _ => 0x18#8 | .monitorQuery => 0x19#8
  | .outputSet _ => 0x20#8 | .outputQuery _ => 0x21#8 | .outputSelect _ _ => 0x22#8
  | .chainSet _ => 0x28#8 | .chainQuery _ => 0x29#8
  | .claim _ => 0x30#8 | .release _ _ => 0x31#8 | .releaseAll _ => 0x32#8 | .claimList _ => 0x33#8
  | .lineMapSet _ => 0x34#8 | .lineQuery _ => 0x35#8
  | .profileSet _ => 0x38#8 | .profileQuery _ => 0x39#8 | .profileEnter _ => 0x3A#8 | .resume => 0x3B#8
  | .resumeTarget _ => 0x3C#8 | .stackQuery => 0x3D#8
  | .timeQuery => 0x40#8 | .actionAdd _ => 0x41#8 | .actionCancel _ => 0x42#8 | .actionList _ => 0x43#8
  | .noticeAck _ => 0x48#8 | .noticeResend => 0x49#8 | .noticeFilter _ => 0x4A#8
  | .imageSave _ => 0x50#8 | .imageInfo => 0x51#8

/-- The body of a request (section 11.4); every multi-byte field high byte first (R172). -/
def Request.body : Request → List Byte
  | .echo b => b
  | .sourceSet r => [r.source] ++ b4 r.nominal ++ b2 r.startTimeout ++ b2 r.quarantine ++ [r.retryCount]
      ++ b2 r.rehabilitation ++ [r.synInput, r.m, r.n]
  | .sourceQuery x => [x]
  | .sourceKeep x f => [x, f]
  | .sourceClear x => [x]
  | .monitorSet r => b2 r.period ++ judgeFields r.osc.xa ++ judgeFields r.osc.xb ++ judgeFields r.osc.ref
      ++ judgeFields r.osc.syn ++ judgeFields r.rco
  | .outputSet r => [r.output, r.enable, r.mode, r.sourceOrChain] ++ b2 r.divider ++ [r.essential, r.stopLevel] ++ b2 r.timeout
  | .outputQuery o => [o]
  | .outputSelect o e => [o, e]
  | .chainSet r => [r.chain] ++ b2 r.holdOff ++ [r.leaveOnSuspect, r.warmStandby] ++ b2 r.lastResort
      ++ b1 r.entries.length ++ r.entries.flatMap fun e => [e.source] ++ b2 e.divider
  | .chainQuery c => [c]
  | .claim r => b2 r.claimant ++ [r.output, r.options] ++ b4 r.lease ++ b2 r.tag
  | .release c o => b2 c ++ [o]
  | .releaseAll c => b2 c
  | .claimList f => [f]
  | .lineMapSet r => [r.line, r.activeLevel] ++ b2 r.holdTime ++ b1 r.pairs.length
      ++ r.pairs.flatMap fun p => [p.output, p.level]
  | .lineQuery l => [l]
  | .profileSet r => [r.profile] ++ r.policy.toList ++ [r.permitted, r.honour] ++ b2 r.wakeMask ++ [r.wakeProfile]
  | .profileQuery p => [p]
  | .profileEnter p => [p]
  | .resumeTarget p => [p]
  | .actionAdd r => [r.number, r.whenForm] ++ b4 r.value ++ b4 r.period ++ [r.kind, r.op0, r.op1, r.op2]
  | .actionCancel n => [n]
  | .actionList f => [f]
  | .noticeAck n => b2 n
  | .noticeFilter f => b2 f
  | .imageSave p => [p]
  | .identify => [] | .restart => [] | .monitorQuery => [] | .resume => [] | .stackQuery => [] | .timeQuery => []
  | .noticeResend => [] | .imageInfo => []

/-- The body is of a length a frame can carry and, for ECHO, of one its kind permits (section 11.1, R160). -/
def Request.fits : Request → Bool
  | .echo b => decide (b.length ≤ 118)
  | .chainSet r => decide (8 + 3 * r.entries.length ≤ 120)
  | .lineMapSet r => decide (5 + 2 * r.pairs.length ≤ 120)
  | _ => true

end Sys2Proof.Machine

namespace Sys2Proof

open Machine in
/-- The tag and request of a request command. -/
def Instr.request? : Instr → Option (Byte × Request)
  | .identify tag => some (tag, .identify)
  | .echo tag body => some (tag, .echo body)
  | .restart tag => some (tag, .restart)
  | .sourceSet tag req => some (tag, .sourceSet req)
  | .sourceQuery tag source => some (tag, .sourceQuery source)
  | .sourceKeep tag source flag => some (tag, .sourceKeep source flag)
  | .sourceClear tag source => some (tag, .sourceClear source)
  | .monitorSet tag req => some (tag, .monitorSet req)
  | .monitorQuery tag => some (tag, .monitorQuery)
  | .outputSet tag req => some (tag, .outputSet req)
  | .outputQuery tag output => some (tag, .outputQuery output)
  | .outputSelect tag output entry => some (tag, .outputSelect output entry)
  | .chainSet tag req => some (tag, .chainSet req)
  | .chainQuery tag chain => some (tag, .chainQuery chain)
  | .claim tag req => some (tag, .claim req)
  | .release tag claimant output => some (tag, .release claimant output)
  | .releaseAll tag claimant => some (tag, .releaseAll claimant)
  | .claimList tag first => some (tag, .claimList first)
  | .lineMapSet tag req => some (tag, .lineMapSet req)
  | .lineQuery tag line => some (tag, .lineQuery line)
  | .profileSet tag req => some (tag, .profileSet req)
  | .profileQuery tag profile => some (tag, .profileQuery profile)
  | .profileEnter tag profile => some (tag, .profileEnter profile)
  | .resume tag => some (tag, .resume)
  | .resumeTarget tag profile => some (tag, .resumeTarget profile)
  | .stackQuery tag => some (tag, .stackQuery)
  | .timeQuery tag => some (tag, .timeQuery)
  | .actionAdd tag req => some (tag, .actionAdd req)
  | .actionCancel tag number => some (tag, .actionCancel number)
  | .actionList tag first => some (tag, .actionList first)
  | .noticeAck tag number => some (tag, .noticeAck number)
  | .noticeResend tag => some (tag, .noticeResend)
  | .noticeFilter tag filter => some (tag, .noticeFilter filter)
  | .imageSave tag profile => some (tag, .imageSave profile)
  | .imageInfo tag => some (tag, .imageInfo)
  | .unknownKind _ _ => none | .characterReceived _ _ => none | .gap => none | .linkBreak => none | .frameSent => none
  | .coldStart _ => none | .powerupEnd _ _ => none | .selectDone => none | .live _ => none
  | .startDetection _ => none | .startTimerExpiry _ => none | .lockDetection => none | .lockTimerExpiry => none
  | .quarantineExpiry _ => none | .rehabilitationExpiry _ => none | .surveyCompletion _ _ _ _ => none
  | .releaseEnd _ => none | .releaseTimeout _ => none | .acquireEnd _ => none | .acquireTimeout _ => none
  | .dividerChange _ => none | .revertTimerExpiry _ => none | .leaseExpiry _ _ => none | .lineActivation _ => none
  | .lineDeactivation _ => none | .holdExpiry _ => none | .wakePinEdge => none | .tick => none | .actionFiring => none
  | .eraseComplete => none | .writeComplete => none | .checkComplete _ => none | .resetRelease => none

open Machine in
/-- Tag and kind of a command that is a frame on LRX. -/
def Instr.header? : Instr → Option (Byte × Byte)
  | .unknownKind tag kind => some (tag, kind)
  | i => i.request?.map fun x => (x.1, x.2.kind)

end Sys2Proof
end

