-- ==== Sys2Proof/WellFormed.lean ====
section
/-! DEFINITION. WellFormed.lean: which commands can arise at all (a frame has at most 120 body bytes, an event names a
source that can raise it, UNKNOWN_KIND names no request kind). -/

namespace Sys2Proof

/-- The request kinds of section 11.3. -/
def requestKinds : List Byte :=
  [0x01#8, 0x02#8, 0x03#8, 0x10#8, 0x11#8, 0x12#8, 0x13#8, 0x18#8, 0x19#8, 0x20#8, 0x21#8, 0x22#8]
  ++ [0x28#8, 0x29#8, 0x30#8, 0x31#8, 0x32#8, 0x33#8, 0x34#8, 0x35#8, 0x38#8, 0x39#8, 0x3A#8, 0x3B#8]
  ++ [0x3C#8, 0x3D#8, 0x40#8, 0x41#8, 0x42#8, 0x43#8, 0x48#8, 0x49#8, 0x4A#8, 0x50#8, 0x51#8]

/-- Whether a command can arise (sections 11.1 and 11.4; R5, R10, R12, R86). Meanings do not rest on it. -/
def Instr.wellFormed : Instr → Bool
  | .echo _ body => decide (body.length ≤ 120)
  | .chainSet _ r => decide (8 + 3 * r.entries.length ≤ 120)
  | .lineMapSet _ r => decide (5 + 2 * r.pairs.length ≤ 120)
  | .unknownKind _ kind => !requestKinds.contains kind
  | .startDetection o => decide (o ≠ .syn)
  | .startTimerExpiry o => decide (o ≠ .syn)
  | .leaseExpiry claimant _ => decide (1 ≤ claimant.toNat ∧ claimant.toNat ≤ 250)
  | .identify _ => true | .restart _ => true | .sourceSet _ _ => true | .sourceQuery _ _ => true
  | .sourceKeep _ _ _ => true | .sourceClear _ _ => true | .monitorSet _ _ => true | .monitorQuery _ => true
  | .outputSet _ _ => true | .outputQuery _ _ => true | .outputSelect _ _ _ => true | .chainQuery _ _ => true
  | .claim _ _ => true | .release _ _ _ => true | .releaseAll _ _ => true | .claimList _ _ => true
  | .lineQuery _ _ => true | .profileSet _ _ => true | .profileQuery _ _ => true | .profileEnter _ _ => true
  | .resume _ => true | .resumeTarget _ _ => true | .stackQuery _ => true | .timeQuery _ => true
  | .actionAdd _ _ => true | .actionCancel _ _ => true | .actionList _ _ => true | .noticeAck _ _ => true
  | .noticeResend _ => true | .noticeFilter _ _ => true | .imageSave _ _ => true | .imageInfo _ => true
  | .characterReceived _ _ => true | .gap => true | .linkBreak => true | .frameSent => true
  | .coldStart _ => true | .powerupEnd _ _ => true | .selectDone => true | .live _ => true
  | .lockDetection => true | .lockTimerExpiry => true | .quarantineExpiry _ => true
  | .rehabilitationExpiry _ => true | .surveyCompletion _ _ _ _ => true | .releaseEnd _ => true
  | .releaseTimeout _ => true | .acquireEnd _ => true | .acquireTimeout _ => true | .dividerChange _ => true
  | .revertTimerExpiry _ => true | .lineActivation _ => true | .lineDeactivation _ => true | .holdExpiry _ => true
  | .wakePinEdge => true | .tick => true | .actionFiring => true | .eraseComplete => true
  | .writeComplete => true | .checkComplete _ => true | .resetRelease => true

end Sys2Proof
end

