-- ==== Sys2Proof/Safety.lean ====
section
/-! DEFINITION. Safety.lean: what statements about the model speak of: taken requests and their replies, the parts of the state
a command may change, and what every step keeps. -/

namespace Sys2Proof.Machine

/-! ### Taken requests and their replies (R151 to R156) -/

/-- A completed frame is taken and handed to its owner: LIVE, a free place, no RESTART in front (R151, R153). -/
def State.takes (s : State) : Prop :=
  s.startup.state = .live ∧ s.link.windowCount < Config.windowRoom ∧ s.link.restartTaken = false

/-- The reply R153 forms. -/
def replyTo (tag kind : Byte) (st : Status) (result : List Byte) : Reply :=
  ⟨tag, replyKind kind, st, result, decide (kind = 0x03#8) && decide (st = .ok)⟩

/-- The frame a reply becomes as it begins: status, link flags, result fields (R155, R171). -/
def replyFrame (r : Reply) (missed waiting : Bool) : TxFrame :=
  ⟨frameBytes r.tag r.kind (r.status.code :: linkFlags missed waiting :: r.result), true, r.restart⟩

/-- From `s` to `t` the reply `r` has joined the end of the queued replies; if LTX was idle, the oldest queued reply has begun
on it, with MISSED read and cleared (R153, R155, R156). -/
def answered (s t : State) (r : Reply) : Prop :=
  match s.link.onLtx with
  | some f => t.link.onLtx = some f ∧ t.link.queued = s.link.queued ++ [r] ∧ t.link.missed = s.link.missed
  | none => ∃ x xs, s.link.queued ++ [r] = x :: xs ∧ t.link.queued = xs
      ∧ t.link.onLtx = some (replyFrame x s.link.missed t.noticesWait) ∧ t.link.missed = false

/-- The state after a request whose effects left `u`: the reply has joined the queue, and the event has ended (R153, R114, R156). -/
def afterReply (u : State) (tag kind : Byte) (st : Status) (result : List Byte) : State :=
  (u.queueReply tag kind st result).endEvent

/-- The request is answered with a status other than OK and ACCEPTED, without result fields, and changes nothing but the
receiver's state (R153). -/
def Refuses (i : Instr) (s : State) (tag kind : Byte) (st : Status) : Prop :=
  exec i s = .next (afterReply s.hunt tag kind st [])

/-- Commands in turn, until one gives no next state. -/
def runAll : List Instr → State → Host.Outcome State Fault Refusal
  | [], s => .next s
  | i :: is, s =>
    match exec i s with
    | .next t => runAll is t
    | o => o

/-! ### The parts of the state -/

/-- Parts of the state as frame statements name them. -/
inductive Part where
  | srcConfig | srcState | monSettings | monState | outConfig | outState
  | chains | claims | lines | profiles | stack | settling | tick | actions | startup | image
  | rate | link | filter | notices | freeCount | pending
deriving DecidableEq, Repr

/-- The configuration of every source, SYN's included. -/
def Sources.configs (c : Sources) : BankOsc OscConfig × SynConfig := (.ofFn fun o => (c.osc.get o).cfg, c.syn)
/-- A source record without its configuration. -/
def OscRec.runtime (r : OscRec) : OscState × Nat × Option FaultKind × Option Tick × Option SourceTimer × Nat :=
  (r.state, r.budget, r.fault, r.runningSince, r.timer, r.startFor)
/-- The running state of every source. -/
def Sources.runtime (c : Sources) :
    RcoRec × BankOsc (OscState × Nat × Option FaultKind × Option Tick × Option SourceTimer × Nat) :=
  (c.rco, .ofFn fun o => (c.osc.get o).runtime)
/-- The configuration of every output. -/
def outConfigs (b : Bank8 OutRec) : Bank8 OutConfig := .ofFn fun o => (b.get o).cfg
/-- An output record without its configuration. -/
def OutRec.runtime (r : OutRec) : OutRec := { r with cfg := defaultOut false }
def outRuntimes (b : Bank8 OutRec) : Bank8 OutRec := .ofFn fun o => (b.get o).runtime

/-- A part is the same in two states. -/
def Part.same (p : Part) (s t : State) : Prop :=
  match p with
  | .srcConfig => t.clk.src.configs = s.clk.src.configs
  | .srcState => t.clk.src.runtime = s.clk.src.runtime
  | .monSettings => t.clk.mon.settings = s.clk.mon.settings
  | .monState => t.clk.mon.osc = s.clk.mon.osc ∧ t.clk.mon.rco = s.clk.mon.rco
      ∧ t.clk.mon.surveyNumber = s.clk.mon.surveyNumber ∧ t.clk.mon.surveyStart = s.clk.mon.surveyStart
  | .outConfig => outConfigs t.clk.outs = outConfigs s.clk.outs
  | .outState => outRuntimes t.clk.outs = outRuntimes s.clk.outs
  | .chains => t.chains = s.chains
  | .claims => t.claims = s.claims
  | .lines => t.lines = s.lines
  | .profiles => t.profiles = s.profiles
  | .stack => t.stack = s.stack
  | .settling => t.settling = s.settling
  | .tick => t.tick = s.tick
  | .actions => t.actions = s.actions
  | .startup => t.startup = s.startup
  | .image => t.image = s.image
  | .rate => t.link.rate = s.link.rate
  | .link => { t.link with rate := s.link.rate } = s.link
  | .filter => t.notices.filter = s.notices.filter
  | .notices => { t.notices with filter := s.notices.filter } = s.notices
  | .freeCount => t.freeCount = s.freeCount
  | .pending => t.pending = s.pending

/-- What the end of every event may change: the link, the notice queue and the settling record (R114, R156). -/
def endParts : List Part := [.link, .notices, .settling]
/-- What an evaluation of outputs, chains and sources may change. -/
def eventParts : List Part := endParts ++ [.srcState, .monState, .outState]
/-- What a request may change: everything but the tick, the start-up controller, the rate and the queue. -/
def requestParts : List Part :=
  eventParts ++ [.srcConfig, .monSettings, .outConfig, .chains, .claims, .lines, .profiles, .stack, .actions, .image]
  ++ [.filter, .freeCount]

/-- The parts a command may change (95_what_each_step_holds.md and the rules of each command). -/
def mayTouch : Instr → List Part
  | .identify _ => endParts
  | .echo _ _ => endParts
  | .restart _ => endParts
  | .sourceSet _ _ => .srcConfig :: eventParts
  | .sourceQuery _ _ => endParts
  | .sourceKeep _ _ _ => .srcConfig :: eventParts
  | .sourceClear _ _ => eventParts
  | .monitorSet _ _ => [.monSettings, .monState] ++ endParts
  | .monitorQuery _ => endParts
  | .outputSet _ _ => .outConfig :: eventParts
  | .outputQuery _ _ => .freeCount :: endParts
  | .outputSelect _ _ _ => eventParts
  | .chainSet _ _ => .chains :: eventParts
  | .chainQuery _ _ => endParts
  | .claim _ _ => .claims :: eventParts
  | .release _ _ _ => .claims :: eventParts
  | .releaseAll _ _ => .claims :: eventParts
  | .claimList _ _ => endParts
  | .lineMapSet _ _ => [.lines, .claims] ++ eventParts
  | .lineQuery _ _ => endParts
  | .profileSet _ _ => .profiles :: eventParts
  | .profileQuery _ _ => endParts
  | .profileEnter _ _ => .stack :: eventParts
  | .resume _ => .stack :: eventParts
  | .resumeTarget _ _ => .stack :: endParts
  | .stackQuery _ => endParts
  | .timeQuery _ => endParts
  | .actionAdd _ _ => .actions :: endParts
  | .actionCancel _ _ => .actions :: endParts
  | .actionList _ _ => endParts
  | .noticeAck _ _ => endParts
  | .noticeResend _ => endParts
  | .noticeFilter _ _ => .filter :: endParts
  | .imageSave _ _ => .image :: endParts
  | .imageInfo _ => endParts
  | .unknownKind _ kind => if requestKinds.contains kind then requestParts else endParts
  | .characterReceived _ _ => requestParts
  | .gap => endParts
  | .linkBreak => endParts
  | .frameSent => [.actions, .image, .startup, .freeCount] ++ endParts
  | .coldStart _ => [.chains, .lines, .profiles, .stack, .claims, .actions, .image, .startup, .filter, .freeCount] ++ eventParts
      ++ [.srcConfig, .monSettings, .outConfig]
  | .powerupEnd _ _ => [.rate, .startup]
  | .selectDone => [.chains, .lines, .profiles, .stack, .claims, .image, .startup, .filter, .settling]
      ++ [.notices, .srcState, .monState, .outState, .srcConfig, .monSettings, .outConfig]
  | .live _ => [.chains, .lines, .profiles, .stack, .claims, .startup, .filter, .tick] ++ eventParts
      ++ [.srcConfig, .monSettings, .outConfig]
  | .startDetection _ => eventParts
  | .startTimerExpiry _ => eventParts
  | .lockDetection => eventParts
  | .lockTimerExpiry => eventParts
  | .quarantineExpiry _ => eventParts
  | .rehabilitationExpiry _ => .srcState :: endParts
  | .surveyCompletion _ _ _ _ => eventParts
  | .releaseEnd _ => eventParts
  | .releaseTimeout _ => eventParts
  | .acquireEnd _ => eventParts
  | .acquireTimeout _ => eventParts
  | .dividerChange _ => .outState :: endParts
  | .revertTimerExpiry _ => eventParts
  | .leaseExpiry _ _ => .claims :: eventParts
  | .lineActivation _ => [.lines, .claims, .stack] ++ eventParts
  | .lineDeactivation _ => [.lines, .claims] ++ eventParts
  | .holdExpiry _ => [.lines, .claims] ++ eventParts
  | .wakePinEdge => .stack :: eventParts
  | .tick => .tick :: endParts
  | .actionFiring => [.actions, .claims, .stack] ++ eventParts
  | .eraseComplete => .image :: endParts
  | .writeComplete => .image :: endParts
  | .checkComplete _ => .image :: endParts
  | .resetRelease => [.startup]

/-! ### Judging on and on -/

/-- The first verdict that a source in VERIFYING gets from judged surveys with these results (R29). -/
def verdictWithin (j : JudgeSettings) : OscMonitor → List SurveyResult → Option Verdict
  | _, [] => none
  | m, r :: rs =>
    let t := countVerifying j m r
    match t.verdict with
    | some v => some v
    | none => verdictWithin j { m with good := t.good, bad := t.bad, verify := t.verify } rs

/-- The record of a source to which a verdict of the survey completed at `tick` is delivered (R8, R9, R12). -/
def OscRec.delivered (r : OscRec) (tick : Tick) : Option Verdict → OscRec
  | none => r
  | some .degraded => { r with state := .suspect, runningSince := none, timer := none }
  | some (.failed k) => { r with
      state := .quarantined, fault := some k, runningSince := none
      timer := some ⟨.quarantine, tick + BitVec.ofNat 32 r.cfg.quarantine⟩ }
  | some _ => { r with
      state := .running, runningSince := some tick
      timer := some ⟨.rehabilitation, tick + BitVec.ofNat 32 (r.cfg.rehabilitation * 1000)⟩ }

/-! ### What every step keeps -/

/-- The gate law: an open gate has a current source, and that source feeds gates (R42, R54). -/
def gateLaw (k : Clocks) : Prop :=
  ∀ o, (k.outs.get o).gateOpen = true → ∃ u, (k.outs.get o).current = some u ∧ feeds k.src u.src = true

/-- The output is SWITCHING. -/
def OutState.switching? : OutState → Bool
  | .switching _ => true
  | _ => false

/-- The target stands where R41 has it. -/
def OutRec.targetOk (r : OutRec) : Bool :=
  match r.state with
  | .waiting => r.target.isSome
  | .switching .acquire => r.target.isSome
  | .switching .release => true
  | _ => r.target.isNone

/-- The standing in a chain: pin, place, revert state and an awaited reason only in CHAIN mode, place and revert state not in OFF
and PARKED, no revert under a pin, an awaited reason in the release phase only (R41, R65, R71, R75). -/
def OutRec.standingOk (r : OutRec) : Bool :=
  (match r.cfg.mode with
    | .fixed _ => r.pin.isNone && r.place.isNone && decide (r.revert = .none) && r.awaits.isNone
    | .chain _ => r.pin.isNone || decide (r.revert = .none))
  && (match r.state with
    | .off => r.place.isNone && decide (r.revert = .none)
    | .parked => r.place.isNone && decide (r.revert = .none)
    | _ => true)
  && (r.awaits.isNone || decide (r.state = .switching .release))

/-- The runtime record of an output is one R41, R51, R52 and R65 allow. -/
def OutRec.wf (r : OutRec) : Prop :=
  r.current.isSome = r.gateOpen ∧ r.phase.isSome = r.state.switching?
  ∧ (r.pending.isSome = true → r.state = .switching .acquire) ∧ (r.nextDiv.isSome = true → r.state = .running)
  ∧ r.targetOk = true ∧ r.standingOk = true ∧ r.refused.Nodup

/-- The output's state agrees with its wanted-ness `w`: OFF only when disabled, PARKED only when enabled and unwanted, and in a
state that seeks or gives a clock only when wanted; a release runs to its end either way (R44). -/
def OutRec.standsAs (r : OutRec) (w : Bool) : Bool :=
  match r.state with
  | .off => !r.cfg.enable
  | .parked => r.cfg.enable && !w
  | .switching .release => true
  | _ => w

/-- Every output stands as its wanted-ness has it (R43, R44). -/
def outputsStand (s : State) : Prop := ∀ o, (s.out o).standsAs (s.wants o) = true

def outputsOk (k : Clocks) : Prop := ∀ o, (k.outs.get o).wf

/-- No evaluation would move anything (R4, R6, R44, R46, R54): each output's record stands as its evaluation leaves it, no source
runs that nothing demands, none that is demanded is OFF, and SYN's lock timer runs where R6 has it run. -/
def restsIn (e : Env) (k : Clocks) : Prop :=
  (∀ o, evalOut e k.src o (k.outs.get o) = (k.outs.get o, []))
  ∧ (∀ o, mustStop (demanded e k o) (k.src.osc.get o).state = false
      ∧ (demanded e k o = true → (k.src.osc.get o).state ≠ .off))
  ∧ (k.src.osc.syn.state = .starting → feeds k.src (synInputSrc k.src.syn.input) = true → k.src.osc.syn.timer ≠ none)

/-- The state is at rest, as the claims, the profile and the chains stand. -/
def atRest (s : State) : Prop := restsIn (envOf .ordinary s s) s.clk

/-- The timer that runs is the one the state has (section 1.2). -/
def timerOk (o : Osc) (st : OscState) (t : Option TimerKind) : Bool :=
  match st with
  | .starting => if o = .syn then decide (t = none) || decide (t = some .lock) else decide (t = some .start)
  | .running => decide (t = none) || decide (t = some .rehabilitation)
  | .quarantined => decide (t = some .quarantine)
  | _ => decide (t = none)

/-- The record of XA, XB, REF or SYN is one section 1.2, R1 and R11 allow; FAULTED never stands after an event. -/
def OscRec.wf (o : Osc) (r : OscRec) : Prop :=
  r.state ≠ .faulted ∧ timerOk o r.state (r.timer.map SourceTimer.kind) = true
  ∧ r.runningSince.isSome = decide (r.state = .running) ∧ r.budget ≤ r.cfg.retryCount
  ∧ (r.state = .lockedOut → r.budget = 0)

/-- RCO's record (R1, R13). -/
def RcoRec.wf (r : RcoRec) : Prop :=
  r.runningSince.isSome = decide (r.state = .running) ∧ (r.fault = none ∨ r.fault = some .disagree)
  ∧ (r.state = .faulted → r.fault = some .disagree)

def sourcesOk (k : Clocks) : Prop := (∀ o, OscRec.wf o (k.src.osc.get o)) ∧ k.src.rco.wf

/-- Numbers run on by one, 1 after 65,535, up to the next number; none is 0 (R162, R163). -/
def consecutive : List NoticeRec → Half → Bool
  | [], next => decide (next ≠ 0#16)
  | r :: rs, next =>
    decide (r.number ≠ 0#16)
    && (match rs with
        | [] => decide (next = nextNumber r.number)
        | q :: _ => decide (q.number = nextNumber r.number))
    && consecutive rs next

/-- The notice queue is one R162 allows. -/
def Notices.wf (q : Notices) : Prop :=
  q.records.length ≤ Config.noticeRoom ∧ q.lost ≤ 255 ∧ consecutive q.records q.next = true

/-- The bytes of details of each kind (R173). -/
def detailBytes : NoticeKind → Nat
  | .started => 6 | .lost => 1 | .sourceState => 4 | .outputState => 11 | .failover => 5 | .claimExpired => 5
  | .profileEntered => 3 | .profileSettled => 14 | .wake => 5 | .actionDone => 15 | .imageSaved => 4 | .imageFailed => 1

def Notices.laidOut (q : Notices) : Prop := ∀ r ∈ q.records, r.details.length = detailBytes r.kind

/-- The mapped pairs a configuration gives (R82). -/
def configMapped (c : BoardConfig) : Nat := (c.lines.toList.map fun g => g.map.length).sum

/-- A slot's image, if it holds one, maps at most 16 pairs. -/
def slotMapsFit : SlotContents → Prop
  | .written i => configMapped i.body ≤ Config.mappedRoom
  | _ => True

/-- The images and the save buffer map at most 16 pairs each. -/
def ImageStore.mapsFit (m : ImageStore) : Prop :=
  slotMapsFit m.contents.a ∧ slotMapsFit m.contents.b
  ∧ ∀ v, m.save = some v → configMapped v.buffer ≤ Config.mappedRoom

/-- The claim table is one R81 and R82 allow: no claimant twice on one output, every line record in its line's map, soft
records within the room that the mapped pairs leave, at most 16 mapped pairs, at most 32 records. -/
def claimsOk (s : State) : Prop :=
  (s.claims.map fun c => (c.claimant, c.output)).Nodup
  ∧ (∀ c ∈ s.claims, ∀ l, c.claimant = .line l → ∃ p ∈ (s.lines.get l).set.map, p.output = c.output)
  ∧ softCount s.claims ≤ Config.claimRoom - mappedTotal s.lines
  ∧ mappedTotal s.lines ≤ Config.mappedRoom ∧ s.image.mapsFit

/-- The action list is one R124 allows: at most 16 actions, no number twice. -/
def actionsOk (l : List Action) : Prop := l.length ≤ Config.actionRoom ∧ (l.map Action.number).Nodup

/-- A save runs only in LIVE, on a slot that is INVALID with reason SAVING, and every valid generation is below the new one
(R141, R142). -/
def saveOk (s : State) : Prop :=
  ∀ v, s.image.save = some v → s.startup.state = .live ∧ s.image.records.get v.slot = .invalid .saving
    ∧ ∀ b g, newestValid s.image.records = some (b, g) → b ≠ v.slot ∧ g.toNat < v.generation.toNat

/-- The receiver holds what its state has taken of a frame, the gap timer runs inside a frame only, and a length is at most
120 (R149, section 9.2). -/
def Rx.wf (r : Rx) : Prop :=
  match r.state with
  | .hunt => r = .hunting
  | .header => r.bytes.length + r.expected = 3 ∧ 1 ≤ r.expected ∧ r.gap = true ∧ ∀ l rest, r.bytes = l :: rest → l.toNat ≤ 120
  | .body => 1 ≤ r.expected ∧ r.gap = true
      ∧ ∃ l tag kind body, r.bytes = l :: tag :: kind :: body ∧ l.toNat ≤ 120 ∧ body.length + r.expected = l.toNat
  | .check => 1 ≤ r.expected ∧ r.expected ≤ 2 ∧ r.gap = true
      ∧ ∃ l tag kind rest, r.bytes = l :: tag :: kind :: rest ∧ l.toNat ≤ 120 ∧ rest.length + r.expected = l.toNat + 2

end Sys2Proof.Machine
end

