-- ==== Sys2Proof/Certificates/Slice0/Obligations.lean ====
section
/-! DEFINITION. Certificates/Slice0/Obligations.lean: the statements about the CS58 for the provers. -/

open Sys2Proof Sys2Proof.Machine

/-! ### Steps, completion, frame -/

/-- A step runs the command at the front of the queue on the queue's rest.
With no command waiting the part idles: the model's choice, log 1. -/
def Obligations.StepTakesFrontCommand : Prop :=
  (∀ (c : Instr) (rest : List Instr) (s : State), s.pending = c :: rest → step s = exec c { s with pending := rest })
  ∧ (∀ s : State, s.pending = [] → step s = .next s)

/-- Every command completes in every state, and leaves the waiting commands alone. -/
def Obligations.EveryCommandCompletes : Prop := ∀ (i : Instr) (s : State), ∃ t, exec i s = .next t ∧ t.pending = s.pending

/-- The frame of every command: the parts `mayTouch` does not name are as before. -/
def Obligations.CommandsTouchOnlyTheirParts : Prop :=
  ∀ (i : Instr) (s t : State), exec i s = .next t → ∀ p, p ∉ mayTouch i → p.same s t

/-! ### Requests as frames (R149 to R155, R171) -/

/-- A request command is a completed frame with its tag and kind, handed to its owner.
Every request a frame can carry reads back from its kind and body with every field as sent. -/
def Obligations.RequestsAreTheirFrames : Prop :=
  (∀ (i : Instr) (tag : Byte) (r : Request) (s : State), i.request? = some (tag, r) →
      exec i s = .next (takeFrame tag r.kind (performRequest r) s))
  ∧ (∀ r : Request, r.fits = true → parseRequest r.kind r.body = .request r)

/-- The bytes of a frame, sent one after another to a receiver in HUNT, are that frame taken and handed to the owner of its kind.
The premise on the end of the event holds after every event. -/
def Obligations.CharactersMakeTheFrame : Prop :=
  ∀ (tag kind : Byte) (body : List Byte) (s : State), body.length ≤ 120 → s.startup.running = true →
    s.link.rx = .hunting → s.endEvent = s →
    runAll ((frameBytes tag kind body).map fun c => .characterReceived c false) s =
      .next (takeFrame tag kind (performFrame kind body) s)

/-- Section 11.1 and R171: sync byte, length, tag, kind, body, CRC-16 high byte first; the check value of the CRC-16. -/
def Obligations.FramesAreLaidOut : Prop :=
  (∀ (tag kind : Byte) (body : List Byte), ∃ hi lo : Byte,
    frameBytes tag kind body = [0xA5#8, BitVec.ofNat 8 body.length, tag, kind] ++ body ++ [hi, lo]
    ∧ hi ++ lo = crc16 (BitVec.ofNat 8 body.length :: tag :: kind :: body))
  ∧ crc16 [0x31#8, 0x32#8, 0x33#8, 0x34#8, 0x35#8, 0x36#8, 0x37#8, 0x38#8, 0x39#8] = 0x29B1#16

/-- Where a completed frame is not performed: outside the running part it is ignored; outside LIVE or with the window full it
is discarded and sets MISSED; behind a RESTART it is held, with tag and kind (the model's choice, log 31). -/
def Obligations.FramesNotPerformed : Prop :=
  ∀ (i : Instr) (tag kind : Byte) (s : State), i.header? = some (tag, kind) →
    (s.startup.running = false → exec i s = .next s)
    ∧ (s.startup.running = true → (s.isLive = false ∨ 4 ≤ s.link.windowCount) →
        exec i s = .next ({ s with link := { s.link with rx := .hunting, missed := true } } : State).endEvent)
    ∧ (s.isLive = true → s.link.windowCount < 4 → s.link.restartTaken = true →
        exec i s = .next ({ s with link := { s.link with
          rx := .hunting, held := s.link.held ++ [⟨tag, kind⟩] } } : State).endEvent)

/-- A taken request is answered once, in its own event, with its tag, its reply kind and the owner's status and result fields;
the reply joins the end of the queued replies (R153, R154). On an idle LTX the oldest reply begins in this event, with MISSED read
(R155, R156), before any notice of the event: the model's, log 32.
A refused request changes nothing and carries no result fields (R153). -/
def Obligations.TakenRequestIsAnswered : Prop :=
  (∀ (i : Instr) (tag : Byte) (r : Request) (s : State), i.request? = some (tag, r) → s.takes →
      ∃ t, exec i s = .next t
        ∧ answered s t (replyTo tag r.kind (performRequest r s.hunt).status (performRequest r s.hunt).result))
  ∧ (∀ (r : Request) (s : State), (performRequest r s).status ≠ .ok → (performRequest r s).status ≠ .accepted →
        (performRequest r s).state = s ∧ (performRequest r s).result = [])

/-- What the transmitter begins: nothing outside LIVE or while a frame is on LTX; else the oldest queued reply, with MISSED read
and cleared; else the oldest unsent notice, marked sent (R155, R156).
While SETTLING, with every enabled output in RUNNING, PARKED or DARK, one PROFILE SETTLED is posted and the state becomes
IDLE; otherwise nothing happens (R114). -/
def Obligations.EndOfEventRules : Prop :=
  (∀ s : State,
      (s.isLive = false ∨ s.link.onLtx ≠ none → s.transmit = s)
      ∧ (s.isLive = true → s.link.onLtx = none →
        (∀ r rs, s.link.queued = r :: rs → s.transmit = { s with link := { s.link with
          queued := rs, missed := false
          onLtx := some ⟨frameBytes r.tag r.kind ([r.status.code, linkFlags s.link.missed (s.notices.records ≠ [])] ++ r.result),
            true, r.restart⟩ } })
        ∧ (s.link.queued = [] → ∀ pre r post, s.notices.records = pre ++ r :: post → (∀ x ∈ pre, x.sent = true) →
            r.sent = false → s.transmit = { s with
              link := { s.link with onLtx := some ⟨frameBytes 0#8 0x7E#8 r.body, false, false⟩ }
              notices := { s.notices with records := pre ++ { r with sent := true } :: post } })
        ∧ (s.link.queued = [] → (∀ x ∈ s.notices.records, x.sent = true) → s.transmit = s)))
  ∧ (∀ s : State,
        (s.settling = none → s.testSettled = s)
        ∧ (∀ g, s.settling = some g →
          ((∀ o, (s.out o).cfg.enable = true →
              (s.out o).state = .running ∨ (s.out o).state = .parked ∨ (s.out o).state = .dark) →
            s.testSettled = { s.post (settledPosting s g) with settling := none })
          ∧ (∀ o, (s.out o).cfg.enable = true →
              ((s.out o).state = .waiting ∨ ∃ p, (s.out o).state = .switching p) → s.testSettled = s)))

/-! ### Reset -/

/-- What the part holds right after power-on, in the spec's terms (R20, R37, R61, R97, R133, R134, R137, R161, R169). -/
def Obligations.ResetState : Prop :=
  let s := State.reset
  s.startup.state = .powerup ∧ s.rdy = false ∧ s.ltxIdle = true ∧ s.alertLow = false
  ∧ (∀ o, s.outPin o = .highImpedance ∧ (s.out o).gateOpen = false ∧ (s.out o).refused = [] ∧ (s.out o).pin = none)
  ∧ (∀ o, (s.osc o).state = .off ∧ (s.osc o).budget = (s.osc o).cfg.retryCount ∧ (s.osc o).fault = none
      ∧ (s.osc o).runningSince = none ∧ (s.osc o).timer = none)
  ∧ s.clk.src.rco.state = .unchecked ∧ s.clk.mon.surveyNumber = 0#32
  ∧ s.claims = [] ∧ s.actions = [] ∧ s.notices.records = [] ∧ s.notices.next = 1#16 ∧ s.notices.lost = 0
  ∧ s.link.rx = .hunting ∧ s.link.held = [] ∧ s.link.queued = [] ∧ s.link.missed = false ∧ s.link.restartTaken = false
  ∧ s.link.windowCount = 0 ∧ s.image.contents = ⟨.erased, .erased⟩ ∧ s.image.save = none ∧ s.image.lastSave = none
  ∧ s.pending = []

/-- The part right after power-on meets every invariant stated below. -/
def Obligations.ResetMeetsInvariants : Prop :=
  let s := State.reset
  gateLaw s.clk ∧ outputsOk s.clk ∧ (s.startup.running = true → outputsStand s) ∧ sourcesOk s.clk ∧ s.notices.wf
  ∧ s.notices.laidOut ∧ s.link.windowCount ≤ 4 ∧ claimsOk s ∧ s.stack.depth ≤ 6 ∧ actionsOk s.actions ∧ saveOk s
  ∧ s.link.rx.wf ∧ (s.startup.running = true → atRest s)

/-! ### What every step keeps -/

/-- R54: an open gate is on a source in RUNNING or SUSPECT, or on RCO. -/
def Obligations.StepKeepsGateLaw : Prop := ∀ s t : State, gateLaw s.clk → step s = .next t → gateLaw t.clk

/-- R41, R51, R53, R65, R71: each output's runtime record is one the rules allow. -/
def Obligations.StepKeepsOutputRecords : Prop := ∀ s t : State, outputsOk s.clk → step s = .next t → outputsOk t.clk

/-- R43, R44: while the part runs, each output stands as its wanted-ness has it. -/
def Obligations.StepKeepsOutputsStanding : Prop :=
  ∀ s t : State, (s.startup.running = true → outputsStand s) → step s = .next t →
    t.startup.running = true → outputsStand t

/-- R4, R6, R44, R46, R54: an event runs its course to the end. After each command no output and no source is left to move: the
next evaluation would change nothing. -/
def Obligations.StepKeepsAtRest : Prop :=
  ∀ s t : State, outputsOk s.clk → (s.startup.running = true → atRest s) → step s = .next t →
    t.startup.running = true → atRest t

/-- R1, R9, R11, R12: each source's record is one the rules allow; no source stays FAULTED after an event. -/
def Obligations.StepKeepsSourceRecords : Prop := ∀ s t : State, sourcesOk s.clk → step s = .next t → sourcesOk t.clk

/-- R162: at most 24 notices, numbers running on by one, 1 after 65,535, no number 0.
R173: the details of every notice have the length of its kind. -/
def Obligations.StepKeepsNoticeQueue : Prop :=
  (∀ s t : State, s.notices.wf → step s = .next t → t.notices.wf)
  ∧ (∀ s t : State, s.notices.laidOut → step s = .next t → t.notices.laidOut)

/-- R81, R82: one record for a claimant and output, line records only of mapped pairs, soft records within their room, at most
16 mapped pairs, in the table and in every image.
R82: such a table holds at most 32 records. -/
def Obligations.StepKeepsClaimTable : Prop :=
  (∀ s t : State, claimsOk s → step s = .next t → claimsOk t)
  ∧ (∀ s : State, claimsOk s → s.claims.length ≤ 32)

/-- R124: at most 16 actions, no two with one number.
R102: the stack holds 1 to 6 entries, the active profile on top. -/
def Obligations.StepKeepsStackAndActions : Prop :=
  (∀ s t : State, actionsOk s.actions → step s = .next t → actionsOk t.actions)
  ∧ (∀ s t : State, s.stack.depth ≤ 6 → step s = .next t →
        1 ≤ t.stack.depth ∧ t.stack.depth ≤ 6 ∧ t.stack.entries.getLast? = some t.stack.top)

/-- R141, R142: a save runs in LIVE only, into a slot that is INVALID and SAVING and not the newest valid one, with a
generation above every valid one. -/
def Obligations.StepKeepsSave : Prop := ∀ s t : State, saveOk s → step s = .next t → saveOk t

/-- R149: the receiver holds what its state has taken of a frame.
R152: the window count never exceeds 4. -/
def Obligations.StepKeepsLink : Prop :=
  (∀ s t : State, s.link.rx.wf → step s = .next t → t.link.rx.wf)
  ∧ (∀ s t : State, s.link.windowCount ≤ 4 → step s = .next t → t.link.windowCount ≤ 4)

/-! ### Rules on values -/

/-- R2: the ranges of SOURCE SET, source by source, and SYN's derived nominal frequency. -/
def Obligations.SourceRanges : Prop :=
  (∀ (o : Osc) (r : SourceSetReq), sourceSetInRange o r = true ↔
    (10 ≤ r.quarantine.toNat ∧ r.quarantine.toNat ≤ 60000) ∧ r.retryCount.toNat ≤ 15
    ∧ (1 ≤ r.rehabilitation.toNat ∧ r.rehabilitation.toNat ≤ 600)
    ∧ (match o with
      | .xa => (8000000 ≤ r.nominal.toNat ∧ r.nominal.toNat ≤ 48000000) ∧ 1 ≤ r.startTimeout.toNat ∧ r.startTimeout.toNat ≤ 20
      | .xb => (30000 ≤ r.nominal.toNat ∧ r.nominal.toNat ≤ 40000) ∧ 100 ≤ r.startTimeout.toNat
          ∧ r.startTimeout.toNat ≤ 2000
      | .ref => (1000000 ≤ r.nominal.toNat ∧ r.nominal.toNat ≤ 100000000) ∧ 1 ≤ r.startTimeout.toNat
          ∧ r.startTimeout.toNat ≤ 100
      | .syn => (r.synInput = 0#8 ∨ r.synInput = 1#8 ∨ r.synInput = 3#8) ∧ (1 ≤ r.m.toNat ∧ r.m.toNat ≤ 8)
          ∧ (4 ≤ r.n.toNat ∧ r.n.toNat ≤ 64) ∧ 1 ≤ r.startTimeout.toNat ∧ r.startTimeout.toNat ≤ 10))
  ∧ (∀ c : Sources, synNominal c = (match c.syn.input with
      | .xa => c.osc.xa.cfg.nominal
      | .ref => c.osc.ref.cfg.nominal
      | .rco => 24000000) * c.syn.n / c.syn.m)

/-- R25: the four tests in their order.
R26, R27: the direction of a witness, and RCO's consensus result from the directions. -/
def Obligations.SurveyResultAndConsensus : Prop :=
  (∀ count expected tol : Nat,
      (surveyResult count expected tol = .stopped ↔ count * 8 < expected)
      ∧ (surveyResult count expected tol = .slow ↔ expected ≤ count * 8 ∧ count * 1000 < expected * (1000 - tol))
      ∧ (surveyResult count expected tol = .fast ↔ expected ≤ count * 8 ∧ expected * (1000 - tol) ≤ count * 1000
          ∧ expected * (1000 + tol) < count * 1000)
      ∧ (surveyResult count expected tol = .good ↔ expected ≤ count * 8 ∧ expected * (1000 - tol) ≤ count * 1000
          ∧ count * 1000 ≤ expected * (1000 + tol)))
  ∧ ((∀ (count expected thr : Nat) (res : SurveyResult),
        (direction count expected thr res = .fast ↔ expected * (1000 + thr) < count * 1000)
        ∧ (direction count expected thr res = .slow ↔ count * 1000 ≤ expected * (1000 + thr)
            ∧ (res = .stopped ∨ count * 1000 < expected * (1000 - thr))))
      ∧ (∀ ds : List Direction,
        (ds.length < 2 → consensus ds = .none)
        ∧ (2 ≤ ds.length → (∀ d ∈ ds, d = .fast) → consensus ds = .slow)
        ∧ (2 ≤ ds.length → (∀ d ∈ ds, d = .slow) → consensus ds = .fast)
        ∧ (2 ≤ ds.length → (∃ d ∈ ds, d ≠ .fast) → (∃ d ∈ ds, d ≠ .slow) → consensus ds = .good)))

/-- R29: from zero counts on, sixteen judged surveys always give a source in VERIFYING a verdict.
R29: the counting table in VERIFYING: VERIFIED at K, FAILED with the result's kind at F, else UNSTABLE at the sixteenth count.
R30: in RUNNING a good survey changes nothing and a bad one sets the bad count to 1, with DEGRADED, or FAILED at F = 1; in
SUSPECT good surveys recover at K in a row and bad ones fail at F in all, with the last result as the kind. -/
def Obligations.VerdictRules : Prop :=
  (∀ (j : JudgeSettings) (m : OscMonitor) (rs : List SurveyResult), m.verify < 16 → 16 ≤ m.verify + rs.length →
      (verdictWithin j m rs).isSome = true)
  ∧ (∀ (j : JudgeSettings) (m : OscMonitor),
        let unstable : Option Verdict := if 16 ≤ m.verify + 1 then some (.failed .unstable) else none
        (j.k ≤ m.good + 1 → countVerifying j m .good = ⟨0, 0, 0, some .verified⟩)
        ∧ (m.good + 1 < j.k → countVerifying j m .good = ⟨m.good + 1, 0, m.verify + 1, unstable⟩)
        ∧ (∀ (res : SurveyResult) (k : FaultKind), (res = .slow ∧ k = .slow) ∨ (res = .fast ∧ k = .fast) ∨ (res = .stopped ∧ k = .stopped) →
          (j.f ≤ m.bad + 1 → countVerifying j m res = ⟨0, m.bad + 1, m.verify + 1, some (.failed k)⟩)
          ∧ (m.bad + 1 < j.f → countVerifying j m res = ⟨0, m.bad + 1, m.verify + 1, unstable⟩)))
  ∧ (∀ (j : JudgeSettings) (m : OscMonitor),
        countRunning j m .good = ⟨m.good, m.bad, m.verify, none⟩
        ∧ (∀ (res : SurveyResult) (k : FaultKind), (res = .slow ∧ k = .slow) ∨ (res = .fast ∧ k = .fast) ∨ (res = .stopped ∧ k = .stopped) →
          (j.f ≤ 1 → countRunning j m res = ⟨0, 1, m.verify, some (.failed k)⟩)
          ∧ (1 < j.f → countRunning j m res = ⟨0, 1, m.verify, some .degraded⟩)
          ∧ (j.f ≤ m.bad + 1 → countSuspect j m res = ⟨0, m.bad + 1, m.verify, some (.failed k)⟩)
          ∧ (m.bad + 1 < j.f → countSuspect j m res = ⟨0, m.bad + 1, m.verify, none⟩))
        ∧ (j.k ≤ m.good + 1 → countSuspect j m .good = ⟨0, 0, m.verify, some .recovered⟩)
        ∧ (m.good + 1 < j.k → countSuspect j m .good = ⟨m.good + 1, m.bad, m.verify, none⟩))

/-- R31: RCO's table. `bad` stands for a consensus result of SLOW or FAST. -/
def Obligations.RcoCounts : Prop :=
  ∀ (j : JudgeSettings) (g b : Nat) (bad : SurveyResult), bad = .slow ∨ bad = .fast →
    (∀ st, st = .unchecked ∨ st = .suspect →
      (j.k ≤ g + 1 → countRco j st g b .good = ⟨0, 0, some .running⟩)
      ∧ (j.f ≤ b + 1 → countRco j st g b bad = ⟨0, 0, some .faulted⟩)
      ∧ (b + 1 < j.f → countRco j st g b bad = ⟨0, b + 1, none⟩))
    ∧ (g + 1 < j.k → countRco j .unchecked g b .good = ⟨g + 1, 0, none⟩ ∧ countRco j .suspect g b .good = ⟨g + 1, b, none⟩
        ∧ countRco j .faulted g b .good = ⟨g + 1, b, none⟩)
    ∧ (j.k ≤ g + 1 → countRco j .faulted g b .good = ⟨0, 0, some .running⟩)
    ∧ countRco j .faulted g b bad = ⟨0, b, none⟩
    ∧ countRco j .running g b .good = ⟨g, b, none⟩
    ∧ (1 < j.f → countRco j .running g b bad = ⟨0, 1, some .suspect⟩)
    ∧ (j.f ≤ 1 → countRco j .running g b bad = ⟨0, 0, some .faulted⟩)

/-- R121: a timer of d ticks is reached d ticks after its start and not before, across the wrap. -/
def Obligations.TimersReachTheirDueTick : Prop :=
  ∀ (t : Tick) (d k : Nat), d < 2 ^ 31 → k < 2 ^ 31 →
    (reached (t + BitVec.ofNat 32 k) (dueIn t d) = true ↔ d ≤ k)

/-- R43: what makes an output wanted. -/
def Obligations.WantedRule : Prop :=
  ∀ (s : State) (o : Fin 8), s.wants o = true ↔
    (s.out o).cfg.enable = true
    ∧ ((s.profiles.get s.stack.top).policy.get o = .run
      ∨ ((s.profiles.get s.stack.top).policy.get o = .onClaim ∧ ∃ c ∈ s.claims, c.output = o)
      ∨ (s.out o).cfg.essential = true)

/-- R101, R66, R67, R68: what a chain gives, for every chain, source state and record: always one of four results, each under its
own conditions, and the anchor entry wherever it is eligible and no revert is due.
R68 step 1 and R74: a pin is used while its entry is eligible; else it is removed, and the chain decides. -/
def Obligations.ChainSelectionOrder : Prop :=
  (∀ (e : Env) (c : Sources) (o : Fin 8) (r : OutRec) (ch : ChainRec),
      (∀ u i, chainSelect e c o r ch = .use u (some (.entry i)) →
        ch.entry i = some u ∧ eligible e c o r ch u.src = true
        ∧ ((∀ j v, j < i → ch.entry j = some v → eligible e c o r ch v.src = false)
          ∨ (anchor r ch = some (.entry i) ∧ r.revert ≠ .due)))
      ∧ (∀ u i, chainSelect e c o r ch = .wait u (some (.entry i)) →
        ch.entry i = some u ∧ startable e c r u.src = true
        ∧ (∀ j v, ch.entry j = some v → eligible e c o r ch v.src = false)
        ∧ (∀ j v, j < i → ch.entry j = some v → startable e c r v.src = false)
        ∧ ¬ (anchor r ch = some .lastResort ∧ lastResortUsable r ch = true))
      ∧ (∀ u, chainSelect e c o r ch = .use u (some .lastResort) →
        u.src = .rco ∧ ch.lastResort = some u.div ∧ lastResortUsable r ch = true
        ∧ (∀ j v, ch.entry j = some v → eligible e c o r ch v.src = false)
        ∧ (anchor r ch = some .lastResort ∨ ∀ j v, ch.entry j = some v → startable e c r v.src = false))
      ∧ (chainSelect e c o r ch = .dark →
        lastResortUsable r ch = false
        ∧ (∀ j v, ch.entry j = some v → eligible e c o r ch v.src = false ∧ startable e c r v.src = false))
      ∧ (chainSelect e c o r ch = .dark ∨ ∃ u, chainSelect e c o r ch = .use u (some .lastResort)
        ∨ ∃ i, chainSelect e c o r ch = .use u (some (.entry i)) ∨ chainSelect e c o r ch = .wait u (some (.entry i)))
      ∧ (∀ u i, anchor r ch = some (.entry i) → ch.entry i = some u → eligible e c o r ch u.src = true → r.revert ≠ .due →
        chainSelect e c o r ch = .use u (some (.entry i))))
  ∧ (∀ (e : Env) (c : Sources) (o : Fin 8) (r : OutRec) (k : Fin 4) (i : Fin 4), r.cfg.mode = .chain k → r.pin = some i →
        (∀ u, (e.chains.get k).entry i = some u → eligible e c o r (e.chains.get k) u.src = true →
          (select e c o r).pick = .use u (some (.entry i)) ∧ (select e c o r).out.pin = some i ∧ (select e c o r).pinLost = false)
        ∧ ((∀ u, (e.chains.get k).entry i = some u → eligible e c o r (e.chains.get k) u.src = false) →
          (select e c o r).out.pin = none ∧ (select e c o r).pinLost = true
          ∧ (select e c o r).pick = chainSelect e c o (select e c o r).out (e.chains.get k)))

/-- R138 with R141: the slot chosen, what SELECT does with it, and what a save adds. -/
def Obligations.NewestValidSlotIsChosen : Prop :=
  (∀ (g h : Word) (p q : Fin 6) (x y : SlotReason),
    (h.toNat < g.toNat → chooseSlot ⟨.valid g p, .valid h q⟩ = .slot false g)
    ∧ (g.toNat < h.toNat → chooseSlot ⟨.valid g p, .valid h q⟩ = .slot true h)
    ∧ chooseSlot ⟨.valid g p, .valid g q⟩ = .slot false g
    ∧ chooseSlot ⟨.valid g p, .invalid x⟩ = .slot false g
    ∧ chooseSlot ⟨.invalid x, .valid h q⟩ = .slot true h
    ∧ chooseSlot ⟨.invalid x, .invalid y⟩ = .builtIn)
  ∧ (∀ (r : Bank2 SlotRecord) (b : Bool) (g : Word), chooseSlot r = .slot b g →
    (∃ p, r.get b = .valid g p) ∧ ∀ b' g' p', r.get b' = .valid g' p' → g'.toNat ≤ g.toNat)
  ∧ (∀ r : Bank2 SlotRecord, generationsUsedUp r = false →
    ∀ b g p, r.get b = .valid g p → g.toNat < (saveTarget r).2.toNat)
  ∧ (∀ s : State, s.startup.state = .select → ∃ t, exec .selectDone s = .next t
    ∧ t.startup.chosen = some (chooseSlot t.image.records))

/-- R163, R164: a notice is filtered, discarded and counted, or entered with the next number, the present tick and unsent; after
records have left, a lost count above 0 is posted as a LOST notice and cleared.
R14, R55: a change of a source's state puts exactly one SOURCE STATE notice into the event; one that faults puts none as it is
marked, and then one into FAULTED and one into QUARANTINED (R9). A change of an output's state or phase puts exactly one OUTPUT
STATE notice; none comes otherwise, but for one from ACQUIRE to ACQUIRE where an acquire ends as another begins: the model's, log
14. -/
def Obligations.NoticePosting : Prop :=
  (∀ (q : Notices) (tick : Tick) (p : Posting),
      (p.kind ≠ .started → p.kind ≠ .lost → q.filter.getLsbD p.kind.code = false → q.post tick p = q)
      ∧ ((p.kind = .started ∨ p.kind = .lost ∨ q.filter.getLsbD p.kind.code = true) →
        (24 ≤ q.records.length → q.post tick p = { q with lost := min 255 (q.lost + 1) })
        ∧ (q.records.length < 24 → q.post tick p = { q with
            records := q.records ++ [⟨q.next, p.kind, tick, p.subject, p.details, false⟩]
            next := if q.next = 65535#16 then 1#16 else q.next + 1#16 }))
      ∧ (q.lost = 0 → q.testLost tick = q)
      ∧ (q.lost ≠ 0 → q.records.length < 24 → q.testLost tick = { q with
          records := q.records ++ [⟨q.next, .lost, tick, 0#8, [BitVec.ofNat 8 q.lost], false⟩]
          next := if q.next = 65535#16 then 1#16 else q.next + 1#16
          lost := 0 }))
  ∧ ((∀ (v : Ev) (o : Osc) (r : OscRec), (v.changeOsc o r).osc o = r
        ∧ (v.changeOsc o r).srcNotes = v.srcNotes ++ [⟨.sourceState, BitVec.ofNat 8 (oscCode o),
            [BitVec.ofNat 8 (oscStateCode (v.osc o).state), BitVec.ofNat 8 (oscStateCode r.state), BitVec.ofNat 8 r.budget,
              BitVec.ofNat 8 (if r.state = .faulted then faultCode r.fault else 0)]⟩])
      ∧ (∀ (v : Ev) (o : Osc) (k : FaultKind), (markFaulted v (o, k)).srcNotes = v.srcNotes
        ∧ ((markFaulted v (o, k)).osc o).state = .faulted ∧ ((markFaulted v (o, k)).osc o).fault = some k)
      ∧ (∀ (e : Env) (before : Sources) (v : Ev) (o : Osc) (k : FaultKind), (v.osc o).state = .faulted →
        ((quarantine e before v (o, k)).osc o).state = .quarantined
        ∧ (quarantine e before v (o, k)).srcNotes = v.srcNotes
          ++ [⟨.sourceState, BitVec.ofNat 8 (oscCode o), [BitVec.ofNat 8 (oscStateCode (before.osc.get o).state),
              BitVec.ofNat 8 (oscStateCode .faulted), BitVec.ofNat 8 (v.osc o).budget, BitVec.ofNat 8 (faultCode (some k))]⟩,
            ⟨.sourceState, BitVec.ofNat 8 (oscCode o), [BitVec.ofNat 8 (oscStateCode .faulted),
              BitVec.ofNat 8 (oscStateCode .quarantined), BitVec.ofNat 8 (v.osc o).budget, 0#8]⟩])
      ∧ (∀ (before : OutState) (r : OutRec) (why : OutReason) (again : Bool),
        (before = r.state → again = false → stateNote before r why again = [])
        ∧ (before ≠ r.state ∨ again = true → stateNote before r why again = [.state before r.state r.current r.target why])))

/-- R40, R42, R56, R61, R133, R152: the pins as functions of the state. From APPLY of a cold start each pin stands at its
configured stop level. That SELECT_DONE brings the configuration into the records, and that ALERT# is released in SELECT of
a warm restart too, are the model's, logs 8 and 20. -/
def Obligations.PinsFollowTheState : Prop :=
  ∀ (s : State) (o : Fin 8),
    (s.startup.state = .powerup → s.outPin o = .highImpedance ∧ s.alertLow = false ∧ s.rdy = false)
    ∧ (s.startup.state = .select → s.alertLow = false ∧ (s.startup.warm = false → s.outPin o = .highImpedance))
    ∧ (s.startup.state = .select → s.startup.warm = false → ∃ t, exec .selectDone s = .next t
        ∧ t.startup.state = .apply ∧ t.outPin o = stopDrive (t.out o).cfg.stop)
    ∧ (s.rdy = true ↔ s.startup.state = .live ∧ s.link.windowCount < 4)
    ∧ (s.startup.state = .live ∨ s.startup.state = .apply →
      (s.alertLow = true ↔ (∃ x, (s.out x).state = .dark)
          ∨ (∃ x, (s.osc x).state = .faulted ∨ (s.osc x).state = .quarantined ∨ (s.osc x).state = .lockedOut)
          ∨ s.clk.src.rco.state = .faulted))
    ∧ (s.startup.state = .live ∨ s.startup.state = .apply ∨ (s.startup.state = .select ∧ s.startup.warm = true) →
      ((∀ u, (s.out o).gateOpen = true → (s.out o).current = some u → s.outPin o = .clock u)
      ∧ ((s.out o).state = .switching .acquire → s.outPin o = .low)
      ∧ ((s.out o).state = .off ∨ (s.out o).state = .parked ∨ (s.out o).state = .waiting ∨ (s.out o).state = .dark →
          s.outPin o = stopDrive (s.out o).cfg.stop)))
  ∧ (∀ (d n : Nat) (high : Bool), waveHigh 1 n high = high
    ∧ (2 ≤ d → (waveHigh d n high = true ↔ n % d < (d + 1) / 2)))

/-! ### Link requests and events -/

/-- R145, R153, R159: IDENTIFY, RESTART and a frame of no request kind. -/
def Obligations.LinkRequests : Prop :=
  ∀ (s : State) (tag : Byte), s.takes →
    exec (.identify tag) s = .next (afterReply s.hunt tag 0x01#8 .ok
      ([0x0C#8, 0x58#8, 1#8] ++ b1 (causeCode s.startup.record.cause) ++ b1 (chosenCode s.startup.record.chosen)
        ++ b4 (chosenGeneration s.startup.record.chosen) ++ b1 s.link.rate.toNat ++ b1 (rcoStateCode s.clk.src.rco.state)
        ++ b4 s.tick))
    ∧ exec (.restart tag) s = .next (afterReply { s.hunt with link := { s.hunt.link with restartTaken := true } }
        tag 0x03#8 .ok [])
    ∧ (∀ kind, kind ∉ requestKinds → Refuses (.unknownKind tag kind) s tag kind .unknownKind)

/-- R160: ECHO. -/
def Obligations.EchoReturnsItsBody : Prop :=
  ∀ (s : State) (tag : Byte) (body : List Byte), s.takes →
    (body.length ≤ 118 → exec (.echo tag body) s = .next (afterReply s.hunt tag 0x02#8 .ok body)
      ∧ ∀ m w, (Status.ok.code :: linkFlags m w :: body).length ≤ 120)
    ∧ (118 < body.length → Refuses (.echo tag body) s tag 0x02#8 .badLength)
    ∧ (body.length = 118 → ∀ m w, (Status.ok.code :: linkFlags m w :: body).length = 120)

/-- R149, R150, R151: the receiver, state by state.
R150, R157, R145, R156: a gap, a link break, and the last byte of a frame leaving LTX.
R146, R143: what a warm restart does as it takes effect. GAP in HUNT and FRAME_SENT with nothing on LTX change nothing, and a
restart sets MISSED also with nothing held: the model's, logs 2 and 19. -/
def Obligations.LinkEvents : Prop :=
  (∀ (s : State) (c : Byte), s.startup.running = true →
      let rx (r : Rx) : State := { s with link := { s.link with rx := r } }
      let dropped : State := { s with link := { s.link with rx := .hunting, missed := true } }
      (s.link.rx = .hunting →
        (c = 0xA5#8 → exec (.characterReceived c false) s = .next (rx ⟨.header, [], 3, true⟩).endEvent)
        ∧ (c ≠ 0xA5#8 → exec (.characterReceived c false) s = .next s.endEvent)
        ∧ exec (.characterReceived c true) s = .next s.endEvent)
      ∧ (s.link.rx.state ≠ .hunt → exec (.characterReceived c true) s = .next dropped.endEvent)
      ∧ (s.link.rx = ⟨.header, [], 3, true⟩ →
        (120 < c.toNat → exec (.characterReceived c false) s = .next dropped.endEvent)
        ∧ (c.toNat ≤ 120 → exec (.characterReceived c false) s = .next (rx ⟨.header, [c], 2, true⟩).endEvent))
      ∧ (∀ l, s.link.rx = ⟨.header, [l], 2, true⟩ →
        exec (.characterReceived c false) s = .next (rx ⟨.header, [l, c], 1, true⟩).endEvent)
      ∧ (∀ l g, s.link.rx = ⟨.header, [l, g], 1, true⟩ →
        (l = 0#8 → exec (.characterReceived c false) s = .next (rx ⟨.check, [l, g, c], 2, true⟩).endEvent)
        ∧ (l ≠ 0#8 → exec (.characterReceived c false) s = .next (rx ⟨.body, [l, g, c], l.toNat, true⟩).endEvent))
      ∧ (∀ bs n, s.link.rx = ⟨.body, bs, n + 2, true⟩ →
        exec (.characterReceived c false) s = .next (rx ⟨.body, bs ++ [c], n + 1, true⟩).endEvent)
      ∧ (∀ bs, s.link.rx = ⟨.body, bs, 1, true⟩ →
        exec (.characterReceived c false) s = .next (rx ⟨.check, bs ++ [c], 2, true⟩).endEvent)
      ∧ (∀ bs, s.link.rx = ⟨.check, bs, 2, true⟩ →
        exec (.characterReceived c false) s = .next (rx ⟨.check, bs ++ [c], 1, true⟩).endEvent)
      ∧ (∀ l tag kind body hi, s.link.rx = ⟨.check, l :: tag :: kind :: (body ++ [hi]), 1, true⟩ →
        crc16 (l :: tag :: kind :: body) ≠ hi ++ c → exec (.characterReceived c false) s = .next dropped.endEvent))
  ∧ (∀ s : State, s.startup.running = true →
        (s.link.rx.wf → s.link.rx.state ≠ .hunt → exec .gap s = .next
          ({ s with link := { s.link with rx := .hunting, missed := true } } : State).endEvent)
        ∧ (s.link.rx.state = .hunt → exec .gap s = .next s.endEvent)
        ∧ exec .linkBreak s = .next ({ s with
            link := { s.link with
              rx := .hunting, held := [], queued := [], missed := true
              restartTaken := s.link.restartTaken && !s.link.queued.any Reply.restart }
            notices := { s.notices with records := s.notices.records.map fun r => { r with sent := false } } } : State).endEvent
        ∧ (s.link.onLtx = none → exec .frameSent s = .next s.endEvent)
        ∧ (∀ f, s.link.onLtx = some f → f.restart = false →
            exec .frameSent s = .next ({ s with link := { s.link with onLtx := none } } : State).endEvent)
        ∧ (∀ f, s.link.onLtx = some f → f.restart = true → ∃ t, exec .frameSent s = .next t
            ∧ t.startup.state = .select ∧ t.startup.warm = true ∧ t.actions = [] ∧ t.link.held = [] ∧ t.link.onLtx = none
            ∧ t.link.missed = true ∧ t.link.restartTaken = false ∧ t.image.save = none
            ∧ (∀ v, s.image.save = some v → t.image.records.get v.slot = .invalid .abandoned
                ∧ t.image.lastSave = some ⟨.abandoned, v.slot, v.generation⟩ ∧ t.startup.abandoned = some v.slot)
            ∧ t.clk = s.clk ∧ t.claims = s.claims ∧ t.tick = s.tick ∧ t.link.rate = s.link.rate))

/-! ### Source requests and events -/

/-- R15, R16: SOURCE SET, its checks in their order and what an accepted one leaves. -/
def Obligations.SourceSetRule : Prop :=
  ∀ (s : State) (tag : Byte) (r : SourceSetReq), s.takes →
    (srcOfCode r.source = none → Refuses (.sourceSet tag r) s tag 0x10#8 .noSuch)
    ∧ (srcOfCode r.source = some .rco → Refuses (.sourceSet tag r) s tag 0x10#8 .notPermitted)
    ∧ ∀ o, srcOfCode r.source = some (.osc o) →
      let c := sourceSetSources o r s.clk.src
      (sourceSetInRange o r = false ∨ sourceSetFits s o c = false → Refuses (.sourceSet tag r) s tag 0x10#8 .badValue)
      ∧ (sourceSetInRange o r = true → sourceSetFits s o c = true →
        (sourceSetConflicts s c = true → Refuses (.sourceSet tag r) s tag 0x10#8 .conflict)
        ∧ (sourceSetConflicts s c = false → ∃ u, exec (.sourceSet tag r) s = .next (afterReply u tag 0x10#8 .ok [])
          ∧ (u.osc o).cfg = ⟨if o = .syn then (s.osc o).cfg.nominal else r.nominal.toNat, r.startTimeout.toNat,
              r.quarantine.toNat, r.retryCount.toNat, r.rehabilitation.toNat, (s.osc o).cfg.keep⟩
          ∧ (u.osc o).budget = min (s.osc o).budget r.retryCount.toNat ∧ (u.osc o).fault = (s.osc o).fault
          ∧ (∀ x, x ≠ o → (u.osc x).cfg = (s.osc x).cfg ∧ (u.osc x).budget = (s.osc x).budget)
          ∧ (o ≠ .syn → u.clk.src.syn = s.clk.src.syn)
          ∧ (o = .syn → synInputOfCode r.synInput = some u.clk.src.syn.input ∧ u.clk.src.syn.m = r.m.toNat
              ∧ u.clk.src.syn.n = r.n.toNat)))

/-- R17: SOURCE KEEP. A kept source in OFF enters STARTING.
R7, R18, R19: SOURCE CLEAR and SOURCE QUERY. A SYN that depends on the cleared input faults with a QUARANTINED one and waits on
with a LOCKED_OUT one: the model's, log 12. So is what SOURCE QUERY sends of RCO's demand, budget and timer (log 27), and the 0 it
sends as ticks where no timer runs (log 26). -/
def Obligations.SourceKeepClearQuery : Prop :=
  (∀ (s : State) (tag source f : Byte), s.takes →
      (srcOfCode source = none → Refuses (.sourceKeep tag source f) s tag 0x12#8 .noSuch)
      ∧ (srcOfCode source = some .rco → Refuses (.sourceKeep tag source f) s tag 0x12#8 .notPermitted)
      ∧ ∀ o, srcOfCode source = some (.osc o) →
        (f ≠ 0#8 → f ≠ 1#8 → Refuses (.sourceKeep tag source f) s tag 0x12#8 .badValue)
        ∧ (∀ b : Bool, f = (if b then 1#8 else 0#8) → ∃ u, exec (.sourceKeep tag source f) s = .next (afterReply u tag 0x12#8 .ok [])
          ∧ (u.osc o).cfg = { (s.osc o).cfg with keep := b } ∧ (∀ x, x ≠ o → (u.osc x).cfg = (s.osc x).cfg)
          ∧ (b = true → (s.osc o).state = .off → (u.osc o).state = .starting)))
  ∧ (∀ (s : State) (tag source : Byte), s.takes →
        (srcOfCode source = none → Refuses (.sourceClear tag source) s tag 0x13#8 .noSuch
          ∧ Refuses (.sourceQuery tag source) s tag 0x11#8 .noSuch)
        ∧ (∀ x, srcOfCode source = some x →
          exec (.sourceQuery tag source) s = .next (afterReply s.hunt tag 0x11#8 .ok (sourceQueryBytes s x)))
        ∧ (srcOfCode source = some .rco →
          (s.clk.src.rco.state ≠ .faulted → exec (.sourceClear tag source) s = .next (afterReply s.hunt tag 0x13#8 .ok []))
          ∧ (s.clk.src.rco.state = .faulted → ∃ u, exec (.sourceClear tag source) s = .next (afterReply u tag 0x13#8 .ok [])
            ∧ u.clk.src.rco.state = .unchecked ∧ u.clk.mon.rco.good = 0 ∧ u.clk.mon.rco.bad = 0
            ∧ u.clk.src.rco.fault = s.clk.src.rco.fault))
        ∧ (∀ o, srcOfCode source = some (.osc o) → ∃ u, exec (.sourceClear tag source) s = .next (afterReply u tag 0x13#8 .ok [])
          ∧ (u.osc o).budget = (s.osc o).cfg.retryCount ∧ (u.osc o).fault = (s.osc o).fault
          ∧ ((s.osc o).state = .quarantined ∨ (s.osc o).state = .lockedOut →
            (u.osc o).state = .off ∨ (u.osc o).state = .starting)
          ∧ (synInputSrc s.clk.src.syn.input = .osc o →
            ((s.osc o).state = .quarantined → synDepends s.clk.src = true →
              (u.osc .syn).state = .quarantined ∧ (u.osc .syn).fault = some .inputLost)
            ∧ ((s.osc o).state = .lockedOut → (u.osc .syn).fault = (s.osc .syn).fault))
          ∧ ((s.osc o).state ≠ .quarantined → (s.osc o).state ≠ .lockedOut →
            u = s.hunt.putOsc o { s.osc o with budget := (s.osc o).cfg.retryCount })))

/-- R5, R6, R12: start detection, lock detection, rehabilitation. Detection takes the source to VERIFYING with one SOURCE STATE notice
and moves nothing else, in a state at rest as every event leaves one; elsewhere it may stop one that is not kept, for want of
demand (R4). An event that the state cannot give changes nothing: the model's choice, log 2. -/
def Obligations.SourceProgressEvents : Prop :=
  ∀ s : State, s.startup.running = true →
    let found (o : Osc) : State := (s.putOsc o { s.osc o with state := .verifying, timer := none }).post
      ⟨.sourceState, BitVec.ofNat 8 (oscCode o), [1#8, 2#8, BitVec.ofNat 8 (s.osc o).budget, 0#8]⟩
    (∀ o, o ≠ .syn → (s.osc o).state = .starting → atRest s → exec (.startDetection o) s = .next (found o).endEvent)
    ∧ ((s.osc .syn).state = .starting → (s.osc .syn).timer ≠ none → atRest s →
        exec .lockDetection s = .next (found .syn).endEvent)
    ∧ (∀ o, o ≠ .syn → (s.osc o).state = .starting → ∃ t, exec (.startDetection o) s = .next t
      ∧ (((t.osc o).state = .verifying ∧ (t.osc o).timer = none)
        ∨ ((s.osc o).cfg.keep = false ∧ ((t.osc o).state = .off ∨ (t.osc o).state = .starting))))
    ∧ (∀ o, o = .syn ∨ (s.osc o).state ≠ .starting → exec (.startDetection o) s = .next s.endEvent)
    ∧ ((s.osc .syn).state = .starting → (s.osc .syn).timer ≠ none → ∃ t, exec .lockDetection s = .next t
      ∧ (((t.osc .syn).state = .verifying ∧ (t.osc .syn).timer = none)
        ∨ ((s.osc .syn).cfg.keep = false ∧ ((t.osc .syn).state = .off ∨ (t.osc .syn).state = .starting))))
    ∧ ((s.osc .syn).state ≠ .starting ∨ (s.osc .syn).timer = none → exec .lockDetection s = .next s.endEvent)
    ∧ (∀ o due, (s.osc o).state = .running → (s.osc o).timer = some ⟨.rehabilitation, due⟩ →
      (reached s.tick due = true → exec (.rehabilitationExpiry o) s = .next
        (s.putOsc o { s.osc o with budget := (s.osc o).cfg.retryCount, timer := none }).endEvent)
      ∧ (reached s.tick due = false → exec (.rehabilitationExpiry o) s = .next s.endEvent))

/-- R5, R6, R7, R9: a source that does not start, or lock, in time goes through FAULTED into QUARANTINED, without charge to its
budget, and takes a SYN that depends on it along.
R10: what the end of a quarantine gives. Demand is weighed as it stands; at the end of the event the source is in STARTING if it
is demanded then, else in OFF (R4). -/
def Obligations.QuarantineEvents : Prop :=
  (∀ s : State, s.startup.running = true → ∀ (o : Osc) (due : Tick),
      (s.osc o).state = .starting → (s.osc o).timer = some ⟨if o = .syn then .lock else .start, due⟩ →
      reached s.tick due = true → ∃ t,
        exec (if o = .syn then .lockTimerExpiry else .startTimerExpiry o) s = .next t
        ∧ (t.osc o).state = .quarantined ∧ (t.osc o).fault = some .noStart ∧ (t.osc o).budget = (s.osc o).budget
        ∧ (t.osc o).runningSince = none
        ∧ (t.osc o).timer = some ⟨.quarantine, s.tick + BitVec.ofNat 32 (s.osc o).cfg.quarantine⟩
        ∧ (synInputSrc s.clk.src.syn.input = .osc o → (s.osc .syn).state = .starting →
          (t.osc .syn).state = .quarantined ∧ (t.osc .syn).fault = some .inputLost))
  ∧ (∀ s : State, s.startup.running = true → outputsOk s.clk → ∀ (o : Osc) (due : Tick),
        (s.osc o).state = .quarantined → (s.osc o).timer = some ⟨.quarantine, due⟩ → reached s.tick due = true →
        ∃ t, exec (.quarantineExpiry o) s = .next t ∧ (t.osc o).fault = (s.osc o).fault
          ∧ (demanded (envOf .ordinary s s) s.clk o = false ∨ 1 ≤ (s.osc o).budget →
              (t.osc o).state = (if demanded (envOf .ordinary t t) t.clk o then .starting else .off))
          ∧ (demanded (envOf .ordinary s s) s.clk o = false → (t.osc o).budget = (s.osc o).budget)
          ∧ (demanded (envOf .ordinary s s) s.clk o = true → 1 ≤ (s.osc o).budget →
              (t.osc o).budget = (s.osc o).budget - 1 ∧ ((s.osc o).cfg.keep = true → (t.osc o).state = .starting))
          ∧ (demanded (envOf .ordinary s s) s.clk o = true → (s.osc o).budget = 0 →
              (t.osc o).budget = 0 ∧ (t.osc o).state = .lockedOut))

/-! ### Monitor requests and surveys -/

/-- R22 to R28, R30, R31: what a survey completion records, judges of RCO, and begins.
R8, R28, R29, R30: the counts of the other sources and the delivery of their verdicts; one that is not kept may be stopped for want
of demand meanwhile (R4), and a SYN fails with its input (R7). That the recorded number is the one after the increase, that a
captured source is recorded also where RCO's judgement has taken it out of the monitored states, and that a count is the held edges
plus the operand, are the model's, logs 17, 16 and 5. -/
def Obligations.SurveyCompletionRule : Prop :=
  ∀ (s : State) (xa xb ref syn : Word), s.startup.running = true →
    let edges : BankOsc Word := ⟨xa, xb, ref, syn⟩
    let ds := witnessDirections s.clk (captures s.clk edges)
    let m := s.clk.mon
    ∃ t, exec (.surveyCompletion xa xb ref syn) s = .next t
      ∧ t.clk.mon.surveyNumber = m.surveyNumber + 1#32 ∧ t.clk.mon.surveyStart = s.tick
      ∧ t.clk.mon.settings = m.settings
      ∧ (∀ o, (t.clk.mon.osc.get o).edges = 0#32 ∧ (t.clk.mon.osc.get o).mark = monitored (t.osc o).state
        ∧ (t.clk.mon.osc.get o).expected = nominal s.clk.src (.osc o) * m.settings.period / 1000
        ∧ ((m.osc.get o).mark = false → (t.clk.mon.osc.get o).last = (m.osc.get o).last
            ∧ (t.clk.mon.osc.get o).lastResult = (m.osc.get o).lastResult)
        ∧ ((m.osc.get o).mark = true →
            let count := (m.osc.get o).edges + edges.get o
            (t.clk.mon.osc.get o).last = some ⟨count, m.surveyNumber + 1#32,
              if consensus ds = .slow ∨ consensus ds = .fast then .excused
              else if t.clk.src.rco.state = .suspect ∨ t.clk.src.rco.state = .faulted then .suspended else .judged⟩
            ∧ (t.clk.mon.osc.get o).lastResult =
                surveyResult count.toNat (m.osc.get o).expected (m.settings.osc.get o).band))
      ∧ t.clk.mon.rco.witnesses = ds.length
      ∧ (ds.length < 2 → t.clk.mon.rco.good = 0 ∧ t.clk.mon.rco.bad = 0
          ∧ t.clk.mon.rco.lastResult = .none ∧ t.clk.mon.rco.lastSurvey = m.rco.lastSurvey
          ∧ t.clk.src.rco.state = (if s.clk.src.rco.state = .faulted then .faulted else .unchecked))
      ∧ (2 ≤ ds.length → t.clk.mon.rco.lastResult = consensus ds ∧ t.clk.mon.rco.lastSurvey = some (m.surveyNumber + 1#32)
          ∧ t.clk.src.rco.state = (countRco m.settings.rco s.clk.src.rco.state m.rco.good m.rco.bad (consensus ds)).move.getD
              s.clk.src.rco.state)
      ∧ (∀ o, (m.osc.get o).mark = true → monitored (s.osc o).state = true →
          (o = .syn → match synInputSrc s.clk.src.syn.input with
            | .rco => t.clk.src.rco.state ≠ .faulted
            | .osc x => (t.osc x).state ≠ .quarantined) →
          let res := surveyResult ((m.osc.get o).edges + edges.get o).toNat (m.osc.get o).expected (m.settings.osc.get o).band
          let n := countOsc (m.settings.osc.get o) (s.osc o).state (m.osc.get o) res
          let judged := consensus ds ≠ .slow ∧ consensus ds ≠ .fast ∧ t.clk.src.rco.state ≠ .suspect
            ∧ t.clk.src.rco.state ≠ .faulted
          ((s.osc o).cfg.keep = false ∧ ((t.osc o).state = .off ∨ (t.osc o).state = .starting))
          ∨ (judged ∧ t.osc o = (s.osc o).delivered s.tick n.verdict ∧ (t.clk.mon.osc.get o).good = n.good
              ∧ (t.clk.mon.osc.get o).bad = n.bad ∧ (t.clk.mon.osc.get o).verify = n.verify)
          ∨ (¬ judged ∧ t.osc o = s.osc o ∧ (t.clk.mon.osc.get o).good = (m.osc.get o).good
              ∧ (t.clk.mon.osc.get o).bad = (m.osc.get o).bad ∧ (t.clk.mon.osc.get o).verify = (m.osc.get o).verify))

/-- R34, R35, R36: MONITOR SET and MONITOR QUERY. The ticks elapsed that MONITOR QUERY sends are the model's, log 18. -/
def Obligations.MonitorRequests : Prop :=
  ∀ (s : State) (tag : Byte), s.takes →
    exec (.monitorQuery tag) s = .next (afterReply s.hunt tag 0x19#8 .ok (monitorQueryBytes s))
    ∧ ∀ r : MonitorSetReq,
      let m := monitorOfReq r
      (m.inRanges = false ∨ periodFits s.clk.src m.period = false → Refuses (.monitorSet tag r) s tag 0x18#8 .badValue)
      ∧ (m.inRanges = true → periodFits s.clk.src m.period = true → ∃ k,
        exec (.monitorSet tag r) s = .next (afterReply { s.hunt with clk := k } tag 0x18#8 .ok [])
        ∧ k.src = s.clk.src ∧ k.outs = s.clk.outs ∧ k.mon.settings = m ∧ k.mon.rco = s.clk.mon.rco
        ∧ k.mon.surveyNumber = s.clk.mon.surveyNumber
        ∧ (m.period = s.clk.mon.settings.period → k.mon.osc = s.clk.mon.osc ∧ k.mon.surveyStart = s.clk.mon.surveyStart)
        ∧ (m.period ≠ s.clk.mon.settings.period → k.mon.surveyStart = s.tick ∧ ∀ o,
            k.mon.osc.get o = { s.clk.mon.osc.get o with
              edges := 0#32, mark := monitored (s.osc o).state
              expected := nominal s.clk.src (.osc o) * m.period / 1000 }))

/-! ### Output requests and events -/

/-- R53, R57, R58: OUTPUT SET. -/
def Obligations.OutputSetRule : Prop :=
  ∀ (s : State) (tag : Byte) (r : OutputSetReq), s.takes →
    (eightOfCode r.output = none → Refuses (.outputSet tag r) s tag 0x20#8 .noSuch)
    ∧ ∀ o, eightOfCode r.output = some o →
      (outConfigOfReq r = none → Refuses (.outputSet tag r) s tag 0x20#8 .badValue)
      ∧ ∀ c, outConfigOfReq r = some c →
        (c.fits s.clk.src = false → Refuses (.outputSet tag r) s tag 0x20#8 .badValue)
        ∧ (c.fits s.clk.src = true → ∃ u, exec (.outputSet tag r) s = .next (afterReply u tag 0x20#8 .ok [])
          ∧ (u.out o).cfg = c ∧ (∀ x, x ≠ o → (u.out x).cfg = (s.out x).cfg) ∧ outputsStand u ∧ gateLaw u.clk
          ∧ (sameFeed (s.out o).cfg.mode c.mode = true → (u.out o).refused = (s.out o).refused)
          ∧ (sameFeed (s.out o).cfg.mode c.mode = false → (u.out o).refused = [] ∧ (u.out o).pin = none))

/-- R59, R60, R74: OUTPUT SELECT and OUTPUT QUERY. A pin on an existing entry stands where the output is not wanted or the entry is
eligible, and is removed in the same event where a wanted output finds it not eligible; the premise that the state is at rest
rules out one that no event leaves. The time in the phase is a free value (log 3); its 0 outside SWITCHING (log 26) and the output
frequency with the remainder dropped (log 44) are the model's. -/
def Obligations.OutputSelectAndQuery : Prop :=
  ∀ (s : State) (tag output : Byte), s.takes →
    (eightOfCode output = none → Refuses (.outputQuery tag output) s tag 0x21#8 .noSuch
      ∧ ∀ e, Refuses (.outputSelect tag output e) s tag 0x22#8 .noSuch)
    ∧ ∀ o, eightOfCode output = some o →
      ((s.out o).phase = none → exec (.outputQuery tag output) s = .next (afterReply s.hunt tag 0x21#8 .ok
          (outConfigBytes o (s.out o).cfg ++ outRuntimeBytes s o 0)))
      ∧ ((s.out o).phase ≠ none → ∃ micros ≤ 65535, exec (.outputQuery tag output) s =
          .next (afterReply { s.hunt with freeCount := s.freeCount + 1 } tag 0x21#8 .ok
            (outConfigBytes o (s.out o).cfg ++ outRuntimeBytes s o micros)))
      ∧ (∀ e u, (s.out o).cfg.mode = .fixed u → Refuses (.outputSelect tag output e) s tag 0x22#8 .conflict)
      ∧ ∀ k, (s.out o).cfg.mode = .chain k →
        (∀ e, e ≠ 0xFF#8 → 4 ≤ e.toNat → Refuses (.outputSelect tag output e) s tag 0x22#8 .badValue)
        ∧ (∀ (e : Byte) (i : Fin 4), e.toNat = i.val → (s.chains.get k).entry i = none →
            Refuses (.outputSelect tag output e) s tag 0x22#8 .noSuch)
        ∧ (∃ u, exec (.outputSelect tag output 0xFF#8) s = .next (afterReply u tag 0x22#8 .ok [0xFF#8])
            ∧ (u.out o).pin = none ∧ ∀ x, (u.out x).cfg = (s.out x).cfg)
        ∧ (∀ (e : Byte) (i : Fin 4), e.toNat = i.val → (s.chains.get k).entry i ≠ none →
            ∃ u, (exec (.outputSelect tag output e) s = .next (afterReply u tag 0x22#8 .ok [e]) ∧ (u.out o).pin = some i
                ∨ exec (.outputSelect tag output e) s = .next (afterReply u tag 0x22#8 .ok [0xFF#8]) ∧ (u.out o).pin = none)
              ∧ ∀ x, (u.out x).cfg = (s.out x).cfg)
        ∧ (∀ (e : Byte) (i : Fin 4) (v : Use), e.toNat = i.val → (s.chains.get k).entry i = some v →
            let eligible := eligible (envOf .ordinary s s) s.clk.src o (s.out o) (s.chains.get k) v.src
            (s.wants o = false ∨ (atRest s ∧ eligible = true) →
              ∃ u, exec (.outputSelect tag output e) s = .next (afterReply u tag 0x22#8 .ok [e]) ∧ (u.out o).pin = some i)
            ∧ (s.wants o = true → eligible = false →
              ∃ u, exec (.outputSelect tag output e) s = .next (afterReply u tag 0x22#8 .ok [0xFF#8]) ∧ (u.out o).pin = none))

/-- R46, R47, R48: the end of a release, by the falling edge or forced, closes the gate, and the output goes where its wanted-ness
and a fresh selection take it, also a wanted one whose release has no target (the model's, log 13).
R49, R50, R52, R53: the end of an acquire, its timeout, and a divider change taking effect. An event of a phase the output is not in
changes nothing: the model's choice, log 2. -/
def Obligations.OutputEvents : Prop :=
  (∀ (s : State) (o : Fin 8) (i : Instr), s.startup.running = true → i = .releaseEnd o ∨ i = .releaseTimeout o →
      ((s.out o).state ≠ .switching .release → exec i s = .next s.endEvent)
      ∧ ((s.out o).state = .switching .release → ∃ t, exec i s = .next t
        ∧ (t.out o).gateOpen = false ∧ (t.out o).current = none ∧ (t.out o).cfg = (s.out o).cfg
        ∧ (t.out o).refused = (s.out o).refused
        ∧ (s.wants o = true → (t.out o).state = .waiting ∨ (t.out o).state = .switching .acquire ∨ (t.out o).state = .dark)
        ∧ (s.wants o = false → (t.out o).state = (if (s.out o).cfg.enable then .parked else .off) ∧ (t.out o).target = none)))
  ∧ (∀ (s : State) (o : Fin 8), s.startup.running = true →
        (∀ u, (s.out o).state = .switching .acquire → (s.out o).target = some u → feeds s.clk.src u.src = true →
          exec (.acquireEnd o) s = .next (runEvent .ordinary s s fun _ v => v.putOut o
            ({ s.out o with
                state := .running, current := some u, nextDiv := none, target := none, pending := none, phase := none },
              [.state (.switching .acquire) .running (some u) none .complete])).endEvent)
        ∧ (∀ u, (s.out o).state = .switching .acquire → (s.out o).target = some u → u.src = .rco → ∃ t,
          exec (.acquireEnd o) s = .next t ∧ (t.out o).gateOpen = true ∧ (t.out o).current = some u ∧ (t.out o).pending = none)
        ∧ ((s.out o).state ≠ .switching .acquire → exec (.acquireEnd o) s = .next s.endEvent
            ∧ exec (.acquireTimeout o) s = .next s.endEvent)
        ∧ (∀ u, (s.out o).state = .switching .acquire → (s.out o).target = some u → ∃ t,
          exec (.acquireTimeout o) s = .next t ∧ u.src ∈ (t.out o).refused ∧ (t.out o).gateOpen = false
          ∧ (t.out o).pending = none ∧ (∀ x ∈ (s.out o).refused, x ∈ (t.out o).refused))
        ∧ (∀ u d, (s.out o).state = .running → (s.out o).current = some u → (s.out o).nextDiv = some d →
          exec (.dividerChange o) s =
            .next (s.putOut o { s.out o with current := some ⟨u.src, d⟩, nextDiv := none }).endEvent)
        ∧ ((s.out o).nextDiv = none → exec (.dividerChange o) s = .next (s.putOut o (s.out o)).endEvent))

/-! ### Chain requests and the revert timer -/

/-- R76, R77: CHAIN SET and CHAIN QUERY. The zeros that CHAIN QUERY sends for an absent position are the model's, log 26.
R71: the revert timer's expiry gives HELD under a HOLD claim; else the revert is due and selection runs. An expiry that is not due
changes nothing: the model's choice, log 2. -/
def Obligations.ChainRequestsAndRevertTimer : Prop :=
  (∀ (s : State) (tag : Byte), s.takes →
      (∀ chain, chainOfCode chain = none → Refuses (.chainQuery tag chain) s tag 0x29#8 .noSuch)
      ∧ (∀ chain k, chainOfCode chain = some k → exec (.chainQuery tag chain) s = .next (afterReply s.hunt tag 0x29#8 .ok
          (chainBytes k (s.chains.get k)
            ++ b1 (eight.filter fun o => decide ((s.out o).cfg.mode = .chain k)).length
            ++ (eight.filter fun o => decide ((s.out o).cfg.mode = .chain k)).flatMap
                (standingBytes (envOf .ordinary s s) s k))))
      ∧ ∀ r : ChainSetReq,
        (chainOfCode r.chain = none → Refuses (.chainSet tag r) s tag 0x28#8 .noSuch)
        ∧ ∀ k, chainOfCode r.chain = some k →
          (r.entries = [] ∨ 4 < r.entries.length ∨ chainOfReq r = none → Refuses (.chainSet tag r) s tag 0x28#8 .badValue)
          ∧ ∀ c, chainOfReq r = some c → r.entries ≠ [] → r.entries.length ≤ 4 →
            ((distinctSources c.entries = false ∨ ∃ u ∈ c.entries, 200000000 * u.div < nominal s.clk.src u.src) →
              Refuses (.chainSet tag r) s tag 0x28#8 .badValue)
            ∧ (distinctSources c.entries = true → (∀ u ∈ c.entries, nominal s.clk.src u.src ≤ 200000000 * u.div) →
              ∃ u, exec (.chainSet tag r) s = .next (afterReply u tag 0x28#8 .ok [])
                ∧ u.chains.get k = c ∧ (∀ x, x ≠ k → u.chains.get x = s.chains.get x)
                ∧ ∀ o i, (s.out o).cfg.mode = .chain k → (u.out o).pin = some i → (c.entry i).isSome = true))
  ∧ (∀ (s : State) (o : Fin 8) (due : Tick), s.startup.running = true →
        ((s.out o).revert = .timing due →
          (reached s.tick due = false → exec (.revertTimerExpiry o) s = .next s.endEvent)
          ∧ (reached s.tick due = true → held s.claims o = true →
              exec (.revertTimerExpiry o) s = .next (s.putOut o { s.out o with revert := .held }).endEvent)
          ∧ (reached s.tick due = true → held s.claims o = false →
              exec (.revertTimerExpiry o) s = .next
                (reevaluate .ordinary s (s.putOut o { s.out o with revert := .due })).endEvent))
        ∧ ((∀ u, (s.out o).revert ≠ .timing u) → exec (.revertTimerExpiry o) s = .next s.endEvent))

/-! ### Claims and lines -/

/-- R84, R85: CLAIM. `met` is whether the output is wanted once the claim is placed. -/
def Obligations.ClaimRequestRule : Prop :=
  ∀ (s : State) (tag : Byte) (r : ClaimReq), s.takes →
    ((∃ l : Fin 8, r.claimant = 0x0100#16 + BitVec.ofNat 16 l.val) → Refuses (.claim tag r) s tag 0x30#8 .notPermitted)
    ∧ (claimantOfCode r.claimant = .bad → Refuses (.claim tag r) s tag 0x30#8 .badValue)
    ∧ ∀ n, claimantOfCode r.claimant = .soft n →
      (eightOfCode r.output = none → Refuses (.claim tag r) s tag 0x30#8 .noSuch)
      ∧ ∀ o, eightOfCode r.output = some o →
        (claimTerms r = none → Refuses (.claim tag r) s tag 0x30#8 .badValue)
        ∧ ∀ t, claimTerms r = some t →
          let u (cs : List Claim) : State := reevaluate .ordinary s.hunt { s.hunt with claims := cs }
          let new : Claim := ⟨.soft n, o, t.level, t.lease.map fun d => s.tick + BitVec.ofNat 32 d, t.tag, s.tick⟩
          ((∀ c ∈ s.claims, ¬ (c.claimant = .soft n ∧ c.output = o)) →
            (32 - mappedTotal s.lines ≤ softCount s.claims → Refuses (.claim tag r) s tag 0x30#8 .full)
            ∧ (softCount s.claims < 32 - mappedTotal s.lines →
                exec (.claim tag r) s = .next (afterReply (u (s.claims ++ [new])) tag 0x30#8 .ok
                  [1#8, flag ((u (s.claims ++ [new])).wants o)])))
          ∧ ((∃ c ∈ s.claims, c.claimant = .soft n ∧ c.output = o) →
            let cs := s.claims.map fun c => if c.claimant = .soft n ∧ c.output = o then { new with created := c.created } else c
            exec (.claim tag r) s = .next (afterReply (u cs) tag 0x30#8 .ok [0#8, flag ((u cs).wants o)]))

/-- R88, R89, R90: RELEASE, RELEASE ALL, CLAIM LIST.
R86, R87: a lease that runs out removes its record and posts CLAIM EXPIRED; nothing else with that claimant and output
stands or lapses. An expiry that is not due changes nothing: the model's choice, log 2. -/
def Obligations.ReleaseListAndLeaseRule : Prop :=
  (∀ (s : State) (tag : Byte), s.takes →
      (∀ cl, claimantOfCode cl = .line → Refuses (.releaseAll tag cl) s tag 0x32#8 .notPermitted
        ∧ ∀ o, Refuses (.release tag cl o) s tag 0x31#8 .notPermitted)
      ∧ (∀ cl, claimantOfCode cl = .bad → Refuses (.releaseAll tag cl) s tag 0x32#8 .badValue
        ∧ ∀ o, Refuses (.release tag cl o) s tag 0x31#8 .badValue)
      ∧ (∀ cl n, claimantOfCode cl = .soft n →
        let u (cs : List Claim) : State := reevaluate .ordinary s.hunt { s.hunt with claims := cs }
        let left := s.claims.filter fun c => decide (c.claimant ≠ .soft n)
        exec (.releaseAll tag cl) s =
          .next (afterReply (u left) tag 0x32#8 .ok [BitVec.ofNat 8 (s.claims.length - left.length)])
        ∧ (∀ ob, eightOfCode ob = none → Refuses (.release tag cl ob) s tag 0x31#8 .noSuch)
        ∧ ∀ ob o, eightOfCode ob = some o →
          let rest := s.claims.filter fun c => decide (¬ (c.claimant = .soft n ∧ c.output = o))
          ((∀ c ∈ s.claims, ¬ (c.claimant = .soft n ∧ c.output = o)) → Refuses (.release tag cl ob) s tag 0x31#8 .noClaim)
          ∧ ((∃ c ∈ s.claims, c.claimant = .soft n ∧ c.output = o) →
            exec (.release tag cl ob) s = .next (afterReply (u rest) tag 0x31#8 .ok [flag ((u rest).wants o)])))
      ∧ (∀ first : Byte, (31 < first.toNat → Refuses (.claimList tag first) s tag 0x33#8 .badValue)
        ∧ (first.toNat ≤ 31 → exec (.claimList tag first) s = .next (afterReply s.hunt tag 0x33#8 .ok
            ([BitVec.ofNat 8 s.claims.length, BitVec.ofNat 8 (softCount s.claims), BitVec.ofNat 8 (mappedTotal s.lines), first,
              BitVec.ofNat 8 ((s.claims.drop first.toNat).take 8).length]
            ++ ((s.claims.drop first.toNat).take 8).flatMap claimBytes)))))
  ∧ (∀ (s : State) (n : Byte) (o : Fin 8), s.startup.running = true →
        (∀ c, s.claims.find? (fun c => decide (c.claimant = .soft n ∧ c.output = o)) = some c → ∀ due, c.lease = some due →
          (reached s.tick due = true → exec (.leaseExpiry n o) s = .next (reevaluate .ordinary s
            { s.post ⟨.claimExpired, n,
                [BitVec.ofNat 8 o.val, BitVec.ofNat 8 (levelCode c.level), flag c.tag.isSome] ++ b2 (c.tag.getD 0#16)⟩ with
              claims := s.claims.filter fun x => decide (¬ (x.claimant = .soft n ∧ x.output = o)) }).endEvent)
          ∧ (reached s.tick due = false → exec (.leaseExpiry n o) s = .next s.endEvent))
        ∧ ((∀ c ∈ s.claims, c.claimant = .soft n → c.output = o → c.lease = none) →
            exec (.leaseExpiry n o) s = .next s.endEvent))

/-- R94, R95, R96: LINE MAP SET and LINE QUERY. The code of the pin level (log 45) and the 0 ticks sent while the hold is IDLE (log 26)
are the model's. -/
def Obligations.LineRequests : Prop :=
  ∀ (s : State) (tag : Byte), s.takes →
    (∀ b, eightOfCode b = none → Refuses (.lineQuery tag b) s tag 0x35#8 .noSuch)
    ∧ (∀ b l, eightOfCode b = some l →
        exec (.lineQuery tag b) s = .next (afterReply s.hunt tag 0x35#8 .ok (lineBytes s l)))
    ∧ ∀ r : LineMapReq,
      (eightOfCode r.line = none → Refuses (.lineMapSet tag r) s tag 0x34#8 .noSuch)
      ∧ ∀ l, eightOfCode r.line = some l →
        (lineOfReq r = none → Refuses (.lineMapSet tag r) s tag 0x34#8 .badValue)
        ∧ ∀ g, lineOfReq r = some g →
          let ls := s.lines.set l { s.lines.get l with set := g }
          (16 < mappedTotal ls ∨ 32 - mappedTotal ls < softCount s.claims → Refuses (.lineMapSet tag r) s tag 0x34#8 .full)
          ∧ (mappedTotal ls ≤ 16 → softCount s.claims ≤ 32 - mappedTotal ls →
            ∃ u, exec (.lineMapSet tag r) s = .next (afterReply u tag 0x34#8 .ok [])
              ∧ (u.lines.get l).set = g ∧ (u.lines.get l).pinHigh = (s.lines.get l).pinHigh
              ∧ (u.lines.get l).active = (if (s.lines.get l).active = decide ((s.lines.get l).pinHigh = g.activeHigh)
                  then (s.lines.get l).active else decide ((s.lines.get l).pinHigh = g.activeHigh))
              ∧ (∀ x, x ≠ l → u.lines.get x = s.lines.get x)
              ∧ u.claims.filter (fun c => decide (c.claimant ≠ .line l)) =
                  s.claims.filter (fun c => decide (c.claimant ≠ .line l))
              ∧ (∀ c ∈ u.claims, c.claimant = .line l → ∃ p ∈ g.map, p.output = c.output)
              ∧ ((s.lines.get l).active = true → decide ((s.lines.get l).pinHigh = g.activeHigh) = true →
                  ∀ p ∈ g.map, ∃ c ∈ u.claims, c.claimant = .line l ∧ c.output = p.output ∧ c.level = p.level)
              ∧ ((s.lines.get l).active = false → decide ((s.lines.get l).pinHigh = g.activeHigh) = true →
                  (u.lines.get l).hold = none
                  ∧ ∀ p ∈ g.map, ∃ c ∈ u.claims, c.claimant = .line l ∧ c.output = p.output ∧ c.level = p.level)
              ∧ ((s.lines.get l).active = true → decide ((s.lines.get l).pinHigh = g.activeHigh) = false →
                  g.holdTime = 0 → ∀ c ∈ u.claims, c.claimant ≠ .line l))

/-- R91, R92, R93: edges of a claim line and the end of its hold. An activation is offered as a wake event, after the settling test
of what the claims have moved, by a course of its own (R103; the model's, logs 15 and 14). An edge that the line's state cannot give
changes nothing: the model's choice, logs 2 and 29.
R92 step 2: adding a line's pairs gives each mapped output its record at the pair's level, and touches no other record. -/
def Obligations.LineEvents : Prop :=
  (∀ (s : State) (l : Fin 8), s.startup.running = true →
      let r := s.lines.get l
      let gone := s.claims.filter fun c => decide (c.claimant ≠ .line l)
      (r.active = false → exec (.lineActivation l) s = .next (offerWake (.line l) (reevaluate .ordinary s { s with
          lines := s.lines.set l { r with pinHigh := r.set.activeHigh, active := true, hold := none }
          claims := addPairs l s.tick r.set.map s.claims }).testSettled).endEvent)
      ∧ (r.active = true → exec (.lineActivation l) s = .next s.endEvent)
      ∧ (r.active = false → exec (.lineDeactivation l) s = .next s.endEvent)
      ∧ (r.active = true → r.set.holdTime = 0 → exec (.lineDeactivation l) s = .next (reevaluate .ordinary s { s with
          lines := s.lines.set l { r with pinHigh := !r.set.activeHigh, active := false }
          claims := gone }).endEvent)
      ∧ (r.active = true → r.set.holdTime ≠ 0 → exec (.lineDeactivation l) s = .next (reevaluate .ordinary s { s with
          lines := s.lines.set l { r with
            pinHigh := !r.set.activeHigh, active := false, hold := some (s.tick + BitVec.ofNat 32 r.set.holdTime) } }).endEvent)
      ∧ (∀ due, r.hold = some due → reached s.tick due = true → exec (.holdExpiry l) s = .next (reevaluate .ordinary s { s with
          lines := s.lines.set l { r with hold := none }
          claims := gone }).endEvent)
      ∧ ((∀ due, r.hold = some due → reached s.tick due = false) → exec (.holdExpiry l) s = .next s.endEvent))
  ∧ (∀ (l : Fin 8) (tick : Tick) (ps : List MapPair) (cs : List Claim), (ps.map MapPair.output).Nodup →
        (∀ p ∈ ps, ∃ c ∈ addPairs l tick ps cs, c.claimant = .line l ∧ c.output = p.output ∧ c.level = p.level)
        ∧ (addPairs l tick ps cs).filter (fun c => decide (c.claimant ≠ .line l)) =
            cs.filter (fun c => decide (c.claimant ≠ .line l)))

/-! ### Profiles and wakes -/

/-- R106, R109, R110: PROFILE ENTER, STACK QUERY, PROFILE SET. R111, R113: what an accepted PROFILE SET begins. -/
def Obligations.ProfileRequests : Prop :=
  ∀ (s : State) (tag : Byte), s.takes →
    (∀ b, profileOfCode b = none → Refuses (.profileEnter tag b) s tag 0x3A#8 .noSuch)
    ∧ (∀ b p, profileOfCode b = some p →
      let n : State := { s.hunt with stack := { s.stack with top := p } }
      (p = s.stack.top → exec (.profileEnter tag b) s = .next (afterReply n tag 0x3A#8 .ok []))
      ∧ (p ≠ s.stack.top →
          exec (.profileEnter tag b) s = .next (afterReply (beginTransition .request s.hunt n) tag 0x3A#8 .ok [])))
    ∧ exec (.stackQuery tag) s = .next (afterReply s.hunt tag 0x3D#8 .ok
        ([BitVec.ofNat 8 s.stack.depth] ++ stackBytes s.stack ++ [BitVec.ofNat 8 s.stack.top.val] ++ settlingBytes s))
    ∧ ∀ r : ProfileSetReq,
      (profileOfCode r.profile = none → Refuses (.profileSet tag r) s tag 0x38#8 .noSuch)
      ∧ ∀ p, profileOfCode r.profile = some p →
        (profileOfReq r = none → Refuses (.profileSet tag r) s tag 0x38#8 .badValue)
        ∧ ∀ q, profileOfReq r = some q →
          let n : State := { s.hunt with profiles := s.profiles.set p q }
          (p ≠ s.stack.top → exec (.profileSet tag r) s = .next (afterReply n tag 0x38#8 .ok []))
          ∧ (p = s.stack.top →
              exec (.profileSet tag r) s = .next (afterReply (beginTransition .request s.hunt n) tag 0x38#8 .ok []))

/-- R107: RESUME. -/
def Obligations.ResumePopsTheStack : Prop :=
  ∀ (s : State) (tag : Byte), s.takes →
    (s.stack.below = [] → Refuses (.resume tag) s tag 0x3B#8 .stackBottom)
    ∧ ∀ lower p, s.stack.below = lower ++ [p] →
      let n : State := { s.hunt with stack := ⟨lower, p⟩ }
      let result := [BitVec.ofNat 8 (s.stack.depth - 1), BitVec.ofNat 8 p.val]
      (p = s.stack.top → exec (.resume tag) s = .next (afterReply n tag 0x3B#8 .ok result))
      ∧ (p ≠ s.stack.top →
          exec (.resume tag) s = .next (afterReply (beginTransition .resume s.hunt n) tag 0x3B#8 .ok result))

/-- R108: RESUME TARGET, and where the next RESUME then goes. -/
def Obligations.ResumeTargetEditsTheEntryBelow : Prop :=
  ∀ (s : State) (tag b : Byte), s.takes →
    (profileOfCode b = none → Refuses (.resumeTarget tag b) s tag 0x3C#8 .noSuch)
    ∧ ∀ p, profileOfCode b = some p →
      (s.stack.below = [] → Refuses (.resumeTarget tag b) s tag 0x3C#8 .stackBottom)
      ∧ ∀ lower old, s.stack.below = lower ++ [old] →
        let n : State := { s.hunt with stack := ⟨lower ++ [p], s.stack.top⟩ }
        exec (.resumeTarget tag b) s = .next (afterReply n tag 0x3C#8 .ok [])
        ∧ n.stack.pop = some ⟨lower, p⟩ ∧ n.active = s.active

/-- R112: PROFILE QUERY. -/
def Obligations.ProfileQueryRule : Prop :=
  ∀ (s : State) (tag b : Byte), s.takes →
    (profileOfCode b = none → Refuses (.profileQuery tag b) s tag 0x39#8 .noSuch)
    ∧ ∀ p, profileOfCode b = some p → ∃ ps : List Nat,
      exec (.profileQuery tag b) s = .next (afterReply s.hunt tag 0x39#8 .ok
        (profileBytes p (s.profiles.get p) ++ [flag (decide (p = s.stack.top))] ++ [BitVec.ofNat 8 ps.length]
          ++ ps.map (BitVec.ofNat 8)))
      ∧ ps.Pairwise (· < ·) ∧ (∀ n, n ∈ ps ↔ s.stack.entries[n]? = some p) ∧ (p ∉ s.stack.entries → ps = [])

/-- R103, R104: the tests of a wake event and what each result does; the WAKE pin and its mask.
R113, R114, R115: a transition's settling record; every output then stands as the new profile wants it, under the gate law. -/
def Obligations.WakeAndTransitionRule : Prop :=
  (∀ (s : State) (c : WakeCause),
      let woken : State := s.post (wakePosting c s)
      (s.active.wakeProfile = none → wakeResult s = .none ∧ wakeEvent c s = woken)
      ∧ (s.active.wakeProfile = some s.stack.top → wakeResult s = .same ∧ wakeEvent c s = woken)
      ∧ (∀ w, s.active.wakeProfile = some w → w ≠ s.stack.top →
        (6 ≤ s.stack.depth → wakeResult s = .stackFull ∧ wakeEvent c s = woken)
        ∧ (s.stack.depth < 6 → wakeResult s = .pushed
            ∧ wakeEvent c s = beginTransition .wake woken { woken with stack := ⟨s.stack.below ++ [s.stack.top], w⟩ }))
      ∧ (s.startup.running = true →
        (s.active.wakeMask.getLsbD 8 = true → exec .wakePinEdge s = .next (wakeEvent .pin s).endEvent)
        ∧ (s.active.wakeMask.getLsbD 8 = false → exec .wakePinEdge s = .next s.endEvent)))
  ∧ (∀ (cause : TransitionCause) (s0 s : State),
        let t := beginTransition cause s0 s
        (s.settling = none → t.settling = some ⟨s.stack.top, s.tick, 1⟩)
        ∧ (∀ g, s.settling = some g → t.settling = some ⟨s.stack.top, g.since, min 65535 (g.transitions + 1)⟩)
        ∧ outputsStand t ∧ gateLaw t.clk ∧ t.stack = s.stack ∧ t.profiles = s.profiles ∧ t.claims = s.claims)

/-! ### Time and actions -/

/-- R125, R126, R130, R131: ACTION ADD, ACTION CANCEL, ACTION LIST. -/
def Obligations.ActionRequests : Prop :=
  ∀ (s : State) (tag : Byte), s.takes →
    (∀ r : ActionAddReq,
      (actionOfReq s.tick r = none → Refuses (.actionAdd tag r) s tag 0x41#8 .badValue)
      ∧ ∀ a, actionOfReq s.tick r = some a →
        ((∃ x ∈ s.actions, x.number = a.number) → Refuses (.actionAdd tag r) s tag 0x41#8 .duplicate)
        ∧ ((∀ x ∈ s.actions, x.number ≠ a.number) →
          (16 ≤ s.actions.length → Refuses (.actionAdd tag r) s tag 0x41#8 .full)
          ∧ (s.actions.length < 16 → exec (.actionAdd tag r) s = .next (afterReply
              { s.hunt with actions := insertAction s.tick a s.actions } tag 0x41#8 .ok
              (b4 a.due ++ [BitVec.ofNat 8 (s.actions.length + 1)])))))
    ∧ (∀ n : Byte,
      (n = 0#8 → Refuses (.actionCancel tag n) s tag 0x42#8 .badValue)
      ∧ (n ≠ 0#8 → (∀ x ∈ s.actions, x.number ≠ n) → Refuses (.actionCancel tag n) s tag 0x42#8 .noSuch)
      ∧ (n ≠ 0#8 → ∀ a, s.actions.find? (fun x => decide (x.number = n)) = some a →
          exec (.actionCancel tag n) s = .next (afterReply
            { s.hunt with actions := s.actions.filter fun x => decide (x.number ≠ n) } tag 0x42#8 .ok (b4 a.due))))
    ∧ (∀ first : Byte, (15 < first.toNat → Refuses (.actionList tag first) s tag 0x43#8 .badValue)
      ∧ (first.toNat ≤ 15 → exec (.actionList tag first) s = .next (afterReply s.hunt tag 0x43#8 .ok
          (b4 s.tick ++ [BitVec.ofNat 8 s.actions.length, first, BitVec.ofNat 8 ((s.actions.drop first.toNat).take 8).length]
            ++ ((s.actions.drop first.toNat).take 8).flatMap actionBytes))))

/-- R124: where an action enters the list: behind those reached, if it is reached itself; else also behind every one not due
after it.
R129: the next due tick of a periodic action lies ahead by 1 to one period, on its grid; the skipped count saturates. -/
def Obligations.ActionOrderAndPeriod : Prop :=
  (∀ (now : Tick) (a : Action) (l : List Action), ∃ l1 l2, l = l1 ++ l2 ∧ insertAction now a l = l1 ++ a :: l2
      ∧ (∀ x ∈ l1, reached now x.due = true
          ∨ (reached now a.due = false ∧ ¬ (1 ≤ (x.due - a.due).toNat ∧ (x.due - a.due).toNat < 2 ^ 31)))
      ∧ (∀ x, l2.head? = some x → reached now x.due = false
          ∧ (reached now a.due = true ∨ (1 ≤ (x.due - a.due).toNat ∧ (x.due - a.due).toNat < 2 ^ 31))))
  ∧ (∀ (now : Tick) (a : Action) (p : Nat), a.period = some p → 10 ≤ p → p ≤ 86400000 → reached now a.due = true →
        ∃ b k, nextOccurrence now a = some b ∧ 1 ≤ k ∧ b.due = a.due + BitVec.ofNat 32 (k * p)
          ∧ reached now b.due = false ∧ 1 ≤ (b.due - now).toNat ∧ (b.due - now).toNat ≤ p
          ∧ skippedCount now a.due p = min 65535 (k - 1)
          ∧ b.number = a.number ∧ b.kind = a.kind ∧ b.period = a.period)

/-- R127: the head of the list fires: it is removed and performed, reinserted if periodic, and ACTION DONE is posted behind what the
performance posts, a PROFILE SETTLED of the outputs it moved included (R114; where it stands is the model's, log 15).
R117, R128: each kind's effect and status. A refusal changes nothing.
R120, R123: the timebase. A firing with no action due changes nothing: the model's choice, log 2. -/
def Obligations.TickAndActionFiring : Prop :=
  (∀ s : State, s.startup.running = true →
      (s.actions = [] → exec .actionFiring s = .next s.endEvent)
      ∧ ∀ a rest, s.actions = a :: rest →
        (reached s.tick a.due = false → exec .actionFiring s = .next s.endEvent)
        ∧ (reached s.tick a.due = true →
          let d := performAction a { s with actions := rest }
          let t := settleAction a d.state
          t.actions = rest
          ∧ t = (match a.kind with
            | .release _ _ => d.state.testSettled
            | .select _ _ => d.state.testSettled
            | _ => d.state)
          ∧ (a.period = none → exec .actionFiring s = .next (t.post (donePosting s.tick a d.status)).endEvent)
          ∧ (∀ b, nextOccurrence s.tick a = some b → exec .actionFiring s =
              .next ({ t with actions := insertAction s.tick b rest }.post (donePosting s.tick a d.status)).endEvent)
          ∧ (∀ v, a.kind = .remind v → d.state = { s with actions := rest } ∧ d.status = .ok)))
  ∧ (∀ (s : State) (a : Action),
      let d := performAction a s
      let claimsLeft (cs : List Claim) : State := reevaluate .ordinary s { s with claims := cs }
      (∀ p, a.kind = .enter p → d.status = .ok
        ∧ d.state = (if p = s.stack.top then s
          else beginTransition .action s { s with stack := { s.stack with top := p } }))
      ∧ (a.kind = .wake → d.state = wakeEvent (.action a.number) s
        ∧ d.status = (if wakeResult s = .stackFull then .full else .ok))
      ∧ (a.kind = .resume →
        (s.stack.below = [] → d.state = s ∧ d.status = .stackBottom)
        ∧ ∀ lower p, s.stack.below = lower ++ [p] → d.status = .ok
          ∧ d.state = (if p = s.stack.top then { s with stack := ⟨lower, p⟩ }
            else beginTransition .action s { s with stack := ⟨lower, p⟩ }))
      ∧ (∀ n o, a.kind = .release n (some o) →
        ((∀ c ∈ s.claims, ¬ (c.claimant = .soft n ∧ c.output = o)) → d.state = s ∧ d.status = .noClaim)
        ∧ ((∃ c ∈ s.claims, c.claimant = .soft n ∧ c.output = o) → d.status = .ok
          ∧ d.state = claimsLeft (s.claims.filter fun c => decide (¬ (c.claimant = .soft n ∧ c.output = o)))))
      ∧ (∀ n, a.kind = .release n none → d.status = .ok
        ∧ d.state = claimsLeft (s.claims.filter fun c => decide (c.claimant ≠ .soft n)))
      ∧ (∀ o i, a.kind = .select o i →
        (∀ u, (s.out o).cfg.mode = .fixed u → d.state = s ∧ d.status = .conflict)
        ∧ ∀ k, (s.out o).cfg.mode = .chain k →
          (∀ j, i = some j → (s.chains.get k).entry j = none → d.state = s ∧ d.status = .noSuch)
          ∧ ((∀ j, i = some j → (s.chains.get k).entry j ≠ none) → d.status = .ok
            ∧ d.state = reevaluate (.outputSelect o) s (s.putOut o ((s.out o).pinned i))))
      ∧ (∀ v, a.kind = .remind v → d.state = s ∧ d.status = .ok))
  ∧ (∀ (s : State) (tag : Byte),
        (s.startup.running = true → exec .tick s = .next ({ s with tick := s.tick + 1#32 } : State).endEvent)
        ∧ (s.startup.running = false → exec .tick s = .next s)
        ∧ (s.takes → exec (.timeQuery tag) s = .next (afterReply s.hunt tag 0x40#8 .ok
            (b4 s.tick ++ b4 s.clk.mon.surveyNumber ++ b1 (rcoStateCode s.clk.src.rco.state) ++ b1 s.actions.length
              ++ (match s.actions with
                | [] => [0#8, 0#8, 0#8, 0#8, 0#8]
                | a :: _ => 1#8 :: b4 a.due)))))

/-! ### Notices -/

/-- R166, R167, R168: NOTICE ACK, NOTICE RESEND, NOTICE FILTER. -/
def Obligations.NoticeRequests : Prop :=
  ∀ (s : State) (tag : Byte), s.takes →
    Refuses (.noticeAck tag 0#16) s tag 0x48#8 .badValue
    ∧ (∀ n, n ≠ 0#16 → (∀ r ∈ s.notices.records, r.number ≠ n) → Refuses (.noticeAck tag n) s tag 0x48#8 .noSuch)
    ∧ (∀ pre r post, s.notices.records = pre ++ r :: post → r.number ≠ 0#16 → (∀ x ∈ pre, x.number ≠ r.number) →
      let q := ({ s.notices with records := post } : Notices).testLost s.tick
      exec (.noticeAck tag r.number) s = .next (afterReply { s.hunt with notices := q } tag 0x48#8 .ok
        [BitVec.ofNat 8 (pre.length + 1), BitVec.ofNat 8 q.records.length]))
    ∧ exec (.noticeResend tag) s = .next (afterReply { s.hunt with notices := { s.notices with
          records := s.notices.records.map fun r => { r with sent := false } } } tag 0x49#8 .ok
        [BitVec.ofNat 8 s.notices.records.length])
    ∧ (∀ f : Half,
      (f &&& 0xE001#16 ≠ 0#16 → Refuses (.noticeFilter tag f) s tag 0x4A#8 .badValue)
      ∧ (f &&& 0xE001#16 = 0#16 → exec (.noticeFilter tag f) s = .next (afterReply
          { s.hunt with notices := { s.notices with filter := f } } tag 0x4A#8 .ok (b2 f))))

/-! ### The stored image and the start-up -/

/-- R141, R144: IMAGE SAVE and IMAGE INFO.
R142: the phases of a save and both its ends. What the target slot's contents are from IMAGE SAVE on, erased still where they were
erased, unfinished else and after ERASE (log 23), the format code, the layout under the CRC and the sent zeros are the model's choice
(logs 24, 26); so is what the end of another phase than the running one does (log 2). -/
def Obligations.ImageRequestsAndPhases : Prop :=
  (∀ (s : State) (tag : Byte), s.takes →
      exec (.imageInfo tag) s = .next (afterReply s.hunt tag 0x51#8 .ok
        (slotBytes s.image.records.a ++ slotBytes s.image.records.b ++ startBytes s.startup.record
          ++ saveBytes s.image.save ++ lastSaveBytes s.image.lastSave))
      ∧ (∀ b, profileOfCode b = none → Refuses (.imageSave tag b) s tag 0x50#8 .noSuch)
      ∧ ∀ b p, profileOfCode b = some p →
        (s.image.save ≠ none → Refuses (.imageSave tag b) s tag 0x50#8 .busy)
        ∧ (s.image.save = none → (∃ x q, s.image.records.get x = .valid 0xFFFFFFFF#32 q) →
            Refuses (.imageSave tag b) s tag 0x50#8 .notPermitted)
        ∧ (s.image.save = none → (∀ x q, s.image.records.get x ≠ .valid 0xFFFFFFFF#32 q) →
            let t := saveTarget s.image.records
            exec (.imageSave tag b) s = .next (afterReply
              { s.hunt with image := { s.image with
                  contents := s.image.contents.set t.1 (if s.image.contents.get t.1 = .erased then .erased else .unfinished)
                  records := s.image.records.set t.1 (.invalid .saving)
                  save := some ⟨.erase, t.1, t.2, p, liveConfig s⟩ } }
              tag 0x50#8 .accepted (b1 (if t.1 then 1 else 0) ++ b4 t.2))
            ∧ (∀ x g, newestValid s.image.records = some (x, g) → t = (!x, g + 1#32))
            ∧ (newestValid s.image.records = none → t = (false, 1#32))))
  ∧ (∀ (s : State) (v : Save), s.startup.running = true → s.image.save = some v →
        (v.phase = .erase → exec .eraseComplete s = .next ({ s with image := { s.image with
            contents := s.image.contents.set v.slot .unfinished, save := some { v with phase := .write } } } : State).endEvent)
        ∧ (v.phase ≠ .erase → exec .eraseComplete s = .next s.endEvent)
        ∧ (v.phase = .write → exec .writeComplete s = .next ({ s with image := { s.image with
            contents := s.image.contents.set v.slot (.written ⟨0xFF#8, v.generation, v.startProfile, v.buffer,
              imageCrc Config.formatCode v.generation v.startProfile v.buffer⟩)
            save := some { v with phase := .check } } } : State).endEvent)
        ∧ (v.phase ≠ .write → exec .writeComplete s = .next s.endEvent)
        ∧ (v.phase = .check → exec (.checkComplete true) s = .next (State.post { s with image := {
              contents := s.image.contents.set v.slot (.written ⟨Config.formatCode, v.generation, v.startProfile, v.buffer,
                imageCrc Config.formatCode v.generation v.startProfile v.buffer⟩)
              records := s.image.records.set v.slot (.valid v.generation v.startProfile)
              save := none
              lastSave := some ⟨.saved, v.slot, v.generation⟩ } }
            ⟨.imageSaved, if v.slot then 1#8 else 0#8, b4 v.generation⟩).endEvent)
        ∧ (v.phase = .check → exec (.checkComplete false) s = .next (State.post { s with image := { s.image with
              records := s.image.records.set v.slot (.invalid .check)
              save := none
              lastSave := some ⟨.failed, v.slot, v.generation⟩ } }
            ⟨.imageFailed, if v.slot then 1#8 else 0#8, [5#8]⟩).endEvent)
        ∧ (v.phase ≠ .check → ∀ good, exec (.checkComplete good) s = .next s.endEvent))

/-- R133, R134, R135, R136: cold start, the end of POWERUP, and SELECT.
R137, R143: how SELECT judges each slot, and what a save leaves that a cold start cuts off: whether it reads as erased is a free
value (log 23). Start-up events outside their state change nothing, and the configuration is handed on at SELECT_DONE: the
model's choices, logs 2 and 8. -/
def Obligations.StartUpEvents : Prop :=
  ∀ s : State,
    (∀ supply, ∃ t, exec (.coldStart supply) s = .next t ∧ t.startup.state = .powerup ∧ t.startup.released = false
      ∧ (t.startup.supplyFell = (s.startup.supplyFell || supply)) ∧ t.claims = [] ∧ t.actions = []
      ∧ t.notices.records = [] ∧ t.notices.next = 1#16 ∧ t.notices.lost = 0
      ∧ t.link.windowCount = 0 ∧ t.link.rx = .hunting ∧ t.link.missed = false ∧ t.link.onLtx = none
      ∧ (s.image.save = none → t.image.contents = s.image.contents)
      ∧ (∀ v, s.image.save = some v → t.image.contents.get (!v.slot) = s.image.contents.get (!v.slot)
          ∧ (t.image.contents.get v.slot = s.image.contents.get v.slot
            ∨ (s.image.contents.get v.slot = .unfinished ∧ t.image.contents.get v.slot = .erased)))
      ∧ t.image.save = none ∧ t.image.lastSave = none
      ∧ (∀ o, (t.osc o).state = .off ∧ (t.osc o).timer = none) ∧ (∀ o, (t.out o).gateOpen = false)
      ∧ t.clk.src.rco.state = .unchecked)
    ∧ (s.startup.state = .powerup → exec .resetRelease s =
        .next { s with startup := { s.startup with released := true } })
    ∧ (s.startup.state ≠ .powerup → exec .resetRelease s = .next s)
    ∧ (∀ b1 b0, s.startup.state = .powerup → s.startup.released = true → exec (.powerupEnd b1 b0) s = .next
        { s with
          link := { s.link with rate := BitVec.ofBool b1 ++ BitVec.ofBool b0 }
          startup := { s.startup with state := .select, warm := false } })
    ∧ (∀ b1 b0, s.startup.state ≠ .powerup ∨ s.startup.released = false → exec (.powerupEnd b1 b0) s = .next s)
    ∧ (s.startup.state = .select → ∃ t, exec .selectDone s = .next t ∧ t.startup.state = .apply
      ∧ t.image.contents = s.image.contents
      ∧ (∀ b, (s.startup.abandoned = some b → t.image.records.get b = .invalid .abandoned)
        ∧ (s.startup.abandoned ≠ some b →
          (s.image.contents.get b = .erased → t.image.records.get b = .invalid .erased)
          ∧ (s.image.contents.get b = .unfinished → t.image.records.get b = .invalid .format)
          ∧ (∀ i, s.image.contents.get b = .written i →
            (i.format ≠ Config.formatCode ∨ i.generation = 0#32 → t.image.records.get b = .invalid .format)
            ∧ (i.format = Config.formatCode → i.generation ≠ 0#32 →
              (i.crc ≠ imageCrc i.format i.generation i.startProfile i.body → t.image.records.get b = .invalid .crc)
              ∧ (i.crc = imageCrc i.format i.generation i.startProfile i.body →
                t.image.records.get b = .valid i.generation i.startProfile)))))
      ∧ (s.startup.warm = false → let c := (chosenConfig t.image t.chosen).1
          (∀ o, (t.osc o).cfg = c.osc.get o ∧ (t.osc o).state = .off ∧ (t.osc o).budget = (c.osc.get o).retryCount)
          ∧ (∀ o, (t.out o).cfg = c.outs.get o ∧ (t.out o).gateOpen = false)
          ∧ t.chains = c.chains ∧ (∀ l, (t.line l).set = c.lines.get l) ∧ t.profiles = c.profiles
          ∧ t.stack = ⟨[], (chosenConfig t.image t.chosen).2⟩ ∧ t.notices.filter = c.filter
          ∧ t.clk.mon.settings = c.monitor ∧ t.clk.src.syn = c.syn)
      ∧ (s.startup.warm = true → t.clk = s.clk ∧ t.claims = s.claims ∧ t.chains = s.chains ∧ t.stack = s.stack))
    ∧ (s.startup.state ≠ .select → exec .selectDone s = .next s)
    ∧ (∀ pins, s.startup.state ≠ .apply → exec (.live pins) s = .next s)

/-- R97, R120, R136: LIVE after a cold start.
R21, R38, R62, R98, R119, R146: LIVE after a warm restart; the pins stay what the line edges made them (the model's choice,
log 29). -/
def Obligations.LiveRule : Prop :=
  (∀ (s : State) (pins : Byte), s.startup.state = .apply → s.startup.warm = false → ∃ t, exec (.live pins) s = .next t
      ∧ t.startup.state = .live ∧ t.tick = 0#32 ∧ t.clk.mon.surveyStart = 0#32
      ∧ t.startup.record = ⟨if s.startup.supplyFell then .powerOn else .pin, s.startup.chosen.getD .builtIn⟩
      ∧ t.startup.supplyFell = false ∧ outputsStand t ∧ gateLaw t.clk
      ∧ (∀ l, (t.line l).set = (s.line l).set ∧ (t.line l).pinHigh = pins.getLsbD l.val
          ∧ (t.line l).active = decide (pins.getLsbD l.val = (s.line l).set.activeHigh) ∧ (t.line l).hold = none)
      ∧ (s.notices = ⟨[], 1#16, 0, s.notices.filter⟩ → s.settling = none → s.link.onLtx = none → s.link.queued = [] →
          ∃ rest, t.notices.records = ⟨1#16, .started, 0#32, 0#8, startBytes t.startup.record, true⟩ :: rest
            ∧ t.link.onLtx = some ⟨frameBytes 0#8 0x7E#8 (NoticeRec.body ⟨1#16, .started, 0#32, 0#8,
                startBytes t.startup.record, false⟩), false, false⟩))
  ∧ (∀ (s : State) (pins : Byte), s.startup.state = .apply → s.startup.warm = true →
        let c := chosenConfig s.image s.chosen
        ∃ t, exec (.live pins) s = .next t
          ∧ t.startup.state = .live ∧ t.tick = s.tick ∧ t.startup.record = ⟨.restart, s.chosen⟩
          ∧ (∀ o, (t.osc o).cfg = c.1.osc.get o ∧ (t.osc o).budget = (c.1.osc.get o).retryCount
              ∧ (t.osc o).state ≠ .lockedOut ∧ (t.osc o).fault = (s.osc o).fault)
          ∧ (∀ o, (t.out o).cfg = c.1.outs.get o ∧ (t.out o).refused = [] ∧ (t.out o).pin = none)
          ∧ t.chains = c.1.chains ∧ t.profiles = c.1.profiles ∧ t.stack = ⟨[], c.2⟩ ∧ t.notices.filter = c.1.filter
          ∧ (∀ x ∈ t.claims, ∃ l, x.claimant = .line l ∧ (t.line l).active = true)
          ∧ (∀ l, t.line l = ⟨c.1.lines.get l, (s.line l).pinHigh,
                decide ((s.line l).pinHigh = (c.1.lines.get l).activeHigh), none⟩)
          ∧ t.clk.mon.settings = c.1.monitor ∧ outputsStand t ∧ gateLaw t.clk)
end

