-- ==== Sys2Proof/Laws/Bank.lean ====
section
/-! SUPPORT. Laws/Bank.lean: reading a bank after a write. -/

namespace Sys2Proof

theorem Bank2.get_set {α : Type} (b : Bank2 α) (i j : Bool) (v : α) :
    (b.set i v).get j = if j = i then v else b.get j := by cases i <;> cases j <;> rfl

theorem Bank4.get_set {α : Type} (b : Bank4 α) (i j : Fin 4) (v : α) :
    (b.set i v).get j = if j = i then v else b.get j := by
  fin_cases i <;> fin_cases j <;> rfl

theorem Bank6.get_set {α : Type} (b : Bank6 α) (i j : Fin 6) (v : α) :
    (b.set i v).get j = if j = i then v else b.get j := by
  fin_cases i <;> fin_cases j <;> rfl

theorem Bank8.get_set {α : Type} (b : Bank8 α) (i j : Fin 8) (v : α) :
    (b.set i v).get j = if j = i then v else b.get j := by
  fin_cases i <;> fin_cases j <;> rfl

@[simp] theorem Bank8.get_ofFn {α : Type} (f : Fin 8 → α) (i : Fin 8) : (Bank8.ofFn f).get i = f i := by
  fin_cases i <;> rfl

@[simp] theorem Bank8.get_mapIdx {α β : Type} (b : Bank8 α) (f : Fin 8 → α → β) (i : Fin 8) :
    (b.mapIdx f).get i = f i (b.get i) := by simp [Bank8.mapIdx]

@[simp] theorem Bank8.get_map {α β : Type} (b : Bank8 α) (f : α → β) (i : Fin 8) :
    (b.map f).get i = f (b.get i) := by simp [Bank8.map]

theorem Bank8.ext_get {α : Type} {a b : Bank8 α} (h : ∀ i, a.get i = b.get i) : a = b := by
  cases a; cases b
  have h0 := h 0; have h1 := h 1; have h2 := h 2; have h3 := h 3
  have h4 := h 4; have h5 := h 5; have h6 := h 6; have h7 := h 7
  simp only [Bank8.get] at h0 h1 h2 h3 h4 h5 h6 h7
  simp_all

theorem Bank8.ofFn_congr {α : Type} {f g : Fin 8 → α} (h : ∀ i, f i = g i) : Bank8.ofFn f = Bank8.ofFn g := by
  rw [funext h]

theorem BankOsc.get_set {α : Type} (b : BankOsc α) (i j : Osc) (v : α) :
    (b.set i v).get j = if j = i then v else b.get j := by cases i <;> cases j <;> rfl

@[simp] theorem BankOsc.get_ofFn {α : Type} (f : Osc → α) (i : Osc) : (BankOsc.ofFn f).get i = f i := by
  cases i <;> rfl

@[simp] theorem BankOsc.get_mapIdx {α β : Type} (b : BankOsc α) (f : Osc → α → β) (i : Osc) :
    (b.mapIdx f).get i = f i (b.get i) := by simp [BankOsc.mapIdx]

theorem BankOsc.ofFn_congr {α : Type} {f g : Osc → α} (h : ∀ i, f i = g i) : BankOsc.ofFn f = BankOsc.ofFn g := by
  rw [funext h]

/-- Every output number stands in `eight`. -/
theorem mem_eight (o : Fin 8) : o ∈ eight := by fin_cases o <;> decide

/-- Every source stands in `oscs`. -/
theorem mem_oscs (o : Osc) : o ∈ oscs := by cases o <;> decide

end Sys2Proof
end

