-- ==== Sys2Proof/Laws/State.lean ====
section
/-! SUPPORT. Laws/State.lean: what each named update of State leaves and what it writes, one lemma per field. -/

namespace Sys2Proof.Machine

section
variable (s : State) (p : Posting)
@[simp] theorem State.clk_post : (s.post p).clk = s.clk := rfl
@[simp] theorem State.chains_post : (s.post p).chains = s.chains := rfl
@[simp] theorem State.claims_post : (s.post p).claims = s.claims := rfl
@[simp] theorem State.lines_post : (s.post p).lines = s.lines := rfl
@[simp] theorem State.profiles_post : (s.post p).profiles = s.profiles := rfl
@[simp] theorem State.stack_post : (s.post p).stack = s.stack := rfl
@[simp] theorem State.settling_post : (s.post p).settling = s.settling := rfl
@[simp] theorem State.tick_post : (s.post p).tick = s.tick := rfl
@[simp] theorem State.actions_post : (s.post p).actions = s.actions := rfl
@[simp] theorem State.startup_post : (s.post p).startup = s.startup := rfl
@[simp] theorem State.image_post : (s.post p).image = s.image := rfl
@[simp] theorem State.link_post : (s.post p).link = s.link := rfl
@[simp] theorem State.freeCount_post : (s.post p).freeCount = s.freeCount := rfl
@[simp] theorem State.pending_post : (s.post p).pending = s.pending := rfl
@[simp] theorem State.notices_post : (s.post p).notices = s.notices.post s.tick p := rfl
end

section
variable (s : State)
@[simp] theorem State.clk_setMissed : s.setMissed.clk = s.clk := rfl
@[simp] theorem State.chains_setMissed : s.setMissed.chains = s.chains := rfl
@[simp] theorem State.claims_setMissed : s.setMissed.claims = s.claims := rfl
@[simp] theorem State.lines_setMissed : s.setMissed.lines = s.lines := rfl
@[simp] theorem State.profiles_setMissed : s.setMissed.profiles = s.profiles := rfl
@[simp] theorem State.stack_setMissed : s.setMissed.stack = s.stack := rfl
@[simp] theorem State.settling_setMissed : s.setMissed.settling = s.settling := rfl
@[simp] theorem State.tick_setMissed : s.setMissed.tick = s.tick := rfl
@[simp] theorem State.actions_setMissed : s.setMissed.actions = s.actions := rfl
@[simp] theorem State.startup_setMissed : s.setMissed.startup = s.startup := rfl
@[simp] theorem State.image_setMissed : s.setMissed.image = s.image := rfl
@[simp] theorem State.notices_setMissed : s.setMissed.notices = s.notices := rfl
@[simp] theorem State.freeCount_setMissed : s.setMissed.freeCount = s.freeCount := rfl
@[simp] theorem State.pending_setMissed : s.setMissed.pending = s.pending := rfl
@[simp] theorem State.link_setMissed : s.setMissed.link = { s.link with missed := true } := rfl
end

section
variable (s : State)
@[simp] theorem State.clk_hunt : s.hunt.clk = s.clk := rfl
@[simp] theorem State.chains_hunt : s.hunt.chains = s.chains := rfl
@[simp] theorem State.claims_hunt : s.hunt.claims = s.claims := rfl
@[simp] theorem State.lines_hunt : s.hunt.lines = s.lines := rfl
@[simp] theorem State.profiles_hunt : s.hunt.profiles = s.profiles := rfl
@[simp] theorem State.stack_hunt : s.hunt.stack = s.stack := rfl
@[simp] theorem State.settling_hunt : s.hunt.settling = s.settling := rfl
@[simp] theorem State.tick_hunt : s.hunt.tick = s.tick := rfl
@[simp] theorem State.actions_hunt : s.hunt.actions = s.actions := rfl
@[simp] theorem State.startup_hunt : s.hunt.startup = s.startup := rfl
@[simp] theorem State.image_hunt : s.hunt.image = s.image := rfl
@[simp] theorem State.notices_hunt : s.hunt.notices = s.notices := rfl
@[simp] theorem State.freeCount_hunt : s.hunt.freeCount = s.freeCount := rfl
@[simp] theorem State.pending_hunt : s.hunt.pending = s.pending := rfl
@[simp] theorem State.link_hunt : s.hunt.link = { s.link with rx := .hunting } := rfl
end

section
variable (s : State) (tag kind : Byte)
@[simp] theorem State.clk_hold : (s.hold tag kind).clk = s.clk := rfl
@[simp] theorem State.chains_hold : (s.hold tag kind).chains = s.chains := rfl
@[simp] theorem State.claims_hold : (s.hold tag kind).claims = s.claims := rfl
@[simp] theorem State.lines_hold : (s.hold tag kind).lines = s.lines := rfl
@[simp] theorem State.profiles_hold : (s.hold tag kind).profiles = s.profiles := rfl
@[simp] theorem State.stack_hold : (s.hold tag kind).stack = s.stack := rfl
@[simp] theorem State.settling_hold : (s.hold tag kind).settling = s.settling := rfl
@[simp] theorem State.tick_hold : (s.hold tag kind).tick = s.tick := rfl
@[simp] theorem State.actions_hold : (s.hold tag kind).actions = s.actions := rfl
@[simp] theorem State.startup_hold : (s.hold tag kind).startup = s.startup := rfl
@[simp] theorem State.image_hold : (s.hold tag kind).image = s.image := rfl
@[simp] theorem State.notices_hold : (s.hold tag kind).notices = s.notices := rfl
@[simp] theorem State.freeCount_hold : (s.hold tag kind).freeCount = s.freeCount := rfl
@[simp] theorem State.pending_hold : (s.hold tag kind).pending = s.pending := rfl
@[simp] theorem State.link_hold : (s.hold tag kind).link = { s.link with held := s.link.held ++ [⟨tag, kind⟩] } := rfl
end

section
variable (s : State) (tag kind : Byte) (st : Status) (r : List Byte)
@[simp] theorem State.clk_queueReply : (s.queueReply tag kind st r).clk = s.clk := rfl
@[simp] theorem State.chains_queueReply : (s.queueReply tag kind st r).chains = s.chains := rfl
@[simp] theorem State.claims_queueReply : (s.queueReply tag kind st r).claims = s.claims := rfl
@[simp] theorem State.lines_queueReply : (s.queueReply tag kind st r).lines = s.lines := rfl
@[simp] theorem State.profiles_queueReply : (s.queueReply tag kind st r).profiles = s.profiles := rfl
@[simp] theorem State.stack_queueReply : (s.queueReply tag kind st r).stack = s.stack := rfl
@[simp] theorem State.settling_queueReply : (s.queueReply tag kind st r).settling = s.settling := rfl
@[simp] theorem State.tick_queueReply : (s.queueReply tag kind st r).tick = s.tick := rfl
@[simp] theorem State.actions_queueReply : (s.queueReply tag kind st r).actions = s.actions := rfl
@[simp] theorem State.startup_queueReply : (s.queueReply tag kind st r).startup = s.startup := rfl
@[simp] theorem State.image_queueReply : (s.queueReply tag kind st r).image = s.image := rfl
@[simp] theorem State.notices_queueReply : (s.queueReply tag kind st r).notices = s.notices := rfl
@[simp] theorem State.freeCount_queueReply : (s.queueReply tag kind st r).freeCount = s.freeCount := rfl
@[simp] theorem State.pending_queueReply : (s.queueReply tag kind st r).pending = s.pending := rfl
@[simp] theorem State.link_queueReply : (s.queueReply tag kind st r).link = { s.link with
      queued := s.link.queued ++ [⟨tag, replyKind kind, st, r, decide (kind = 0x03#8) && decide (st = .ok)⟩] } := rfl
end

section
variable (s : State) (r : Rx)
@[simp] theorem State.clk_setRx : (s.setRx r).clk = s.clk := rfl
@[simp] theorem State.chains_setRx : (s.setRx r).chains = s.chains := rfl
@[simp] theorem State.claims_setRx : (s.setRx r).claims = s.claims := rfl
@[simp] theorem State.lines_setRx : (s.setRx r).lines = s.lines := rfl
@[simp] theorem State.profiles_setRx : (s.setRx r).profiles = s.profiles := rfl
@[simp] theorem State.stack_setRx : (s.setRx r).stack = s.stack := rfl
@[simp] theorem State.settling_setRx : (s.setRx r).settling = s.settling := rfl
@[simp] theorem State.tick_setRx : (s.setRx r).tick = s.tick := rfl
@[simp] theorem State.actions_setRx : (s.setRx r).actions = s.actions := rfl
@[simp] theorem State.startup_setRx : (s.setRx r).startup = s.startup := rfl
@[simp] theorem State.image_setRx : (s.setRx r).image = s.image := rfl
@[simp] theorem State.notices_setRx : (s.setRx r).notices = s.notices := rfl
@[simp] theorem State.freeCount_setRx : (s.setRx r).freeCount = s.freeCount := rfl
@[simp] theorem State.pending_setRx : (s.setRx r).pending = s.pending := rfl
@[simp] theorem State.link_setRx : (s.setRx r).link = { s.link with rx := r } := rfl
end

section
variable (s : State) (o : Fin 8) (r : OutRec)
@[simp] theorem State.chains_putOut : (s.putOut o r).chains = s.chains := rfl
@[simp] theorem State.claims_putOut : (s.putOut o r).claims = s.claims := rfl
@[simp] theorem State.lines_putOut : (s.putOut o r).lines = s.lines := rfl
@[simp] theorem State.profiles_putOut : (s.putOut o r).profiles = s.profiles := rfl
@[simp] theorem State.stack_putOut : (s.putOut o r).stack = s.stack := rfl
@[simp] theorem State.settling_putOut : (s.putOut o r).settling = s.settling := rfl
@[simp] theorem State.tick_putOut : (s.putOut o r).tick = s.tick := rfl
@[simp] theorem State.actions_putOut : (s.putOut o r).actions = s.actions := rfl
@[simp] theorem State.startup_putOut : (s.putOut o r).startup = s.startup := rfl
@[simp] theorem State.image_putOut : (s.putOut o r).image = s.image := rfl
@[simp] theorem State.link_putOut : (s.putOut o r).link = s.link := rfl
@[simp] theorem State.notices_putOut : (s.putOut o r).notices = s.notices := rfl
@[simp] theorem State.freeCount_putOut : (s.putOut o r).freeCount = s.freeCount := rfl
@[simp] theorem State.pending_putOut : (s.putOut o r).pending = s.pending := rfl
@[simp] theorem State.clk_putOut : (s.putOut o r).clk = { s.clk with outs := s.clk.outs.set o r } := rfl
end

section
variable (s : State) (o : Osc) (r : OscRec)
@[simp] theorem State.chains_putOsc : (s.putOsc o r).chains = s.chains := rfl
@[simp] theorem State.claims_putOsc : (s.putOsc o r).claims = s.claims := rfl
@[simp] theorem State.lines_putOsc : (s.putOsc o r).lines = s.lines := rfl
@[simp] theorem State.profiles_putOsc : (s.putOsc o r).profiles = s.profiles := rfl
@[simp] theorem State.stack_putOsc : (s.putOsc o r).stack = s.stack := rfl
@[simp] theorem State.settling_putOsc : (s.putOsc o r).settling = s.settling := rfl
@[simp] theorem State.tick_putOsc : (s.putOsc o r).tick = s.tick := rfl
@[simp] theorem State.actions_putOsc : (s.putOsc o r).actions = s.actions := rfl
@[simp] theorem State.startup_putOsc : (s.putOsc o r).startup = s.startup := rfl
@[simp] theorem State.image_putOsc : (s.putOsc o r).image = s.image := rfl
@[simp] theorem State.link_putOsc : (s.putOsc o r).link = s.link := rfl
@[simp] theorem State.notices_putOsc : (s.putOsc o r).notices = s.notices := rfl
@[simp] theorem State.freeCount_putOsc : (s.putOsc o r).freeCount = s.freeCount := rfl
@[simp] theorem State.pending_putOsc : (s.putOsc o r).pending = s.pending := rfl
@[simp] theorem State.clk_putOsc : (s.putOsc o r).clk = { s.clk with src := { s.clk.src with osc := s.clk.src.osc.set o r } } := rfl
end

section
variable (s : State) (l : Fin 8) (r : LineRec)
@[simp] theorem State.clk_putLine : (s.putLine l r).clk = s.clk := rfl
@[simp] theorem State.chains_putLine : (s.putLine l r).chains = s.chains := rfl
@[simp] theorem State.claims_putLine : (s.putLine l r).claims = s.claims := rfl
@[simp] theorem State.profiles_putLine : (s.putLine l r).profiles = s.profiles := rfl
@[simp] theorem State.stack_putLine : (s.putLine l r).stack = s.stack := rfl
@[simp] theorem State.settling_putLine : (s.putLine l r).settling = s.settling := rfl
@[simp] theorem State.tick_putLine : (s.putLine l r).tick = s.tick := rfl
@[simp] theorem State.actions_putLine : (s.putLine l r).actions = s.actions := rfl
@[simp] theorem State.startup_putLine : (s.putLine l r).startup = s.startup := rfl
@[simp] theorem State.image_putLine : (s.putLine l r).image = s.image := rfl
@[simp] theorem State.link_putLine : (s.putLine l r).link = s.link := rfl
@[simp] theorem State.notices_putLine : (s.putLine l r).notices = s.notices := rfl
@[simp] theorem State.freeCount_putLine : (s.putLine l r).freeCount = s.freeCount := rfl
@[simp] theorem State.pending_putLine : (s.putLine l r).pending = s.pending := rfl
@[simp] theorem State.lines_putLine : (s.putLine l r).lines = s.lines.set l r := rfl
end

section
variable (s : State)
/-- A save cut off touches the image store's contents and the count of free values drawn, and no slot but the save's (R143; log 23). -/
theorem cutSave_eq : cutSave s = { s with
    image := { s.image with contents := (cutSave s).image.contents }
    freeCount := (cutSave s).freeCount } := by
  unfold cutSave; cases s.image.save <;> rfl
@[simp] theorem State.clk_cutSave : (cutSave s).clk = s.clk := by rw [cutSave_eq]
@[simp] theorem State.chains_cutSave : (cutSave s).chains = s.chains := by rw [cutSave_eq]
@[simp] theorem State.claims_cutSave : (cutSave s).claims = s.claims := by rw [cutSave_eq]
@[simp] theorem State.lines_cutSave : (cutSave s).lines = s.lines := by rw [cutSave_eq]
@[simp] theorem State.profiles_cutSave : (cutSave s).profiles = s.profiles := by rw [cutSave_eq]
@[simp] theorem State.stack_cutSave : (cutSave s).stack = s.stack := by rw [cutSave_eq]
@[simp] theorem State.settling_cutSave : (cutSave s).settling = s.settling := by rw [cutSave_eq]
@[simp] theorem State.tick_cutSave : (cutSave s).tick = s.tick := by rw [cutSave_eq]
@[simp] theorem State.actions_cutSave : (cutSave s).actions = s.actions := by rw [cutSave_eq]
@[simp] theorem State.startup_cutSave : (cutSave s).startup = s.startup := by rw [cutSave_eq]
@[simp] theorem State.link_cutSave : (cutSave s).link = s.link := by rw [cutSave_eq]
@[simp] theorem State.notices_cutSave : (cutSave s).notices = s.notices := by rw [cutSave_eq]
@[simp] theorem State.pending_cutSave : (cutSave s).pending = s.pending := by rw [cutSave_eq]
@[simp] theorem State.records_cutSave : (cutSave s).image.records = s.image.records := by rw [cutSave_eq]
@[simp] theorem State.save_cutSave : (cutSave s).image.save = s.image.save := by rw [cutSave_eq]
@[simp] theorem State.lastSave_cutSave : (cutSave s).image.lastSave = s.image.lastSave := by rw [cutSave_eq]
end

end Sys2Proof.Machine
end

