-- ==== Sys2Proof/Laws/Queue.lean ====
section
/-! SUPPORT. Laws/Queue.lean: the notice queue under its operations: posting, the lost test, unsending, taking, dropping. -/

namespace Sys2Proof.Machine

/-! ### The filter -/

@[simp] theorem Notices.filter_post (q : Notices) (t : Tick) (p : Posting) : (q.post t p).filter = q.filter := by
  unfold Notices.post; split
  · rfl
  · split <;> rfl

@[simp] theorem Notices.filter_testLost (q : Notices) (t : Tick) : (q.testLost t).filter = q.filter := by
  unfold Notices.testLost; split
  · rfl
  · simp

@[simp] theorem Notices.filter_unsend (q : Notices) : q.unsend.filter = q.filter := rfl

/-! ### Numbers -/

theorem nextNumber_ne_zero (n : Half) : nextNumber n ≠ 0#16 := by
  unfold nextNumber; split
  · decide
  · rename_i h
    intro h0
    apply h
    have : n = 0#16 - 1#16 := by rw [← h0]; simp
    simpa using this

theorem consecutive_next (l : List NoticeRec) (next : Half) (h : consecutive l next = true) : next ≠ 0#16 := by
  induction l with
  | nil => simpa [consecutive] using h
  | cons r rs ih =>
    simp only [consecutive, Bool.and_eq_true] at h
    exact ih h.2

/-- A record added with the next number keeps the run. -/
theorem consecutive_append (l : List NoticeRec) (next : Half) (r : NoticeRec) (hr : r.number = next)
    (h : consecutive l next = true) : consecutive (l ++ [r]) (nextNumber next) = true := by
  induction l with
  | nil =>
    simp only [consecutive, decide_eq_true_eq] at h
    simp [consecutive, hr, h, nextNumber_ne_zero]
  | cons q qs ih =>
    simp only [consecutive, Bool.and_eq_true] at h
    obtain ⟨⟨h1, h2⟩, h3⟩ := h
    have := ih h3
    simp only [List.cons_append, consecutive, Bool.and_eq_true]
    refine ⟨⟨h1, ?_⟩, this⟩
    cases qs with
    | nil =>
      simp only [decide_eq_true_eq] at h2
      simp [hr, h2]
    | cons q' qs' => simpa using h2

/-- Records dropped from the front keep the run. -/
theorem consecutive_drop (k : Nat) (l : List NoticeRec) (next : Half) (h : consecutive l next = true) :
    consecutive (l.drop k) next = true := by
  induction k generalizing l with
  | zero => simpa using h
  | succ k ih =>
    cases l with
    | nil => simpa using h
    | cons q qs =>
      simp only [consecutive, Bool.and_eq_true] at h
      simpa using ih qs h.2

/-- The sent marks play no part in the run. -/
theorem consecutive_congr (l l' : List NoticeRec) (next : Half) (h : l'.map NoticeRec.number = l.map NoticeRec.number) :
    consecutive l' next = consecutive l next := by
  induction l generalizing l' with
  | nil => simp at h; simp [h]
  | cons r rs ih =>
    cases l' with
    | nil => simp at h
    | cons r' rs' =>
      simp only [List.map_cons, List.cons.injEq] at h
      simp only [consecutive, ih rs' h.2, h.1]
      cases rs with
      | nil => simp at h; simp [h.2]
      | cons q qs => cases rs' with
        | nil => simp at h
        | cons q' qs' => simp only [List.map_cons, List.cons.injEq] at h; simp [h.2.1]

/-! ### The queue's form (R162) -/

theorem Notices.wf_post {q : Notices} (h : q.wf) (t : Tick) (p : Posting) : (q.post t p).wf := by
  obtain ⟨h1, h2, h3⟩ := h
  unfold Notices.post; split
  · exact ⟨h1, h2, h3⟩
  · split
    · exact ⟨h1, by simp, h3⟩
    · rename_i hlt
      refine ⟨by simp [Notices.enter]; omega, h2, ?_⟩
      exact consecutive_append _ _ _ rfl h3

theorem Notices.wf_setLost {q : Notices} (h : q.wf) : ({ q with lost := 0 } : Notices).wf := ⟨h.1, by simp, h.2.2⟩

theorem Notices.wf_testLost {q : Notices} (h : q.wf) (t : Tick) : (q.testLost t).wf := by
  unfold Notices.testLost; split
  · exact h
  · exact Notices.wf_setLost (Notices.wf_post h t _)

theorem Notices.wf_drop {q : Notices} (h : q.wf) (k : Nat) :
    ({ q with records := q.records.drop k } : Notices).wf :=
  ⟨by simpa using Nat.le_trans (Nat.sub_le _ _) h.1, h.2.1, consecutive_drop k _ _ h.2.2⟩

theorem Notices.wf_unsend {q : Notices} (h : q.wf) : q.unsend.wf := by
  refine ⟨by simpa [Notices.unsend] using h.1, h.2.1, ?_⟩
  rw [show q.unsend.next = q.next from rfl, consecutive_congr q.records q.unsend.records]
  · exact h.2.2
  · simp [Notices.unsend, Function.comp_def]

theorem Notices.wf_filter {q : Notices} (h : q.wf) (f : Half) : ({ q with filter := f } : Notices).wf := h

theorem Notices.wf_cold (f : Half) : (Notices.cold f).wf := by
  refine ⟨by simp [Notices.cold], by simp [Notices.cold], by simp [Notices.cold, consecutive]⟩

theorem takeUnsent_numbers {l l' : List NoticeRec} {r : NoticeRec} (h : takeUnsent l = some (r, l')) :
    l'.map NoticeRec.number = l.map NoticeRec.number := by
  induction l generalizing l' r with
  | nil => simp [takeUnsent] at h
  | cons q qs ih =>
    simp only [takeUnsent] at h
    split at h
    · cases hq : takeUnsent qs with
      | none => simp [hq] at h
      | some x =>
        obtain ⟨y, ys⟩ := x
        simp only [hq, Option.map_some, Option.some.injEq, Prod.mk.injEq] at h
        obtain ⟨rfl, rfl⟩ := h
        simp [ih hq]
    · simp only [Option.some.injEq, Prod.mk.injEq] at h
      obtain ⟨rfl, rfl⟩ := h
      simp

theorem Notices.wf_taken {q : Notices} (h : q.wf) {r : NoticeRec} {l : List NoticeRec}
    (ht : takeUnsent q.records = some (r, l)) : ({ q with records := l } : Notices).wf := by
  have hn := takeUnsent_numbers ht
  refine ⟨?_, h.2.1, ?_⟩
  · have := congrArg List.length hn
    simp only [List.length_map] at this
    show l.length ≤ _
    rw [this]; exact h.1
  · show consecutive l q.next = true
    rw [consecutive_congr q.records l _ hn]; exact h.2.2

/-! ### Details of the length their kind has (R173) -/

/-- A posting with the length its kind has. -/
def Posting.laidOut (p : Posting) : Prop := p.details.length = detailBytes p.kind

theorem Notices.laidOut_post {q : Notices} (h : q.laidOut) (t : Tick) {p : Posting} (hp : p.laidOut) :
    (q.post t p).laidOut := by
  unfold Notices.post; split
  · exact h
  · split
    · exact h
    · intro r hr
      simp only [Notices.enter, List.mem_append, List.mem_singleton] at hr
      rcases hr with hr | rfl
      · exact h r hr
      · exact hp

theorem Notices.laidOut_testLost {q : Notices} (h : q.laidOut) (t : Tick) : (q.testLost t).laidOut := by
  unfold Notices.testLost; split
  · exact h
  · exact Notices.laidOut_post h t rfl

theorem Notices.laidOut_drop {q : Notices} (h : q.laidOut) (k : Nat) :
    ({ q with records := q.records.drop k } : Notices).laidOut := fun r hr => h r (List.mem_of_mem_drop hr)

theorem Notices.laidOut_unsend {q : Notices} (h : q.laidOut) : q.unsend.laidOut := by
  intro r hr
  simp only [Notices.unsend, List.mem_map] at hr
  obtain ⟨x, hx, rfl⟩ := hr
  exact h x hx

theorem takeUnsent_mem {l l' : List NoticeRec} {r : NoticeRec} (h : takeUnsent l = some (r, l')) :
    ∀ x ∈ l', ∃ y ∈ l, y.kind = x.kind ∧ y.details = x.details := by
  induction l generalizing l' r with
  | nil => simp [takeUnsent] at h
  | cons q qs ih =>
    simp only [takeUnsent] at h
    split at h
    · cases hq : takeUnsent qs with
      | none => simp [hq] at h
      | some z =>
        obtain ⟨y, ys⟩ := z
        simp only [hq, Option.map_some, Option.some.injEq, Prod.mk.injEq] at h
        obtain ⟨rfl, rfl⟩ := h
        intro x hx
        rcases List.mem_cons.1 hx with rfl | hx
        · exact ⟨_, List.mem_cons_self, rfl, rfl⟩
        · obtain ⟨w, hw, e⟩ := ih hq x hx
          exact ⟨w, List.mem_cons_of_mem _ hw, e⟩
    · simp only [Option.some.injEq, Prod.mk.injEq] at h
      obtain ⟨rfl, rfl⟩ := h
      intro x hx
      rcases List.mem_cons.1 hx with rfl | hx
      · exact ⟨_, List.mem_cons_self, rfl, rfl⟩
      · exact ⟨x, List.mem_cons_of_mem _ hx, rfl, rfl⟩

theorem Notices.laidOut_taken {q : Notices} (h : q.laidOut) {r : NoticeRec} {l : List NoticeRec}
    (ht : takeUnsent q.records = some (r, l)) : ({ q with records := l } : Notices).laidOut := by
  intro x hx
  obtain ⟨y, hy, h1, h2⟩ := takeUnsent_mem ht x hx
  rw [← h2, ← h1]; exact h y hy

end Sys2Proof.Machine
end

