-- ==== Sys2Proof/Laws/Event.lean ====
section
/-! SUPPORT. Laws/Event.lean: what the operations at the end of an event leave and keep: posting, the settling test, the transmitter,
and what taking a frame amounts to. -/

namespace Sys2Proof.Machine

/-! ### Posting in order -/

theorem State.postAll_eq (s : State) (ps : List Posting) :
    s.postAll ps = { s with notices := (s.postAll ps).notices } := by
  induction ps generalizing s with
  | nil => rfl
  | cons p ps ih =>
    show (s.post p).postAll ps = _
    rw [ih (s.post p)]; rfl

/-! ### The settling test and the transmitter -/

theorem State.testSettled_eq (s : State) :
    s.testSettled = { s with notices := s.testSettled.notices, settling := s.testSettled.settling } := by
  unfold State.testSettled
  split
  · rfl
  · split <;> rfl

theorem State.transmit_eq (s : State) :
    s.transmit = { s with link := s.transmit.link, notices := s.transmit.notices } := by
  unfold State.transmit
  split
  · rfl
  · split
    · rfl
    · split <;> rfl

theorem State.endEvent_eq (s : State) :
    s.endEvent = { s with link := s.endEvent.link, notices := s.endEvent.notices, settling := s.endEvent.settling } := by
  unfold State.endEvent
  rw [s.testSettled.transmit_eq, s.testSettled_eq]

/-- An event over sources and outputs writes clocks and notices only. -/
theorem runEvent_eq (c : Cause) (s0 s : State) (f : Env → Ev → Ev) :
    runEvent c s0 s f = { s with clk := (runEvent c s0 s f).clk, notices := (runEvent c s0 s f).notices } := by
  unfold runEvent
  rw [State.postAll_eq]

theorem reevaluate_eq (c : Cause) (s0 s : State) :
    reevaluate c s0 s = { s with clk := (reevaluate c s0 s).clk, notices := (reevaluate c s0 s).notices } :=
  runEvent_eq c s0 s _

section
variable (s : State) (ps : List Posting)
@[simp] theorem State.clk_postAll : (s.postAll ps).clk = s.clk := by rw [State.postAll_eq]
@[simp] theorem State.chains_postAll : (s.postAll ps).chains = s.chains := by rw [State.postAll_eq]
@[simp] theorem State.claims_postAll : (s.postAll ps).claims = s.claims := by rw [State.postAll_eq]
@[simp] theorem State.lines_postAll : (s.postAll ps).lines = s.lines := by rw [State.postAll_eq]
@[simp] theorem State.profiles_postAll : (s.postAll ps).profiles = s.profiles := by rw [State.postAll_eq]
@[simp] theorem State.stack_postAll : (s.postAll ps).stack = s.stack := by rw [State.postAll_eq]
@[simp] theorem State.settling_postAll : (s.postAll ps).settling = s.settling := by rw [State.postAll_eq]
@[simp] theorem State.tick_postAll : (s.postAll ps).tick = s.tick := by rw [State.postAll_eq]
@[simp] theorem State.actions_postAll : (s.postAll ps).actions = s.actions := by rw [State.postAll_eq]
@[simp] theorem State.startup_postAll : (s.postAll ps).startup = s.startup := by rw [State.postAll_eq]
@[simp] theorem State.image_postAll : (s.postAll ps).image = s.image := by rw [State.postAll_eq]
@[simp] theorem State.link_postAll : (s.postAll ps).link = s.link := by rw [State.postAll_eq]
@[simp] theorem State.freeCount_postAll : (s.postAll ps).freeCount = s.freeCount := by rw [State.postAll_eq]
@[simp] theorem State.pending_postAll : (s.postAll ps).pending = s.pending := by rw [State.postAll_eq]
end

section
variable (s : State)
@[simp] theorem State.clk_testSettled : (s.testSettled).clk = s.clk := by rw [State.testSettled_eq]
@[simp] theorem State.chains_testSettled : (s.testSettled).chains = s.chains := by rw [State.testSettled_eq]
@[simp] theorem State.claims_testSettled : (s.testSettled).claims = s.claims := by rw [State.testSettled_eq]
@[simp] theorem State.lines_testSettled : (s.testSettled).lines = s.lines := by rw [State.testSettled_eq]
@[simp] theorem State.profiles_testSettled : (s.testSettled).profiles = s.profiles := by rw [State.testSettled_eq]
@[simp] theorem State.stack_testSettled : (s.testSettled).stack = s.stack := by rw [State.testSettled_eq]
@[simp] theorem State.tick_testSettled : (s.testSettled).tick = s.tick := by rw [State.testSettled_eq]
@[simp] theorem State.actions_testSettled : (s.testSettled).actions = s.actions := by rw [State.testSettled_eq]
@[simp] theorem State.startup_testSettled : (s.testSettled).startup = s.startup := by rw [State.testSettled_eq]
@[simp] theorem State.image_testSettled : (s.testSettled).image = s.image := by rw [State.testSettled_eq]
@[simp] theorem State.link_testSettled : (s.testSettled).link = s.link := by rw [State.testSettled_eq]
@[simp] theorem State.freeCount_testSettled : (s.testSettled).freeCount = s.freeCount := by rw [State.testSettled_eq]
@[simp] theorem State.pending_testSettled : (s.testSettled).pending = s.pending := by rw [State.testSettled_eq]
end

section
variable (s : State)
@[simp] theorem State.clk_transmit : (s.transmit).clk = s.clk := by rw [State.transmit_eq]
@[simp] theorem State.chains_transmit : (s.transmit).chains = s.chains := by rw [State.transmit_eq]
@[simp] theorem State.claims_transmit : (s.transmit).claims = s.claims := by rw [State.transmit_eq]
@[simp] theorem State.lines_transmit : (s.transmit).lines = s.lines := by rw [State.transmit_eq]
@[simp] theorem State.profiles_transmit : (s.transmit).profiles = s.profiles := by rw [State.transmit_eq]
@[simp] theorem State.stack_transmit : (s.transmit).stack = s.stack := by rw [State.transmit_eq]
@[simp] theorem State.settling_transmit : (s.transmit).settling = s.settling := by rw [State.transmit_eq]
@[simp] theorem State.tick_transmit : (s.transmit).tick = s.tick := by rw [State.transmit_eq]
@[simp] theorem State.actions_transmit : (s.transmit).actions = s.actions := by rw [State.transmit_eq]
@[simp] theorem State.startup_transmit : (s.transmit).startup = s.startup := by rw [State.transmit_eq]
@[simp] theorem State.image_transmit : (s.transmit).image = s.image := by rw [State.transmit_eq]
@[simp] theorem State.freeCount_transmit : (s.transmit).freeCount = s.freeCount := by rw [State.transmit_eq]
@[simp] theorem State.pending_transmit : (s.transmit).pending = s.pending := by rw [State.transmit_eq]
end

section
variable (s : State)
@[simp] theorem State.clk_endEvent : (s.endEvent).clk = s.clk := by rw [State.endEvent_eq]
@[simp] theorem State.chains_endEvent : (s.endEvent).chains = s.chains := by rw [State.endEvent_eq]
@[simp] theorem State.claims_endEvent : (s.endEvent).claims = s.claims := by rw [State.endEvent_eq]
@[simp] theorem State.lines_endEvent : (s.endEvent).lines = s.lines := by rw [State.endEvent_eq]
@[simp] theorem State.profiles_endEvent : (s.endEvent).profiles = s.profiles := by rw [State.endEvent_eq]
@[simp] theorem State.stack_endEvent : (s.endEvent).stack = s.stack := by rw [State.endEvent_eq]
@[simp] theorem State.tick_endEvent : (s.endEvent).tick = s.tick := by rw [State.endEvent_eq]
@[simp] theorem State.actions_endEvent : (s.endEvent).actions = s.actions := by rw [State.endEvent_eq]
@[simp] theorem State.startup_endEvent : (s.endEvent).startup = s.startup := by rw [State.endEvent_eq]
@[simp] theorem State.image_endEvent : (s.endEvent).image = s.image := by rw [State.endEvent_eq]
@[simp] theorem State.freeCount_endEvent : (s.endEvent).freeCount = s.freeCount := by rw [State.endEvent_eq]
@[simp] theorem State.pending_endEvent : (s.endEvent).pending = s.pending := by rw [State.endEvent_eq]
end

section
variable (c : Cause) (s0 s : State) (f : Env → Ev → Ev)
@[simp] theorem chains_runEvent : (runEvent c s0 s f).chains = s.chains := by rw [runEvent_eq]
@[simp] theorem claims_runEvent : (runEvent c s0 s f).claims = s.claims := by rw [runEvent_eq]
@[simp] theorem lines_runEvent : (runEvent c s0 s f).lines = s.lines := by rw [runEvent_eq]
@[simp] theorem profiles_runEvent : (runEvent c s0 s f).profiles = s.profiles := by rw [runEvent_eq]
@[simp] theorem stack_runEvent : (runEvent c s0 s f).stack = s.stack := by rw [runEvent_eq]
@[simp] theorem settling_runEvent : (runEvent c s0 s f).settling = s.settling := by rw [runEvent_eq]
@[simp] theorem tick_runEvent : (runEvent c s0 s f).tick = s.tick := by rw [runEvent_eq]
@[simp] theorem actions_runEvent : (runEvent c s0 s f).actions = s.actions := by rw [runEvent_eq]
@[simp] theorem startup_runEvent : (runEvent c s0 s f).startup = s.startup := by rw [runEvent_eq]
@[simp] theorem image_runEvent : (runEvent c s0 s f).image = s.image := by rw [runEvent_eq]
@[simp] theorem link_runEvent : (runEvent c s0 s f).link = s.link := by rw [runEvent_eq]
@[simp] theorem freeCount_runEvent : (runEvent c s0 s f).freeCount = s.freeCount := by rw [runEvent_eq]
@[simp] theorem pending_runEvent : (runEvent c s0 s f).pending = s.pending := by rw [runEvent_eq]
end

section
variable (c : Cause) (s0 s : State)
@[simp] theorem chains_reevaluate : (reevaluate c s0 s).chains = s.chains := by rw [reevaluate_eq]
@[simp] theorem claims_reevaluate : (reevaluate c s0 s).claims = s.claims := by rw [reevaluate_eq]
@[simp] theorem lines_reevaluate : (reevaluate c s0 s).lines = s.lines := by rw [reevaluate_eq]
@[simp] theorem profiles_reevaluate : (reevaluate c s0 s).profiles = s.profiles := by rw [reevaluate_eq]
@[simp] theorem stack_reevaluate : (reevaluate c s0 s).stack = s.stack := by rw [reevaluate_eq]
@[simp] theorem settling_reevaluate : (reevaluate c s0 s).settling = s.settling := by rw [reevaluate_eq]
@[simp] theorem tick_reevaluate : (reevaluate c s0 s).tick = s.tick := by rw [reevaluate_eq]
@[simp] theorem actions_reevaluate : (reevaluate c s0 s).actions = s.actions := by rw [reevaluate_eq]
@[simp] theorem startup_reevaluate : (reevaluate c s0 s).startup = s.startup := by rw [reevaluate_eq]
@[simp] theorem image_reevaluate : (reevaluate c s0 s).image = s.image := by rw [reevaluate_eq]
@[simp] theorem link_reevaluate : (reevaluate c s0 s).link = s.link := by rw [reevaluate_eq]
@[simp] theorem freeCount_reevaluate : (reevaluate c s0 s).freeCount = s.freeCount := by rw [reevaluate_eq]
@[simp] theorem pending_reevaluate : (reevaluate c s0 s).pending = s.pending := by rw [reevaluate_eq]
end

/-! ### The notice queue -/

@[simp] theorem State.filter_postAll (s : State) (ps : List Posting) : (s.postAll ps).notices.filter = s.notices.filter := by
  induction ps generalizing s with
  | nil => rfl
  | cons p ps ih =>
    show ((s.post p).postAll ps).notices.filter = _
    rw [ih (s.post p)]; simp

@[simp] theorem State.filter_testSettled (s : State) : s.testSettled.notices.filter = s.notices.filter := by
  unfold State.testSettled; split
  · rfl
  · split
    · rfl
    · simp

@[simp] theorem State.filter_transmit (s : State) : s.transmit.notices.filter = s.notices.filter := by
  unfold State.transmit; split
  · rfl
  · split
    · rfl
    · split <;> rfl

@[simp] theorem State.filter_endEvent (s : State) : s.endEvent.notices.filter = s.notices.filter := by
  unfold State.endEvent; simp

@[simp] theorem filter_runEvent (c : Cause) (s0 s : State) (f : Env → Ev → Ev) :
    (runEvent c s0 s f).notices.filter = s.notices.filter := by unfold runEvent; simp

@[simp] theorem filter_reevaluate (c : Cause) (s0 s : State) :
    (reevaluate c s0 s).notices.filter = s.notices.filter := filter_runEvent c s0 s _

theorem State.wf_postAll {s : State} (h : s.notices.wf) (ps : List Posting) : (s.postAll ps).notices.wf := by
  induction ps generalizing s with
  | nil => exact h
  | cons p ps ih => exact ih (s := s.post p) (Notices.wf_post h _ _)

theorem State.wf_testSettled {s : State} (h : s.notices.wf) : s.testSettled.notices.wf := by
  unfold State.testSettled; split
  · exact h
  · split
    · exact h
    · exact Notices.wf_post h _ _

theorem State.wf_transmit {s : State} (h : s.notices.wf) : s.transmit.notices.wf := by
  unfold State.transmit; split
  · exact h
  · split
    · exact h
    · split
      · exact h
      · rename_i ht; exact Notices.wf_taken h ht

theorem State.wf_endEvent {s : State} (h : s.notices.wf) : s.endEvent.notices.wf :=
  State.wf_transmit (State.wf_testSettled h)

theorem wf_runEvent (c : Cause) (s0 : State) {s : State} (f : Env → Ev → Ev) (h : s.notices.wf) :
    (runEvent c s0 s f).notices.wf := by
  unfold runEvent; apply State.wf_postAll; exact h

theorem wf_reevaluate (c : Cause) (s0 : State) {s : State} (h : s.notices.wf) :
    (reevaluate c s0 s).notices.wf := wf_runEvent c s0 _ h

theorem State.laidOut_postAll {s : State} (h : s.notices.laidOut) {ps : List Posting} (hp : ∀ p ∈ ps, p.laidOut) :
    (s.postAll ps).notices.laidOut := by
  induction ps generalizing s with
  | nil => exact h
  | cons p ps ih =>
    exact ih (s := s.post p) (Notices.laidOut_post h _ (hp p List.mem_cons_self))
      (fun q hq => hp q (List.mem_cons_of_mem _ hq))

theorem settledPosting_laidOut (s : State) (g : Settling) : (settledPosting s g).laidOut := rfl

theorem State.laidOut_testSettled {s : State} (h : s.notices.laidOut) : s.testSettled.notices.laidOut := by
  unfold State.testSettled; split
  · exact h
  · split
    · exact h
    · exact Notices.laidOut_post h _ (settledPosting_laidOut _ _)

theorem State.laidOut_transmit {s : State} (h : s.notices.laidOut) : s.transmit.notices.laidOut := by
  unfold State.transmit; split
  · exact h
  · split
    · exact h
    · split
      · exact h
      · rename_i ht; exact Notices.laidOut_taken h ht

theorem State.laidOut_endEvent {s : State} (h : s.notices.laidOut) : s.endEvent.notices.laidOut :=
  State.laidOut_transmit (State.laidOut_testSettled h)

/-! ### The window (R152) -/

theorem State.windowCount_transmit (s : State) : s.transmit.link.windowCount = s.link.windowCount := by
  unfold State.transmit; split
  · rfl
  · rename_i h
    simp only [Bool.or_eq_true, not_or, Bool.not_eq_true, Option.isSome_eq_false_iff, Option.isNone_iff_eq_none] at h
    split
    · rename_i hq
      simp [Link.windowCount, hq, h.2]; omega
    · split
      · rfl
      · simp [Link.windowCount, h.2]

@[simp] theorem State.windowCount_endEvent (s : State) : s.endEvent.link.windowCount = s.link.windowCount := by
  unfold State.endEvent; rw [State.windowCount_transmit]; simp

/-! ### The link's other parts at the end of an event -/

theorem State.link_transmit (s : State) :
    s.transmit.link.rate = s.link.rate ∧ s.transmit.link.rx = s.link.rx ∧ s.transmit.link.held = s.link.held
      ∧ s.transmit.link.restartTaken = s.link.restartTaken := by
  unfold State.transmit; split
  · simp
  · split
    · simp
    · split <;> simp

@[simp] theorem State.rate_endEvent (s : State) : s.endEvent.link.rate = s.link.rate := by
  unfold State.endEvent; rw [(State.link_transmit _).1]; simp
@[simp] theorem State.rx_endEvent (s : State) : s.endEvent.link.rx = s.link.rx := by
  unfold State.endEvent; rw [(State.link_transmit _).2.1]; simp
@[simp] theorem State.held_endEvent (s : State) : s.endEvent.link.held = s.link.held := by
  unfold State.endEvent; rw [(State.link_transmit _).2.2.1]; simp
@[simp] theorem State.restartTaken_endEvent (s : State) : s.endEvent.link.restartTaken = s.link.restartTaken := by
  unfold State.endEvent; rw [(State.link_transmit _).2.2.2]; simp

/-- With LTX busy, or outside LIVE, the transmitter begins nothing. -/
theorem State.transmit_busy {s : State} (h : s.link.onLtx.isSome = true) : s.transmit = s := by
  simp [State.transmit, h]

/-- With LTX idle in LIVE and a reply queued, the oldest reply begins with its link flags (R155, R156). -/
theorem State.transmit_reply {s : State} (hl : s.isLive = true) (hn : s.link.onLtx = none) {r : Reply} {rs : List Reply}
    (hq : s.link.queued = r :: rs) :
    s.transmit = { s with link := { s.link with
      queued := rs, missed := false, onLtx := some (replyFrame r s.link.missed s.noticesWait) } } := by
  simp [State.transmit, hl, hn, hq, replyFrame]

/-! ### Taking a frame (R151 to R153) -/

/-- What taking a frame does when its request is handed to its owner. -/
theorem takeFrame_takes {s : State} (h : s.takes) (tag kind : Byte) (perform : State → Done) :
    takeFrame tag kind perform s =
      ((perform s.hunt).state.queueReply tag kind (perform s.hunt).status (perform s.hunt).result).endEvent := by
  obtain ⟨h1, h2, h3⟩ := h
  have e1 : s.startup.running = true := by simp [Startup.running, h1]
  have e2 : s.isLive = true := by simp [State.isLive, h1]
  have e3 : s.hunt.isLive = true := by simp [State.isLive, h1]
  have e4 : s.hunt.link.windowCount = s.link.windowCount := by simp [Link.windowCount]
  have e5 : s.hunt.link.restartTaken = false := by simpa using h3
  unfold takeFrame
  simp only [e1, Bool.not_true, Bool.false_eq_true, if_false, e3, e4, e5]
  rw [if_neg (by omega)]

/-- After a performed request that left link and start-up state alone, the reply has joined the queue, and the oldest queued
reply is on LTX if LTX was idle (R153, R155, R156). -/
theorem answered_endEvent {s u : State} (tag kind : Byte) (st : Status) (result : List Byte)
    (hl : s.startup.state = .live) (hs : u.startup = s.startup)
    (hq : u.link.queued = s.link.queued) (ho : u.link.onLtx = s.link.onLtx) (hm : u.link.missed = s.link.missed) :
    answered s (u.queueReply tag kind st result).endEvent (replyTo tag kind st result) := by
  set v := (u.queueReply tag kind st result).testSettled with hv
  have hlink : v.link = (u.queueReply tag kind st result).link := by simp [hv]
  have hst : v.startup = s.startup := by simp [hv, hs]
  have hlive : v.isLive = true := by simp [State.isLive, hst, hl]
  have hvq : v.link.queued = s.link.queued ++ [replyTo tag kind st result] := by
    rw [hlink]; simp [hq, replyTo]
  have hvo : v.link.onLtx = s.link.onLtx := by rw [hlink]; simp [ho]
  have hvm : v.link.missed = s.link.missed := by rw [hlink]; simp [hm]
  show answered s v.transmit _
  unfold answered
  cases hx : s.link.onLtx with
  | some f =>
    rw [State.transmit_busy (by rw [hvo, hx]; rfl)]
    exact ⟨by rw [hvo, hx], hvq, hvm⟩
  | none =>
    obtain ⟨x, xs, hxs⟩ : ∃ x xs, s.link.queued ++ [replyTo tag kind st result] = x :: xs := by
      cases s.link.queued with
      | nil => exact ⟨_, _, rfl⟩
      | cons y ys => exact ⟨y, _, rfl⟩
    refine ⟨x, xs, hxs, ?_⟩
    rw [State.transmit_reply hlive (by rw [hvo, hx]) (hvq.trans hxs)]
    refine ⟨rfl, ?_, rfl⟩
    simp [hvm, State.noticesWait]

/-- Outside the running part a frame is ignored; else it is discarded with MISSED, held, or performed (R151 to R153, R161). -/
theorem takeFrame_cases (tag kind : Byte) (perform : State → Done) (s : State) :
    (s.startup.running = false ∧ takeFrame tag kind perform s = s)
    ∨ takeFrame tag kind perform s = s.hunt.setMissed.endEvent
    ∨ (¬ s.takes ∧ s.link.windowCount < Config.windowRoom
        ∧ takeFrame tag kind perform s = (s.hunt.hold tag kind).endEvent)
    ∨ (s.takes ∧ takeFrame tag kind perform s =
      ((perform s.hunt).state.queueReply tag kind (perform s.hunt).status (perform s.hunt).result).endEvent) := by
  by_cases ht : s.takes
  · exact Or.inr (Or.inr (Or.inr ⟨ht, takeFrame_takes ht tag kind perform⟩))
  · unfold takeFrame
    by_cases h1 : s.startup.running = true
    · simp only [h1, Bool.not_true, Bool.false_eq_true, if_false]
      have e4 : s.hunt.link.windowCount = s.link.windowCount := by simp [Link.windowCount]
      by_cases h2 : s.hunt.isLive = true
      · simp only [h2, Bool.not_true, Bool.false_eq_true, if_false, e4]
        by_cases h3 : s.link.windowCount ≥ Config.windowRoom
        · simp [h3]
        · simp only [h3, if_false]
          by_cases h4 : s.link.restartTaken = true
          · right; right; left
            refine ⟨ht, by omega, by simp [h4]⟩
          · exfalso; apply ht
            refine ⟨of_decide_eq_true h2, by omega, by simpa using h4⟩
      · simp [h2]
    · simp [h1]

end Sys2Proof.Machine
end

