-- ==== Sys2Proof/Laws/Outputs.lean ====
section
/-! SUPPORT. Laws/Outputs.lean: what evaluating one output can do: its configuration stays, an open gate is on a source that feeds
gates, and its record stays one R41 allows. -/

namespace Sys2Proof.Machine

/-! ### Configuration -/

@[simp] theorem OutRec.cfg_shut (r : OutRec) : r.shut.cfg = r.cfg := rfl
@[simp] theorem OutRec.refused_shut (r : OutRec) : r.shut.refused = r.refused := rfl
@[simp] theorem OutRec.cfg_closed (r : OutRec) : r.closed.cfg = r.cfg := rfl
@[simp] theorem OutRec.cfg_rested (r : OutRec) : r.rested.cfg = r.cfg := rfl
@[simp] theorem cfg_actClosed (e : Env) (r : OutRec) (p : Pick) : (actClosed e r p).cfg = r.cfg := by cases p <;> rfl
@[simp] theorem cfg_beginRelease (e : Env) (r : OutRec) (t : Option Use) : (beginRelease e r t).cfg = r.cfg := rfl
@[simp] theorem cfg_releaseHeld (e : Env) (o : Fin 8) (r : OutRec) : (releaseHeld e o r).cfg = r.cfg := by
  unfold releaseHeld; split <;> rfl

@[simp] theorem cfg_actRunning (e : Env) (r : OutRec) (p : Pick) : (actRunning e r p).cfg = r.cfg := by
  unfold actRunning; split
  · split <;> rfl
  all_goals rfl

@[simp] theorem cfg_actAcquire (e : Env) (r : OutRec) (p : Pick) : (actAcquire e r p).cfg = r.cfg := by
  unfold actAcquire; split
  · split <;> rfl
  · simp

@[simp] theorem cfg_afterSelect (e : Env) (c : Sources) (o : Fin 8) (r : OutRec) (p : Option Place) :
    (afterSelect e c o r p).cfg = r.cfg := by unfold afterSelect; split <;> rfl

@[simp] theorem cfg_select (e : Env) (c : Sources) (o : Fin 8) (r : OutRec) : (select e c o r).out.cfg = r.cfg := by
  unfold select; split
  · rfl
  · dsimp only; split
    · simp
    · split <;> simp

@[simp] theorem cfg_idleRelease (e : Env) (c : Sources) (o : Fin 8) (r : OutRec) : (idleRelease e c o r).cfg = r.cfg := rfl
@[simp] theorem state_idleRelease (e : Env) (c : Sources) (o : Fin 8) (r : OutRec) : (idleRelease e c o r).state = r.state := rfl
@[simp] theorem current_idleRelease (e : Env) (c : Sources) (o : Fin 8) (r : OutRec) :
    (idleRelease e c o r).current = r.current := rfl
@[simp] theorem refused_idleRelease (e : Env) (c : Sources) (o : Fin 8) (r : OutRec) :
    (idleRelease e c o r).refused = r.refused := rfl
@[simp] theorem gateOpen_idleRelease (e : Env) (c : Sources) (o : Fin 8) (r : OutRec) :
    (idleRelease e c o r).gateOpen = r.gateOpen := rfl
@[simp] theorem target_idleRelease (e : Env) (c : Sources) (o : Fin 8) (r : OutRec) : (idleRelease e c o r).target = none := rfl

@[simp] theorem cfg_selectClosed (e : Env) (c : Sources) (o : Fin 8) (was r : OutRec) (why : OutReason) (again : Bool) :
    (selectClosed e c o was r why again).1.cfg = r.cfg := by simp [selectClosed]

@[simp] theorem cfg_evalOut (e : Env) (c : Sources) (o : Fin 8) (r : OutRec) : (evalOut e c o r).1.cfg = r.cfg := by
  unfold evalOut
  dsimp only
  split_ifs <;> (try split) <;>
    simp [rest, selectRunning, selectAcquire, selectRelease, retargetRelease]

@[simp] theorem cfg_endRelease (e : Env) (c : Sources) (o : Fin 8) (r : OutRec) (why : OutReason) :
    (endRelease e c o r why).1.cfg = r.cfg := by unfold endRelease; split <;> simp [rest]

/-! ### What selection leaves of the record -/

/-- Selection touches the pin and the revert state only (R68, R71, R74). -/
theorem select_out (e : Env) (c : Sources) (o : Fin 8) (r : OutRec) :
    ∃ p v, (select e c o r).out = { r with pin := p, revert := v } ∧ (p = r.pin ∨ p = none) := by
  unfold select; split
  · exact ⟨r.pin, r.revert, rfl, Or.inl rfl⟩
  · have h : ∃ v, releaseHeld e o r = { r with revert := v } := by
      unfold releaseHeld; split
      · exact ⟨.due, rfl⟩
      · exact ⟨r.revert, rfl⟩
    obtain ⟨v, hv⟩ := h
    dsimp only
    rw [hv]
    split
    · exact ⟨r.pin, v, rfl, Or.inl rfl⟩
    · split
      · exact ⟨r.pin, v, rfl, Or.inl rfl⟩
      · exact ⟨none, v, rfl, Or.inr rfl⟩

/-- The record's fields but pin, place and revert state: what R41, R51 and R52 say of them, the refused set, and no pin
in FIXED mode. -/
def OutRec.core (r : OutRec) : Prop :=
  r.current.isSome = r.gateOpen ∧ r.phase.isSome = r.state.switching?
  ∧ (r.pending.isSome = true → r.state = .switching .acquire) ∧ (r.nextDiv.isSome = true → r.state = .running)
  ∧ r.targetOk = true ∧ r.refused.Nodup ∧ (∀ u, r.cfg.mode = .fixed u → r.pin = none)

theorem OutRec.wf_core {r : OutRec} (h : r.wf) : r.core := by
  obtain ⟨h1, h2, h3, h4, h5, h6, h7⟩ := h
  refine ⟨h1, h2, h3, h4, h5, h7, ?_⟩
  intro u hu
  simp only [OutRec.standingOk, hu, Bool.and_eq_true, Option.isNone_iff_eq_none] at h6
  exact h6.1.1.1.1.1

/-- A record with the core, not OFF or PARKED, is one R41 allows once its place and revert state follow a selection. -/
theorem wf_afterSelect (e : Env) (c : Sources) (o : Fin 8) {r : OutRec} (h : r.core) (h1 : r.state ≠ .off)
    (h2 : r.state ≠ .parked) (p : Option Place) : (afterSelect e c o r p).wf := by
  obtain ⟨a1, a2, a3, a4, a5, a6, a7⟩ := h
  unfold afterSelect
  split
  · rename_i u hu
    refine ⟨a1, a2, a3, a4, a5, ?_, a6⟩
    simp only [OutRec.standingOk, hu, a7 u hu]
    cases hs : r.state <;> simp_all
  · rename_i k hk
    refine ⟨a1, a2, a3, a4, a5, ?_, a6⟩
    have hrev : ∀ x : OutRec, x.pin.isSome = true → nextRevert e c o x (e.chains.get k) = .none := by
      intro x hx; simp [nextRevert, hx]
    simp only [OutRec.standingOk, hk, Bool.and_eq_true, Bool.or_eq_true, decide_eq_true_eq]
    refine ⟨⟨?_, ?_⟩, Or.inl rfl⟩
    · cases hp : r.pin with
      | none => left; rfl
      | some i => right; exact hrev _ (by simp)
    · cases hs : r.state <;> simp_all

theorem core_setPin {r : OutRec} (h : r.core) (p : Option (Fin 4)) (v : Revert) (hp : p = r.pin ∨ p = none) :
    ({ r with pin := p, revert := v } : OutRec).core := by
  obtain ⟨a1, a2, a3, a4, a5, a6, a7⟩ := h
  refine ⟨a1, a2, a3, a4, a5, a6, ?_⟩
  intro u hu
  rcases hp with rfl | rfl
  · exact a7 u hu
  · rfl

theorem core_select {e : Env} {c : Sources} {o : Fin 8} {r : OutRec} (h : r.core) : (select e c o r).out.core := by
  obtain ⟨p, v, hs, hp⟩ := select_out e c o r
  rw [hs]; exact core_setPin h p v hp

@[simp] theorem state_select (e : Env) (c : Sources) (o : Fin 8) (r : OutRec) : (select e c o r).out.state = r.state := by
  obtain ⟨p, v, hs, -⟩ := select_out e c o r; rw [hs]
@[simp] theorem current_select (e : Env) (c : Sources) (o : Fin 8) (r : OutRec) :
    (select e c o r).out.current = r.current := by
  obtain ⟨p, v, hs, -⟩ := select_out e c o r; rw [hs]
@[simp] theorem refused_select (e : Env) (c : Sources) (o : Fin 8) (r : OutRec) :
    (select e c o r).out.refused = r.refused := by
  obtain ⟨p, v, hs, -⟩ := select_out e c o r; rw [hs]

theorem pin_select {e : Env} {c : Sources} {o : Fin 8} {r : OutRec} (h : ∀ u, r.cfg.mode = .fixed u → r.pin = none) :
    ∀ u, (select e c o r).out.cfg.mode = .fixed u → (select e c o r).out.pin = none := by
  obtain ⟨p, v, hs, hp⟩ := select_out e c o r
  rw [hs]; intro u hu
  rcases hp with rfl | rfl
  · exact h u hu
  · rfl

/-! ### The record stays one R41 allows -/

/-- Any result acted on with a closed gate gives the core. -/
theorem core_actClosed (e : Env) {r : OutRec} (hr : r.refused.Nodup) (hp : ∀ u, r.cfg.mode = .fixed u → r.pin = none)
    (p : Pick) : (actClosed e r p).core ∧ (actClosed e r p).state ≠ .off ∧ (actClosed e r p).state ≠ .parked
      ∧ (actClosed e r p).gateOpen = false := by
  cases p <;> exact ⟨⟨by simp [actClosed, OutRec.closed, OutRec.gateOpen], by simp [actClosed, OutRec.closed, OutState.switching?],
    by simp [actClosed, OutRec.closed], by simp [actClosed, OutRec.closed],
    by simp [actClosed, OutRec.closed, OutRec.targetOk], hr, hp⟩, by simp [actClosed], by simp [actClosed],
    by simp [actClosed, OutRec.closed, OutRec.gateOpen]⟩

theorem wf_selectClosed (e : Env) (c : Sources) (o : Fin 8) (was : OutRec) {r : OutRec} (hr : r.refused.Nodup)
    (hp : ∀ u, r.cfg.mode = .fixed u → r.pin = none) (why : OutReason) (again : Bool) :
    (selectClosed e c o was r why again).1.wf := by
  have h := core_actClosed e (r := (select e c o r).out) (by simpa using hr) (pin_select hp) (select e c o r).pick
  exact wf_afterSelect e c o h.1 h.2.1 h.2.2.1 _

theorem wf_rested {r : OutRec} (h : r.wf) : r.rested.wf := by
  obtain ⟨h1, h2, h3, h4, h5, h6, h7⟩ := h
  simp only [OutRec.standingOk, Bool.and_eq_true] at h6
  refine ⟨?_, ?_, ?_, ?_, ?_, ?_, h7⟩
  · by_cases he : r.cfg.enable = true <;> simp [OutRec.rested, OutRec.closed, OutRec.gateOpen, he]
  · by_cases he : r.cfg.enable = true <;> simp [OutRec.rested, OutRec.closed, OutState.switching?, he]
  · simp [OutRec.rested, OutRec.closed]
  · simp [OutRec.rested, OutRec.closed]
  · by_cases he : r.cfg.enable = true <;> simp [OutRec.rested, OutRec.closed, OutRec.targetOk, he]
  · simp only [OutRec.standingOk, OutRec.rested, OutRec.closed]
    cases hm : r.cfg.mode with
    | fixed u => simp only [hm, Bool.and_eq_true] at h6; by_cases he : r.cfg.enable = true <;> simp [he, h6.1.1.1]
    | chain k => by_cases he : r.cfg.enable = true <;> simp [he]

theorem core_beginRelease (e : Env) {r : OutRec} (h : r.core) (ho : r.gateOpen = true) (t : Option Use) :
    (beginRelease e r t).core := by
  obtain ⟨a1, a2, a3, a4, a5, a6, a7⟩ := h
  refine ⟨?_, by simp [beginRelease, OutState.switching?], by simp [beginRelease], by simp [beginRelease],
    by simp [beginRelease, OutRec.targetOk], a6, a7⟩
  rw [ho] at a1
  simpa [beginRelease, OutRec.gateOpen] using a1

theorem core_actRunning (e : Env) {r : OutRec} (h : r.core) (hs : r.state = .running) (p : Pick) :
    (actRunning e r p).core ∧ (actRunning e r p).state ≠ .off ∧ (actRunning e r p).state ≠ .parked := by
  have ho : r.gateOpen = true := by simp [OutRec.gateOpen, hs]
  have hb : ∀ t, (beginRelease e r t).core ∧ (beginRelease e r t).state ≠ .off ∧ (beginRelease e r t).state ≠ .parked :=
    fun t => ⟨core_beginRelease e h ho t, by simp [beginRelease], by simp [beginRelease]⟩
  unfold actRunning
  split
  · split
    · obtain ⟨a1, a2, a3, a4, a5, a6, a7⟩ := h
      refine ⟨⟨a1, a2, a3, fun _ => hs, a5, a6, a7⟩, by simp [hs], by simp [hs]⟩
    · exact hb _
  all_goals exact hb _

theorem core_actAcquire (e : Env) {r : OutRec} (h : r.core) (hs : r.state = .switching .acquire) (p : Pick) :
    (actAcquire e r p).core ∧ (actAcquire e r p).state ≠ .off ∧ (actAcquire e r p).state ≠ .parked := by
  obtain ⟨a1, a2, a3, a4, a5, a6, a7⟩ := h
  have hk := core_actClosed e a6 a7
  unfold actAcquire
  split
  · split
    · exact ⟨⟨a1, a2, by simp, a4, by simp [OutRec.targetOk, hs], a6, a7⟩, by simp [hs], by simp [hs]⟩
    · exact ⟨⟨a1, a2, fun _ => hs, a4, a5, a6, a7⟩, by simp [hs], by simp [hs]⟩
  · exact ⟨(hk _).1, (hk _).2.1, (hk _).2.2.1⟩

/-- A release that goes on without a target leaves a record R41 allows (R44). -/
theorem wf_idleRelease (e : Env) (c : Sources) (o : Fin 8) {r : OutRec} (h : r.core) (hs : r.state = .switching .release)
    (hp : ∀ u, r.cfg.mode = .fixed u → r.place = none) : (idleRelease e c o r).wf := by
  obtain ⟨h1, h2, h3, h4, h5, h6, h7⟩ := h
  refine ⟨h1, h2, h3, h4, by simp [OutRec.targetOk, hs], ?_, h6⟩
  cases hm : r.cfg.mode with
  | fixed u => simp [OutRec.standingOk, idleRelease, idleAwaits, hm, hs, h7 u hm, hp u hm]
  | chain k => simp [OutRec.standingOk, idleRelease, hm, hs]

/-- A result that a release holds back leaves the record's standing: at most a reason awaits in CHAIN mode (R75). -/
theorem wf_selectRelease (e : Env) (c : Sources) (o : Fin 8) {r : OutRec} (h : r.wf) (hs : r.state = .switching .release) :
    (selectRelease e c o r).1.wf := by
  have h8 := wf_afterSelect e c o (core_select (e := e) (c := c) (o := o) (OutRec.wf_core h)) (by simp [hs]) (by simp [hs]) r.place
  obtain ⟨h1, h2, h3, h4, h5, h6, h7⟩ := h8
  refine ⟨h1, h2, h3, h4, h5, ?_, h7⟩
  have hst : (afterSelect e c o (select e c o r).out r.place).state = .switching .release := by
    unfold afterSelect; split <;> simp [hs]
  simp only [OutRec.standingOk, Bool.and_eq_true] at h6 ⊢
  refine ⟨⟨?_, h6.1.2⟩, by simp [selectRelease, hst]⟩
  cases hm : (afterSelect e c o (select e c o r).out r.place).cfg.mode with
  | fixed u =>
    simp only [hm, Bool.and_eq_true] at h6
    simp only [Bool.and_eq_true, selectRelease, hm]
    refine ⟨h6.1.1.1, ?_⟩
    rw [cfg_afterSelect, cfg_select] at hm
    simp [nextAwaits, hm]
  | chain k => simp only [hm] at h6; simp only [selectRelease, hm]; exact h6.1.1

/-- Evaluating an output keeps its record one R41 allows. -/
theorem wf_evalOut (e : Env) (c : Sources) (o : Fin 8) {r : OutRec} (h : r.wf) : (evalOut e c o r).1.wf := by
  have hc := OutRec.wf_core h
  have hr := hc.2.2.2.2.2.1
  have hp := hc.2.2.2.2.2.2
  have hclosed : ∀ (was : OutRec) (why : OutReason) (again : Bool), (selectClosed e c o was r why again).1.wf :=
    fun was why again => wf_selectClosed e c o was hr hp why again
  have hclosed' : ∀ (was : OutRec) (why : OutReason) (again : Bool), (selectClosed e c o was r.closed why again).1.wf :=
    fun was why again => wf_selectClosed e c o was (r := r.closed) hr hp why again
  have hshut : ∀ (was : OutRec) (why : OutReason) (again : Bool), (selectClosed e c o was r.shut why again).1.wf :=
    fun was why again => wf_selectClosed e c o was (r := r.shut) hr hp why again
  have hrest : ∀ why, (rest r why).1.wf := fun why => wf_rested h
  have hplace : ∀ u, r.cfg.mode = .fixed u → r.place = none := by
    intro u hm
    have h6 := h.2.2.2.2.2.1
    simp only [OutRec.standingOk, hm, Bool.and_eq_true] at h6
    simpa using h6.1.1.1.1.2
  unfold evalOut
  dsimp only
  by_cases hg : gateLost c r = true
  · rw [if_pos hg]; split_ifs
    · exact hshut _ _ _
    · exact hrest _
  · rw [if_neg hg]; cases hs : r.state with
    | off => dsimp only; split_ifs; exacts [h, hclosed _ _ _, hrest _]
    | parked => dsimp only; split_ifs; exacts [hclosed _ _ _, h, hrest _]
    | waiting => dsimp only; split_ifs; exacts [hclosed _ _ _, hrest _]
    | dark => dsimp only; split_ifs; exacts [hclosed _ _ _, hrest _]
    | running =>
      dsimp only; split_ifs
      · have hk := core_actRunning e (core_select (e := e) (c := c) (o := o) hc) (by simp [hs]) (select e c o r).pick
        exact wf_afterSelect e c o hk.1 hk.2.1 hk.2.2 _
      · exact wf_idleRelease e c o (core_beginRelease e hc (by simp [OutRec.gateOpen, hs]) none) rfl hplace
    | switching ph =>
      cases ph with
      | release =>
        dsimp only; split_ifs
        · exact wf_idleRelease e c o hc hs hplace
        · exact wf_selectRelease e c o h hs
        · have hk := core_select (e := e) (c := c) (o := o) hc
          obtain ⟨b1, b2, b3, b4, b5, b6, b7⟩ := hk
          exact wf_afterSelect e c o (r := { (select e c o r).out with target := pickTarget (select e c o r).pick })
            ⟨b1, b2, b3, b4, by simp [OutRec.targetOk, hs], b6, b7⟩ (by simp [hs]) (by simp [hs]) _
      | acquire =>
        dsimp only; split_ifs
        · exact hrest _
        · have hk := core_actAcquire e (core_select (e := e) (c := c) (o := o) hc) (by simp [hs]) (select e c o r).pick
          exact wf_afterSelect e c o hk.1 hk.2.1 hk.2.2 _
        · exact hclosed' _ _ _

theorem wf_endRelease (e : Env) (c : Sources) (o : Fin 8) {r : OutRec} (h : r.wf) (why : OutReason) :
    (endRelease e c o r why).1.wf := by
  have hc := OutRec.wf_core h
  unfold endRelease; split
  · exact wf_selectClosed e c o _ (r := r.shut) hc.2.2.2.2.2.1 hc.2.2.2.2.2.2 _ _
  · exact wf_rested h

/-! ### The gate law (R54) -/

/-- The gate, if open, is on a source that feeds gates. -/
def OutRec.gateFed (c : Sources) (r : OutRec) : Prop :=
  r.gateOpen = true → ∃ u, r.current = some u ∧ feeds c u.src = true

theorem gateFed_of_not_lost {c : Sources} {r : OutRec} (h : gateLost c r = false) : r.gateFed c := by
  intro ho
  unfold gateLost at h
  rw [ho] at h
  cases hc : r.current with
  | none => simp [hc] at h
  | some u => exact ⟨u, rfl, by simpa [hc] using h⟩

theorem gateFed_closed {c : Sources} {r : OutRec} (h : r.gateOpen = false) : r.gateFed c := by
  intro ho; rw [h] at ho; cases ho

@[simp] theorem gateOpen_afterSelect (e : Env) (c : Sources) (o : Fin 8) (r : OutRec) (p : Option Place) :
    (afterSelect e c o r p).gateOpen = r.gateOpen := by unfold afterSelect; split <;> rfl
@[simp] theorem current_afterSelect (e : Env) (c : Sources) (o : Fin 8) (r : OutRec) (p : Option Place) :
    (afterSelect e c o r p).current = r.current := by unfold afterSelect; split <;> rfl

theorem gateOpen_actClosed (e : Env) (r : OutRec) (p : Pick) : (actClosed e r p).gateOpen = false := by
  cases p <;> rfl

theorem gateFed_selectClosed (e : Env) (c : Sources) (o : Fin 8) (was r : OutRec) (why : OutReason) (again : Bool)
    (k : Sources) : (selectClosed e c o was r why again).1.gateFed k :=
  gateFed_closed (by simp [selectClosed, gateOpen_actClosed])

theorem gateFed_rest (r : OutRec) (why : OutReason) (k : Sources) : (rest r why).1.gateFed k :=
  gateFed_closed (by by_cases he : r.cfg.enable = true <;> simp [rest, OutRec.rested, OutRec.closed, OutRec.gateOpen, he])

theorem current_actRunning (e : Env) (r : OutRec) (p : Pick) : (actRunning e r p).current = r.current := by
  unfold actRunning; split
  · split <;> rfl
  all_goals rfl

/-- After its evaluation an output's gate, if open, is on a source that feeds gates. -/
theorem gateFed_evalOut (e : Env) (c : Sources) (o : Fin 8) (r : OutRec) : (evalOut e c o r).1.gateFed c := by
  have hclosed := fun was x why again => gateFed_selectClosed e c o was x why again c
  have hrest := fun why => gateFed_rest r why c
  unfold evalOut
  dsimp only
  by_cases hg : gateLost c r = true
  · rw [if_pos hg]; split_ifs
    · exact hclosed _ _ _ _
    · exact hrest _
  · rw [if_neg hg]
    have hg' : gateLost c r = false := by simpa using hg
    have hfed := gateFed_of_not_lost hg'
    have keep : ∀ x : OutRec, x.current = r.current → r.gateOpen = true → x.gateFed c := by
      intro x hx ho _
      obtain ⟨u, hu, hf⟩ := hfed ho
      exact ⟨u, hx.trans hu, hf⟩
    cases hs : r.state with
    | off => dsimp only; split_ifs; exacts [hfed, hclosed _ _ _ _, hrest _]
    | parked => dsimp only; split_ifs; exacts [hclosed _ _ _ _, hfed, hrest _]
    | waiting => dsimp only; split_ifs; exacts [hclosed _ _ _ _, hrest _]
    | dark => dsimp only; split_ifs; exacts [hclosed _ _ _ _, hrest _]
    | running =>
      have ho : r.gateOpen = true := by simp [OutRec.gateOpen, hs]
      dsimp only; split_ifs
      · exact keep _ (by simp [selectRunning, current_actRunning]) ho
      · exact keep _ rfl ho
    | switching ph =>
      cases ph with
      | release =>
        have ho : r.gateOpen = true := by simp [OutRec.gateOpen, hs]
        dsimp only; split_ifs
        · exact keep _ rfl ho
        · exact keep _ (by simp [selectRelease]) ho
        · exact keep _ (by simp [retargetRelease]) ho
      | acquire =>
        dsimp only; split_ifs
        · exact hrest _
        · apply gateFed_closed
          simp only [selectAcquire, gateOpen_afterSelect]
          unfold actAcquire; split
          · split <;> simp [OutRec.gateOpen, hs]
          · exact gateOpen_actClosed _ _ _
        · exact hclosed _ _ _ _

end Sys2Proof.Machine
end

