-- ==== Sys2Proof/Laws/Engine.lean ====
section
/-! SUPPORT. Laws/Engine.lean: what an event's course can do (`Ev.Calm`): configurations, budgets, fault kinds, RCO and the surveys'
records stay; a source that is not stuck stays, stops or starts; every output record stays one R41 allows; and at its end
the gate law holds and every output stands as its wanted-ness has it. -/

namespace Sys2Proof.Machine

/-! ### Reading what was written -/

theorem Ev.get_putOut (v : Ev) (o x : Fin 8) (m : Moved) :
    (v.putOut o m).clk.outs.get x = if x = o then m.1 else v.clk.outs.get x := by
  simp [Ev.putOut, Bank8.get_set]
theorem Ev.osc_putOsc (v : Ev) (o x : Osc) (r : OscRec) : (v.putOsc o r).osc x = if x = o then r else v.osc x := by
  simp [Ev.putOsc, Ev.osc, BankOsc.get_set]
theorem Ev.osc_changeOsc (v : Ev) (o x : Osc) (r : OscRec) : (v.changeOsc o r).osc x = if x = o then r else v.osc x :=
  Ev.osc_putOsc v o x r
@[simp] theorem Ev.osc_clearCounts (v : Ev) (o x : Osc) : (v.clearCounts o).osc x = v.osc x := rfl
@[simp] theorem Ev.osc_putOut (v : Ev) (o : Fin 8) (m : Moved) (x : Osc) : (v.putOut o m).osc x = v.osc x := rfl
@[simp] theorem Ev.src_putOut (v : Ev) (o : Fin 8) (m : Moved) : (v.putOut o m).clk.src = v.clk.src := rfl
@[simp] theorem Ev.mon_putOut (v : Ev) (o : Fin 8) (m : Moved) : (v.putOut o m).clk.mon = v.clk.mon := rfl
@[simp] theorem Ev.srcNotes_putOut (v : Ev) (o : Fin 8) (m : Moved) : (v.putOut o m).srcNotes = v.srcNotes := rfl
@[simp] theorem Ev.outs_putOsc (v : Ev) (o : Osc) (r : OscRec) : (v.putOsc o r).clk.outs = v.clk.outs := rfl
@[simp] theorem Ev.outs_changeOsc (v : Ev) (o : Osc) (r : OscRec) : (v.changeOsc o r).clk.outs = v.clk.outs := rfl
@[simp] theorem Ev.outs_clearCounts (v : Ev) (o : Osc) : (v.clearCounts o).clk.outs = v.clk.outs := rfl

theorem sourceNote_laidOut (code before after budget : Nat) (k : Option FaultKind) :
    (sourceNote code before after budget k).laidOut := rfl

/-! ### Sources in an event -/

/-- What an event's course makes of a source record: a stuck source stays as it is; another stays in its state, stops, or
starts; a kept one does not stop. -/
def OscRec.Calm (a b : OscRec) : Prop :=
  (b.cfg = a.cfg ∧ b.budget = a.budget ∧ b.fault = a.fault)
  ∧ ((a.state = .faulted ∨ a.state = .quarantined ∨ a.state = .lockedOut) → b = a)
  ∧ (b.state = a.state ∨ b.state = .off ∨ b.state = .starting)
  ∧ (a.cfg.keep = true → a.state ≠ .off → b.state = a.state)
  ∧ (b.state = a.state → a.state ≠ .starting → a.state ≠ .off → b = a)

theorem OscRec.Calm.refl (a : OscRec) : OscRec.Calm a a := by
  refine ⟨⟨rfl, rfl, rfl⟩, fun _ => rfl, Or.inl rfl, fun _ _ => rfl, fun _ _ _ => rfl⟩

theorem OscRec.Calm.trans {a b c : OscRec} (h : a.Calm b) (g : b.Calm c) : a.Calm c := by
  obtain ⟨⟨h1, h2, h3⟩, h4, h5, h6, h7⟩ := h
  obtain ⟨⟨g1, g2, g3⟩, g4, g5, g6, g7⟩ := g
  refine ⟨⟨g1.trans h1, g2.trans h2, g3.trans h3⟩, ?_, ?_, ?_, ?_⟩
  · intro hs; have hb := h4 hs; subst hb; exact g4 hs
  · rcases g5 with g5 | g5 | g5
    · rw [g5]; exact h5
    · exact Or.inr (Or.inl g5)
    · exact Or.inr (Or.inr g5)
  · intro hk hs
    have hb := h6 hk hs
    rw [← hb]; exact g6 (by rw [h1]; exact hk) (by rw [hb]; exact hs)
  · intro hc h8 h9
    have hb : b.state = a.state := by
      rcases h5 with h5 | h5 | h5
      · exact h5
      · rcases g5 with g5 | g5 | g5
        · exact absurd (hc.symm.trans (g5.trans h5)) h9
        · exact absurd (hc.symm.trans g5) h9
        · exact absurd (hc.symm.trans g5) h8
      · rcases g5 with g5 | g5 | g5
        · exact absurd (hc.symm.trans (g5.trans h5)) h8
        · exact absurd (hc.symm.trans g5) h9
        · exact absurd (hc.symm.trans g5) h8
    have e1 := h7 hb h8 h9
    subst e1
    exact g7 hc h8 h9

/-- A stopped or started record is one section 1.2 allows. -/
theorem OscRec.wf_started (o : Osc) {r : OscRec} (tick : Tick) (h : r.budget ≤ r.cfg.retryCount) :
    OscRec.wf o (r.started o tick) := by
  refine ⟨by simp [OscRec.started], ?_, by simp [OscRec.started], h, by simp [OscRec.started]⟩
  cases o <;> simp [OscRec.started, timerOk]

theorem OscRec.wf_stopped (o : Osc) {r : OscRec} (h : r.budget ≤ r.cfg.retryCount) : OscRec.wf o r.stopped := by
  refine ⟨by simp [OscRec.stopped], by simp [OscRec.stopped, timerOk], by simp [OscRec.stopped], h, by simp [OscRec.stopped]⟩

/-! ### The course of an event -/

/-- From `v` to `w` an event has run a part of its course. -/
structure Ev.Calm (v w : Ev) : Prop where
  outCfg : ∀ o, (w.clk.outs.get o).cfg = (v.clk.outs.get o).cfg
  refused : ∀ o, (w.clk.outs.get o).refused = (v.clk.outs.get o).refused
  syn : w.clk.src.syn = v.clk.src.syn
  rco : w.clk.src.rco = v.clk.src.rco
  settings : w.clk.mon.settings = v.clk.mon.settings
  monRco : w.clk.mon.rco = v.clk.mon.rco
  survey : w.clk.mon.surveyNumber = v.clk.mon.surveyNumber ∧ w.clk.mon.surveyStart = v.clk.mon.surveyStart
  mon : ∀ o, (w.clk.mon.osc.get o).last = (v.clk.mon.osc.get o).last
    ∧ (w.clk.mon.osc.get o).lastResult = (v.clk.mon.osc.get o).lastResult
    ∧ (w.clk.mon.osc.get o).edges = (v.clk.mon.osc.get o).edges
    ∧ (w.clk.mon.osc.get o).expected = (v.clk.mon.osc.get o).expected
  osc : ∀ o, (v.osc o).Calm (w.osc o)
  notes : (∀ p ∈ v.srcNotes, p.laidOut) → ∀ p ∈ w.srcNotes, p.laidOut
  outsOk : outputsOk v.clk → outputsOk w.clk
  closed : ∀ o, (v.clk.outs.get o).gateOpen = false → (v.clk.outs.get o).current = none →
    (w.clk.outs.get o).gateOpen = false ∧ (w.clk.outs.get o).current = none
  srcOk : sourcesOk v.clk → sourcesOk w.clk

theorem Ev.Calm.refl (v : Ev) : v.Calm v :=
  ⟨fun _ => rfl, fun _ => rfl, rfl, rfl, rfl, rfl, ⟨rfl, rfl⟩, fun _ => ⟨rfl, rfl, rfl, rfl⟩, fun _ => OscRec.Calm.refl _,
   id, id, fun _ h1 h2 => ⟨h1, h2⟩, id⟩

theorem Ev.Calm.trans {u v w : Ev} (h : u.Calm v) (g : v.Calm w) : u.Calm w where
  outCfg o := (g.outCfg o).trans (h.outCfg o)
  refused o := (g.refused o).trans (h.refused o)
  syn := g.syn.trans h.syn
  rco := g.rco.trans h.rco
  settings := g.settings.trans h.settings
  monRco := g.monRco.trans h.monRco
  survey := ⟨g.survey.1.trans h.survey.1, g.survey.2.trans h.survey.2⟩
  mon o := ⟨(g.mon o).1.trans (h.mon o).1, (g.mon o).2.1.trans (h.mon o).2.1, (g.mon o).2.2.1.trans (h.mon o).2.2.1,
    (g.mon o).2.2.2.trans (h.mon o).2.2.2⟩
  osc o := (h.osc o).trans (g.osc o)
  notes := g.notes ∘ h.notes
  outsOk := g.outsOk ∘ h.outsOk
  closed o h1 h2 := g.closed o (h.closed o h1 h2).1 (h.closed o h1 h2).2
  srcOk := g.srcOk ∘ h.srcOk

theorem Ev.Calm.foldl {α : Type} {f : Ev → α → Ev} (h : ∀ (v : Ev) (a : α), v.Calm (f v a)) (l : List α) (v : Ev) :
    v.Calm (l.foldl f v) := by
  induction l generalizing v with
  | nil => exact Ev.Calm.refl v
  | cons a as ih => exact (h v a).trans (ih _)

/-! ### Outputs -/

@[simp] theorem refused_afterSelect (e : Env) (c : Sources) (o : Fin 8) (r : OutRec) (p : Option Place) :
    (afterSelect e c o r p).refused = r.refused := by unfold afterSelect; split <;> rfl
@[simp] theorem refused_actClosed (e : Env) (r : OutRec) (p : Pick) : (actClosed e r p).refused = r.refused := by
  cases p <;> rfl
@[simp] theorem refused_actRunning (e : Env) (r : OutRec) (p : Pick) : (actRunning e r p).refused = r.refused := by
  unfold actRunning; split
  · split <;> rfl
  all_goals rfl
@[simp] theorem refused_actAcquire (e : Env) (r : OutRec) (p : Pick) : (actAcquire e r p).refused = r.refused := by
  unfold actAcquire; split
  · split <;> rfl
  · simp
@[simp] theorem refused_selectClosed (e : Env) (c : Sources) (o : Fin 8) (was r : OutRec) (why : OutReason) (again : Bool) :
    (selectClosed e c o was r why again).1.refused = r.refused := by simp [selectClosed]

@[simp] theorem refused_evalOut (e : Env) (c : Sources) (o : Fin 8) (r : OutRec) : (evalOut e c o r).1.refused = r.refused := by
  unfold evalOut
  dsimp only
  split_ifs <;> (try split) <;>
    simp [rest, OutRec.rested, OutRec.closed, selectRunning, selectAcquire, selectRelease, retargetRelease, beginRelease]

@[simp] theorem current_actClosed (e : Env) (r : OutRec) (p : Pick) : (actClosed e r p).current = none := by cases p <;> rfl
@[simp] theorem current_selectClosed (e : Env) (c : Sources) (o : Fin 8) (was r : OutRec) (why : OutReason) (again : Bool) :
    (selectClosed e c o was r why again).1.current = none := by simp [selectClosed]
theorem gateOpen_selectClosed (e : Env) (c : Sources) (o : Fin 8) (was r : OutRec) (why : OutReason) (again : Bool) :
    (selectClosed e c o was r why again).1.gateOpen = false := by simp [selectClosed, gateOpen_actClosed]
theorem gateOpen_rested (r : OutRec) : r.rested.gateOpen = false := by
  by_cases he : r.cfg.enable = true <;> simp [OutRec.rested, OutRec.closed, OutRec.gateOpen, he]

/-- A closed gate stays closed through an evaluation. -/
theorem closed_evalOut (e : Env) (c : Sources) (o : Fin 8) {r : OutRec} (h : r.gateOpen = false) (hc : r.current = none) :
    (evalOut e c o r).1.gateOpen = false ∧ (evalOut e c o r).1.current = none := by
  have hs := fun was x why again =>
    And.intro (gateOpen_selectClosed e c o was x why again) (current_selectClosed e c o was x why again)
  have hr : ∀ why, (rest r why).1.gateOpen = false ∧ (rest r why).1.current = none :=
    fun why => ⟨gateOpen_rested r, rfl⟩
  have hg : gateLost c r = false := by simp [gateLost, h]
  unfold evalOut
  dsimp only
  rw [hg, if_neg (by simp)]
  cases hst : r.state with
  | off => dsimp only; split_ifs; exacts [⟨h, hc⟩, hs _ _ _ _, hr _]
  | parked => dsimp only; split_ifs; exacts [hs _ _ _ _, ⟨h, hc⟩, hr _]
  | waiting => dsimp only; split_ifs; exacts [hs _ _ _ _, hr _]
  | dark => dsimp only; split_ifs; exacts [hs _ _ _ _, hr _]
  | running => simp [OutRec.gateOpen, hst] at h
  | switching ph =>
    cases ph with
    | release => simp [OutRec.gateOpen, hst] at h
    | acquire =>
      dsimp only; split_ifs
      · exact hr _
      · simp only [selectAcquire, gateOpen_afterSelect, current_afterSelect]
        unfold actAcquire; split
        · split <;> simp [OutRec.gateOpen, hst, hc]
        · exact ⟨gateOpen_actClosed _ _ _, current_actClosed _ _ _⟩
      · exact hs _ _ _ _

/-- The state a result acted on with a closed gate gives. -/
theorem state_actClosed (e : Env) (r : OutRec) (p : Pick) :
    (actClosed e r p).state = .switching .acquire ∨ (actClosed e r p).state = .waiting ∨ (actClosed e r p).state = .dark := by
  cases p <;> simp [actClosed]

@[simp] theorem state_afterSelect (e : Env) (c : Sources) (o : Fin 8) (r : OutRec) (p : Option Place) :
    (afterSelect e c o r p).state = r.state := by unfold afterSelect; split <;> rfl

theorem state_actRunning (e : Env) {r : OutRec} (h : r.state = .running) (p : Pick) :
    (actRunning e r p).state = .running ∨ (actRunning e r p).state = .switching .release := by
  unfold actRunning; split
  · split
    · exact Or.inl h
    · exact Or.inr rfl
  all_goals exact Or.inr rfl

theorem state_actAcquire (e : Env) {r : OutRec} (h : r.state = .switching .acquire) (p : Pick) :
    (actAcquire e r p).state = .switching .acquire ∨ (actAcquire e r p).state = .waiting
      ∨ (actAcquire e r p).state = .dark := by
  unfold actAcquire; split
  · split <;> exact Or.inl h
  · exact state_actClosed _ _ _

theorem stands_selectClosed (e : Env) (c : Sources) (o : Fin 8) (was r : OutRec) (why : OutReason) (again : Bool) :
    (selectClosed e c o was r why again).1.standsAs true = true := by
  have h := state_actClosed e (select e c o r).out (select e c o r).pick
  have hs : (selectClosed e c o was r why again).1.state = (actClosed e (select e c o r).out (select e c o r).pick).state := by
    simp [selectClosed]
  unfold OutRec.standsAs
  rw [hs]
  rcases h with h | h | h <;> rw [h]

theorem stands_rested (r : OutRec) : r.rested.standsAs false = true := by
  by_cases he : r.cfg.enable = true <;> simp [OutRec.rested, OutRec.closed, OutRec.standsAs, he]

/-- After its evaluation an output stands as its wanted-ness has it, whatever it stood as before (R44). -/
theorem stands_evalOut (e : Env) (c : Sources) (o : Fin 8) (r : OutRec) :
    (evalOut e c o r).1.standsAs (wanted e.profile e.claims o r.cfg) = true := by
  have hs := fun was x why again => stands_selectClosed e c o was x why again
  have hr : ∀ why, (rest r why).1.standsAs false = true := fun why => stands_rested r
  unfold evalOut
  dsimp only
  cases hw : wanted e.profile e.claims o r.cfg with
  | true =>
    have hen : r.cfg.enable = true := by
      unfold wanted at hw; simp only [Bool.and_eq_true] at hw; exact hw.1
    by_cases hg : gateLost c r = true
    · rw [if_pos hg]; exact hs _ _ _ _
    · rw [if_neg hg]
      cases hst : r.state with
      | off => simp only [hen, Bool.not_true, Bool.false_eq_true, if_false, if_true]; exact hs _ _ _ _
      | parked => exact hs _ _ _ _
      | waiting => exact hs _ _ _ _
      | dark => exact hs _ _ _ _
      | running =>
        show (selectRunning e c o r).1.standsAs true = true
        have h := state_actRunning e (r := (select e c o r).out) (by rw [state_select]; exact hst) (select e c o r).pick
        have h2 : (selectRunning e c o r).1.state = (actRunning e (select e c o r).out (select e c o r).pick).state := by
          simp [selectRunning]
        unfold OutRec.standsAs; rw [h2]
        rcases h with h | h <;> rw [h]
      | switching ph =>
        cases ph with
        | release =>
          simp only [Bool.not_true, Bool.false_eq_true, if_false]
          split_ifs <;> simp [selectRelease, retargetRelease, OutRec.standsAs, hst]
        | acquire =>
          simp only [Bool.not_true, Bool.false_eq_true, if_false]
          split_ifs
          · have h := state_actAcquire e (r := (select e c o r).out) (by rw [state_select]; exact hst) (select e c o r).pick
            have h2 : (selectAcquire e c o r).1.state = (actAcquire e (select e c o r).out (select e c o r).pick).state := by
              simp [selectAcquire]
            unfold OutRec.standsAs; rw [h2]
            rcases h with h | h | h <;> rw [h]
          · exact hs _ _ _ _
  | false =>
    by_cases hg : gateLost c r = true
    · rw [if_pos hg]; exact hr _
    · rw [if_neg hg]
      cases hst : r.state with
      | off =>
        simp only [Bool.false_eq_true, if_false]
        split_ifs with hen
        · simpa [OutRec.standsAs, hst] using hen
        · exact hr _
      | parked =>
        simp only [Bool.false_eq_true, if_false]
        split_ifs with hen
        · simp [OutRec.standsAs, hst, hen]
        · exact hr _
      | waiting => exact hr _
      | dark => exact hr _
      | running => simp [beginRelease, OutRec.standsAs]
      | switching ph =>
        cases ph with
        | release => simp [OutRec.standsAs, hst]
        | acquire => exact hr _

theorem calm_evalOne (e : Env) (v : Ev) (o : Fin 8) : v.Calm (v.evalOne e o) where
  outCfg x := by unfold Ev.evalOne; rw [Ev.get_putOut]; split <;> simp_all
  refused x := by unfold Ev.evalOne; rw [Ev.get_putOut]; split <;> simp_all
  syn := rfl
  rco := rfl
  settings := rfl
  monRco := rfl
  survey := ⟨rfl, rfl⟩
  mon _ := ⟨rfl, rfl, rfl, rfl⟩
  osc _ := OscRec.Calm.refl _
  notes := id
  outsOk h x := by
    unfold Ev.evalOne; rw [Ev.get_putOut]; split
    · exact wf_evalOut e _ o (h o)
    · exact h x
  closed x h1 h2 := by
    unfold Ev.evalOne; rw [Ev.get_putOut]; split
    · rename_i hx; subst hx; exact closed_evalOut e _ _ h1 h2
    · exact ⟨h1, h2⟩
  srcOk := id

theorem calm_outputsPass (e : Env) (v : Ev) : v.Calm (outputsPass e v) := Ev.Calm.foldl (fun v o => calm_evalOne e v o) _ v

/-- An output's evaluation leaves the sources and the other outputs alone. -/
theorem evalOnes_get (e : Env) (l : List (Fin 8)) (hl : l.Nodup) (v : Ev) (x : Fin 8) :
    (l.foldl (Ev.evalOne e) v).clk.src = v.clk.src
    ∧ (l.foldl (Ev.evalOne e) v).clk.outs.get x =
        if x ∈ l then (evalOut e v.clk.src x (v.clk.outs.get x)).1 else v.clk.outs.get x := by
  induction l generalizing v with
  | nil => simp
  | cons o os ih =>
    have hn := List.nodup_cons.1 hl
    obtain ⟨h1, h2⟩ := ih hn.2 (v.evalOne e o)
    refine ⟨h1, ?_⟩
    rw [List.foldl_cons, h2]
    have hsrc : (v.evalOne e o).clk.src = v.clk.src := rfl
    have hget : (v.evalOne e o).clk.outs.get x = if x = o then (evalOut e v.clk.src o (v.clk.outs.get o)).1 else v.clk.outs.get x := by
      unfold Ev.evalOne; rw [Ev.get_putOut]
    rw [hsrc, hget]
    by_cases hx : x = o
    · subst hx; simp [hn.1]
    · simp [hx]

theorem outputsPass_get (e : Env) (v : Ev) (x : Fin 8) :
    (outputsPass e v).clk.src = v.clk.src
    ∧ (outputsPass e v).clk.outs.get x = (evalOut e v.clk.src x (v.clk.outs.get x)).1 := by
  have h := evalOnes_get e eight (by decide) v x
  rw [if_pos (mem_eight x)] at h
  exact h

/-- What the outputs satisfy after each of them has been evaluated against the sources `c`. -/
def Ev.Settled (e : Env) (c : Sources) (v : Ev) : Prop :=
  ∀ o, (v.clk.outs.get o).gateFed c
    ∧ (v.clk.outs.get o).standsAs (wanted e.profile e.claims o (v.clk.outs.get o).cfg) = true

theorem settled_outputsPass (e : Env) (v : Ev) : (outputsPass e v).Settled e (outputsPass e v).clk.src := by
  intro o
  have h := outputsPass_get e v o
  rw [h.1, h.2]
  refine ⟨gateFed_evalOut e _ o _, ?_⟩
  rw [cfg_evalOut]; exact stands_evalOut e _ o _

/-! ### Demand -/

theorem calm_putOsc {v : Ev} {o : Osc} {r : OscRec} (h : (v.osc o).Calm r) (hw : OscRec.wf o (v.osc o) → OscRec.wf o r) :
    v.Calm (v.putOsc o r) where
  outCfg _ := rfl
  refused _ := rfl
  syn := rfl
  rco := rfl
  settings := rfl
  monRco := rfl
  survey := ⟨rfl, rfl⟩
  mon _ := ⟨rfl, rfl, rfl, rfl⟩
  osc x := by
    rw [Ev.osc_putOsc]; split
    · rename_i hx; subst hx; exact h
    · exact OscRec.Calm.refl _
  notes := id
  outsOk := id
  closed _ h1 h2 := ⟨h1, h2⟩
  srcOk hs := by
    refine ⟨fun x => ?_, hs.2⟩
    show OscRec.wf x ((v.putOsc o r).osc x)
    rw [Ev.osc_putOsc]; split
    · rename_i hx; subst hx; exact hw (hs.1 x)
    · exact hs.1 x

theorem calm_changeOsc {v : Ev} {o : Osc} {r : OscRec} (h : (v.osc o).Calm r) (hw : OscRec.wf o (v.osc o) → OscRec.wf o r) :
    v.Calm (v.changeOsc o r) :=
  { calm_putOsc h hw with
    notes := by
      intro hn p hp
      simp only [Ev.changeOsc, List.mem_append, List.mem_singleton] at hp
      rcases hp with hp | hp
      · exact hn p hp
      · subst hp; exact sourceNote_laidOut _ _ _ _ _ }

theorem calm_clearCounts (v : Ev) (o : Osc) : v.Calm (v.clearCounts o) where
  outCfg _ := rfl
  refused _ := rfl
  syn := rfl
  rco := rfl
  settings := rfl
  monRco := rfl
  survey := ⟨rfl, rfl⟩
  mon x := by
    simp only [Ev.clearCounts, Ev.putMon, BankOsc.get_set]; split
    · rename_i hx; subst hx; exact ⟨rfl, rfl, rfl, rfl⟩
    · exact ⟨rfl, rfl, rfl, rfl⟩
  osc _ := OscRec.Calm.refl _
  notes := id
  outsOk := id
  closed _ h1 h2 := ⟨h1, h2⟩
  srcOk := id

/-- OFF to STARTING is a calm move (R4). -/
theorem calm_enterStarting (e : Env) {o : Osc} {v : Ev} (h : (v.osc o).state = .off) : v.Calm (enterStarting e o v) := by
  refine Ev.Calm.trans (calm_changeOsc ?_ ?_) (calm_clearCounts _ o)
  · refine ⟨⟨rfl, rfl, rfl⟩, ?_, Or.inr (Or.inr rfl), fun _ h2 => absurd h h2, fun _ _ h2 => absurd h h2⟩
    intro h2; rw [h] at h2; simp at h2
  · intro hw; exact OscRec.wf_started o e.tick hw.2.2.2.1

/-- A running source that nothing demands goes OFF (R4). -/
theorem calm_enterOff {o : Osc} {v : Ev} (h : mustStop false (v.osc o).state = true) (hk : (v.osc o).cfg.keep = false) :
    v.Calm (enterOff o v) := by
  refine Ev.Calm.trans (calm_changeOsc ?_ ?_) (calm_clearCounts _ o)
  · refine ⟨⟨rfl, rfl, rfl⟩, ?_, Or.inr (Or.inl rfl), fun h2 => ?_, ?_⟩
    · rintro (h2 | h2 | h2) <;> simp [mustStop, h2] at h
    · rw [hk] at h2; cases h2
    · intro h2 _ h4; exact absurd h2.symm h4
  · intro hw; exact OscRec.wf_stopped o hw.2.2.2.1

theorem calm_applyDemand (e : Env) (want : BankOsc Bool) (o : Osc) {v : Ev}
    (hk : (v.osc o).cfg.keep = true → want.get o = true) : v.Calm (applyDemand e want v o) := by
  unfold applyDemand
  split_ifs with h1 h2
  · simp only [Bool.and_eq_true, decide_eq_true_eq] at h1
    exact calm_enterStarting e h1.2
  · have hw : want.get o = false := by
      cases hwo : want.get o with
      | false => rfl
      | true => simp [hwo, mustStop] at h2
    rw [hw] at h2
    apply calm_enterOff h2
    cases hkk : (v.osc o).cfg.keep with
    | false => rfl
    | true => rw [hk hkk] at hw; cases hw
  · exact Ev.Calm.refl v

theorem calm_applyDemands (e : Env) (want : BankOsc Bool) (l : List Osc) {v : Ev}
    (hk : ∀ o, (v.osc o).cfg.keep = true → want.get o = true) : v.Calm (l.foldl (applyDemand e want) v) := by
  induction l generalizing v with
  | nil => exact Ev.Calm.refl v
  | cons o os ih =>
    have h1 := calm_applyDemand e want o (hk o)
    refine h1.trans (ih ?_)
    intro x hx
    rw [(h1.osc x).1.1] at hx; exact hk x hx

theorem calm_lockCheck (e : Env) (v : Ev) : v.Calm (lockCheck e v) := by
  unfold lockCheck
  dsimp only
  split_ifs with h
  · simp only [Bool.and_eq_true, decide_eq_true_eq] at h
    apply calm_putOsc
    · refine ⟨⟨rfl, rfl, rfl⟩, ?_, Or.inl rfl, fun _ _ => rfl, fun _ h2 => absurd h.1.1 h2⟩
      intro h2; rw [h.1.1] at h2; simp at h2
    · rintro ⟨a1, a2, a3, a4, a5⟩
      refine ⟨a1, ?_, a3, a4, a5⟩
      simp [timerOk, h.1.1]
  · exact Ev.Calm.refl v

theorem demands_keep (e : Env) (v : Ev) (o : Osc) (h : (v.osc o).cfg.keep = true) : (demands e v.clk).get o = true := by
  have : (v.clk.src.osc.get o).cfg.keep = true := h
  simp [demands, demanded, demandedDirectly, this]

theorem calm_demandPass (e : Env) (v : Ev) : v.Calm (demandPass e v) := by
  unfold demandPass
  exact (calm_applyDemands e _ _ (fun o => demands_keep e v o)).trans (calm_lockCheck e _)

theorem calm_settleRounds (e : Env) (n : Nat) (v : Ev) : v.Calm (settleRounds e n v) := by
  induction n generalizing v with
  | zero => exact calm_outputsPass e v
  | succ n ih =>
    unfold settleRounds
    dsimp only
    split_ifs
    · exact ((calm_outputsPass e v).trans (calm_demandPass e _)).trans (ih _)
    · exact (calm_outputsPass e v).trans (calm_demandPass e _)

/-- An event's course is calm. -/
theorem calm_settle (e : Env) (v : Ev) : v.Calm (settle e v) := calm_settleRounds e 8 v

/-! ### The end of an event's course -/

theorem outs_applyDemand (e : Env) (want : BankOsc Bool) (v : Ev) (o : Osc) : (applyDemand e want v o).clk.outs = v.clk.outs := by
  unfold applyDemand; split_ifs <;> simp [enterStarting, enterOff]
theorem outs_applyDemands (e : Env) (want : BankOsc Bool) (l : List Osc) (v : Ev) :
    (l.foldl (applyDemand e want) v).clk.outs = v.clk.outs := by
  induction l generalizing v with
  | nil => rfl
  | cons o os ih => rw [List.foldl_cons, ih, outs_applyDemand]
theorem outs_lockCheck (e : Env) (v : Ev) : (lockCheck e v).clk.outs = v.clk.outs := by
  unfold lockCheck; dsimp only; split_ifs <;> rfl
theorem outs_demandPass (e : Env) (v : Ev) : (demandPass e v).clk.outs = v.clk.outs := by
  unfold demandPass; rw [outs_lockCheck, outs_applyDemands]

theorem feeds_osc {v : Ev} {x : Osc} {s : OscState} (h : (v.osc x).state = s) :
    feeds v.clk.src (.osc x) = (decide (s = .running) || decide (s = .suspect)) := by
  have h2 : (v.clk.src.osc.get x).state = s := h
  unfold feeds; dsimp only; rw [h2]; cases s <;> rfl

/-- Without a source to stop, demand takes no source out of RUNNING and SUSPECT. -/
theorem feeds_applyDemands (e : Env) (want : BankOsc Bool) (l : List Osc) {v : Ev}
    (h : ∀ o, mustStop (want.get o) (v.osc o).state = false) (s : Src) :
    feeds (l.foldl (applyDemand e want) v).clk.src s = feeds v.clk.src s := by
  induction l generalizing v with
  | nil => rfl
  | cons o os ih =>
    rw [List.foldl_cons]
    have hd : applyDemand e want v o = v ∨ ((v.osc o).state = .off ∧ want.get o = true ∧ applyDemand e want v o = enterStarting e o v) := by
      unfold applyDemand
      split_ifs with h1 h2
      · simp only [Bool.and_eq_true, decide_eq_true_eq] at h1
        exact Or.inr ⟨h1.2, h1.1, rfl⟩
      · rw [h o] at h2; cases h2
      · exact Or.inl rfl
    rcases hd with hd | ⟨h1, h2, hd⟩
    · rw [hd]; exact ih h
    · rw [hd, ih]
      · cases s with
        | rco => rfl
        | osc x =>
          have hx : ((enterStarting e o v).osc x) = if x = o then (v.osc o).started o e.tick else v.osc x := by
            unfold enterStarting; rw [Ev.osc_clearCounts, Ev.osc_changeOsc]
          by_cases hxo : x = o
          · subst hxo
            rw [if_pos rfl] at hx
            rw [feeds_osc (s := (v.osc x).state) rfl, feeds_osc (s := .starting) (by rw [hx]; rfl), h1]
            rfl
          · rw [if_neg hxo] at hx
            rw [feeds_osc (s := (v.osc x).state) rfl, feeds_osc (s := (v.osc x).state) (by rw [hx])]
      · intro x
        unfold enterStarting
        rw [Ev.osc_clearCounts, Ev.osc_changeOsc]
        split
        · rename_i hx; subst hx; rw [h2]; rfl
        · exact h x

theorem feeds_lockCheck (e : Env) (v : Ev) (s : Src) : feeds (lockCheck e v).clk.src s = feeds v.clk.src s := by
  unfold lockCheck; dsimp only
  split_ifs
  · cases s with
    | rco => rfl
    | osc x =>
      rw [feeds_osc (s := (v.osc x).state) rfl, feeds_osc (s := (v.osc x).state) ?_]
      rw [Ev.osc_putOsc]; split
      · rename_i hx; subst hx; rfl
      · rfl
  · rfl

theorem settled_settleRounds (e : Env) (n : Nat) (v : Ev) : (settleRounds e n v).Settled e (settleRounds e n v).clk.src := by
  induction n generalizing v with
  | zero => exact settled_outputsPass e v
  | succ n ih =>
    unfold settleRounds
    dsimp only
    split_ifs with hs
    · exact ih _
    · have h := settled_outputsPass e v
      set w := outputsPass e v
      have hn : ∀ o, mustStop ((demands e w.clk).get o) (w.osc o).state = false := by
        intro o
        by_contra hc
        apply hs
        unfold someStop
        rw [List.any_eq_true]
        exact ⟨o, mem_oscs o, by simpa using hc⟩
      have hf : ∀ s, feeds (demandPass e w).clk.src s = feeds w.clk.src s := by
        intro s; unfold demandPass; rw [feeds_lockCheck, feeds_applyDemands e _ _ hn]
      intro o
      rw [outs_demandPass]
      refine ⟨?_, (h o).2⟩
      intro ho
      obtain ⟨u, hu, hfu⟩ := (h o).1 ho
      exact ⟨u, hu, by rw [hf]; exact hfu⟩

theorem settled_settle (e : Env) (v : Ev) : (settle e v).Settled e (settle e v).clk.src := settled_settleRounds e 8 v

/-! ### Events over the whole state -/

theorem clk_runEvent (cause : Cause) (s0 s : State) (f : Env → Ev → Ev) :
    (runEvent cause s0 s f).clk = (settle (envOf cause s0 s) (f (envOf cause s0 s) ⟨s.clk, [], []⟩)).clk := by
  unfold runEvent; rw [State.clk_postAll]

/-- At the end of an event the gate law holds. -/
theorem gateLaw_runEvent (cause : Cause) (s0 s : State) (f : Env → Ev → Ev) : gateLaw (runEvent cause s0 s f).clk := by
  intro o ho
  rw [clk_runEvent] at ho ⊢
  exact (settled_settle _ _ o).1 ho

/-- At the end of an event every output stands as its wanted-ness has it. -/
theorem outputsStand_runEvent (cause : Cause) (s0 s : State) (f : Env → Ev → Ev) :
    outputsStand (runEvent cause s0 s f) := by
  intro o
  have h := (settled_settle (envOf cause s0 s) (f (envOf cause s0 s) ⟨s.clk, [], []⟩) o).2
  unfold State.out State.wants State.active
  rw [clk_runEvent, claims_runEvent, profiles_runEvent, stack_runEvent]
  exact h

theorem gateLaw_reevaluate (cause : Cause) (s0 s : State) : gateLaw (reevaluate cause s0 s).clk := gateLaw_runEvent _ _ _ _
theorem outputsStand_reevaluate (cause : Cause) (s0 s : State) : outputsStand (reevaluate cause s0 s) :=
  outputsStand_runEvent _ _ _ _

/-- An evaluation from `s` is calm. -/
theorem calm_reevaluate (cause : Cause) (s0 s : State) :
    Ev.Calm ⟨s.clk, [], []⟩ ⟨(reevaluate cause s0 s).clk, [], []⟩ := by
  unfold reevaluate
  rw [clk_runEvent]
  have h := calm_settle (envOf cause s0 s) ⟨s.clk, [], []⟩
  exact { h with notes := fun h2 => h2 }

end Sys2Proof.Machine
end

