-- ==== Sys2Proof/Laws/Selection.lean ====
section
/-! SUPPORT. Laws/Selection.lean: a chain that is asked again gives the result it gave (R68, R71), as long as the output's anchor is the
one of the first time or the place that the first result has put the output in. -/

namespace Sys2Proof.Machine

/-! ### The numbered entries of a chain -/

theorem mem_numbered {ch : ChainRec} {i : Fin 4} {u : Use} (h : (i, u) ∈ ch.numbered) : ch.entry i = some u := by
  unfold ChainRec.numbered at h
  unfold ChainRec.entry
  obtain ⟨n, hn, hx⟩ := List.mem_iff_getElem.1 h
  simp only [List.getElem_zip, Prod.mk.injEq] at hx
  simp only [List.length_zip, List.length_cons, List.length_nil] at hn
  have hv : i.val = n := by
    rw [← hx.1]
    have : n < 4 := by omega
    interval_cases n <;> rfl
  rw [hv, ← hx.2]
  exact List.getElem?_eq_getElem _

theorem numbered_of_entry {ch : ChainRec} {i : Fin 4} {u : Use} (h : ch.entry i = some u) : (i, u) ∈ ch.numbered := by
  unfold ChainRec.entry at h
  obtain ⟨hlt, hu⟩ := List.getElem?_eq_some_iff.1 h
  have h4 : i.val < ([0, 1, 2, 3] : List (Fin 4)).length := i.isLt
  apply List.mem_iff_getElem.2
  refine ⟨i.val, by simp only [ChainRec.numbered, List.length_zip]; omega, ?_⟩
  simp only [ChainRec.numbered, List.getElem_zip, hu, Prod.mk.injEq, and_true]
  obtain ⟨n, hn⟩ := i
  interval_cases n <;> rfl

theorem firsts_sublist {α β : Type} : ∀ (l : List α) (m : List β), ((l.zip m).map Prod.fst).Sublist l
  | [], _ => by simp
  | _ :: _, [] => by simp
  | a :: l, _ :: m => (firsts_sublist l m).cons_cons a

/-- The numbers of the entries rise. -/
theorem numbered_rising (ch : ChainRec) : ch.numbered.Pairwise fun x y => x.1 < y.1 := by
  have h : (ch.numbered.map Prod.fst).Pairwise (· < ·) := by
    have hs : (ch.numbered.map Prod.fst).Sublist [0, 1, 2, 3] := by
      exact firsts_sublist _ _
    exact List.Pairwise.sublist hs (by decide)
  exact List.pairwise_map.1 h

/-- The first entry that a property of the sources names is the first entry of its source. -/
theorem indexOf_of_find {ch : ChainRec} {p : Src → Bool} {i : Fin 4} {u : Use}
    (h : (ch.numbered.find? fun x => p x.2.src) = some (i, u)) : ch.indexOf u.src = some i := by
  have hf : (ch.numbered.find? fun x => decide (x.2.src = u.src)) = some (i, u) := by
    rw [List.find?_eq_some_iff_append] at h ⊢
    obtain ⟨hp, as, bs, hl, has⟩ := h
    refine ⟨by simp, as, bs, hl, fun a ha => ?_⟩
    have h1 := has a ha
    simp only [Bool.not_eq_eq_eq_not, Bool.not_true, decide_eq_false_iff_not] at h1 ⊢
    intro hs
    rw [hs, hp] at h1; cases h1
  unfold ChainRec.indexOf
  rw [hf]; rfl

/-- The index of a source is that of an entry with this source. -/
theorem entry_of_indexOf {ch : ChainRec} {s : Src} {i : Fin 4} (h : ch.indexOf s = some i) :
    ∃ u, ch.entry i = some u ∧ u.src = s := by
  unfold ChainRec.indexOf at h
  cases hf : ch.numbered.find? fun x => decide (x.2.src = s) with
  | none => rw [hf] at h; cases h
  | some x =>
    rw [hf] at h
    cases h
    exact ⟨x.2, mem_numbered (List.mem_of_find?_eq_some hf), by simpa using List.find?_some hf⟩

theorem anchorOf_entry {ch : ChainRec} {s : Src} {j : Fin 4} (h : anchorOf ch s = some (.entry j)) : ch.indexOf s = some j := by
  unfold anchorOf at h
  cases hi : ch.indexOf s with
  | some i => rw [hi] at h; cases h; rfl
  | none => rw [hi] at h; dsimp only at h; split at h <;> cases h

theorem anchorOf_lastResort {ch : ChainRec} {s : Src} (h : anchorOf ch s = some .lastResort) :
    s = .rco ∧ ch.lastResort.isSome = true ∧ ch.indexOf s = none := by
  unfold anchorOf at h
  cases hi : ch.indexOf s with
  | some i => rw [hi] at h; cases h
  | none =>
    rw [hi] at h; dsimp only at h
    split at h
    · rename_i hc; simp only [Bool.and_eq_true, decide_eq_true_eq] at hc; exact ⟨hc.1, hc.2, rfl⟩
    · cases h

/-- Whatever the anchor is, it is the place of some source. -/
theorem anchor_source {r : OutRec} {ch : ChainRec} {p : Position} (h : anchor r ch = some p) : ∃ s, anchorOf ch s = some p := by
  unfold anchor at h
  split at h
  · obtain ⟨u, -, hu⟩ := Option.bind_eq_some_iff.1 h; exact ⟨u.src, hu⟩
  · obtain ⟨u, -, hu⟩ := Option.bind_eq_some_iff.1 h; exact ⟨u.src, hu⟩
  · cases h

/-! ### Selection asked again -/

/-- Eligibility sees of the record the current source and the refused set. -/
theorem eligible_congr (e : Env) (c : Sources) (o : Fin 8) {r r' : OutRec} (ch : ChainRec) (h1 : r'.current = r.current)
    (h2 : r'.refused = r.refused) (s : Src) : eligible e c o r' ch s = eligible e c o r ch s := by
  unfold eligible permittedOrKept OutRec.runsFrom; rw [h1, h2]

theorem startable_congr (e : Env) (c : Sources) {r r' : OutRec} (h : r'.refused = r.refused) (s : Src) :
    startable e c r' s = startable e c r s := by unfold startable standbyCandidate; rw [h]

theorem lastResortUse_congr {r r' : OutRec} (ch : ChainRec) (h : r'.refused = r.refused) :
    lastResortUse r' ch = lastResortUse r ch := by unfold lastResortUse lastResortUsable; rw [h]

theorem earlierEligible_congr (e : Env) (c : Sources) (o : Fin 8) {r r' : OutRec} (ch : ChainRec) (h1 : r'.current = r.current)
    (h2 : r'.refused = r.refused) (j : Fin 4) : earlierEligible e c o r' ch j = earlierEligible e c o r ch j := by
  unfold earlierEligible; simp only [eligible_congr e c o ch h1 h2]

/-- The revert state that follows a selection, from the one before and from whether a better-placed entry is eligible, without a
pin (R71). -/
def revertAfter (e : Env) (ch : ChainRec) (better : Bool) (v : Revert) : Revert :=
  if better then (match v with
    | .none => if ch.holdOff = 0 then .none else .timing (dueIn e.tick (ch.holdOff * 1000))
    | v => v) else .none

theorem nextRevert_eq (e : Env) (c : Sources) (o : Fin 8) (r : OutRec) (ch : ChainRec) :
    nextRevert e c o r ch = if r.pin.isSome then .none else revertAfter e ch (betterPlaced e c o r ch) r.revert := by
  unfold nextRevert revertAfter
  cases r.pin.isSome <;> cases betterPlaced e c o r ch <;> rfl

theorem revertAfter_due (e : Env) (ch : ChainRec) (b : Bool) (v : Revert) :
    revertAfter e ch b v = .due ↔ b = true ∧ v = .due := by
  unfold revertAfter
  cases b with
  | false => simp
  | true => cases v <;> simp; split <;> simp

/-- The revert state, taken note of twice, is what it was after the first time. -/
theorem revertAfter_later (e e' : Env) (ch : ChainRec) (b : Bool) (v : Revert) :
    revertAfter e' ch b (revertAfter e ch b v) = revertAfter e ch b v := by
  unfold revertAfter
  cases b with
  | false => rfl
  | true =>
    cases v with
    | none => dsimp only [if_true]; by_cases h : ch.holdOff = 0 <;> simp [h]
    | timing _ => rfl
    | held => rfl
    | due => rfl

/-- The anchor that the result of a selection gives an output that acts on it: the place of the result's source, or none where the
output waits or is dark. -/
def Pick.anchors (ch : ChainRec) (p : Pick) (a : Option Position) : Prop :=
  match p with
  | .use u _ => a = anchorOf ch u.src
  | .wait u _ => a = none ∨ a = anchorOf ch u.src
  | .dark => a = none

/-- Steps 2 to 7 of R68 once more: with the revert state that followed the first time, and the anchor of the first time or the one
that its result gives, the result is the same. -/
theorem chainSelect_again (e : Env) (c : Sources) (o : Fin 8) {r r' : OutRec} (ch : ChainRec) (h1 : r'.current = r.current)
    (h2 : r'.refused = r.refused) (ha : anchor r' ch = anchor r ch ∨ (chainSelect e c o r ch).anchors ch (anchor r' ch))
    (hr : r'.revert = revertAfter e ch (betterPlaced e c o r' ch) r.revert) :
    chainSelect e c o r' ch = chainSelect e c o r ch := by
  have hE := eligible_congr e c o ch h1 h2
  have hS := startable_congr e c h2
  have hL := lastResortUse_congr ch h2
  have hB := earlierEligible_congr e c o ch h1 h2
  have hdue : r'.revert = .due ↔ betterPlaced e c o r' ch = true ∧ r.revert = .due := by rw [hr]; exact revertAfter_due _ _ _ _
  -- A hold-back on entry `j` needs the three conditions of step 2.
  have hhold : ∀ j u, anchor r' ch = some (.entry j) → ch.entry j = some u → holdBack e c o r' ch =
      if eligible e c o r ch u.src && earlierEligible e c o r ch j && decide (r.revert ≠ .due) then some (j, u) else none := by
    intro j u haj hu
    have hbp : betterPlaced e c o r' ch = earlierEligible e c o r ch j := by unfold betterPlaced; rw [haj]; exact hB j
    unfold holdBack
    rw [haj]; dsimp only; rw [hu]; dsimp only
    rw [hE, hB]
    cases hEu : eligible e c o r ch u.src with
    | false => rfl
    | true =>
      cases hBj : earlierEligible e c o r ch j with
      | false => rfl
      | true =>
        rw [hbp, hBj] at hdue
        simp only [true_and] at hdue
        simp only [Bool.and_self, Bool.true_and, ne_eq, hdue]
  -- No hold-back where no entry is eligible.
  have hnohold : (ch.numbered.find? fun x => eligible e c o r ch x.2.src) = none → holdBack e c o r' ch = none := by
    intro hn
    rw [List.find?_eq_none] at hn
    unfold holdBack
    split
    · rename_i j _
      split
      · rename_i u hu
        have hx := hn _ (numbered_of_entry hu)
        simp only [Bool.not_eq_true] at hx
        rw [hE, hx]; rfl
      · rfl
    · rfl
  have hsame : anchor r' ch = anchor r ch → holdBack e c o r' ch = holdBack e c o r ch := by
    intro hh
    cases hA : anchor r ch with
    | none => unfold holdBack; rw [hh, hA]
    | some p =>
      cases p with
      | entry j =>
        cases hu : ch.entry j with
        | none => unfold holdBack; rw [hh, hA]; dsimp only; rw [hu]
        | some u =>
          rw [hhold j u (hh.trans hA) hu]
          unfold holdBack; rw [hA]; dsimp only; rw [hu]
      | lastResort => unfold holdBack; rw [hh, hA]
      | dark => unfold holdBack; rw [hh, hA]
  rcases ha with ha | ha
  · have hon : onLastResort r' ch = onLastResort r ch := by unfold onLastResort; rw [ha]
    unfold chainSelect
    simp only [hsame ha, hE, hS, hL, hon]
  · cases hhb : holdBack e c o r ch with
    | some x =>
      obtain ⟨j, u⟩ := x
      have hp : chainSelect e c o r ch = .use u (some (.entry j)) := by unfold chainSelect; rw [hhb]
      rw [hp] at ha
      -- The anchor entry held on is the first of its source.
      have hj : anchor r' ch = anchor r ch := by
        unfold holdBack at hhb
        split at hhb
        · rename_i k hk
          split at hhb
          · rename_i w hw
            split at hhb
            · cases hhb
              obtain ⟨s, hs⟩ := anchor_source hk
              obtain ⟨w', hw', hws⟩ := entry_of_indexOf (anchorOf_entry hs)
              rw [hw] at hw'; cases hw'
              rw [hk, ← hs, ← hws]; exact ha
            · cases hhb
          · cases hhb
        · cases hhb
      have hon : onLastResort r' ch = onLastResort r ch := by unfold onLastResort; rw [hj]
      unfold chainSelect
      simp only [hsame hj, hE, hS, hL, hon]
    | none =>
      cases hf : ch.numbered.find? fun x => eligible e c o r ch x.2.src with
      | some x =>
        obtain ⟨i, u⟩ := x
        have hp : chainSelect e c o r ch = .use u (some (.entry i)) := by unfold chainSelect; rw [hhb]; dsimp only; rw [hf]
        rw [hp] at ha ⊢
        have hi := indexOf_of_find (p := eligible e c o r ch) hf
        have hai : anchor r' ch = some (.entry i) := by
          rw [show anchor r' ch = anchorOf ch u.src from ha]; unfold anchorOf; rw [hi]
        have hui : ch.entry i = some u := mem_numbered (List.mem_of_find?_eq_some hf)
        have hbi : earlierEligible e c o r ch i = false := by
          unfold earlierEligible
          rw [List.any_eq_false]
          intro x hx
          simp only [Bool.and_eq_true, decide_eq_true_eq, not_and]
          intro hlt hel
          obtain ⟨-, as, bs, hl, has⟩ := List.find?_eq_some_iff_append.1 hf
          have hmem := hl ▸ hx
          rcases List.mem_append.1 hmem with hxa | hxb
          · have := has x hxa
            simp [hel] at this
          · have hpw := numbered_rising ch
            rw [hl, List.pairwise_append] at hpw
            have h3 := List.pairwise_cons.1 hpw.2.1
            rcases List.mem_cons.1 hxb with rfl | hxb
            · exact absurd hlt (lt_irrefl _)
            · exact absurd (h3.1 x hxb) (not_lt_of_gt hlt)
        have hh : holdBack e c o r' ch = none := by rw [hhold i u hai hui, hbi]; simp
        unfold chainSelect
        rw [hh]; dsimp only
        simp only [hE]
        rw [hf]
      | none =>
        have hh := hnohold hf
        -- RCO is refused or no entry: the last resort is never shadowed by an entry of RCO.
        have hrco : lastResortUse r ch ≠ none → anchorOf ch .rco = some .lastResort := by
          intro hl
          have hlu : ch.lastResort.isSome = true ∧ r.refused.contains .rco = false := by
            unfold lastResortUse lastResortUsable at hl
            split at hl
            · rename_i hc; simpa using hc
            · exact absurd rfl hl
          unfold anchorOf
          cases hi : ch.indexOf .rco with
          | none => simp [hlu.1]
          | some i =>
            obtain ⟨u, hu, hus⟩ := entry_of_indexOf hi
            rw [List.find?_eq_none] at hf
            have hx := hf _ (numbered_of_entry hu)
            exfalso; apply hx
            dsimp only; rw [hus]
            unfold eligible permittedOrKept permitted
            rw [hlu.2]; rfl
        have hsrc : ∀ u, lastResortUse r ch = some u → u.src = .rco := by
          intro u hu
          unfold lastResortUse at hu
          split at hu
          · obtain ⟨d, -, hd⟩ := Option.map_eq_some_iff.1 hu; rw [← hd]
          · cases hu
        have hgo : ∀ x : OutRec, holdBack e c o x ch = none → (∀ s, eligible e c o x ch s = eligible e c o r ch s) →
            (∀ s, startable e c x s = startable e c r s) → lastResortUse x ch = lastResortUse r ch →
            chainSelect e c o x ch = match (if onLastResort x ch then lastResortUse r ch else none) with
              | some u => .use u (some .lastResort)
              | none => match ch.numbered.find? fun y => startable e c r y.2.src with
                | some (i, u) => .wait u (some (.entry i))
                | none => match lastResortUse r ch with
                  | some u => .use u (some .lastResort)
                  | none => .dark := by
          intro x hx1 hx2 hx3 hx4
          unfold chainSelect
          rw [hx1]
          dsimp only
          rw [show (fun y : Fin 4 × Use => eligible e c o x ch y.2.src) = fun y => eligible e c o r ch y.2.src from
            funext fun y => hx2 y.2.src, hf]
          dsimp only
          rw [show (fun y : Fin 4 × Use => startable e c x y.2.src) = fun y => startable e c r y.2.src from
            funext fun y => hx3 y.2.src, hx4]
          first | done | rfl
        have hp := hgo r hhb (fun _ => rfl) (fun _ => rfl) rfl
        have hp' := hgo r' hh hE hS hL
        rw [hp] at ha
        rw [hp, hp']
        cases hlr : lastResortUse r ch with
        | none => simp
        | some w =>
          have hrc := hrco (by simp [hlr])
          have hws := hsrc w hlr
          rw [hlr] at ha
          by_cases hon : onLastResort r ch = true
          · simp only [hon, if_true, Pick.anchors] at ha
            have : onLastResort r' ch = true := by unfold onLastResort; rw [ha, hws, hrc]; rfl
            simp [hon, this]
          · simp only [Bool.not_eq_true] at hon
            rw [hon] at ha ⊢
            cases hst : ch.numbered.find? fun y => startable e c r y.2.src with
            | some x =>
              obtain ⟨i, u⟩ := x
              rw [hst] at ha
              simp only [Bool.false_eq_true, if_false, Pick.anchors] at ha
              have hno : onLastResort r' ch = false := by
                unfold onLastResort
                rcases ha with ha | ha
                · rw [ha]; rfl
                · rw [ha]
                  have hs := List.find?_some hst
                  by_contra hc
                  simp only [Bool.not_eq_false, decide_eq_true_eq] at hc
                  have := (anchorOf_lastResort hc).1
                  dsimp only at hs
                  rw [this] at hs
                  simp [startable, comingUp] at hs
              simp [hno]
            | none =>
              rw [hst] at ha
              simp only [Bool.false_eq_true, if_false, Pick.anchors] at ha
              have : onLastResort r' ch = true := by unfold onLastResort; rw [ha, hws, hrc]; rfl
              simp [this]

end Sys2Proof.Machine
end

