-- ==== Sys2Proof/Laws/Again.lean ====
section
/-! SUPPORT. Laws/Again.lean: an output that has been evaluated stands as a further evaluation leaves it, without a notice
(`evalOut_again`), in the same event and in any later one that sees the same chains, profile and claims. -/

namespace Sys2Proof.Machine

/-! ### What a later evaluation sees -/

/-- `e'` sees for output `o`, configured as `g`, what `e` saw, as the same event later on, or as an event that brings no change of its
own. -/
structure Env.Later (o : Fin 8) (g : OutConfig) (e e' : Env) : Prop where
  chains : e'.chains = e.chains
  profile : e'.profile = e.profile
  claims : e'.claims = e.claims
  removed : ∀ k s, removedFromChain e' o k s = true → removedFromChain e o k s = true
  wanted : e.wantedBefore.get o = true → Machine.wanted e.profile e.claims o g = true → e'.wantedBefore.get o = true
  cause : (e'.cause.isRestart = false ∧ ∀ k, e'.cause ≠ .chainSet k) ∨ (e'.cause = e.cause ∧ e'.chainBefore = e.chainBefore)

theorem Env.Later.refl (o : Fin 8) (g : OutConfig) (e : Env) : Env.Later o g e e :=
  ⟨rfl, rfl, rfl, fun _ _ h => h, fun h _ => h, Or.inr ⟨rfl, rfl⟩⟩

section
variable {o : Fin 8} {g : OutConfig} {e e' : Env} (h : Env.Later o g e e')
include h

theorem Env.Later.eligible (c : Sources) (r : OutRec) (ch : ChainRec) (s : Src) :
    eligible e' c o r ch s = eligible e c o r ch s := by
  unfold Machine.eligible permittedOrKept; rw [h.profile, h.claims]

theorem Env.Later.earlierEligible (c : Sources) (r : OutRec) (ch : ChainRec) (j : Fin 4) :
    earlierEligible e' c o r ch j = earlierEligible e c o r ch j := by
  unfold Machine.earlierEligible; simp only [h.eligible]

theorem Env.Later.betterPlaced (c : Sources) (r : OutRec) (ch : ChainRec) :
    betterPlaced e' c o r ch = betterPlaced e c o r ch := by
  unfold Machine.betterPlaced; simp only [h.earlierEligible]

theorem Env.Later.startable (c : Sources) (r : OutRec) (s : Src) : startable e' c r s = startable e c r s := by
  unfold Machine.startable standbyCandidate; rw [h.profile]

theorem Env.Later.fixedUsable (c : Sources) (r : OutRec) (s : Src) : fixedUsable e' c o r s = fixedUsable e c o r s := by
  unfold Machine.fixedUsable permittedOrKept; rw [h.profile, h.claims]

theorem Env.Later.chainSelect (c : Sources) (r : OutRec) (ch : ChainRec) : chainSelect e' c o r ch = chainSelect e c o r ch := by
  unfold Machine.chainSelect holdBack; simp only [h.eligible, h.earlierEligible, h.startable]

theorem Env.Later.positionReason (c : Sources) (r : OutRec) (ch : ChainRec) (a : Place) :
    positionReason e' c o r ch a = positionReason e c o r ch a := by
  unfold Machine.positionReason sourceReason permittedOrKept; rw [h.profile, h.claims]

theorem Env.Later.select (c : Sources) (r : OutRec) : select e' c o r = select e c o r := by
  unfold Machine.select fixedSelect pinnedUse releaseHeld
  simp only [h.fixedUsable, h.chainSelect, h.eligible, h.chains, h.profile, h.claims]

end

/-! ### Selection and its traces -/

theorem revertAfter_held {e : Env} {ch : ChainRec} {b : Bool} {v : Revert} (h : revertAfter e ch b v = .held) : v = .held := by
  unfold revertAfter at h
  cases b with
  | false => simp at h
  | true => cases v <;> simp at h ⊢; split at h <;> simp at h

theorem releaseHeld_id {e : Env} {o : Fin 8} {r : OutRec} (h : r.revert = .held → held e.claims o = true) :
    releaseHeld e o r = r := by
  unfold releaseHeld
  split
  · rename_i hc; simp only [Bool.and_eq_true, decide_eq_true_eq, Bool.not_eq_true'] at hc
    rw [h hc.1] at hc; cases hc.2
  · rfl

theorem held_releaseHeld {e : Env} {o : Fin 8} {r : OutRec} (h : (releaseHeld e o r).revert = .held) :
    held e.claims o = true := by
  unfold releaseHeld at h
  split at h
  · cases h
  · rename_i hc
    simp only [Bool.and_eq_true, decide_eq_true_eq, Bool.not_eq_true', not_and, Bool.not_eq_false] at hc
    exact hc h

/-- The anchor does not see the revert state. -/
theorem anchor_releaseHeld (e : Env) (o : Fin 8) (r : OutRec) (ch : ChainRec) : anchor (releaseHeld e o r) ch = anchor r ch := by
  unfold releaseHeld; split <;> rfl

/-- What a selection leaves of the record for the next one: configuration, current source and refused set as they were, its pin,
and in CHAIN mode the revert state that follows. -/
structure Follows (e : Env) (c : Sources) (o : Fin 8) (r r' : OutRec) : Prop where
  cfg : r'.cfg = r.cfg
  current : r'.current = r.current
  refused : r'.refused = r.refused
  pin : r'.pin = (select e c o r).out.pin
  revert : ∀ k, r.cfg.mode = .chain k →
    r'.revert = nextRevert e c o { r' with revert := (select e c o r).out.revert } (e.chains.get k)
  anchor : ∀ k, r.cfg.mode = .chain k → anchor r' (e.chains.get k) = anchor r (e.chains.get k)
    ∨ (select e c o r).pick.anchors (e.chains.get k) (anchor r' (e.chains.get k))

/-- A selection asked again gives the same result, loses no pin, and leaves the record. -/
theorem select_again {e : Env} {c : Sources} {o : Fin 8} {r r' : OutRec} (h : Follows e c o r r') :
    select e c o r' = ⟨r', false, (select e c o r).pick⟩ := by
  have hE := fun ch => eligible_congr e c o ch h.current h.refused
  cases hm : r.cfg.mode with
  | fixed u =>
    have hm' : r'.cfg.mode = .fixed u := by rw [h.cfg]; exact hm
    unfold select
    rw [hm, hm']
    simp only [fixedSelect, fixedUsable, permittedOrKept, OutRec.runsFrom, h.current, h.refused]
    rfl
  | chain k =>
    have hm' : r'.cfg.mode = .chain k := by rw [h.cfg]; exact hm
    have hrev := h.revert k hm
    have hanc := h.anchor k hm
    have hpin := h.pin
    set ch := e.chains.get k with hch
    have hr1 : (releaseHeld e o r).current = r.current ∧ (releaseHeld e o r).refused = r.refused
        ∧ (releaseHeld e o r).pin = r.pin := by unfold releaseHeld; split <;> exact ⟨rfl, rfl, rfl⟩
    have ha1 := anchor_releaseHeld e o r ch
    have hh1 := fun x => held_releaseHeld (e := e) (o := o) (r := r) x
    have hE1 : ∀ s, eligible e c o (releaseHeld e o r) ch s = eligible e c o r ch s := eligible_congr e c o ch hr1.1 hr1.2.1
    -- A selection by the chain, from a record `q` that the first one has passed on.
    have key : ∀ q : OutRec, q.current = r.current → q.refused = r.refused → anchor q ch = anchor r ch →
        (q.revert = .held → held e.claims o = true) → q.revert = (select e c o r).out.revert → r'.pin = none →
        (select e c o r).pick = chainSelect e c o q ch → select e c o r' = ⟨r', false, (select e c o r).pick⟩ := by
      intro q hq1 hq2 hq3 hq4 hq5 hp hpk
      rw [nextRevert_eq] at hrev
      simp only [hp, Option.isSome_none, Bool.false_eq_true, if_false] at hrev
      rw [← hq5] at hrev
      have hrev' : r'.revert = revertAfter e ch (betterPlaced e c o r' ch) q.revert := hrev
      have hid : releaseHeld e o r' = r' := releaseHeld_id fun hx => by
        rw [hrev'] at hx; exact hq4 (revertAfter_held hx)
      have hag := chainSelect_again e c o ch (r := q) (r' := r') (h.current.trans hq1.symm) (h.refused.trans hq2.symm)
        (by rw [hq3, ← hpk]; exact hanc) hrev'
      rw [hpk, ← hag]
      unfold select
      rw [hm']
      dsimp only
      rw [hid, hp]
    cases hp : r.pin with
    | none =>
      have hs : select e c o r = ⟨releaseHeld e o r, false, chainSelect e c o (releaseHeld e o r) ch⟩ := by
        unfold select; rw [hm]; dsimp only; rw [hr1.2.2, hp]
      exact key (releaseHeld e o r) hr1.1 hr1.2.1 ha1 hh1 (by rw [hs]) (by rw [hpin, hs]; exact hr1.2.2.trans hp) (by rw [hs])
    | some i =>
      cases hpu : pinnedUse e c o (releaseHeld e o r) ch i with
      | some u =>
        have hs : select e c o r = ⟨releaseHeld e o r, false, .use u (some (.entry i))⟩ := by
          unfold select; rw [hm]; dsimp only; rw [hr1.2.2, hp]; dsimp only; rw [hpu]
        have hp' : r'.pin = some i := by rw [hpin, hs]; exact hr1.2.2.trans hp
        have hv : r'.revert = .none := by rw [hrev, nextRevert_eq]; simp [hp']
        have hid : releaseHeld e o r' = r' := releaseHeld_id fun hx => by rw [hv] at hx; cases hx
        have hpu' : pinnedUse e c o r' ch i = some u := by
          rw [← hpu]; unfold pinnedUse; simp only [hE ch, hE1]
        rw [hs]
        unfold select
        rw [hm']
        dsimp only
        rw [hid, hp']
        dsimp only
        rw [hpu']
      | none =>
        have hs : select e c o r = ⟨{ releaseHeld e o r with pin := none }, true,
            chainSelect e c o { releaseHeld e o r with pin := none } ch⟩ := by
          unfold select; rw [hm]; dsimp only; rw [hr1.2.2, hp]; dsimp only; rw [hpu]
        exact key { releaseHeld e o r with pin := none } hr1.1 hr1.2.1 ha1 hh1 (by rw [hs]) (by rw [hpin, hs]) (by rw [hs])

/-- A FIXED output's selection touches nothing. -/
theorem select_fixed {e : Env} {c : Sources} {o : Fin 8} {r : OutRec} {u : Use} (h : r.cfg.mode = .fixed u) :
    (select e c o r).out = r := by unfold select; rw [h]

/-- The result of a selection has a place in CHAIN mode and none in FIXED mode, unless it is DARK. -/
theorem place_select {e : Env} {c : Sources} {o : Fin 8} {r : OutRec} {k : Fin 4} (h : r.cfg.mode = .chain k) :
    (select e c o r).pick.place.isSome = true := by
  have hc : ∀ x ch, (chainSelect e c o x ch).place.isSome = true := by
    intro x ch; unfold chainSelect; split
    · rfl
    · split
      · rfl
      · split
        · rfl
        · split
          · rfl
          · split <;> rfl
  unfold select; rw [h]; dsimp only; split
  · exact hc _ _
  · split
    · rfl
    · exact hc _ _

/-- A USE in CHAIN mode is of a source that is eligible, and that the chain has as an entry or as the last resort. -/
theorem use_select {e : Env} {c : Sources} {o : Fin 8} {r : OutRec} {k : Fin 4} (h : r.cfg.mode = .chain k) {u : Use}
    {p : Option Position} (hu : (select e c o r).pick = .use u p) :
    eligible e c o r (e.chains.get k) u.src = true ∧ (anchorOf (e.chains.get k) u.src).isSome = true := by
  set ch := e.chains.get k with hch
  have hentry : ∀ i w, ch.entry i = some w → (anchorOf ch w.src).isSome = true := by
    intro i w hw
    have hi : ch.indexOf w.src ≠ none := by
      unfold ChainRec.indexOf
      intro hn
      rw [Option.map_eq_none_iff, List.find?_eq_none] at hn
      exact hn _ (numbered_of_entry hw) (by simp)
    unfold anchorOf
    cases hx : ch.indexOf w.src with
    | none => exact absurd hx hi
    | some i => rfl
  have hc : ∀ x : OutRec, (∀ s, eligible e c o x ch s = eligible e c o r ch s) → ∀ w q, chainSelect e c o x ch = .use w q →
      eligible e c o r ch w.src = true ∧ (anchorOf ch w.src).isSome = true := by
    intro x hx w q hw
    have hlast : ∀ w', lastResortUse x ch = some w' → eligible e c o r ch w'.src = true ∧ (anchorOf ch w'.src).isSome = true := by
      intro w' hw'
      unfold lastResortUse lastResortUsable at hw'
      split at hw'
      · rename_i hl
        simp only [Bool.and_eq_true, Bool.not_eq_true'] at hl
        obtain ⟨d, hd, hd'⟩ := Option.map_eq_some_iff.1 hw'
        subst hd'
        refine ⟨?_, ?_⟩
        · rw [← hx]; unfold eligible permittedOrKept permitted; rw [hl.2]; rfl
        · unfold anchorOf; cases ch.indexOf Src.rco with
          | none => simp [hl.1]
          | some i => rfl
      · cases hw'
    unfold chainSelect at hw
    split at hw
    · rename_i j w' hh
      cases hw
      unfold holdBack at hh
      split at hh
      · split at hh
        · rename_i w' hw'
          split at hh
          · rename_i hb
            cases hh
            simp only [Bool.and_eq_true] at hb
            exact ⟨by rw [← hx]; exact hb.1.1, hentry _ _ hw'⟩
          · cases hh
        · cases hh
      · cases hh
    · split at hw
      · rename_i i w' hf
        cases hw
        exact ⟨by rw [← hx]; simpa using List.find?_some hf, hentry _ _ (mem_numbered (List.mem_of_find?_eq_some hf))⟩
      · split at hw
        · rename_i w' hl
          cases hw
          split at hl
          · exact hlast _ hl
          · cases hl
        · split at hw
          · cases hw
          · split at hw
            · rename_i w' hl; cases hw; exact hlast _ hl
            · cases hw
  have hr1 : (releaseHeld e o r).current = r.current ∧ (releaseHeld e o r).refused = r.refused := by
    unfold releaseHeld; split <;> exact ⟨rfl, rfl⟩
  have hE1 : ∀ s, eligible e c o (releaseHeld e o r) ch s = eligible e c o r ch s := eligible_congr e c o ch hr1.1 hr1.2
  unfold select at hu
  rw [h] at hu
  dsimp only at hu
  split at hu
  · exact hc _ hE1 _ _ hu
  · split at hu
    · rename_i w hw
      cases hu
      unfold pinnedUse at hw
      split at hw
      · rename_i w' hw'
        split at hw
        · rename_i hel; cases hw; exact ⟨by rw [← hE1]; exact hel, hentry _ _ hw'⟩
        · cases hw
      · cases hw
    · exact hc _ (fun s => hE1 s) _ _ hu

theorem positionReason_congr (e : Env) (c : Sources) (o : Fin 8) {r r' : OutRec} (ch : ChainRec) (a : Place)
    (h1 : r'.current = r.current) (h2 : r'.refused = r.refused) : positionReason e c o r' ch a = positionReason e c o r ch a := by
  unfold positionReason sourceReason permittedOrKept OutRec.runsFrom; rw [h1, h2]

/-- An eligible source gives no reason to leave it. -/
theorem sourceReason_eligible {e : Env} {c : Sources} {o : Fin 8} {r : OutRec} {ch : ChainRec} {a : Place} {s : Src}
    (h : eligible e c o r ch s = true) : sourceReason e c o r ch a s = none := by
  cases s with
  | rco =>
    simp only [eligible, Bool.and_eq_true, Bool.not_eq_true'] at h
    unfold sourceReason; rw [h.2]; rfl
  | osc x =>
    unfold eligible at h; unfold sourceReason
    dsimp only at h ⊢
    cases hs : (c.osc.get x).state <;> simp_all

/-- Nor does one waited on that is startable. -/
theorem sourceReason_startable {e : Env} {c : Sources} {o : Fin 8} {r : OutRec} {ch : ChainRec} {p : Position} {s : Src}
    (h : startable e c r s = true) : sourceReason e c o r ch ⟨p, .wait⟩ s = none := by
  cases s with
  | rco => simp [startable, comingUp] at h
  | osc x =>
    unfold startable standbyCandidate comingUp at h
    unfold sourceReason permittedOrKept
    dsimp only at h ⊢
    cases hs : (c.osc.get x).state <;> simp_all

theorem positionReason_chainSelect {e : Env} {c : Sources} {o : Fin 8} {r : OutRec} {ch : ChainRec} {b : Place}
    (h : (chainSelect e c o r ch).place = some b) : positionReason e c o r ch b = none := by
  have hentry : ∀ {i u k}, ch.entry i = some u → sourceReason e c o r ch ⟨.entry i, k⟩ u.src = none →
      positionReason e c o r ch ⟨.entry i, k⟩ = none := by
    intro i u k h1 h2; simp [positionReason, positionSource, h1, h2]
  have hlast : ∀ {u}, lastResortUse r ch = some u → positionReason e c o r ch ⟨.lastResort, .use⟩ = none := by
    intro u hu
    unfold lastResortUse lastResortUsable at hu
    split at hu
    · rename_i hl
      simp only [Bool.and_eq_true, Bool.not_eq_true'] at hl
      have : Src.rco ∉ r.refused := by simpa using hl.2
      simp [positionReason, positionSource, sourceReason, this]
    · cases hu
  unfold chainSelect at h
  split at h
  · rename_i j u hh
    cases h
    unfold holdBack at hh
    split at hh
    · split at hh
      · rename_i w hw
        split at hh
        · rename_i hb
          cases hh
          simp only [Bool.and_eq_true] at hb
          exact hentry hw (sourceReason_eligible hb.1.1)
        · cases hh
      · cases hh
    · cases hh
  · split at h
    · rename_i i u hf
      cases h
      exact hentry (mem_numbered (List.mem_of_find?_eq_some hf)) (sourceReason_eligible (by simpa using List.find?_some hf))
    · split at h
      · rename_i u hl
        cases h
        split at hl
        · exact hlast hl
        · cases hl
      · split at h
        · rename_i i u hf
          cases h
          exact hentry (mem_numbered (List.mem_of_find?_eq_some hf)) (sourceReason_startable (by simpa using List.find?_some hf))
        · split at h
          · rename_i u hl; cases h; exact hlast hl
          · cases h; rfl

theorem ofSource_positionReason {e : Env} {c : Sources} {o : Fin 8} {r : OutRec} {ch : ChainRec} {a : Place} {w : FailReason}
    (h : positionReason e c o r ch a = some w) : w.ofSource = true := by
  obtain ⟨s, -, hs⟩ := Option.bind_eq_some_iff.1 h
  unfold sourceReason at hs
  split at hs
  · cases hs; rfl
  · cases s with
    | rco => cases hs
    | osc x =>
      dsimp only at hs
      repeat' split at hs
      all_goals first | (cases hs; rfl) | cases hs

/-- The place that a selection gives has a source as good as the place needs. -/
theorem positionReason_select {e : Env} {c : Sources} {o : Fin 8} {r : OutRec} {k : Fin 4} (h : r.cfg.mode = .chain k) {b : Place}
    (hb : (select e c o r).pick.place = some b) : positionReason e c o r (e.chains.get k) b = none := by
  have hr : ∀ x : OutRec, x.current = r.current → x.refused = r.refused →
      (chainSelect e c o x (e.chains.get k)).place = some b → positionReason e c o r (e.chains.get k) b = none := by
    intro x h1 h2 h3
    rw [← positionReason_congr e c o _ b h1 h2]; exact positionReason_chainSelect h3
  have hr1 : (releaseHeld e o r).current = r.current ∧ (releaseHeld e o r).refused = r.refused := by
    unfold releaseHeld; split <;> exact ⟨rfl, rfl⟩
  unfold select at hb
  rw [h] at hb
  dsimp only at hb
  split at hb
  · exact hr _ hr1.1 hr1.2 hb
  · split at hb
    · rename_i i _ u hu
      cases hb
      unfold pinnedUse at hu
      split at hu
      · rename_i w hw
        split at hu
        · rename_i hel
          cases hu
          rw [eligible_congr e c o _ hr1.1 hr1.2] at hel
          simp [positionReason, positionSource, hw, sourceReason_eligible hel]
        · cases hu
      · cases hu
    · exact hr _ hr1.1 hr1.2 hb

theorem use_fixed {e : Env} {c : Sources} {o : Fin 8} {r : OutRec} {f : Use} (h : r.cfg.mode = .fixed f) {u : Use}
    {p : Option Position} (hu : (select e c o r).pick = .use u p) : fixedUsable e c o r u.src = true := by
  unfold select at hu; rw [h] at hu
  dsimp only [fixedSelect] at hu
  split at hu
  · rename_i hf; cases hu; exact hf
  · split at hu <;> cases hu

/-! ### The record after a selection, and a second selection -/

/-- A record on which a selection's result has been acted on: what the second selection asks of it before place and revert state
are taken note of. -/
structure Acted (e : Env) (c : Sources) (o : Fin 8) (r x : OutRec) : Prop where
  cfg : x.cfg = r.cfg
  current : x.current = r.current
  refused : x.refused = r.refused
  pin : x.pin = (select e c o r).out.pin
  revert : x.revert = (select e c o r).out.revert
  anchor : ∀ k, r.cfg.mode = .chain k → anchor x (e.chains.get k) = anchor r (e.chains.get k)
    ∨ (select e c o r).pick.anchors (e.chains.get k) (anchor x (e.chains.get k))

section
variable {e : Env} {c : Sources} {o : Fin 8} {r x : OutRec}

theorem Acted.follows (h : Acted e c o r x) (pl : Option Place) : Follows e c o r (afterSelect e c o x pl) := by
  refine ⟨by simp [h.cfg], by simp [h.current], by simp [h.refused], ?_, ?_, ?_⟩
  · rw [← h.pin]; unfold afterSelect; split <;> rfl
  · intro k hk
    have hk' : x.cfg.mode = .chain k := by rw [h.cfg]; exact hk
    rw [← h.revert]
    unfold afterSelect; rw [hk']
  · intro k hk
    have : ∀ ch, Machine.anchor (afterSelect e c o x pl) ch = Machine.anchor x ch := by
      intro ch; unfold afterSelect; split <;> rfl
    rw [this]
    exact h.anchor k hk

/-- Place and revert state taken note of again are what they were. -/
theorem afterSelect_again {e' : Env} {g : OutConfig} (h : Env.Later o g e e') (x : OutRec) (pl : Option Place) :
    afterSelect e' c o (afterSelect e c o x pl) pl = afterSelect e c o x pl := by
  cases hm : x.cfg.mode with
  | fixed u => unfold afterSelect; rw [hm]; dsimp only; rw [hm]
  | chain k =>
    have h1 : afterSelect e c o x pl = { x with
        place := pl, awaits := none
        revert := nextRevert e c o { x with place := pl, awaits := none } (e.chains.get k) } := by unfold afterSelect; rw [hm]
    rw [h1]
    unfold afterSelect
    dsimp only
    rw [hm]
    dsimp only
    rw [h.chains]
    congr 1
    rw [nextRevert_eq, nextRevert_eq, h.betterPlaced]
    dsimp only
    cases hp : x.pin.isSome with
    | true => rfl
    | false =>
      simp only [Bool.false_eq_true, if_false]
      exact revertAfter_later e e' _ _ _

@[simp] theorem place_afterSelect (pl : Option Place) : (afterSelect e c o x pl).place =
    match x.cfg.mode with | .fixed _ => none | .chain _ => pl := by
  unfold afterSelect; cases x.cfg.mode <;> rfl

@[simp] theorem awaits_afterSelect (pl : Option Place) : (afterSelect e c o x pl).awaits = none := by
  unfold afterSelect; split <;> rfl

@[simp] theorem target_afterSelect (pl : Option Place) : (afterSelect e c o x pl).target = x.target := by
  unfold afterSelect; split <;> rfl

/-- A result at the place already taken posts no FAILOVER. -/
theorem failoverNote_again (e' : Env) (c : Sources) (o : Fin 8) (q : OutRec) (pl : Option Place) (kind : ResultKind)
    (h : ∀ k, q.cfg.mode = .chain k → q.place = pl) : failoverNote e' c o q false pl kind = [] := by
  unfold failoverNote
  cases hm : q.cfg.mode with
  | fixed u => rfl
  | chain k =>
    rw [h k hm]
    cases pl with
    | none => rfl
    | some a => simp

/-- A result that is not acted on posts no FAILOVER. -/
theorem failoverNote_none (e' : Env) (c : Sources) (o : Fin 8) (q : OutRec) (kind : ResultKind) :
    failoverNote e' c o q false none kind = [] := by
  unfold failoverNote
  cases hm : q.cfg.mode with
  | fixed u => rfl
  | chain k => cases q.place <;> rfl

end

/-! ### A second evaluation -/

section
variable {e e' : Env} {c : Sources} {o : Fin 8}

/-- A second selection after a result has been acted on with a closed gate, a running output or a release. -/
theorem again_select {g : OutConfig} (h : Env.Later o g e e') {r x : OutRec} (hx : Acted e c o r x) (pl : Option Place) :
    select e' c o (afterSelect e c o x pl) = ⟨afterSelect e c o x pl, false, (select e c o r).pick⟩ := by
  rw [h.select]; exact select_again (hx.follows pl)

/-- A release whose target stands for the result of the selection: neither a selection that is held back nor one on becoming
wanted again changes it. -/
theorem again_release {g : OutConfig} (h : Env.Later o g e e') {r x : OutRec} (hx : Acted e c o r x)
    (ht : x.target = pickTarget (select e c o r).pick) :
    let r' := afterSelect e c o x (select e c o r).pick.place
    selectRelease e' c o r' = (r', []) ∧ retargetRelease e' c o r' = (r', []) := by
  intro r'
  have hs : select e' c o r' = ⟨r', false, (select e c o r).pick⟩ := again_select h hx _
  have ha : afterSelect e' c o r' (select e c o r).pick.place = r' := afterSelect_again h x _
  have hpl : ∀ k, r'.cfg.mode = .chain k → r'.place = (select e c o r).pick.place := by
    intro k hk
    have : x.cfg.mode = .chain k := by simpa [r'] using hk
    simp [r', this]
  have hself : afterSelect e' c o r' r'.place = r' := by
    cases hm : r'.cfg.mode with
    | fixed u =>
      have h1 : r' = afterSelect e' c o r' (select e c o r).pick.place := ha.symm
      conv_rhs => rw [h1]
      unfold afterSelect; rw [hm]
    | chain k => rw [hpl k hm]; exact ha
  have haw : r'.awaits = none := by simp [r']
  have hna : nextAwaits e' c o r' ⟨r', false, (select e c o r).pick⟩ = none := by
    unfold nextAwaits
    split
    · rename_i k a hm hpa
      rw [hpl k hm] at hpa
      have hm' : r.cfg.mode = .chain k := by rw [← hm]; simp [r', hx.cfg]
      have hmv : movesAway e' c o k ⟨r', false, (select e c o r).pick⟩ a = false := by simp [movesAway, hpa]
      have hnow : positionReason e' c o r' (e'.chains.get k) a = none := by
        rw [h.positionReason, h.chains, positionReason_congr e c o (r := r) _ _ (by simp [r', hx.current]) (by simp [r', hx.refused])]
        exact positionReason_select hm' hpa
      simp [hmv, hnow]
    · rfl
  refine ⟨?_, ?_⟩
  · unfold selectRelease
    rw [hs]
    dsimp only
    rw [hself, hna, failoverNote_none, ← haw]
  · unfold retargetRelease
    rw [hs]
    dsimp only
    have htt : ({ r' with target := pickTarget (select e c o r).pick } : OutRec) = r' := by
      have : r'.target = pickTarget (select e c o r).pick := by simp [r', ht]
      rw [← this]
    rw [htt, ha, failoverNote_again e' c o { r' with awaits := idleAwaits e' c o r' } _ _ hpl]

/-- The reason that a later event gives is the same, or none. -/
theorem eventReason_later {g : OutConfig} (h : Env.Later o g e e') (k : Fin 4) (a : Place) :
    eventReason e' c o k a = none ∨ eventReason e' c o k a = eventReason e c o k a := by
  rcases h.cause with ⟨c1, c2⟩ | ⟨c1, c2⟩
  · left; unfold eventReason; simp [c1, c2 k]
  · right; unfold eventReason stoppedByRestart sourceBefore; rw [c1, c2]

theorem given_given (w : FailReason) (now : Option FailReason) : (w.given now).given now = w.given now := by
  unfold FailReason.given
  split_ifs <;> simp_all

theorem given_self (n : FailReason) : n.given (some n) = n := by
  unfold FailReason.given
  split_ifs with h
  · rw [h.1] at h; exact absurd h.2 (by simp)
  · rfl

/-- A reason brought up to date stands as it is. -/
theorem awaited_again (old now : Option FailReason) : awaited (awaited old now) now = awaited old now := by
  cases old with
  | some w => simp [awaited, given_given]
  | none =>
    cases now with
    | none => rfl
    | some n => exact congrArg some (given_self n)

/-- What a release awaits, found once, stands for a selection that gives the same result. -/
theorem nextAwaits_again {g : OutConfig} (h : Env.Later o g e e') {r r' : OutRec} {sel : Selected} (hc : r'.cfg = r.cfg)
    (hcur : r'.current = r.current) (href : r'.refused = r.refused)
    (hp : r'.place = match r.cfg.mode with | .fixed _ => none | .chain _ => r.place)
    (hu : ∀ k, unpinned e c o k ⟨r', false, sel.pick⟩ = unpinned e c o k sel)
    (ha : r'.awaits = nextAwaits e c o r sel) : nextAwaits e' c o r' ⟨r', false, sel.pick⟩ = r'.awaits := by
  have hu' : ∀ k, unpinned e' c o k ⟨r', false, sel.pick⟩ = unpinned e c o k sel := by
    intro k; rw [← hu]; unfold unpinned; rw [h.chainSelect, h.chains]
  have hnow : ∀ k a, positionReason e' c o r' (e'.chains.get k) a = positionReason e c o r (e.chains.get k) a := by
    intro k a; rw [h.positionReason, h.chains]; exact positionReason_congr e c o _ a hcur href
  conv_rhs => rw [ha]
  unfold nextAwaits at ha ⊢
  rw [hc, hp]
  cases hm : r.cfg.mode with
  | fixed u => rfl
  | chain k =>
    rw [hm] at ha
    dsimp only at ha ⊢
    cases hpa : r.place with
    | none => rfl
    | some a =>
      rw [hpa] at ha
      dsimp only at ha ⊢
      rw [hnow]
      generalize hn : positionReason e c o r (e.chains.get k) a = now at *
      have hmv : movesAway e' c o k ⟨r', false, sel.pick⟩ a = movesAway e c o k sel a := by
        unfold movesAway; rw [hu']
      rw [hmv]
      by_cases h1 : movesAway e c o k sel a = true
      · simp only [h1, if_true, Bool.false_eq_true, if_false] at ha ⊢
        set x := if sel.pinLost = true then some FailReason.pinLost else standingReason e c o r k a with hx
        rw [← ha]
        by_cases h2 : r'.awaits = some .pinLost
        · simp [standingReason, h2, awaited, FailReason.given]
        · have hst : standingReason e' c o r' k a = (eventReason e' c o k a).or r'.awaits := by simp [standingReason, h2]
          rw [hst]
          have hgo : awaited r'.awaits now = r'.awaits := by rw [ha]; exact awaited_again _ _
          rcases eventReason_later (c := c) h k a with h4 | h4
          · rw [h4]; exact hgo
          · rw [h4]
            cases h5 : eventReason e c o k a with
            | none => exact hgo
            | some why =>
              have hxw : x = some why := by
                by_cases h6 : sel.pinLost = true ∨ r.awaits = some .pinLost
                · exfalso
                  have : x = some .pinLost := by
                    rw [hx]; unfold standingReason
                    rcases h6 with h6 | h6 <;> simp [h6]
                  exact h2 (by rw [ha, this]; simp [awaited, FailReason.given])
                · simp only [not_or] at h6
                  rw [hx, if_neg h6.1]; unfold standingReason; rw [if_neg h6.2, h5]; rfl
              rw [ha, hxw]; rfl
      · simp only [h1, Bool.false_eq_true, if_false] at ha ⊢
        cases hs : now.isSome with
        | false => simp
        | true =>
          simp only [hs, if_true] at ha ⊢
          rw [ha]
          cases hf : r.awaits.filter FailReason.ofSource with
          | some w =>
            have hw : w.ofSource = true := (Option.filter_eq_some_iff.1 hf).2
            have hg : (w.given now).ofSource = true := by unfold FailReason.given; split_ifs; exacts [rfl, hw]
            have hf2 : (some (w.given now)).filter FailReason.ofSource = some (w.given now) := by simp [hg]
            show awaited ((some (w.given now)).filter FailReason.ofSource) now = some (w.given now)
            rw [hf2]; exact congrArg some (given_given w now)
          | none =>
            obtain ⟨n, rfl⟩ := Option.isSome_iff_exists.1 hs
            have hf2 : (some n).filter FailReason.ofSource = some n := by simp [ofSource_positionReason hn]
            show awaited ((some n).filter FailReason.ofSource) (some n) = some n
            rw [hf2]; exact congrArg some (given_self n)

/-- What the release phase of an output that is not wanted keeps, it keeps. -/
theorem idleRelease_again {g : OutConfig} (h : Env.Later o g e e') (r : OutRec) :
    idleRelease e' c o (idleRelease e c o r) = idleRelease e c o r := by
  have ha : idleAwaits e' c o (idleRelease e c o r) = idleAwaits e c o r := by
    have hnow : ∀ k a, positionReason e' c o (idleRelease e c o r) (e'.chains.get k) a = positionReason e c o r (e.chains.get k) a := by
      intro k a; rw [h.positionReason, h.chains]; exact positionReason_congr e c o _ a rfl rfl
    have hr : idleAwaits e c o r = (idleRelease e c o r).awaits := rfl
    have hp : (idleRelease e c o r).place = r.place := rfl
    rw [hr]
    unfold idleAwaits at hr ⊢
    rw [cfg_idleRelease, hp]
    cases hm : r.cfg.mode with
    | fixed u => rw [hm] at hr; exact hr
    | chain k =>
      cases hpa : r.place with
      | none => rw [hm, hpa] at hr; exact hr
      | some a =>
        rw [hm, hpa] at hr
        dsimp only at hr ⊢
        rw [hnow, ← hr]
        split_ifs
        · exact awaited_again _ _
        · simp [Option.filter_filter]
  unfold idleRelease at ha ⊢
  dsimp only
  rw [ha]

theorem gateLost_closed {r : OutRec} (h : r.gateOpen = false) : gateLost c r = false := by simp [gateLost, h]

/-- After a result acted on with a closed gate a further evaluation changes nothing. -/
theorem again_closed {g : OutConfig} (h : Env.Later o g e e') {r x : OutRec} (hcur : r.current = none) (hx : Acted e c o r x)
    (hw : wanted e.profile e.claims o r.cfg = true)
    (he : ∃ q : OutRec, x = actClosed e q (select e c o r).pick) :
    evalOut e' c o (afterSelect e c o x (select e c o r).pick.place)
      = (afterSelect e c o x (select e c o r).pick.place, []) := by
  obtain ⟨q, hq⟩ := he
  set p := (select e c o r).pick with hp
  set r' := afterSelect e c o x p.place with hr'
  have hs : select e' c o r' = ⟨r', false, p⟩ := again_select h hx _
  have ha : afterSelect e' c o r' p.place = r' := afterSelect_again h x _
  have hcfg : r'.cfg = r.cfg := by rw [hr', cfg_afterSelect]; exact hx.cfg
  have hw' : wanted e'.profile e'.claims o r'.cfg = true := by rw [h.profile, h.claims, hcfg]; exact hw
  have hst : r'.state = x.state := by simp [hr']
  have hgo : r'.gateOpen = false := by rw [hr', gateOpen_afterSelect, hq]; exact gateOpen_actClosed _ _ _
  have hpl : ∀ k, r'.cfg.mode = .chain k → r'.place = p.place := by
    intro k hk
    have : x.cfg.mode = .chain k := by simpa [hr'] using hk
    simp [hr', this]
  have hempty : r'.current = none ∧ r'.nextDiv = none ∧ r'.pending = none ∧ r'.target = x.target ∧ r'.phase = x.phase := by
    rw [hr', hq]
    refine ⟨?_, ?_, ?_, ?_, ?_⟩ <;> (unfold afterSelect; split <;> cases p <;> rfl)
  have hnote : ∀ (b : OutRec) kind, b.cfg = r'.cfg → b.place = r'.place → failoverNote e' c o b false p.place kind = [] := by
    intro b kind hb1 hb2
    exact failoverNote_again e' c o b _ _ fun k hk => by rw [hb2]; exact hpl k (by rw [← hb1]; exact hk)
  unfold evalOut
  rw [gateLost_closed hgo, hw']
  dsimp only
  rw [if_neg (by simp)]
  cases hpk : p with
  | use u pos =>
    have hxs : x.state = .switching .acquire ∧ x.target = some u := by rw [hq, hpk]; exact ⟨rfl, rfl⟩
    rw [hst, hxs.1]
    simp only [Bool.not_true, Bool.false_eq_true, if_false]
    have htu : targetUsable e' c o r' = true := by
      unfold targetUsable
      rw [hempty.2.2.2.1, hxs.2]
      dsimp only
      cases hm : r'.cfg.mode with
      | fixed f =>
        dsimp only
        rw [h.fixedUsable]
        have hf := use_fixed (by rw [← hcfg]; exact hm) (hp ▸ hpk : (select e c o r).pick = .use u pos)
        rw [← hf]
        unfold fixedUsable permittedOrKept OutRec.runsFrom
        rw [hempty.1, hcur]
        have : r'.refused = r.refused := by rw [hr', refused_afterSelect]; exact hx.refused
        rw [this]
      | chain k =>
        dsimp only
        rw [h.chains, h.eligible]
        have hu := use_select (by rw [← hcfg]; exact hm) (hp ▸ hpk : (select e c o r).pick = .use u pos)
        rw [eligible_congr e c o (r := r) (r' := r') _ (by rw [hempty.1, hcur])
          (by rw [hr', refused_afterSelect]; exact hx.refused), hu.1, Bool.true_and]
        unfold removedFromChain
        split
        · rw [h.chains]
          have hi : (anchorOf (e.chains.get k) u.src).isNone = false := by
            cases ho : anchorOf (e.chains.get k) u.src with
            | none => rw [ho] at hu; simp at hu
            | some y => rfl
          rw [hi]; simp
        · rfl
    rw [if_pos htu]
    unfold selectAcquire
    rw [hs]
    dsimp only
    have hact : actAcquire e' r' p = r' := by
      unfold actAcquire
      rw [hpk]
      have ht : r'.target = some u := by rw [hempty.2.2.2.1]; exact hxs.2
      rw [ht]
      dsimp only
      rw [if_pos rfl, ← ht, ← hempty.2.2.1]
    rw [hact, ha, hnote r' _ rfl rfl]
    simp [stateNote, hst, hxs.1]
  | wait u pos =>
    have hxs : x.state = .waiting ∧ x.target = some u ∧ x.phase = none := by rw [hq, hpk]; exact ⟨rfl, rfl, rfl⟩
    rw [hst, hxs.1]
    simp only [if_true]
    have hact : actClosed e' r' p = r' := by
      rw [hpk]
      unfold actClosed OutRec.closed
      dsimp only
      have h1 : r'.state = .waiting := by rw [hst]; exact hxs.1
      have h2 : r'.target = some u := by rw [hempty.2.2.2.1]; exact hxs.2.1
      have h3 : r'.phase = none := by rw [hempty.2.2.2.2]; exact hxs.2.2
      obtain ⟨e1, e2, e3, -, -⟩ := hempty
      revert h1 h2 h3 e1 e2 e3
      cases r'
      dsimp only
      rintro rfl rfl rfl rfl rfl rfl
      rfl
    unfold selectClosed
    rw [hs]
    dsimp only
    rw [hact, ha, hnote _ _ rfl rfl]
    simp [stateNote]
  | dark =>
    have hxs : x.state = .dark ∧ x.target = none ∧ x.phase = none := by rw [hq, hpk]; exact ⟨rfl, rfl, rfl⟩
    rw [hst, hxs.1]
    simp only [if_true]
    have hact : actClosed e' r' p = r' := by
      rw [hpk]
      unfold actClosed OutRec.closed
      dsimp only
      have h1 : r'.state = .dark := by rw [hst]; exact hxs.1
      have h2 : r'.target = none := by rw [hempty.2.2.2.1]; exact hxs.2.1
      have h3 : r'.phase = none := by rw [hempty.2.2.2.2]; exact hxs.2.2
      obtain ⟨e1, e2, e3, -, -⟩ := hempty
      revert h1 h2 h3 e1 e2 e3
      cases r'
      dsimp only
      rintro rfl rfl rfl rfl rfl rfl
      rfl
    unfold selectClosed
    rw [hs]
    dsimp only
    rw [hact, ha, hnote _ _ rfl rfl]
    simp [stateNote]

theorem acted_closed {r : OutRec} (hcur : r.current = none) :
    Acted e c o r (actClosed e (select e c o r).out (select e c o r).pick) := by
  refine ⟨by simp, by simp [hcur], by simp, ?_, ?_, ?_⟩
  · cases (select e c o r).pick <;> rfl
  · cases (select e c o r).pick <;> rfl
  · intro k _
    right
    cases (select e c o r).pick with
    | use u p => rfl
    | wait u p => left; rfl
    | dark => rfl

theorem again_selectClosed {g : OutConfig} (h : Env.Later o g e e') {r : OutRec} (hcur : r.current = none)
    (hw : wanted e.profile e.claims o r.cfg = true) (was : OutRec) (why : OutReason) (b : Bool) :
    evalOut e' c o (selectClosed e c o was r why b).1 = ((selectClosed e c o was r why b).1, []) :=
  again_closed h hcur (acted_closed hcur) hw ⟨_, rfl⟩

/-- An output at rest in PARKED or OFF stays there while it is not wanted. -/
theorem again_rested {g : OutConfig} (h : Env.Later o g e e') {r : OutRec} (hw : wanted e.profile e.claims o r.cfg = false) :
    evalOut e' c o r.rested = (r.rested, []) := by
  have hw' : wanted e'.profile e'.claims o r.cfg = false := by rw [h.profile, h.claims]; exact hw
  unfold evalOut
  rw [gateLost_closed (gateOpen_rested r), OutRec.cfg_rested, hw']
  by_cases he : r.cfg.enable = true <;> simp [OutRec.rested, OutRec.closed, he]

/-- A second evaluation of an output finds nothing to do, in the same event or in a later one that sees the same. -/
theorem evalOut_again {r : OutRec} (h : Env.Later o r.cfg e e') (hr : r.wf) :
    evalOut e' c o (evalOut e c o r).1 = ((evalOut e c o r).1, []) := by
  have hw' : ∀ q : OutRec, q.cfg = r.cfg → wanted e'.profile e'.claims o q.cfg = wanted e.profile e.claims o r.cfg := by
    intro q hq; rw [h.profile, h.claims, hq]
  have hclosed := fun (q : OutRec) (hq : q.current = none) hw => again_selectClosed (c := c) h (r := q) hq hw
  have hnone : r.gateOpen = false → r.current = none := by
    intro hg; have := hr.1; rw [hg] at this; simpa using this
  cases hw : wanted e.profile e.claims o r.cfg with
  | false =>
    have hrest : evalOut e' c o r.rested = (r.rested, []) := again_rested h hw
    by_cases hg : gateLost c r = true
    · have h1 : (evalOut e c o r).1 = r.rested := by unfold evalOut; simp [hg, hw, rest]
      rw [h1]; exact hrest
    · have hg' : gateLost c r = false := by simpa using hg
      cases hs : r.state with
      | off =>
        by_cases hen : r.cfg.enable = true
        · have h1 : (evalOut e c o r).1 = r.rested := by unfold evalOut; simp [hg', hw, hs, hen, rest]
          rw [h1]; exact hrest
        · have h1 : (evalOut e c o r).1 = r := by unfold evalOut; simp [hg', hs, hen]
          rw [h1]; unfold evalOut; simp [hg', hs, hen]
      | parked =>
        by_cases hen : r.cfg.enable = true
        · have h1 : (evalOut e c o r).1 = r := by unfold evalOut; simp [hg', hw, hs, hen]
          rw [h1]; unfold evalOut; simp [hg', hw' r rfl, hw, hs, hen]
        · have h1 : (evalOut e c o r).1 = r.rested := by unfold evalOut; simp [hg', hw, hs, hen, rest]
          rw [h1]; exact hrest
      | waiting =>
        have h1 : (evalOut e c o r).1 = r.rested := by unfold evalOut; simp [hg', hw, hs, rest]
        rw [h1]; exact hrest
      | dark =>
        have h1 : (evalOut e c o r).1 = r.rested := by unfold evalOut; simp [hg', hw, hs, rest]
        rw [h1]; exact hrest
      | running =>
        have h1 : (evalOut e c o r).1 = idleRelease e c o (beginRelease e r none) := by
          unfold evalOut; simp [hg', hw, hs]
        have hg2 : gateLost c (idleRelease e c o (beginRelease e r none)) = false := by
          unfold gateLost OutRec.gateOpen at hg' ⊢
          rw [hs] at hg'
          simpa [beginRelease] using hg'
        rw [h1]
        unfold evalOut
        rw [hg2, hw' _ (by rfl), hw]
        simp [idleRelease_again h, show (beginRelease e r none).state = .switching .release from rfl]
      | switching ph =>
        cases ph with
        | release =>
          have h1 : (evalOut e c o r).1 = idleRelease e c o r := by
            unfold evalOut; simp [hg', hw, hs]
          have hg2 : gateLost c (idleRelease e c o r) = false := hg'
          rw [h1]
          unfold evalOut
          rw [hg2, hw' _ (by rfl), hw]
          simp [hs, idleRelease_again h]
        | acquire =>
          have h1 : (evalOut e c o r).1 = r.rested := by unfold evalOut; simp [hg', hw, hs, rest]
          rw [h1]; exact hrest
  | true =>
    have hen : r.cfg.enable = true := by
      unfold wanted at hw; simp only [Bool.and_eq_true] at hw; exact hw.1
    by_cases hg : gateLost c r = true
    · have h1 : (evalOut e c o r).1 = (selectClosed e c o r r.shut .sourceLost false).1 := by unfold evalOut; simp [hg, hw]
      rw [h1]; exact hclosed r.shut rfl hw _ _ _
    · have hg' : gateLost c r = false := by simpa using hg
      -- A gate that stays open on the source it was open on is not lost.
      have hkeep : ∀ q : OutRec, q.current = r.current → r.gateOpen = true → gateLost c q = false := by
        intro q hq ho
        unfold gateLost at hg' ⊢
        rw [ho, Bool.true_and] at hg'
        rw [hq]
        cases q.gateOpen with
        | false => rfl
        | true => exact hg'
      cases hs : r.state with
      | off =>
        have h1 : (evalOut e c o r).1 = (selectClosed e c o r r (enableReason e) false).1 := by
          unfold evalOut; simp [hg', hw, hs, hen]
        rw [h1]; exact hclosed r (hnone (by simp [OutRec.gateOpen, hs])) hw _ _ _
      | parked =>
        have h1 : (evalOut e c o r).1 = (selectClosed e c o r r (wantReason e) false).1 := by
          unfold evalOut; simp [hg', hw, hs]
        rw [h1]; exact hclosed r (hnone (by simp [OutRec.gateOpen, hs])) hw _ _ _
      | waiting =>
        have h1 : (evalOut e c o r).1 = (selectClosed e c o r r .select false).1 := by
          unfold evalOut; simp [hg', hw, hs]
        rw [h1]; exact hclosed r (hnone (by simp [OutRec.gateOpen, hs])) hw _ _ _
      | dark =>
        have h1 : (evalOut e c o r).1 = (selectClosed e c o r r .select false).1 := by
          unfold evalOut; simp [hg', hw, hs]
        rw [h1]; exact hclosed r (hnone (by simp [OutRec.gateOpen, hs])) hw _ _ _
      | running =>
        have ho : r.gateOpen = true := by simp [OutRec.gateOpen, hs]
        have h1 : (evalOut e c o r).1 = (selectRunning e c o r).1 := by unfold evalOut; simp [hg', hw, hs]
        rw [h1]
        have hout : (select e c o r).out.state = .running := by rw [state_select]; exact hs
        -- A release begins with the target `t`.
        have hrel : ∀ t, actRunning e (select e c o r).out (select e c o r).pick = beginRelease e (select e c o r).out t →
            t = pickTarget (select e c o r).pick →
            evalOut e' c o (selectRunning e c o r).1 = ((selectRunning e c o r).1, []) := by
          intro t hact ht
          have hx : Acted e c o r (beginRelease e (select e c o r).out t) := by
            refine ⟨by simp, by simp [beginRelease], by simp [beginRelease], rfl, rfl, fun k _ => Or.inr ?_⟩
            rw [ht]
            cases (select e c o r).pick with
            | use u p => rfl
            | wait u p => right; rfl
            | dark => rfl
          have hr' : (selectRunning e c o r).1 =
              afterSelect e c o (beginRelease e (select e c o r).out t) (select e c o r).pick.place := by
            unfold selectRunning; dsimp only; rw [hact]
          obtain ⟨g1, g2⟩ := again_release h hx (by rw [← ht]; rfl)
          rw [hr']
          unfold evalOut
          rw [hkeep _ (by simp [beginRelease]) ho, hw' _ (by simp), hw]
          simp only [state_afterSelect, beginRelease, Bool.false_eq_true, if_false, Bool.not_true]
          split
          · exact g1
          · exact g2
        cases hpk : (select e c o r).pick with
        | use u pos =>
          cases hcu : (select e c o r).out.current with
          | none => exact hrel (some u) (by unfold actRunning; rw [hpk, hcu]) (by rw [hpk]; rfl)
          | some cu =>
            by_cases hsrc : u.src = cu.src
            · have hx : Acted e c o r { (select e c o r).out with nextDiv := if u.div = cu.div then none else some u.div } := by
                refine ⟨by simp, by simp, by simp, rfl, rfl, fun k _ => Or.inl ?_⟩
                unfold anchor
                simp only [hout, hs, current_select]
              have hr' : (selectRunning e c o r).1 = afterSelect e c o
                  { (select e c o r).out with nextDiv := if u.div = cu.div then none else some u.div }
                  (select e c o r).pick.place := by
                unfold selectRunning; dsimp only; unfold actRunning; rw [hpk, hcu]; dsimp only; rw [if_pos hsrc]
              set r' := (selectRunning e c o r).1 with hrr
              have hsel : select e' c o r' = ⟨r', false, (select e c o r).pick⟩ := by rw [hr']; exact again_select h hx _
              have ha : afterSelect e' c o r' (select e c o r).pick.place = r' := by rw [hr']; exact afterSelect_again h _ _
              have hst : r'.state = .running := by rw [hr', state_afterSelect]; exact hout
              have hcr : r'.current = some cu := by rw [hr', current_afterSelect]; exact hcu
              have hnd : r'.nextDiv = if u.div = cu.div then none else some u.div := by
                rw [hr']; unfold afterSelect; split <;> rfl
              have hcf : r'.cfg = r.cfg := by rw [hr']; simp
              have hpl : ∀ k, r'.cfg.mode = .chain k → r'.place = (select e c o r).pick.place := by
                intro k hk
                rw [hr', place_afterSelect]
                dsimp only
                rw [cfg_select, ← hcf, hk]
              have hact : actRunning e' r' (select e c o r).pick = r' := by
                unfold actRunning
                rw [hpk, hcr]
                dsimp only
                rw [if_pos hsrc, ← hnd, ← hcr]
              unfold evalOut
              rw [hkeep r' (by rw [hr', current_afterSelect]; exact current_select e c o r) ho, hw' _ hcf, hw, hst]
              simp only [Bool.false_eq_true, if_false, if_true]
              unfold selectRunning
              rw [hsel]
              dsimp only
              rw [hact, ha, failoverNote_again e' c o _ _ _ hpl]
              simp [stateNote]
            · exact hrel (some u) (by unfold actRunning; rw [hpk, hcu]; dsimp only; rw [if_neg hsrc]) (by rw [hpk]; rfl)
        | wait u pos => exact hrel (some u) (by unfold actRunning; rw [hpk]) (by rw [hpk]; rfl)
        | dark => exact hrel none (by unfold actRunning; rw [hpk]) (by rw [hpk]; rfl)
      | switching ph =>
        cases ph with
        | release =>
          have ho : r.gateOpen = true := by simp [OutRec.gateOpen, hs]
          cases hwb : e.wantedBefore.get o with
          | true =>
            have h1 : (evalOut e c o r).1 = (selectRelease e c o r).1 := by unfold evalOut; simp [hg', hw, hs, hwb]
            rw [h1]
            have hx : Acted e c o r (select e c o r).out := by
              refine ⟨by simp, by simp, by simp, rfl, rfl, fun k _ => Or.inl ?_⟩
              obtain ⟨p, v, hout, -⟩ := select_out e c o r
              rw [hout]; rfl
            set q := afterSelect e c o (select e c o r).out r.place with hq
            set r' := (selectRelease e c o r).1 with hrr
            have hr' : r' = { q with awaits := nextAwaits e c o r (select e c o r) } := rfl
            have hcf : r'.cfg = r.cfg := by rw [hr']; simp [hq]
            have hcur : r'.current = r.current := by rw [hr']; simp [hq]
            have hst : r'.state = .switching .release := by rw [hr']; simp [hq, hs]
            have hfol : Follows e c o r r' := by
              have hf := hx.follows r.place
              exact ⟨hf.cfg, hf.current, hf.refused, hf.pin, hf.revert, hf.anchor⟩
            have hsel : select e' c o r' = ⟨r', false, (select e c o r).pick⟩ := by rw [h.select]; exact select_again hfol
            have hplace : r'.place = match r.cfg.mode with | .fixed _ => none | .chain _ => r.place := by
              rw [hr']; simp [hq]
            have hself : { afterSelect e' c o r' r'.place with awaits := r'.awaits } = r' := by
              have hb : afterSelect e' c o r' r'.place = afterSelect e' c o q r.place := by
                unfold afterSelect
                have hqc : q.cfg = r.cfg := by simp [hq]
                rw [hcf, hqc]
                cases hm : r.cfg.mode with
                | fixed u => rw [hr']
                | chain k => dsimp only; rw [hplace, hm, hr']
              rw [hb, hq, afterSelect_again h, ← hq, hr']
            have hna : nextAwaits e' c o r' ⟨r', false, (select e c o r).pick⟩ = r'.awaits :=
              nextAwaits_again h hcf hcur hfol.refused hplace (fun k => by
                unfold unpinned
                have h1 : r'.pin = (select e c o r).out.pin := hfol.pin
                dsimp only
                rw [h1]
                split_ifs
                · rw [hr', hq]; unfold afterSelect; split <;> rfl
                · rfl) rfl
            unfold evalOut
            rw [hkeep r' hcur ho, hw' _ hcf, hw, hst]
            simp only [Bool.false_eq_true, if_false, Bool.not_true, h.wanted hwb hw, if_true]
            unfold selectRelease
            rw [hsel]
            dsimp only
            rw [hna, hself, failoverNote_none]
          | false =>
            have h1 : (evalOut e c o r).1 = (retargetRelease e c o r).1 := by unfold evalOut; simp [hg', hw, hs, hwb]
            rw [h1]
            have hx : Acted e c o r { (select e c o r).out with target := pickTarget (select e c o r).pick } := by
              refine ⟨by simp, by simp, by simp, rfl, rfl, fun k _ => Or.inr ?_⟩
              unfold anchor
              simp only [state_select, hs]
              cases (select e c o r).pick with
              | use u p => rfl
              | wait u p => right; rfl
              | dark => rfl
            set r' := (retargetRelease e c o r).1 with hrr
            obtain ⟨g1, g2⟩ : selectRelease e' c o r' = (r', []) ∧ retargetRelease e' c o r' = (r', []) :=
              again_release h hx rfl
            have hcf : r'.cfg = r.cfg := by rw [hrr]; simp [retargetRelease]
            have hcur : r'.current = r.current := by rw [hrr]; simp [retargetRelease]
            have hst : r'.state = .switching .release := by rw [hrr]; simp [retargetRelease, hs]
            unfold evalOut
            rw [hkeep r' hcur ho, hw' _ hcf, hw, hst]
            simp only [Bool.false_eq_true, if_false, Bool.not_true]
            split
            · exact g1
            · exact g2
        | acquire =>
          have hcur : r.current = none := hnone (by simp [OutRec.gateOpen, hs])
          cases htu : targetUsable e c o r with
          | false =>
            have h1 : (evalOut e c o r).1 = (selectClosed e c o r r.closed .abandoned true).1 := by
              unfold evalOut; simp [hg', hw, hs, htu]
            rw [h1]; exact hclosed r.closed rfl hw _ _ _
          | true =>
            have h1 : (evalOut e c o r).1 = (selectAcquire e c o r).1 := by unfold evalOut; simp [hg', hw, hs, htu]
            rw [h1]
            obtain ⟨t, ht⟩ : ∃ t, r.target = some t := by
              unfold targetUsable at htu
              cases htt : r.target with
              | none => rw [htt] at htu; cases htu
              | some t => exact ⟨t, rfl⟩
            obtain ⟨pp, vv, hout, -⟩ := select_out e c o r
            have htg : (select e c o r).out.target = some t := by rw [hout]; exact ht
            have hostate : (select e c o r).out.state = .switching .acquire := by rw [state_select]; exact hs
            -- The acquire goes on with `x`.
            have hgo : ∀ (x : OutRec) (t' : Use), actAcquire e (select e c o r).out (select e c o r).pick = x →
                x.cfg = r.cfg → x.current = r.current → x.refused = r.refused → x.pin = (select e c o r).out.pin →
                x.revert = (select e c o r).out.revert → x.state = .switching .acquire → x.target = some t' → t'.src = t.src →
                (∀ q : OutRec, q.target = x.target → q.pending = x.pending → actAcquire e' q (select e c o r).pick = q) →
                evalOut e' c o (selectAcquire e c o r).1 = ((selectAcquire e c o r).1, []) := by
              intro x t' hact hx1 hx2 hx3 hx4 hx5 hx6 hx7 htsrc hfix
              have hx : Acted e c o r x := by
                refine ⟨hx1, hx2, hx3, hx4, hx5, fun k _ => Or.inl ?_⟩
                unfold anchor
                simp only [hx6, hs, hx7, ht, Option.bind_some, htsrc]
              have hr' : (selectAcquire e c o r).1 = afterSelect e c o x (select e c o r).pick.place := by
                unfold selectAcquire; dsimp only; rw [hact]
              set r' := (selectAcquire e c o r).1 with hrr
              have hsel : select e' c o r' = ⟨r', false, (select e c o r).pick⟩ := by rw [hr']; exact again_select h hx _
              have ha : afterSelect e' c o r' (select e c o r).pick.place = r' := by rw [hr']; exact afterSelect_again h _ _
              have hcf : r'.cfg = r.cfg := by rw [hr', cfg_afterSelect]; exact hx1
              have hst : r'.state = .switching .acquire := by rw [hr', state_afterSelect]; exact hx6
              have htr : r'.target = x.target := by rw [hr', target_afterSelect]
              have hpr : r'.pending = x.pending := by rw [hr']; unfold afterSelect; split <;> rfl
              have hcr : r'.current = r.current := by rw [hr', current_afterSelect]; exact hx2
              have hrf : r'.refused = r.refused := by rw [hr', refused_afterSelect]; exact hx3
              have hpl : ∀ k, r'.cfg.mode = .chain k → r'.place = (select e c o r).pick.place := by
                intro k hk
                rw [hr', place_afterSelect, hx1, ← hcf, hk]
              have htu' : targetUsable e' c o r' = true := by
                unfold targetUsable at htu ⊢
                rw [ht] at htu
                rw [htr, hx7]
                dsimp only at htu ⊢
                rw [hcf]
                cases hm : r.cfg.mode with
                | fixed f =>
                  rw [hm] at htu
                  dsimp only at htu ⊢
                  rw [h.fixedUsable, ← htu, htsrc]
                  unfold fixedUsable permittedOrKept OutRec.runsFrom
                  rw [hcr, hrf]
                | chain k =>
                  rw [hm] at htu
                  dsimp only at htu ⊢
                  rw [htsrc, h.chains, h.eligible, eligible_congr e c o _ hcr hrf]
                  simp only [Bool.and_eq_true, Bool.not_eq_true'] at htu ⊢
                  refine ⟨htu.1, ?_⟩
                  by_contra hc
                  simp only [Bool.not_eq_false] at hc
                  rw [h.removed k _ hc] at htu
                  cases htu.2
              unfold evalOut
              rw [gateLost_closed (by simp [OutRec.gateOpen, hst]), hw' _ hcf, hw, hst]
              simp only [Bool.false_eq_true, if_false, Bool.not_true, htu', if_true]
              unfold selectAcquire
              rw [hsel]
              dsimp only
              rw [hfix r' htr hpr, ha, failoverNote_again e' c o _ _ _ hpl]
              simp [stateNote]
            -- The acquire gives way to a result that needs no gate.
            have hend : actAcquire e (select e c o r).out (select e c o r).pick =
                actClosed e (select e c o r).out (select e c o r).pick →
                evalOut e' c o (selectAcquire e c o r).1 = ((selectAcquire e c o r).1, []) := by
              intro hact
              have hr' : (selectAcquire e c o r).1 =
                  afterSelect e c o (actClosed e (select e c o r).out (select e c o r).pick) (select e c o r).pick.place := by
                unfold selectAcquire; dsimp only; rw [hact]
              rw [hr']
              exact again_closed h hcur (acted_closed hcur) hw ⟨_, rfl⟩
            cases hpk : (select e c o r).pick with
            | use u pos =>
              by_cases hsrc : u.src = t.src
              · refine hgo { (select e c o r).out with target := some u, pending := none } u ?_ (by simp) (by simp) (by simp)
                  rfl rfl hostate rfl hsrc ?_
                · unfold actAcquire; rw [hpk, htg]; dsimp only; rw [if_pos hsrc]
                · intro q hq1 hq2
                  unfold actAcquire; rw [hpk, hq1]; dsimp only
                  rw [if_pos rfl]
                  dsimp only at hq1 hq2
                  rw [← hq1, ← hq2]
              · refine hgo { (select e c o r).out with pending := some u } t ?_ (by simp) (by simp) (by simp)
                  rfl rfl hostate htg rfl ?_
                · unfold actAcquire; rw [hpk, htg]; dsimp only; rw [if_neg hsrc, ← htg]
                · intro q hq1 hq2
                  have hqt : q.target = some t := hq1.trans htg
                  unfold actAcquire; rw [hpk, hqt]; dsimp only
                  rw [if_neg hsrc]
                  dsimp only at hq2
                  rw [← hq2, ← hqt]
            | wait u pos => exact hend (by unfold actAcquire; rw [hpk])
            | dark => exact hend (by unfold actAcquire; rw [hpk])

end

end Sys2Proof.Machine
end

