-- ==== Sys2Proof/Laws/PerInstr.lean ====
section
/-! SUPPORT. Laws/PerInstr.lean: what holds of every command as syntax: the frame of a request command is one the link can carry. -/

namespace Sys2Proof.Laws.RequestFrame

open Sys2Proof Sys2Proof.Machine

/-- The kind of a request command is a request kind, and a body that fits is at most 120 bytes long (section 11.1). -/
def Statement (i : Instr) : Prop :=
  ∀ tag r, i.request? = some (tag, r) → r.kind ∈ requestKinds ∧ (r.fits = true → r.body.length ≤ 120)

/-- A request of fixed length meets the statement. -/
theorem of_short {i : Instr} {tag : Byte} {r : Request} (h : i.request? = some (tag, r)) (hk : r.kind ∈ requestKinds)
    (hl : r.body.length ≤ 120) : Statement i := by
  intro t q hq
  rw [h] at hq
  cases hq
  exact ⟨hk, fun _ => hl⟩

/-- A command that is no request meets the statement. -/
theorem of_event {i : Instr} (h : i.request? = none) : Statement i := by
  intro t q hq
  rw [h] at hq
  cases hq

theorem length_flatMap_const {α : Type} (f : α → List Byte) (n : Nat) (h : ∀ x, (f x).length = n) (l : List α) :
    (l.flatMap f).length = n * l.length := by
  induction l with
  | nil => rfl
  | cons x xs ih => rw [List.flatMap_cons, List.length_append, ih, h, List.length_cons]; ring

theorem identify : ∀ tag, Statement (.identify tag) := by
  intro tag
  exact of_short rfl (of_decide_eq_true rfl) (Nat.le_of_ble_eq_true rfl)
theorem echo : ∀ tag body, Statement (.echo tag body) := by
  intro tag body t q hq
  cases hq
  refine ⟨of_decide_eq_true rfl, fun h => ?_⟩
  have : body.length ≤ 118 := of_decide_eq_true h
  show body.length ≤ 120
  omega
theorem restart : ∀ tag, Statement (.restart tag) := by
  intro tag
  exact of_short rfl (of_decide_eq_true rfl) (Nat.le_of_ble_eq_true rfl)
theorem sourceSet : ∀ tag req, Statement (.sourceSet tag req) := by
  intro tag req
  exact of_short rfl (of_decide_eq_true rfl) (Nat.le_of_ble_eq_true rfl)
theorem sourceQuery : ∀ tag source, Statement (.sourceQuery tag source) := by
  intro tag source
  exact of_short rfl (of_decide_eq_true rfl) (Nat.le_of_ble_eq_true rfl)
theorem sourceKeep : ∀ tag source flag, Statement (.sourceKeep tag source flag) := by
  intro tag source flag
  exact of_short rfl (of_decide_eq_true rfl) (Nat.le_of_ble_eq_true rfl)
theorem sourceClear : ∀ tag source, Statement (.sourceClear tag source) := by
  intro tag source
  exact of_short rfl (of_decide_eq_true rfl) (Nat.le_of_ble_eq_true rfl)
theorem monitorSet : ∀ tag req, Statement (.monitorSet tag req) := by
  intro tag req
  exact of_short rfl (of_decide_eq_true rfl) (Nat.le_of_ble_eq_true rfl)
theorem monitorQuery : ∀ tag, Statement (.monitorQuery tag) := by
  intro tag
  exact of_short rfl (of_decide_eq_true rfl) (Nat.le_of_ble_eq_true rfl)
theorem outputSet : ∀ tag req, Statement (.outputSet tag req) := by
  intro tag req
  exact of_short rfl (of_decide_eq_true rfl) (Nat.le_of_ble_eq_true rfl)
theorem outputQuery : ∀ tag output, Statement (.outputQuery tag output) := by
  intro tag output
  exact of_short rfl (of_decide_eq_true rfl) (Nat.le_of_ble_eq_true rfl)
theorem outputSelect : ∀ tag output entry, Statement (.outputSelect tag output entry) := by
  intro tag output entry
  exact of_short rfl (of_decide_eq_true rfl) (Nat.le_of_ble_eq_true rfl)
theorem chainSet : ∀ tag req, Statement (.chainSet tag req) := by
  intro tag r t q hq
  cases hq
  refine ⟨of_decide_eq_true rfl, fun h => ?_⟩
  have hl : 8 + 3 * r.entries.length ≤ 120 := of_decide_eq_true h
  have hb := length_flatMap_const (fun e : RawEntry => [e.source] ++ b2 e.divider) 3 (fun _ => rfl) r.entries
  have he : (Request.body (.chainSet r)).length = 8 + 3 * r.entries.length := by
    rw [Request.body, List.length_append, hb]; rfl
  omega
theorem chainQuery : ∀ tag chain, Statement (.chainQuery tag chain) := by
  intro tag chain
  exact of_short rfl (of_decide_eq_true rfl) (Nat.le_of_ble_eq_true rfl)
theorem claim : ∀ tag req, Statement (.claim tag req) := by
  intro tag req
  exact of_short rfl (of_decide_eq_true rfl) (Nat.le_of_ble_eq_true rfl)
theorem release : ∀ tag claimant output, Statement (.release tag claimant output) := by
  intro tag claimant output
  exact of_short rfl (of_decide_eq_true rfl) (Nat.le_of_ble_eq_true rfl)
theorem releaseAll : ∀ tag claimant, Statement (.releaseAll tag claimant) := by
  intro tag claimant
  exact of_short rfl (of_decide_eq_true rfl) (Nat.le_of_ble_eq_true rfl)
theorem claimList : ∀ tag first, Statement (.claimList tag first) := by
  intro tag first
  exact of_short rfl (of_decide_eq_true rfl) (Nat.le_of_ble_eq_true rfl)
theorem lineMapSet : ∀ tag req, Statement (.lineMapSet tag req) := by
  intro tag r t q hq
  cases hq
  refine ⟨of_decide_eq_true rfl, fun h => ?_⟩
  have hl : 5 + 2 * r.pairs.length ≤ 120 := of_decide_eq_true h
  have hb := length_flatMap_const (fun p : RawPair => [p.output, p.level]) 2 (fun _ => rfl) r.pairs
  have he : (Request.body (.lineMapSet r)).length = 5 + 2 * r.pairs.length := by
    rw [Request.body, List.length_append, hb]; rfl
  omega
theorem lineQuery : ∀ tag line, Statement (.lineQuery tag line) := by
  intro tag line
  exact of_short rfl (of_decide_eq_true rfl) (Nat.le_of_ble_eq_true rfl)
theorem profileSet : ∀ tag req, Statement (.profileSet tag req) := by
  intro tag req
  exact of_short rfl (of_decide_eq_true rfl) (Nat.le_of_ble_eq_true rfl)
theorem profileQuery : ∀ tag profile, Statement (.profileQuery tag profile) := by
  intro tag profile
  exact of_short rfl (of_decide_eq_true rfl) (Nat.le_of_ble_eq_true rfl)
theorem profileEnter : ∀ tag profile, Statement (.profileEnter tag profile) := by
  intro tag profile
  exact of_short rfl (of_decide_eq_true rfl) (Nat.le_of_ble_eq_true rfl)
theorem resume : ∀ tag, Statement (.resume tag) := by
  intro tag
  exact of_short rfl (of_decide_eq_true rfl) (Nat.le_of_ble_eq_true rfl)
theorem resumeTarget : ∀ tag profile, Statement (.resumeTarget tag profile) := by
  intro tag profile
  exact of_short rfl (of_decide_eq_true rfl) (Nat.le_of_ble_eq_true rfl)
theorem stackQuery : ∀ tag, Statement (.stackQuery tag) := by
  intro tag
  exact of_short rfl (of_decide_eq_true rfl) (Nat.le_of_ble_eq_true rfl)
theorem timeQuery : ∀ tag, Statement (.timeQuery tag) := by
  intro tag
  exact of_short rfl (of_decide_eq_true rfl) (Nat.le_of_ble_eq_true rfl)
theorem actionAdd : ∀ tag req, Statement (.actionAdd tag req) := by
  intro tag req
  exact of_short rfl (of_decide_eq_true rfl) (Nat.le_of_ble_eq_true rfl)
theorem actionCancel : ∀ tag number, Statement (.actionCancel tag number) := by
  intro tag number
  exact of_short rfl (of_decide_eq_true rfl) (Nat.le_of_ble_eq_true rfl)
theorem actionList : ∀ tag first, Statement (.actionList tag first) := by
  intro tag first
  exact of_short rfl (of_decide_eq_true rfl) (Nat.le_of_ble_eq_true rfl)
theorem noticeAck : ∀ tag number, Statement (.noticeAck tag number) := by
  intro tag number
  exact of_short rfl (of_decide_eq_true rfl) (Nat.le_of_ble_eq_true rfl)
theorem noticeResend : ∀ tag, Statement (.noticeResend tag) := by
  intro tag
  exact of_short rfl (of_decide_eq_true rfl) (Nat.le_of_ble_eq_true rfl)
theorem noticeFilter : ∀ tag filter, Statement (.noticeFilter tag filter) := by
  intro tag filter
  exact of_short rfl (of_decide_eq_true rfl) (Nat.le_of_ble_eq_true rfl)
theorem imageSave : ∀ tag profile, Statement (.imageSave tag profile) := by
  intro tag profile
  exact of_short rfl (of_decide_eq_true rfl) (Nat.le_of_ble_eq_true rfl)
theorem imageInfo : ∀ tag, Statement (.imageInfo tag) := by
  intro tag
  exact of_short rfl (of_decide_eq_true rfl) (Nat.le_of_ble_eq_true rfl)
theorem unknownKind : ∀ tag kind, Statement (.unknownKind tag kind) := by
  intro tag kind
  exact of_event rfl
theorem characterReceived : ∀ char framingError, Statement (.characterReceived char framingError) := by
  intro char framingError
  exact of_event rfl
theorem gap : Statement (.gap) := by
  exact of_event rfl
theorem linkBreak : Statement (.linkBreak) := by
  exact of_event rfl
theorem frameSent : Statement (.frameSent) := by
  exact of_event rfl
theorem coldStart : ∀ supply, Statement (.coldStart supply) := by
  intro supply
  exact of_event rfl
theorem powerupEnd : ∀ br1 br0, Statement (.powerupEnd br1 br0) := by
  intro br1 br0
  exact of_event rfl
theorem selectDone : Statement (.selectDone) := by
  exact of_event rfl
theorem live : ∀ pins, Statement (.live pins) := by
  intro pins
  exact of_event rfl
theorem startDetection : ∀ source, Statement (.startDetection source) := by
  intro source
  exact of_event rfl
theorem startTimerExpiry : ∀ source, Statement (.startTimerExpiry source) := by
  intro source
  exact of_event rfl
theorem lockDetection : Statement (.lockDetection) := by
  exact of_event rfl
theorem lockTimerExpiry : Statement (.lockTimerExpiry) := by
  exact of_event rfl
theorem quarantineExpiry : ∀ source, Statement (.quarantineExpiry source) := by
  intro source
  exact of_event rfl
theorem rehabilitationExpiry : ∀ source, Statement (.rehabilitationExpiry source) := by
  intro source
  exact of_event rfl
theorem surveyCompletion : ∀ xa xb ref syn, Statement (.surveyCompletion xa xb ref syn) := by
  intro xa xb ref syn
  exact of_event rfl
theorem releaseEnd : ∀ output, Statement (.releaseEnd output) := by
  intro output
  exact of_event rfl
theorem releaseTimeout : ∀ output, Statement (.releaseTimeout output) := by
  intro output
  exact of_event rfl
theorem acquireEnd : ∀ output, Statement (.acquireEnd output) := by
  intro output
  exact of_event rfl
theorem acquireTimeout : ∀ output, Statement (.acquireTimeout output) := by
  intro output
  exact of_event rfl
theorem dividerChange : ∀ output, Statement (.dividerChange output) := by
  intro output
  exact of_event rfl
theorem revertTimerExpiry : ∀ output, Statement (.revertTimerExpiry output) := by
  intro output
  exact of_event rfl
theorem leaseExpiry : ∀ claimant output, Statement (.leaseExpiry claimant output) := by
  intro claimant output
  exact of_event rfl
theorem lineActivation : ∀ line, Statement (.lineActivation line) := by
  intro line
  exact of_event rfl
theorem lineDeactivation : ∀ line, Statement (.lineDeactivation line) := by
  intro line
  exact of_event rfl
theorem holdExpiry : ∀ line, Statement (.holdExpiry line) := by
  intro line
  exact of_event rfl
theorem wakePinEdge : Statement (.wakePinEdge) := by
  exact of_event rfl
theorem tick : Statement (.tick) := by
  exact of_event rfl
theorem actionFiring : Statement (.actionFiring) := by
  exact of_event rfl
theorem eraseComplete : Statement (.eraseComplete) := by
  exact of_event rfl
theorem writeComplete : Statement (.writeComplete) := by
  exact of_event rfl
theorem checkComplete : ∀ good, Statement (.checkComplete good) := by
  intro good
  exact of_event rfl
theorem resetRelease : Statement (.resetRelease) := by
  exact of_event rfl

end Sys2Proof.Laws.RequestFrame
end

