-- ==== Sys2Proof/Laws/Rest.lean ====
section
/-! SUPPORT. Laws/Rest.lean: an event's course ends at rest (`rests_settle`): no output and no source is left to move. Outputs tell no
more of a source than its class (`feedClass`), a round that stops no source in use moves no output, and only four sources can be
stopped in use, so that the rounds suffice (R4, R54; log 30). -/

namespace Sys2Proof.Machine

/-! ### What outputs tell of the sources -/

/-- One state for each class of states that no output can tell apart. -/
def feedClass : OscState → OscState
  | .off => .off
  | .starting => .off
  | .verifying => .off
  | .running => .running
  | .suspect => .suspect
  | .faulted => .faulted
  | .quarantined => .faulted
  | .lockedOut => .faulted

/-- Source by source in the same class. -/
def SameClass (c d : Sources) : Prop := ∀ x, feedClass (c.osc.get x).state = feedClass (d.osc.get x).state

section
variable {c d : Sources} (h : SameClass c d)
include h

theorem SameClass.feeds (s : Src) : feeds c s = feeds d s := by
  cases s with
  | rco => rfl
  | osc x =>
    have hx := h x
    unfold Machine.feeds
    dsimp only
    generalize (c.osc.get x).state = a at *
    generalize (d.osc.get x).state = b at *
    cases a <;> cases b <;> first | rfl | simp [feedClass] at hx

theorem SameClass.comingUp (s : Src) : comingUp c s = comingUp d s := by
  cases s with
  | rco => rfl
  | osc x =>
    have hx := h x
    unfold Machine.comingUp
    dsimp only
    generalize (c.osc.get x).state = a at *
    generalize (d.osc.get x).state = b at *
    cases a <;> cases b <;> first | rfl | simp [feedClass] at hx

theorem SameClass.eligible (e : Env) (o : Fin 8) (r : OutRec) (ch : ChainRec) (s : Src) :
    eligible e c o r ch s = eligible e d o r ch s := by
  cases s with
  | rco => rfl
  | osc x =>
    have hx := h x
    unfold Machine.eligible
    dsimp only
    generalize (c.osc.get x).state = a at *
    generalize (d.osc.get x).state = b at *
    cases a <;> cases b <;> first | rfl | simp [feedClass] at hx

theorem SameClass.sourceReason (e : Env) (o : Fin 8) (r : OutRec) (ch : ChainRec) (old : Place) (s : Src) :
    sourceReason e c o r ch old s = sourceReason e d o r ch old s := by
  cases s with
  | rco => rfl
  | osc x =>
    have hx := h x
    unfold Machine.sourceReason
    dsimp only
    generalize (c.osc.get x).state = a at *
    generalize (d.osc.get x).state = b at *
    cases a <;> cases b <;> first | rfl | simp [feedClass] at hx

theorem SameClass.startable (e : Env) (r : OutRec) (s : Src) : startable e c r s = startable e d r s := by
  unfold Machine.startable standbyCandidate; rw [h.feeds, h.comingUp]

theorem SameClass.earlierEligible (e : Env) (o : Fin 8) (r : OutRec) (ch : ChainRec) (j : Fin 4) :
    earlierEligible e c o r ch j = earlierEligible e d o r ch j := by
  unfold Machine.earlierEligible; simp only [h.eligible]

theorem SameClass.select (e : Env) (o : Fin 8) (r : OutRec) : select e c o r = select e d o r := by
  unfold Machine.select fixedSelect fixedUsable pinnedUse chainSelect holdBack
  simp only [h.feeds, h.comingUp, h.eligible, h.earlierEligible, h.startable]

theorem SameClass.afterSelect (e : Env) (o : Fin 8) (r : OutRec) (p : Option Place) :
    afterSelect e c o r p = afterSelect e d o r p := by
  unfold Machine.afterSelect nextRevert betterPlaced; simp only [h.earlierEligible]

theorem SameClass.positionReason (e : Env) (o : Fin 8) (r : OutRec) (ch : ChainRec) (a : Place) :
    positionReason e c o r ch a = positionReason e d o r ch a := by
  unfold Machine.positionReason; rw [funext fun s => h.sourceReason e o r ch a s]

theorem SameClass.eventReason (e : Env) (o : Fin 8) (k : Fin 4) (a : Place) : eventReason e c o k a = eventReason e d o k a := by
  unfold Machine.eventReason stoppedByRestart; simp only [h.comingUp]

theorem SameClass.failReason (e : Env) (o : Fin 8) (r : OutRec) (k : Fin 4) (a b : Place) :
    failReason e c o r k a b = failReason e d o r k a b := by
  unfold Machine.failReason standingReason; simp only [h.eventReason, h.positionReason]

theorem SameClass.unpinned (e : Env) (o : Fin 8) (k : Fin 4) (sel : Selected) : unpinned e c o k sel = unpinned e d o k sel := by
  unfold Machine.unpinned chainSelect holdBack; simp only [h.eligible, h.earlierEligible, h.startable]

theorem SameClass.nextAwaits (e : Env) (o : Fin 8) (r : OutRec) (sel : Selected) : nextAwaits e c o r sel = nextAwaits e d o r sel := by
  unfold Machine.nextAwaits movesAway standingReason; simp only [h.unpinned, h.positionReason, h.eventReason]

theorem SameClass.idleAwaits (e : Env) (o : Fin 8) (r : OutRec) : idleAwaits e c o r = idleAwaits e d o r := by
  unfold Machine.idleAwaits; simp only [h.positionReason]

theorem SameClass.failoverNote (e : Env) (o : Fin 8) (r : OutRec) (lost : Bool) (p : Option Place) (k : ResultKind) :
    failoverNote e c o r lost p k = failoverNote e d o r lost p k := by
  unfold Machine.failoverNote; simp only [h.failReason]

theorem SameClass.selectClosed (e : Env) (o : Fin 8) (was r : OutRec) (why : OutReason) (b : Bool) :
    selectClosed e c o was r why b = selectClosed e d o was r why b := by
  unfold Machine.selectClosed; simp only [h.select, h.afterSelect, h.failoverNote]

/-- An output's evaluation is the same. -/
theorem SameClass.evalOut (e : Env) (o : Fin 8) (r : OutRec) : evalOut e c o r = evalOut e d o r := by
  have hg : gateLost c r = gateLost d r := by unfold gateLost; simp only [h.feeds]
  have ht : targetUsable e c o r = targetUsable e d o r := by
    unfold targetUsable fixedUsable; simp only [h.feeds, h.eligible]
  have h1 : selectRunning e c o r = selectRunning e d o r := by
    unfold selectRunning; simp only [h.select, h.afterSelect, h.failoverNote]
  have h2 : selectAcquire e c o r = selectAcquire e d o r := by
    unfold selectAcquire; simp only [h.select, h.afterSelect, h.failoverNote]
  have h3 : selectRelease e c o r = selectRelease e d o r := by
    unfold selectRelease; simp only [h.select, h.afterSelect, h.failoverNote, h.nextAwaits]
  have h4 : retargetRelease e c o r = retargetRelease e d o r := by
    unfold retargetRelease; simp only [h.select, h.afterSelect, h.failoverNote, h.idleAwaits]
  have h5 : ∀ r, idleRelease e c o r = idleRelease e d o r := by
    intro r; unfold idleRelease; rw [h.idleAwaits]
  unfold Machine.evalOut
  simp only [hg, ht, h1, h2, h3, h4, h5, h.selectClosed]

theorem SameClass.standbyEntry (e : Env) (r : OutRec) : standbyEntry e c r = standbyEntry e d r := by
  unfold Machine.standbyEntry standbyCandidate; simp only [h.feeds, h.comingUp]

end

/-- Demand is the same where outputs, keep flags and SYN's input are, and the sources are in the same classes. -/
theorem demanded_congr {e : Env} {k l : Clocks} (hs : SameClass k.src l.src) (ho : k.outs = l.outs)
    (hc : ∀ x, (k.src.osc.get x).cfg.keep = (l.src.osc.get x).cfg.keep) (hi : k.src.syn = l.src.syn) (x : Osc) :
    demanded e k x = demanded e l x := by
  have hd : ∀ y, demandedDirectly e k y = demandedDirectly e l y := by
    intro y
    unfold demandedDirectly usedAsStandby
    simp only [hc, ho, hs.standbyEntry]
  unfold demanded
  simp only [hd, hi]

/-- A later event that sees the same sees the same demand. -/
theorem demanded_later {G : Fin 8 → OutConfig} {e e' : Env} (h : ∀ o, Env.Later o (G o) e e') (k : Clocks) (x : Osc) :
    demanded e' k x = demanded e k x := by
  have hp : ∀ o r s, permittedOrKept e' o r s = permittedOrKept e o r s := by
    intro o r s; unfold permittedOrKept; rw [(h o).profile, (h o).claims]
  have hd : ∀ y, demandedDirectly e' k y = demandedDirectly e k y := by
    intro y
    unfold demandedDirectly usedByOutput usedBy usedAsStandby standbyEntry standbyCandidate
    simp only [hp, (h 0).chains, (h 0).profile]
  unfold demanded
  simp only [hd]

/-! ### One round of demand -/

/-- The state that a source with demand `want` is left in (R4). -/
def movedState (want : Bool) (st : OscState) : OscState :=
  if want && decide (st = .off) then .starting else if mustStop want st then .off else st

theorem osc_applyDemand (e : Env) (want : BankOsc Bool) (v : Ev) (o x : Osc) : ((applyDemand e want v o).osc x).state =
    if x = o then movedState (want.get o) (v.osc o).state else (v.osc x).state := by
  unfold applyDemand movedState
  split_ifs with h1 h2 h3 h3 <;>
    simp_all [enterStarting, enterOff, Ev.osc_changeOsc, OscRec.started, OscRec.stopped]

theorem osc_demandPass (e : Env) (v : Ev) (x : Osc) :
    ((demandPass e v).osc x).state = movedState (demanded e v.clk x) (v.osc x).state := by
  have hlock : ∀ u : Ev, ((lockCheck e u).osc x).state = (u.osc x).state := by
    intro u
    unfold lockCheck
    dsimp only
    split_ifs
    · rw [Ev.osc_putOsc]; split
      · rename_i hx; subst hx; rfl
      · rfl
    · rfl
  unfold demandPass
  rw [hlock]
  simp only [oscsSynFirst, List.foldl_cons, List.foldl_nil, osc_applyDemand]
  cases x <;> simp [demands]

/-- The lock timer runs after a round of demand where SYN waits and its input feeds it (R6). -/
theorem timer_demandPass (e : Env) (v : Ev) (h1 : ((demandPass e v).osc .syn).state = .starting)
    (h2 : feeds (demandPass e v).clk.src (synInputSrc (demandPass e v).clk.src.syn.input) = true) :
    ((demandPass e v).osc .syn).timer ≠ none := by
  unfold demandPass at h1 h2 ⊢
  generalize oscsSynFirst.foldl (applyDemand e (demands e v.clk)) v = u at *
  unfold lockCheck at h1 h2 ⊢
  dsimp only at h1 h2 ⊢
  split at h1
  · rename_i hc
    rw [if_pos hc, Ev.osc_putOsc, if_pos rfl]
    simp
  · rename_i hc
    rw [if_neg hc] at h2 ⊢
    intro ht
    apply hc
    simp [h1, ht, h2]

theorem class_movedState {w : Bool} {s : OscState} (h : mustStop w s = true → s ≠ .running ∧ s ≠ .suspect) :
    feedClass (movedState w s) = feedClass s := by
  cases w <;> cases s <;> simp_all [movedState, mustStop, feedClass]

/-! ### The rounds -/

/-- What a round of demand finds after a round of the outputs, when it stops nothing, is at rest. -/
theorem rests_round {e e' : Env} {v : Ev} (h : ∀ o, Env.Later o (v.clk.outs.get o).cfg e e') (hv : outputsOk v.clk)
    (hn : someStop e (outputsPass e v) = false) : restsIn e' (demandPass e (outputsPass e v)).clk := by
  set w := outputsPass e v with hw
  have hns : ∀ x, mustStop (demanded e w.clk x) (w.osc x).state = false := by
    intro x
    unfold someStop at hn
    rw [List.any_eq_false] at hn
    simpa [demands] using hn x (mem_oscs x)
  have hst := osc_demandPass e w
  have hcl : SameClass w.clk.src (demandPass e w).clk.src := by
    intro x
    have hx : ((demandPass e w).clk.src.osc.get x).state = movedState (demanded e w.clk x) (w.osc x).state := hst x
    rw [hx, class_movedState]
    · rfl
    · intro hm; rw [hns] at hm; cases hm
  have hcalm := calm_demandPass e w
  have hd : ∀ x, demanded e' (demandPass e w).clk x = demanded e w.clk x := by
    intro x
    rw [demanded_later h]
    refine (demanded_congr hcl (outs_demandPass e w).symm (fun y => ?_) hcalm.syn.symm x).symm
    have := (hcalm.osc y).1.1
    exact congrArg OscConfig.keep this.symm
  refine ⟨fun o => ?_, fun x => ?_, timer_demandPass e w⟩
  · rw [outs_demandPass, ← hcl.evalOut]
    have ho := outputsPass_get e v o
    rw [← hw] at ho
    rw [ho.1, ho.2]
    exact evalOut_again (h o) (hv o)
  · rw [hd]
    have hx : ((demandPass e w).clk.src.osc.get x).state = movedState (demanded e w.clk x) (w.osc x).state := hst x
    rw [hx]
    have := hns x
    generalize (w.osc x).state = s at *
    cases demanded e w.clk x <;> cases s <;> simp_all [movedState, mustStop]

/-- How many of XA, XB, REF and SYN feed gates. -/
def feeders (c : Sources) : Nat :=
  (feeds c (.osc .xa)).toNat + (feeds c (.osc .xb)).toNat + (feeds c (.osc .ref)).toNat + (feeds c (.osc .syn)).toNat

theorem feeders_le (c : Sources) : feeders c ≤ 4 := by
  have h : ∀ b : Bool, b.toNat ≤ 1 := by decide
  have h1 := h (feeds c (.osc .xa)); have h2 := h (feeds c (.osc .xb))
  have h3 := h (feeds c (.osc .ref)); have h4 := h (feeds c (.osc .syn))
  unfold feeders; omega

/-- A round of demand that stops a source in use leaves fewer of them. -/
theorem feeders_demandPass (e : Env) (w : Ev) (x : Osc) (h1 : mustStop (demanded e w.clk x) (w.osc x).state = true)
    (h2 : feeds w.clk.src (.osc x) = true) : feeders (demandPass e w).clk.src < feeders w.clk.src := by
  have hle : ∀ y, (feeds (demandPass e w).clk.src (.osc y)).toNat ≤ (feeds w.clk.src (.osc y)).toNat := by
    intro y
    rw [feeds_osc (osc_demandPass e w y), feeds_osc (v := w) (x := y) rfl]
    generalize (w.osc y).state = s
    cases demanded e w.clk y <;> cases s <;> simp [movedState, mustStop]
  have hlt : (feeds (demandPass e w).clk.src (.osc x)).toNat < (feeds w.clk.src (.osc x)).toNat := by
    rw [h2, feeds_osc (osc_demandPass e w x)]
    generalize (w.osc x).state = s at *
    generalize demanded e w.clk x = d at *
    cases d <;> cases s <;> simp_all [movedState, mustStop]
  have a1 := hle .xa; have a2 := hle .xb; have a3 := hle .ref; have a4 := hle .syn
  unfold feeders
  cases x <;> omega

/-- Enough rounds end at rest. -/
theorem rests_settleRounds {e e' : Env} : ∀ (n : Nat) (v : Ev), (∀ o, Env.Later o (v.clk.outs.get o).cfg e e') →
    outputsOk v.clk → feeders v.clk.src + 2 ≤ n → restsIn e' (settleRounds e n v).clk := by
  intro n
  induction n with
  | zero => intro v _ _ hn; omega
  | succ n ih =>
    intro v h hv hn
    unfold settleRounds
    dsimp only
    split_ifs with hs
    · set w := outputsPass e v with hw
      have hsrc : w.clk.src = v.clk.src := (outputsPass_get e v 0).1
      have hwok : outputsOk w.clk := (calm_outputsPass e v).outsOk hv
      have hdok : outputsOk (demandPass e w).clk := (calm_demandPass e w).outsOk hwok
      have hlater : ∀ o, Env.Later o ((demandPass e w).clk.outs.get o).cfg e e' := by
        intro o
        rw [(calm_demandPass e w).outCfg, (calm_outputsPass e v).outCfg]
        exact h o
      by_cases hf : ∃ x, mustStop (demanded e w.clk x) (w.osc x).state = true ∧ feeds w.clk.src (.osc x) = true
      · obtain ⟨x, h1, h2⟩ := hf
        have := feeders_demandPass e w x h1 h2
        rw [hsrc] at this
        exact ih _ hlater hdok (by omega)
      · -- Only sources that feed no gate have been stopped: the next round stops none.
        obtain ⟨m, rfl⟩ : ∃ m, n = m + 1 := ⟨n - 1, by omega⟩
        set u := demandPass e w with hu
        have hst := osc_demandPass e w
        rw [← hu] at hst
        have hcl : SameClass w.clk.src u.clk.src := by
          intro x
          have hx : (u.clk.src.osc.get x).state = movedState (demanded e w.clk x) (w.osc x).state := hst x
          rw [hx, class_movedState]
          · rfl
          · intro hm
            by_contra hc
            apply hf
            refine ⟨x, hm, ?_⟩
            rw [feeds_osc (v := w) (x := x) rfl]
            revert hc
            cases (w.osc x).state <;> simp
        have hcalm := calm_demandPass e w
        rw [← hu] at hcalm
        have houts : (outputsPass e u).clk.outs = w.clk.outs := by
          apply Bank8.ext_get
          intro o
          have h1 := outputsPass_get e v o
          rw [← hw] at h1
          rw [(outputsPass_get e u o).2, hu, outs_demandPass, ← hu, ← hcl.evalOut, h1.1, h1.2,
            evalOut_again (Env.Later.refl o _ e) (hv o)]
        have hsu : (outputsPass e u).clk.src = u.clk.src := (outputsPass_get e u 0).1
        have hno : someStop e (outputsPass e u) = false := by
          unfold someStop
          rw [List.any_eq_false]
          intro x _
          have hd : demanded e (outputsPass e u).clk x = demanded e w.clk x := by
            refine demanded_congr ?_ houts (fun y => ?_) ?_ x
            · rw [hsu]; intro y; exact (hcl y).symm
            · rw [hsu]; exact congrArg OscConfig.keep (hcalm.osc y).1.1
            · rw [hsu]; exact hcalm.syn
          have hx : ((outputsPass e u).osc x).state = movedState (demanded e w.clk x) (w.osc x).state := by
            unfold Ev.osc; rw [hsu]; exact hst x
          simp only [demands, BankOsc.get_ofFn, hd, hx]
          generalize (w.osc x).state = s
          cases demanded e w.clk x <;> cases s <;> simp [movedState, mustStop]
        unfold settleRounds
        dsimp only
        rw [hno]
        exact rests_round hlater hdok hno
    · exact rests_round h hv (by simpa using hs)

/-- An event's course ends at rest, as a later event that sees the same finds it. -/
theorem rests_settle {e e' : Env} {v : Ev} (h : ∀ o, Env.Later o (v.clk.outs.get o).cfg e e') (hv : outputsOk v.clk) :
    restsIn e' (settle e v).clk :=
  rests_settleRounds 8 v h hv (by have := feeders_le v.clk.src; omega)

/-- What is at rest stays so for a later event that sees the same. -/
theorem restsIn_later {e e' : Env} {k : Clocks} (h : ∀ o, Env.Later o (k.outs.get o).cfg e e') (hk : outputsOk k)
    (hr : restsIn e k) : restsIn e' k := by
  refine ⟨fun o => ?_, fun x => ?_, hr.2.2⟩
  · have h1 := evalOut_again (c := k.src) (h o) (hk o)
    rw [hr.1 o] at h1
    exact h1
  · rw [demanded_later h]; exact hr.2.1 x

/-! ### Over the whole state -/

/-- An event that sees the claims, profile and chains of `t`, and no change, is a later one for what has seen them already. -/
theorem later_ordinary {e : Env} {t : State} (o : Fin 8) {g : OutConfig} (h1 : t.chains = e.chains) (h2 : t.active = e.profile)
    (h3 : t.claims = e.claims) (h4 : (t.clk.outs.get o).cfg = g) : Env.Later o g e (envOf .ordinary t t) := by
  refine ⟨h1, h2, h3, fun k s hr => ?_, fun _ hw => ?_, Or.inl ⟨rfl, by intro k hk; cases hk⟩⟩
  · exfalso
    unfold removedFromChain envOf at hr
    dsimp only at hr
    rw [Bank8.get_map] at hr
    cases hm : (t.clk.outs.get o).cfg.mode with
    | fixed u => rw [hm] at hr; cases hr
    | chain j =>
      rw [hm] at hr
      simp only [Bool.and_eq_true, decide_eq_true_eq] at hr
      obtain ⟨⟨rfl, h5⟩, h6⟩ := hr
      cases hx : anchorOf (t.chains.get j) s with
      | none => rw [hx] at h5; cases h5
      | some p => rw [hx] at h6; cases h6
  · unfold envOf
    dsimp only
    rw [Bank8.get_ofFn]
    unfold State.wants
    rw [h2, h3, h4]; exact hw

/-- At the end of an event the state is at rest. -/
theorem atRest_runEvent (cause : Cause) (s0 s : State) (f : Env → Ev → Ev)
    (hf : outputsOk (f (envOf cause s0 s) ⟨s.clk, [], []⟩).clk) : atRest (runEvent cause s0 s f) := by
  unfold atRest
  have hl := fun o => later_ordinary (e := envOf cause s0 s) (t := runEvent cause s0 s f) o
    (g := ((f (envOf cause s0 s) ⟨s.clk, [], []⟩).clk.outs.get o).cfg) (chains_runEvent ..)
    (by unfold State.active envOf; rw [profiles_runEvent, stack_runEvent]; rfl) (claims_runEvent ..)
    (by rw [clk_runEvent]; exact (calm_settle _ _).outCfg o)
  rw [clk_runEvent]
  exact rests_settle hl hf

theorem atRest_reevaluate (cause : Cause) (s0 s : State) (h : outputsOk s.clk) : atRest (reevaluate cause s0 s) :=
  atRest_runEvent cause s0 s _ h

/-- Rest needs only clocks, chains, active profile and claims: whatever else changes, a state at rest stays so. -/
theorem atRest_congr {s t : State} (h : atRest s) (hk : outputsOk s.clk) (h0 : t.clk = s.clk) (h1 : t.chains = s.chains)
    (h2 : t.active = s.active) (h3 : t.claims = s.claims) : atRest t := by
  unfold atRest at h ⊢
  rw [h0]
  exact restsIn_later (fun o => later_ordinary o h1 h2 h3 (by rw [h0])) hk h

end Sys2Proof.Machine
end

