-- ==== Sys2Proof/Laws/Sources.lean ====
section
/-! SUPPORT. Laws/Sources.lean: what the events of sources and surveys can do (`Ev.Sound`): configurations stay, notices are laid out,
output and source records stay ones the rules allow; and what a fault makes of each source. -/

namespace Sys2Proof.Machine

/-- From `v` to `w` an event has kept every configuration and every record's rules. -/
structure Ev.Sound (v w : Ev) : Prop where
  outCfg : ∀ o, (w.clk.outs.get o).cfg = (v.clk.outs.get o).cfg
  srcCfg : ∀ o, (w.osc o).cfg = (v.osc o).cfg
  syn : w.clk.src.syn = v.clk.src.syn
  settings : w.clk.mon.settings = v.clk.mon.settings
  notes : (∀ p ∈ v.srcNotes, p.laidOut) → ∀ p ∈ w.srcNotes, p.laidOut
  outsOk : outputsOk v.clk → outputsOk w.clk
  srcOk : sourcesOk v.clk → sourcesOk w.clk

theorem Ev.Sound.refl (v : Ev) : v.Sound v := ⟨fun _ => rfl, fun _ => rfl, rfl, rfl, id, id, id⟩
theorem Ev.Sound.trans {u v w : Ev} (h : u.Sound v) (g : v.Sound w) : u.Sound w where
  outCfg o := (g.outCfg o).trans (h.outCfg o)
  srcCfg o := (g.srcCfg o).trans (h.srcCfg o)
  syn := g.syn.trans h.syn
  settings := g.settings.trans h.settings
  notes := g.notes ∘ h.notes
  outsOk := g.outsOk ∘ h.outsOk
  srcOk := g.srcOk ∘ h.srcOk
theorem Ev.Calm.sound {v w : Ev} (h : v.Calm w) : v.Sound w :=
  ⟨h.outCfg, fun o => (h.osc o).1.1, h.syn, h.settings, h.notes, h.outsOk, h.srcOk⟩
theorem sound_settle (e : Env) (v : Ev) : v.Sound (settle e v) := (calm_settle e v).sound

/-! ### One source written -/

theorem srcOk_putOsc {v : Ev} {o : Osc} {r : OscRec} (hw : OscRec.wf o (v.osc o) → OscRec.wf o r) (h : sourcesOk v.clk) :
    sourcesOk (v.putOsc o r).clk := by
  refine ⟨fun x => ?_, h.2⟩
  show OscRec.wf x ((v.putOsc o r).osc x)
  rw [Ev.osc_putOsc]; split
  · rename_i hx; subst hx; exact hw (h.1 x)
  · exact h.1 x

theorem sound_putOsc {v : Ev} {o : Osc} {r : OscRec} (hc : r.cfg = (v.osc o).cfg)
    (hw : OscRec.wf o (v.osc o) → OscRec.wf o r) : v.Sound (v.putOsc o r) where
  outCfg _ := rfl
  srcCfg x := by
    rw [Ev.osc_putOsc]; split
    · rename_i hx; subst hx; exact hc
    · rfl
  syn := rfl
  settings := rfl
  notes := id
  outsOk := id
  srcOk := srcOk_putOsc hw

theorem sound_changeOsc {v : Ev} {o : Osc} {r : OscRec} (hc : r.cfg = (v.osc o).cfg)
    (hw : OscRec.wf o (v.osc o) → OscRec.wf o r) : v.Sound (v.changeOsc o r) :=
  { sound_putOsc hc hw with
    notes := by
      intro hn p hp
      simp only [Ev.changeOsc, List.mem_append, List.mem_singleton] at hp
      rcases hp with hp | hp
      · exact hn p hp
      · subst hp; exact sourceNote_laidOut _ _ _ _ _ }

theorem sound_enterStarting (e : Env) (o : Osc) (v : Ev) : v.Sound (enterStarting e o v) :=
  (sound_changeOsc (r := (v.osc o).started o e.tick) rfl fun h => OscRec.wf_started o e.tick h.2.2.2.1).trans
    (calm_clearCounts _ o).sound
theorem sound_enterOff (o : Osc) (v : Ev) : v.Sound (enterOff o v) :=
  (sound_changeOsc (r := (v.osc o).stopped) rfl fun h => OscRec.wf_stopped o h.2.2.2.1).trans (calm_clearCounts _ o).sound

theorem sound_enterVerifying {o : Osc} {v : Ev} (h : (v.osc o).state = .starting) : v.Sound (enterVerifying o v) := by
  unfold enterVerifying; dsimp only
  refine sound_changeOsc ?_ ?_
  · rfl
  rintro ⟨-, -, a3, a4, -⟩
  refine ⟨by simp, by simp [timerOk], ?_, a4, by simp⟩
  rw [h] at a3; simpa using a3

theorem sound_enterSuspect (o : Osc) (v : Ev) : v.Sound (enterSuspect o v) := by
  unfold enterSuspect; dsimp only
  refine sound_changeOsc ?_ ?_
  · rfl
  rintro ⟨-, -, -, a4, -⟩
  exact ⟨by simp, by simp [timerOk], by simp, a4, by simp⟩

theorem sound_enterLockedOut {o : Osc} {v : Ev} (h : (v.osc o).state = .quarantined) (hb : (v.osc o).budget = 0) :
    v.Sound (enterLockedOut o v) := by
  unfold enterLockedOut; dsimp only
  refine sound_changeOsc ?_ ?_
  · rfl
  rintro ⟨-, -, a3, a4, -⟩
  refine ⟨by simp, by simp [timerOk], ?_, a4, fun _ => hb⟩
  rw [h] at a3; simpa using a3

theorem sound_unrefuse (v : Ev) (s : Src) : v.Sound (v.unrefuse s) where
  outCfg o := by simp [Ev.unrefuse, unrefuse]
  srcCfg _ := rfl
  syn := rfl
  settings := rfl
  notes := id
  outsOk h o := by
    obtain ⟨h1, h2, h3, h4, h5, h6, h7⟩ := h o
    simp only [Ev.unrefuse, unrefuse, Bank8.get_map]
    exact ⟨h1, h2, h3, h4, h5, h6, h7.filter _⟩
  srcOk := id

theorem sound_enterRunning (e : Env) (o : Osc) (v : Ev) : v.Sound (enterRunning e o v) := by
  unfold enterRunning
  refine Ev.Sound.trans ?_ (sound_unrefuse _ _)
  refine sound_changeOsc ?_ ?_
  · rfl
  rintro ⟨-, -, -, a4, -⟩
  exact ⟨by simp [OscRec.ran], by simp [OscRec.ran, timerOk], by simp [OscRec.ran], a4, by simp [OscRec.ran]⟩

/-! ### Faults (R7, R9) -/

/-- The record of a source that has faulted: through FAULTED into QUARANTINED, its budget untouched (R9). -/
def OscRec.failed (r : OscRec) (k : FaultKind) (tick : Tick) : OscRec := (r.faultedWith k).quarantinedAt tick

@[simp] theorem osc_markFaulted (v : Ev) (f : Osc × FaultKind) (x : Osc) :
    (markFaulted v f).osc x = if x = f.1 then (v.osc x).faultedWith f.2 else v.osc x := by
  show (v.putOsc f.1 _).osc x = _
  rw [Ev.osc_putOsc]; split
  · rename_i h; rw [h]
  · rfl
@[simp] theorem outs_markFaulted (v : Ev) (f : Osc × FaultKind) : (markFaulted v f).clk.outs = v.clk.outs := rfl

theorem osc_outputsPass (e : Env) (v : Ev) (x : Osc) : (outputsPass e v).osc x = v.osc x := by
  show (outputsPass e v).clk.src.osc.get x = _
  rw [(outputsPass_get e v 0).1]; rfl

theorem osc_quarantine (e : Env) (b : Sources) (v : Ev) (f : Osc × FaultKind) (x : Osc) :
    (quarantine e b v f).osc x = if x = f.1 then (v.osc x).quarantinedAt e.tick else v.osc x := by
  unfold quarantine; dsimp only
  rw [Ev.osc_changeOsc]; split
  · rename_i h; rw [h]
  · rfl

theorem osc_marks (fs : List (Osc × FaultKind)) (hn : (fs.map Prod.fst).Nodup) (v : Ev) (x : Osc) :
    (fs.foldl markFaulted v).osc x = match fs.find? fun f => decide (f.1 = x) with
      | some f => (v.osc x).faultedWith f.2
      | none => v.osc x := by
  induction fs generalizing v with
  | nil => rfl
  | cons f fs ih =>
    simp only [List.map_cons, List.nodup_cons] at hn
    rw [List.foldl_cons, ih hn.2, osc_markFaulted]
    by_cases hx : f.1 = x
    · have hnone : (fs.find? fun g => decide (g.1 = x)) = none := by
        rw [List.find?_eq_none]; intro g hg hc
        simp only [decide_eq_true_eq] at hc
        exact hn.1 (List.mem_map.2 ⟨g, hg, hc.trans hx.symm⟩)
      rw [hnone]; simp [hx]
    · have hx' : ¬ x = f.1 := fun h => hx h.symm
      simp [hx, hx']

theorem osc_quarantines (e : Env) (b : Sources) (fs : List (Osc × FaultKind)) (v : Ev) (x : Osc) :
    (fs.foldl (quarantine e b) v).osc x = if x ∈ fs.map Prod.fst then
        (if (fs.map Prod.fst).Nodup then (v.osc x).quarantinedAt e.tick else (fs.foldl (quarantine e b) v).osc x)
      else v.osc x := by
  induction fs generalizing v with
  | nil => rfl
  | cons f fs ih =>
    by_cases hn : ((f :: fs).map Prod.fst).Nodup
    · rw [if_pos hn, List.foldl_cons, ih, osc_quarantine]
      simp only [List.map_cons, List.nodup_cons] at hn
      by_cases hx : x = f.1
      · subst hx; simp [hn.1]
      · simp only [hx, if_false, hn.2, if_true, List.map_cons, List.mem_cons, false_or]
    · rw [if_neg hn]
      split
      · rfl
      · rename_i hx
        simp only [List.map_cons, List.mem_cons, not_or] at hx
        rw [List.foldl_cons, ih, if_neg hx.2, osc_quarantine, if_neg hx.1]

/-- What faulting together makes of each source. -/
theorem osc_faultAll (e : Env) (fs : List (Osc × FaultKind)) (hn : (fs.map Prod.fst).Nodup) (v : Ev) (x : Osc) :
    (faultAll e fs v).osc x = match fs.find? fun f => decide (f.1 = x) with
      | some f => (v.osc x).failed f.2 e.tick
      | none => v.osc x := by
  unfold faultAll
  split
  · rename_i h; rw [List.isEmpty_iff] at h; subst h; rfl
  · rw [osc_quarantines, if_pos hn, osc_outputsPass, osc_marks fs hn]
    cases hf : fs.find? fun f => decide (f.1 = x) with
    | none =>
      rw [List.find?_eq_none] at hf
      rw [if_neg]
      intro hm
      obtain ⟨g, hg, hgx⟩ := List.mem_map.1 hm
      exact hf g hg (by simpa using hgx)
    | some f =>
      have h1 := List.find?_some hf
      simp only [decide_eq_true_eq] at h1
      rw [if_pos (List.mem_map.2 ⟨f, List.mem_of_find?_eq_some hf, h1⟩)]; rfl

/-- A fold of steps that write no output, no configuration and no SYN setting. -/
theorem quiet_marks (fs : List (Osc × FaultKind)) (v : Ev) :
    (fs.foldl markFaulted v).clk.outs = v.clk.outs ∧ (fs.foldl markFaulted v).clk.src.syn = v.clk.src.syn
    ∧ (fs.foldl markFaulted v).clk.src.rco = v.clk.src.rco ∧ (fs.foldl markFaulted v).clk.mon.settings = v.clk.mon.settings
    ∧ (fs.foldl markFaulted v).srcNotes = v.srcNotes := by
  induction fs generalizing v with
  | nil => simp
  | cons f fs ih => rw [List.foldl_cons]; exact ih (markFaulted v f)

theorem quiet_quarantines (e : Env) (b : Sources) (fs : List (Osc × FaultKind)) (v : Ev) :
    (fs.foldl (quarantine e b) v).clk.outs = v.clk.outs ∧ (fs.foldl (quarantine e b) v).clk.src.syn = v.clk.src.syn
    ∧ (fs.foldl (quarantine e b) v).clk.src.rco = v.clk.src.rco
    ∧ (fs.foldl (quarantine e b) v).clk.mon.settings = v.clk.mon.settings
    ∧ ((∀ p ∈ v.srcNotes, p.laidOut) → ∀ p ∈ (fs.foldl (quarantine e b) v).srcNotes, p.laidOut) := by
  induction fs generalizing v with
  | nil => exact ⟨rfl, rfl, rfl, rfl, id⟩
  | cons f fs ih =>
    rw [List.foldl_cons]
    obtain ⟨h1, h2, h3, h4, h5⟩ := ih (quarantine e b v f)
    refine ⟨h1, h2, h3, h4, fun hn => h5 ?_⟩
    intro p hp
    simp only [quarantine, Ev.changeOsc, List.mem_append, List.mem_singleton] at hp
    rcases hp with (hp | hp) | hp
    · exact hn p hp
    · subst hp; exact sourceNote_laidOut _ _ _ _ _
    · subst hp; exact sourceNote_laidOut _ _ _ _ _

theorem OscRec.wf_failed {o : Osc} {r : OscRec} (h : OscRec.wf o r) (k : FaultKind) (tick : Tick) :
    OscRec.wf o (r.failed k tick) := by
  refine ⟨by simp [OscRec.failed, OscRec.quarantinedAt], ?_, ?_, h.2.2.2.1, ?_⟩
  · cases o <;> simp [OscRec.failed, OscRec.quarantinedAt, timerOk]
  · simp [OscRec.failed, OscRec.quarantinedAt, OscRec.faultedWith]
  · simp [OscRec.failed, OscRec.quarantinedAt]

theorem sound_faultAll (e : Env) (fs : List (Osc × FaultKind)) (hn : (fs.map Prod.fst).Nodup) (v : Ev) :
    v.Sound (faultAll e fs v) := by
  have hosc := osc_faultAll e fs hn v
  have hrest : (∀ o, ((faultAll e fs v).clk.outs.get o).cfg = (v.clk.outs.get o).cfg)
      ∧ (faultAll e fs v).clk.src.syn = v.clk.src.syn ∧ (faultAll e fs v).clk.src.rco = v.clk.src.rco
      ∧ (faultAll e fs v).clk.mon.settings = v.clk.mon.settings
      ∧ ((∀ p ∈ v.srcNotes, p.laidOut) → ∀ p ∈ (faultAll e fs v).srcNotes, p.laidOut)
      ∧ (outputsOk v.clk → outputsOk (faultAll e fs v).clk) := by
    unfold faultAll
    split
    · exact ⟨fun _ => rfl, rfl, rfl, rfl, id, id⟩
    · obtain ⟨a1, a2, a3, a4, a5⟩ := quiet_marks fs v
      have hp := calm_outputsPass e (fs.foldl markFaulted v)
      obtain ⟨b1, b2, b3, b4, b5⟩ := quiet_quarantines e v.clk.src fs (outputsPass e (fs.foldl markFaulted v))
      refine ⟨fun o => ?_, by rw [b2, hp.syn, a2], by rw [b3, hp.rco, a3], by rw [b4, hp.settings, a4], fun h => ?_, fun h => ?_⟩
      · rw [b1, hp.outCfg, a1]
      · exact b5 (hp.notes (by rw [a5]; exact h))
      · have : outputsOk (fs.foldl markFaulted v).clk := by intro o; rw [a1]; exact h o
        intro o; rw [b1]; exact hp.outsOk this o
  obtain ⟨h1, h2, h3, h4, h5, h6⟩ := hrest
  refine ⟨h1, fun o => ?_, h2, h4, h5, h6, fun h => ⟨fun o => ?_, by rw [h3]; exact h.2⟩⟩
  · rw [hosc]; split <;> rfl
  · show OscRec.wf o ((faultAll e fs v).osc o)
    rw [hosc]; split
    · exact OscRec.wf_failed (h.1 o) _ _
    · exact h.1 o

theorem inputLost_forms (c : Sources) (s : Src) :
    inputLost c s = [] ∨ (inputLost c s = [(.syn, .inputLost)] ∧ synInputSrc c.syn.input = s ∧ synDepends c = true) := by
  unfold inputLost; split
  · rename_i h; simp only [Bool.and_eq_true, decide_eq_true_eq] at h; exact Or.inr ⟨rfl, h⟩
  · exact Or.inl rfl

theorem nodup_inputLost (c : Sources) (s : Src) : ((inputLost c s).map Prod.fst).Nodup := by
  rcases inputLost_forms c s with h | ⟨h, -⟩ <;> rw [h] <;> simp

theorem nodup_fault (c : Sources) (o : Osc) (k : FaultKind) : (((o, k) :: inputLost c (.osc o)).map Prod.fst).Nodup := by
  rcases inputLost_forms c (.osc o) with h | ⟨h, h2, -⟩ <;> rw [h]
  · simp
  · have : o ≠ .syn := by
      rintro rfl; cases hi : c.syn.input <;> rw [hi] at h2 <;> simp [synInputSrc] at h2
    simp [this]

theorem sound_fault (e : Env) (o : Osc) (k : FaultKind) (v : Ev) : v.Sound (fault e o k v) :=
  sound_faultAll e _ (nodup_fault _ o k) v

/-- The faulted source itself. -/
theorem osc_fault (e : Env) (o : Osc) (k : FaultKind) (v : Ev) : (fault e o k v).osc o = (v.osc o).failed k e.tick := by
  unfold fault; rw [osc_faultAll e _ (nodup_fault _ o k)]; simp

/-- A SYN that depends on the faulted source goes with it (R7). -/
theorem osc_fault_syn (e : Env) (o : Osc) (k : FaultKind) (v : Ev) (hi : synInputSrc v.clk.src.syn.input = .osc o)
    (hd : synDepends v.clk.src = true) : (fault e o k v).osc .syn = (v.osc .syn).failed .inputLost e.tick := by
  have hne : o ≠ .syn := by
    rintro rfl; cases hs : v.clk.src.syn.input <;> rw [hs] at hi <;> simp [synInputSrc] at hi
  unfold fault; rw [osc_faultAll e _ (nodup_fault _ o k)]
  have : inputLost v.clk.src (.osc o) = [(.syn, .inputLost)] := by simp [inputLost, hi, hd]
  rw [this]; simp [hne]

/-! ### RCO and the survey -/

/-- A change of RCO's state keeps its record one R13 allows. -/
theorem sound_changeRco {v : Ev} {r : RcoRec} (g b : Nat) (h : v.clk.src.rco.wf → r.wf) : v.Sound (v.changeRco r g b) where
  outCfg _ := rfl
  srcCfg _ := rfl
  syn := rfl
  settings := rfl
  notes hn p hp := by
    simp only [Ev.changeRco, List.mem_append, List.mem_singleton] at hp
    rcases hp with hp | hp
    · exact hn p hp
    · subst hp; exact sourceNote_laidOut _ _ _ _ _
  outsOk := id
  srcOk hs := ⟨hs.1, h hs.2⟩

theorem RcoRec.wf_moved {r : RcoRec} (h : r.wf) (st : RcoState) (tick : Tick) : (r.moved st tick).wf := by
  obtain ⟨h1, h2, h3⟩ := h
  refine ⟨?_, ?_, ?_⟩
  · cases st <;> simp [RcoRec.moved]
  · cases st <;> simp [RcoRec.moved, h2]
  · intro hf; simp only [RcoRec.moved] at hf; subst hf; simp [RcoRec.moved]

theorem sound_loseInput (e : Env) (s : Src) (v : Ev) : v.Sound (loseInput e s v) :=
  sound_faultAll e _ (nodup_inputLost _ _) _

theorem sound_lostRco (e : Env) (st : RcoState) (v : Ev) :
    v.Sound (settle e (if st = .faulted then loseInput e .rco v else v)) := by
  by_cases h : st = .faulted
  · rw [if_pos h]; exact (sound_loseInput e _ _).trans (sound_settle e _)
  · rw [if_neg h]; exact sound_settle e _

theorem sound_moveRco (e : Env) (st : RcoState) (g b : Nat) (v : Ev) : v.Sound (moveRco e st g b v) := by
  have h1 : v.Sound (v.changeRco (v.clk.src.rco.moved st e.tick) g b) := sound_changeRco g b fun h => RcoRec.wf_moved h st e.tick
  by_cases hr : st = .running
  · have h2 := (h1.trans (sound_unrefuse _ .rco)).trans (sound_lostRco e st _)
    unfold moveRco; dsimp only; rw [if_pos hr]; exact h2
  · have h2 := h1.trans (sound_lostRco e st _)
    unfold moveRco; dsimp only; rw [if_neg hr]; exact h2

/-- Changes of the monitor that leave its settings. -/
theorem sound_clocks {v : Ev} {k : Clocks} (h1 : k.outs = v.clk.outs) (h2 : k.src = v.clk.src)
    (h3 : k.mon.settings = v.clk.mon.settings) : v.Sound { v with clk := k } where
  outCfg o := by show (k.outs.get o).cfg = _; rw [h1]
  srcCfg o := by show (k.src.osc.get o).cfg = _; rw [h2]; rfl
  syn := by show k.src.syn = _; rw [h2]
  settings := h3
  notes := id
  outsOk h o := by show OutRec.wf (k.outs.get o); rw [h1]; exact h o
  srcOk h := by
    refine ⟨fun o => ?_, ?_⟩
    · show OscRec.wf o (k.src.osc.get o); rw [h2]; exact h.1 o
    · show k.src.rco.wf; rw [h2]; exact h.2

theorem sound_setRcoMonitor (v : Ev) (m : RcoMonitor) : v.Sound (v.setRcoMonitor m) := sound_clocks rfl rfl rfl

theorem sound_judgeRco (e : Env) (n : Word) (ds : List Direction) (v : Ev) : v.Sound (judgeRco e n ds v) := by
  unfold judgeRco; dsimp only
  split
  · split
    · exact (sound_setRcoMonitor v _).trans (sound_moveRco e _ _ _ _)
    · exact sound_setRcoMonitor v _
  · split
    · exact (sound_setRcoMonitor v _).trans (sound_moveRco e _ _ _ _)
    · exact sound_setRcoMonitor v _

theorem sound_deliver (e : Env) (v : Ev) (x : Osc × Option Verdict) : v.Sound (deliver e v x) := by
  unfold deliver
  split
  · exact (sound_enterRunning e _ v).trans (sound_settle e _)
  · exact (sound_enterSuspect _ v).trans (sound_settle e _)
  · exact (sound_enterRunning e _ v).trans (sound_settle e _)
  · exact (sound_fault e _ _ v).trans (sound_settle e _)
  · exact (sound_fault e _ _ v).trans (sound_settle e _)
  · exact (sound_fault e _ _ v).trans (sound_settle e _)
  · exact Ev.Sound.refl v

theorem sound_delivers (e : Env) (l : List (Osc × Option Verdict)) (v : Ev) : v.Sound (l.foldl (deliver e) v) := by
  induction l generalizing v with
  | nil => exact Ev.Sound.refl v
  | cons x xs ih => exact (sound_deliver e v x).trans (ih _)

theorem sound_judgeOscs (e : Env) (n : Word) (ds : List Direction) (caps : BankOsc (Option Captured)) (v : Ev) :
    v.Sound (judgeOscs e n ds caps v) := by
  unfold judgeOscs; dsimp only
  refine Ev.Sound.trans ?_ (sound_delivers e _ _)
  exact sound_clocks rfl rfl rfl

theorem sound_beginSurvey (tick : Tick) (v : Ev) : v.Sound { v with clk := beginSurvey tick v.clk } := sound_clocks rfl rfl rfl

theorem sound_completeSurvey (edges : BankOsc Word) (e : Env) (v : Ev) : v.Sound (completeSurvey edges e v) := by
  unfold completeSurvey; dsimp only
  refine Ev.Sound.trans ?_ (sound_beginSurvey _ _)
  refine Ev.Sound.trans ?_ (sound_settle e _)
  refine Ev.Sound.trans ?_ (sound_judgeOscs e _ _ _ _)
  refine Ev.Sound.trans ?_ (sound_judgeRco e _ _ _)
  exact sound_clocks rfl rfl rfl

/-! ### Quarantine and restart -/

theorem sound_unquarantine (e : Env) (o : Osc) (v : Ev) : v.Sound (unquarantine e o v) :=
  (sound_enterOff o v).trans (sound_loseInput e _ _)

theorem sound_leaveQuarantine (e : Env) {o : Osc} {v : Ev} (h : (v.osc o).state = .quarantined) : v.Sound (leaveQuarantine e o v) := by
  unfold leaveQuarantine; dsimp only
  split
  · split
    · rename_i hb
      exact (sound_enterLockedOut h hb).trans (sound_loseInput e _ _)
    · refine Ev.Sound.trans ?_ (sound_enterStarting e o _)
      refine sound_putOsc ?_ ?_
      · rfl
      rintro ⟨a1, a2, a3, a4, a5⟩
      exact ⟨a1, a2, a3, by show (v.osc o).budget - 1 ≤ _; exact le_trans (Nat.sub_le _ _) a4, by rw [h]; simp⟩
  · exact sound_unquarantine e o v

/-- An event keeps what its own part and the course keep. -/
theorem sound_runEvent (cause : Cause) (s0 s : State) {f : Env → Ev → Ev} (h : ∀ e, Ev.Sound ⟨s.clk, [], []⟩ (f e ⟨s.clk, [], []⟩)) :
    Ev.Sound ⟨s.clk, [], []⟩ ⟨(runEvent cause s0 s f).clk, [], []⟩ := by
  have := (h (envOf cause s0 s)).trans (sound_settle (envOf cause s0 s) _)
  rw [clk_runEvent]
  exact { this with notes := fun h2 => h2 }

/-- The notices of an event are laid out (R173). -/
theorem OutNote.laidOut (o : Fin 8) (n : OutNote) : (n.posting o).laidOut := by
  have hu : ∀ u, (noticeUse u).length = 3 := by intro u; cases u <;> rfl
  cases n with
  | failover => rfl
  | state b a c t w => simp [OutNote.posting, Posting.laidOut, detailBytes, b1, hu]

theorem laidOut_runEvent (cause : Cause) (s0 : State) {s : State} {f : Env → Ev → Ev}
    (h : ∀ e, Ev.Sound ⟨s.clk, [], []⟩ (f e ⟨s.clk, [], []⟩)) (hl : s.notices.laidOut) :
    (runEvent cause s0 s f).notices.laidOut := by
  unfold runEvent; dsimp only
  generalize hw : settle (envOf cause s0 s) (f (envOf cause s0 s) ⟨s.clk, [], []⟩) = w
  refine State.laidOut_postAll (s := { s with clk := w.clk }) hl ?_
  have hs := (h (envOf cause s0 s)).trans (sound_settle (envOf cause s0 s) _)
  rw [hw] at hs
  intro p hp
  unfold Ev.postings at hp
  rcases List.mem_append.1 hp with hp | hp
  · rw [List.mem_flatMap] at hp
    obtain ⟨o, -, hp⟩ := hp
    rw [List.mem_map] at hp
    obtain ⟨x, -, rfl⟩ := hp
    exact OutNote.laidOut o _
  · exact hs.notes (by simp) p hp

end Sys2Proof.Machine
end

