-- ==== Sys2Proof/Laws/Steps.lean ====
section
/-! SUPPORT. Laws/Steps.lean: what a step can do, said once: a command is a completed frame, an event of the running part, or one of
the five start-up events; an invariant is kept by every step if it is kept by each of these. -/

namespace Sys2Proof.Machine

/-- The effect of an event of the running part, before the end of the event. -/
def eventBody : Instr → Option (State → State)
  | .characterReceived c bad => some (if bad then receiveBad else receiveChar c)
  | .gap => some expireGap
  | .linkBreak => some breakLink
  | .frameSent => some endFrame
  | .startDetection o => some (detectStart o)
  | .startTimerExpiry o => some (failStart o .start)
  | .lockDetection => some detectLock
  | .lockTimerExpiry => some (failStart .syn .lock)
  | .quarantineExpiry o => some (expireQuarantine o)
  | .rehabilitationExpiry o => some (expireRehabilitation o)
  | .surveyCompletion xa xb ref syn => some fun s => runEvent .ordinary s s (completeSurvey ⟨xa, xb, ref, syn⟩)
  | .releaseEnd o => some (finishRelease o .complete)
  | .releaseTimeout o => some (finishRelease o .forced)
  | .acquireEnd o => some (finishAcquire o)
  | .acquireTimeout o => some (timeoutAcquire o)
  | .dividerChange o => some fun s => s.putOut o (takeDivider (s.out o))
  | .revertTimerExpiry o => some (expireRevert o)
  | .leaseExpiry n o => some (expireLease n o)
  | .lineActivation l => some (activateLine l)
  | .lineDeactivation l => some (deactivateLine l)
  | .holdExpiry l => some (expireHold l)
  | .wakePinEdge => some (offerWake .pin)
  | .tick => some fun s => { s with tick := s.tick + 1#32 }
  | .actionFiring => some fireHead
  | .eraseComplete => some fun s => { s with image := endErase s.image }
  | .writeComplete => some fun s => { s with image := endWrite s.image }
  | .checkComplete good => some (endCheck good)
  | _ => none

/-- The effect of a start-up event. -/
def startBody : Instr → Option (State → State)
  | .coldStart supply => some (coldStart supply)
  | .resetRelease => some releaseReset
  | .powerupEnd b1 b0 => some (endPowerup b1 b0)
  | .selectDone => some endSelect
  | .live pins => some (reachLive pins)
  | _ => none

/-- Every command is one of the three. -/
theorem exec_forms (i : Instr) (s : State) :
    (∃ tag kind perform, exec i s = .next (takeFrame tag kind perform s)
      ∧ ((∃ r, i.request? = some (tag, r) ∧ kind = r.kind ∧ perform = performRequest r)
        ∨ (i = .unknownKind tag kind ∧ perform = performFrame kind [])))
    ∨ (∃ f, eventBody i = some f ∧ exec i s = .next (whileRunning f s))
    ∨ (∃ f, startBody i = some f ∧ exec i s = .next (f s)) := by
  cases i
  case unknownKind tag kind => exact Or.inl ⟨tag, kind, _, rfl, Or.inr ⟨rfl, rfl⟩⟩
  all_goals first
    | exact Or.inl ⟨_, _, _, rfl, Or.inl ⟨_, rfl, rfl, rfl⟩⟩
    | exact Or.inr (Or.inl ⟨_, rfl, rfl⟩)
    | exact Or.inr (Or.inr ⟨_, rfl, rfl⟩)

/-- A frame's performance leaves the state, or is some request's. -/
theorem performFrame_forms (kind : Byte) (body : List Byte) (s : State) :
    (∃ r, performFrame kind body s = performRequest r s)
    ∨ ((performFrame kind body s).state = s ∧ (performFrame kind body s).result = []) := by
  unfold performFrame
  split
  · exact Or.inr ⟨rfl, rfl⟩
  · exact Or.inr ⟨rfl, rfl⟩
  · exact Or.inl ⟨_, rfl⟩

/-- A property that no change of the link disturbs, and the end of an event keeps, is kept by taking a frame if performing keeps
it. -/
theorem takeFrame_keeps {P : State → Prop} (hlink : ∀ s l, P s → P { s with link := l }) (hend : ∀ s, P s → P s.endEvent)
    {perform : State → Done} (hp : ∀ s, s.isLive = true → P s → P (perform s).state) (tag kind : Byte) {s : State} (h : P s) :
    P (takeFrame tag kind perform s) := by
  have hh : P s.hunt := hlink s _ h
  unfold takeFrame
  split
  · exact h
  · dsimp only
    split
    · exact hend _ (hlink _ _ hh)
    · rename_i hl
      split
      · exact hend _ (hlink _ _ hh)
      · split
        · exact hend _ (hlink _ _ hh)
        · exact hend _ (hlink _ _ (hp _ (by simpa using hl) hh))

theorem performFrame_keeps {P : State → Prop} (hreq : ∀ r s, s.isLive = true → P s → P (performRequest r s).state)
    (kind : Byte) (body : List Byte) (s : State) (hl : s.isLive = true) (h : P s) : P (performFrame kind body s).state := by
  rcases performFrame_forms kind body s with ⟨r, hr⟩ | ⟨hr, -⟩
  · rw [hr]; exact hreq r s hl h
  · rw [hr]; exact h

/-- Receiving a character keeps such a property. -/
theorem receive_keeps {P : State → Prop} (hlink : ∀ s l, P s → P { s with link := l }) (hend : ∀ s, P s → P s.endEvent)
    (hreq : ∀ r s, s.isLive = true → P s → P (performRequest r s).state) (c : Byte) (bad : Bool) {s : State} (h : P s) :
    P ((if bad then receiveBad else receiveChar c) s) := by
  have ha : P (abandonFrame s) := hlink _ _ (hlink _ _ h)
  have hrx : ∀ r, P (s.setRx r) := fun r => hlink _ _ h
  cases bad with
  | true => simp only [if_true]; unfold receiveBad; split; exacts [h, ha]
  | false =>
    simp only [Bool.false_eq_true, if_false]
    unfold receiveChar
    dsimp only
    split
    · split; exacts [hrx _, h]
    · unfold receiveHeader
      split
      · split; exacts [ha, hrx _]
      · exact hrx _
      · exact hrx _
    · split; exacts [hrx _, hrx _]
    · split
      · unfold completeFrame
        dsimp only
        split
        · split
          · exact takeFrame_keeps hlink hend (performFrame_keeps hreq _ _) _ _ h
          · exact hend _ ha
        · exact hend _ ha
      · exact hrx _

/-- A property that no change of the link or of the waiting commands disturbs is kept by every step, if requests, events and
start-up events keep it. -/
theorem step_keeps {P : State → Prop} (hpend : ∀ s q, P s → P { s with pending := q })
    (hlink : ∀ s l, P s → P { s with link := l }) (hend : ∀ s, P s → P s.endEvent)
    (hreq : ∀ r s, s.isLive = true → P s → P (performRequest r s).state)
    (hev : ∀ i f s, eventBody i = some f → (∀ c b, i ≠ .characterReceived c b) → s.startup.running = true → P s → P (f s))
    (hstart : ∀ i f s, startBody i = some f → P s → P (f s))
    {s t : State} (h : P s) (hs : step s = .next t) : P t := by
  unfold step at hs
  split at hs
  · cases hs; exact h
  · rename_i i rest _
    have h' := hpend s rest h
    generalize ({ s with pending := rest } : State) = u at h' hs
    rcases exec_forms i u with ⟨tag, kind, p, he, hp⟩ | ⟨f, hf, he⟩ | ⟨f, hf, he⟩
    · rw [he] at hs; cases hs
      apply takeFrame_keeps hlink hend _ _ _ h'
      rcases hp with ⟨r, -, -, rfl⟩ | ⟨-, rfl⟩
      · exact hreq r
      · exact performFrame_keeps hreq _ _
    · rw [he] at hs; cases hs
      unfold whileRunning
      split
      · rename_i hr
        apply hend
        by_cases hc : ∃ c b, i = .characterReceived c b
        · obtain ⟨c, b, rfl⟩ := hc
          cases hf
          exact receive_keeps hlink hend hreq c b h'
        · exact hev i f u hf (fun c b hi => hc ⟨c, b, hi⟩) hr h'
      · exact h'
    · rw [he] at hs; cases hs
      exact hstart i f u hf h'

end Sys2Proof.Machine
end

