-- ==== Sys2Proof/Laws/Tables.lean ====
section
/-! SUPPORT. Laws/Tables.lean: what each operation does to the claim table and to the action list: which keys stand, how many soft
records, that no key comes twice. -/

namespace Sys2Proof.Machine

/-! ### The claim table (R81, R82, R92, R95) -/

/-- What names a record in the table (R81). -/
def Claim.key (c : Claim) : Claimant × Fin 8 := (c.claimant, c.output)

theorem sameClaim_iff {cl : Claimant} {o : Fin 8} {c : Claim} : sameClaim cl o c = true ↔ c.key = (cl, o) := by
  simp [sameClaim, Claim.key]

theorem hasClaim_iff {cs : List Claim} {cl : Claimant} {o : Fin 8} : hasClaim cs cl o = true ↔ (cl, o) ∈ cs.map Claim.key := by
  simp only [hasClaim, List.any_eq_true, sameClaim_iff, List.mem_map]

theorem key_ite {n c : Claim} : (if sameClaim n.claimant n.output c = true then { n with created := c.created } else c).key = c.key := by
  split
  · rename_i h; rw [sameClaim_iff] at h; exact h.symm
  · rfl

/-- A claim placed refreshes its key's record or adds one (R81). -/
theorem keys_putClaim (cs : List Claim) (n : Claim) : (putClaim cs n).map Claim.key =
    if hasClaim cs n.claimant n.output then cs.map Claim.key else cs.map Claim.key ++ [n.key] := by
  unfold putClaim
  split
  · rw [List.map_map]; exact List.map_congr_left fun c _ => key_ite
  · simp

theorem nodup_putClaim {cs : List Claim} (h : (cs.map Claim.key).Nodup) (n : Claim) : ((putClaim cs n).map Claim.key).Nodup := by
  rw [keys_putClaim]
  split
  · exact h
  · rename_i hn
    rw [hasClaim_iff] at hn
    exact List.nodup_append.2 ⟨h, List.nodup_singleton _, by
      intro x hx y hy; rw [List.mem_singleton] at hy; subst hy; rintro rfl; exact hn hx⟩

/-- Soft records, counted by their keys. -/
theorem softCount_eq (cs : List Claim) : softCount cs = ((cs.map Claim.key).filter fun k => match k.1 with
    | .soft _ => true
    | .line _ => false).length := by
  rw [List.filter_map, List.length_map]; rfl

theorem softCount_putClaim (cs : List Claim) (n : Claim) : softCount (putClaim cs n) =
    if hasClaim cs n.claimant n.output then softCount cs else softCount cs + if isSoft n then 1 else 0 := by
  rw [softCount_eq, keys_putClaim]
  split
  · rw [softCount_eq]
  · rw [List.filter_append, List.length_append, ← softCount_eq]
    congr 1
    cases hn : n.claimant <;> simp [Claim.key, isSoft, hn]

/-- A line's own records never count as soft. -/
theorem softCount_putLine (cs : List Claim) (l : Fin 8) (o : Fin 8) (v : Level) (t : Tick) :
    softCount (putClaim cs ⟨.line l, o, v, none, none, t⟩) = softCount cs := by
  rw [softCount_putClaim]; split <;> rfl

theorem nodup_addPairs (l : Fin 8) (t : Tick) (ps : List MapPair) {cs : List Claim} (h : (cs.map Claim.key).Nodup) :
    ((addPairs l t ps cs).map Claim.key).Nodup := by
  unfold addPairs
  induction ps generalizing cs with
  | nil => exact h
  | cons p ps ih => rw [List.foldl_cons]; exact ih (nodup_putClaim h _)

@[simp] theorem softCount_addPairs (l : Fin 8) (t : Tick) (ps : List MapPair) (cs : List Claim) :
    softCount (addPairs l t ps cs) = softCount cs := by
  unfold addPairs
  induction ps generalizing cs with
  | nil => rfl
  | cons p ps ih => rw [List.foldl_cons, ih, softCount_putLine]

theorem mem_keys_putClaim {cs : List Claim} {n : Claim} {k : Claimant × Fin 8} :
    k ∈ (putClaim cs n).map Claim.key ↔ k ∈ cs.map Claim.key ∨ k = n.key := by
  rw [keys_putClaim]
  split
  · rename_i h; rw [hasClaim_iff] at h
    constructor
    · exact Or.inl
    · rintro (h2 | rfl)
      exacts [h2, h]
  · simp

/-- After a line's pairs are added, the keys are those before and the line's mapped outputs (R92). -/
theorem mem_keys_addPairs (l : Fin 8) (t : Tick) (ps : List MapPair) (cs : List Claim) (k : Claimant × Fin 8) :
    k ∈ (addPairs l t ps cs).map Claim.key ↔ k ∈ cs.map Claim.key ∨ ∃ p ∈ ps, k = (.line l, p.output) := by
  unfold addPairs
  induction ps generalizing cs with
  | nil => simp
  | cons p ps ih =>
    rw [List.foldl_cons, ih, mem_keys_putClaim]
    simp only [List.mem_cons, exists_eq_or_imp, or_assoc, Claim.key]

theorem keys_filter_sublist (f : Claim → Bool) (cs : List Claim) : List.Sublist ((cs.filter f).map Claim.key) (cs.map Claim.key) :=
  List.filter_sublist.map _

theorem nodup_filter_claims {cs : List Claim} (h : (cs.map Claim.key).Nodup) (f : Claim → Bool) :
    ((cs.filter f).map Claim.key).Nodup := h.sublist (keys_filter_sublist f cs)

theorem softCount_filter_le (f : Claim → Bool) (cs : List Claim) : softCount (cs.filter f) ≤ softCount cs :=
  (List.filter_sublist.filter _).length_le

@[simp] theorem keys_relevelPairs (l : Fin 8) (ps : List MapPair) (cs : List Claim) :
    (relevelPairs l ps cs).map Claim.key = cs.map Claim.key := by
  unfold relevelPairs
  rw [List.map_map]
  refine List.map_congr_left fun c _ => ?_
  simp only [Function.comp]
  split
  · split <;> rfl
  · rfl

@[simp] theorem softCount_relevelPairs (l : Fin 8) (ps : List MapPair) (cs : List Claim) :
    softCount (relevelPairs l ps cs) = softCount cs := by rw [softCount_eq, keys_relevelPairs, ← softCount_eq]

/-- Trimmed records of a line are of mapped outputs (R95). -/
theorem mem_trimPairs {l : Fin 8} {ps : List MapPair} {cs : List Claim} {c : Claim} :
    c ∈ trimPairs l ps cs ↔ c ∈ cs ∧ (c.claimant = .line l → ∃ p ∈ ps, p.output = c.output) := by
  unfold trimPairs
  rw [List.mem_filter]
  simp only [Bool.or_eq_true, decide_eq_true_eq, List.any_eq_true, imp_iff_not_or]

/-! ### The action list (R124) -/

theorem perm_insertAction (now : Tick) (a : Action) (l : List Action) : (insertAction now a l).Perm (a :: l) := by
  induction l with
  | nil => exact List.Perm.refl _
  | cons x xs ih =>
    unfold insertAction
    split
    · exact (ih.cons x).trans (List.Perm.swap a x xs)
    · exact List.Perm.refl _

@[simp] theorem length_insertAction (now : Tick) (a : Action) (l : List Action) : (insertAction now a l).length = l.length + 1 :=
  (perm_insertAction now a l).length_eq

theorem hasAction_iff {l : List Action} {n : Byte} : hasAction l n = true ↔ n ∈ l.map Action.number := by
  simp [hasAction]

/-- An action enters a list that does not hold its number (R125, R127). -/
theorem actionsOk_insertAction {l : List Action} (h : actionsOk l) (now : Tick) {a : Action} (hn : a.number ∉ l.map Action.number)
    (hl : l.length < Config.actionRoom) : actionsOk (insertAction now a l) := by
  refine ⟨by rw [length_insertAction]; exact hl, ?_⟩
  rw [((perm_insertAction now a l).map _).nodup_iff, List.map_cons, List.nodup_cons]
  exact ⟨hn, h.2⟩

theorem actionsOk_filter {l : List Action} (h : actionsOk l) (f : Action → Bool) : actionsOk (l.filter f) :=
  ⟨(List.length_filter_le f l).trans h.1, h.2.sublist (List.filter_sublist.map _)⟩

/-! ### The stack (R102, R107) -/

theorem Stack.pop_append (below : List (Fin 6)) (p top : Fin 6) : Stack.pop ⟨below ++ [p], top⟩ = some ⟨below, p⟩ := by
  simp [Stack.pop]

theorem Stack.pop_nil (top : Fin 6) : Stack.pop ⟨[], top⟩ = none := rfl

/-- The active profile is the top of the entries (R102). -/
theorem Stack.getLast_entries (k : Stack) : k.entries.getLast? = some k.top := by simp [Stack.entries]

end Sys2Proof.Machine
end

