-- ==== Sys2Proof/Tests/Slice0.lean ====
section
/-! SUPPORT. Tests/Slice0.lean: the checks of WellFormed on ill-formed commands, the CRCs, one step of some commands of every family on
small states, and for every statement with premises states and operands that meet them. -/

namespace Sys2Proof.Tests

open Sys2Proof Sys2Proof.Machine

/-! ### Helpers -/

/-- LIVE with the built-in default: OUT0 runs from RCO, every other output is OFF, every source is OFF. -/
def live : State :=
  { State.reset with
    clk := { State.reset.clk with
      outs := State.reset.clk.outs.set 0 { OutRec.cold (defaultOut true) .running with current := some ⟨.rco, 1⟩ } }
    startup := ⟨.live, false, true, false, some .builtIn, none, ⟨.powerOn, .builtIn⟩⟩ }

/-- LIVE with one source in a state, with a timer. -/
def withOsc (o : Osc) (st : OscState) (t : Option SourceTimer) : State :=
  live.putOsc o { OscRec.cold (defaultOscs.get o) with state := st, timer := t }

/-- An enabled output on a feed. -/
def outOn (m : OutMode) (st : OutState) : OutRec := OutRec.cold { defaultOut false with enable := true, mode := m } st

/-- LIVE with OUT1 as given. -/
def withOut (r : OutRec) : State := live.putOut 1 r

/-- OUT1 in the acquire phase, towards RCO divided by 2. -/
def acquiring : OutRec :=
  { outOn (.fixed ⟨.rco, 2⟩) (.switching .acquire) with target := some ⟨.rco, 2⟩, phase := some ⟨0#32, 1000⟩ }

/-- LIVE with another link, start-up state or stack. -/
def withLink (f : Link → Link) : State := { live with link := f live.link }
def inState (st : StartState) (warm : Bool) : State := { live with startup := { live.startup with state := st, warm := warm } }
def withStack (k : Stack) : State := { live with stack := k }

/-- The state after one command. -/
def after (i : Instr) (s : State) : State :=
  match exec i s with
  | .next t => t
  | _ => s

/-- A reply on LTX: its frame without the sync byte, the length and the CRC. -/
def replied (s : State) : List Byte :=
  match s.link.onLtx with
  | some f => (f.bytes.drop 2).take (f.bytes.length - 4)
  | none => []

def notice (n : Half) (sent : Bool) : NoticeRec := ⟨n, .imageFailed, 0#32, 0#8, [5#8], sent⟩
def softClaim (n : Byte) (o : Fin 8) (lease : Option Tick) : Claim := ⟨.soft n, o, .run, lease, none, 0#32⟩
def lineClaim (l o : Fin 8) : Claim := ⟨.line l, o, .hold, none, none, 0#32⟩
def remind (n : Byte) (due : Tick) (period : Option Nat) : Action := ⟨n, due, period, .remind 7#16⟩
def aSave (p : SavePhase) : Save := ⟨p, false, 1#32, 0, defaultConfig⟩
def saving (p : SavePhase) : State :=
  { live with image := ⟨⟨.unfinished, .erased⟩, ⟨.invalid .saving, .invalid .erased⟩, some (aSave p), none⟩ }

/-- LIVE with XA kept and in a state, which nothing else demands. -/
def keptXa (st : OscState) (t : Option SourceTimer) : State :=
  let r := live.osc .xa
  live.putOsc .xa { r with cfg := { r.cfg with keep := true }, state := st, timer := t }

theorem rest_of {s : State} (h1 : ∀ o, evalOut (envOf .ordinary s s) s.clk.src o (s.clk.outs.get o) = (s.clk.outs.get o, []))
    (h2 : ∀ o ∈ oscs, mustStop (demanded (envOf .ordinary s s) s.clk o) (s.clk.src.osc.get o).state = false
      ∧ (demanded (envOf .ordinary s s) s.clk o = true → (s.clk.src.osc.get o).state ≠ .off))
    (h3 : s.clk.src.osc.syn.state = .starting → feeds s.clk.src (synInputSrc s.clk.src.syn.input) = true →
      s.clk.src.osc.syn.timer ≠ none) : atRest s := ⟨h1, fun o => h2 o (by cases o <;> decide), h3⟩
theorem live_takes : live.takes := ⟨by decide, by decide, by decide⟩
theorem live_running : live.startup.running = true := by decide

/-! ### WellFormed refuses what cannot arise -/

theorem test_wf_echo : (Instr.echo 0#8 (List.replicate 121 0#8)).wellFormed = false := by decide
theorem test_wf_chainSet :
    (Instr.chainSet 0#8 ⟨0#8, 0#16, 0#8, 0#8, 0#16, List.replicate 38 ⟨0#8, 0#16⟩⟩).wellFormed = false := by decide
theorem test_wf_lineMapSet :
    (Instr.lineMapSet 0#8 ⟨0#8, 0#8, 0#16, List.replicate 58 ⟨0#8, 0#8⟩⟩).wellFormed = false := by decide
theorem test_wf_unknownKind : (Instr.unknownKind 0#8 0x30#8).wellFormed = false := by decide
theorem test_wf_startDetection : (Instr.startDetection .syn).wellFormed = false := by decide
theorem test_wf_startTimerExpiry : (Instr.startTimerExpiry .syn).wellFormed = false := by decide
theorem test_wf_leaseExpiry : (Instr.leaseExpiry 0#8 0).wellFormed = false ∧ (Instr.leaseExpiry 251#8 0).wellFormed = false := by
  decide
theorem test_wf_accepts : (Instr.echo 0#8 (List.replicate 120 0#8)).wellFormed = true ∧ Instr.tick.wellFormed = true
    ∧ (Instr.leaseExpiry 250#8 7).wellFormed = true ∧ (Instr.unknownKind 0#8 0x04#8).wellFormed = true := by decide

/-- No row of the table gives bits. -/
theorem test_decode : decodeTableWord 8 0 = none := rfl

/-! ### CRCs, codes, timers -/

/-- R171. -/
theorem test_crc16 : crc16 [0x31#8, 0x32#8, 0x33#8, 0x34#8, 0x35#8, 0x36#8, 0x37#8, 0x38#8, 0x39#8] = 0x29B1#16 := by
  decide +kernel
/-- R137: the check value of the reflected CRC-32 with generator 0x04C11DB7. -/
theorem test_crc32 : crc32 [0x31#8, 0x32#8, 0x33#8, 0x34#8, 0x35#8, 0x36#8, 0x37#8, 0x38#8, 0x39#8] = 0xCBF43926#32 := by
  decide +kernel
/-- R25's example: E = 250,000, tol = 50. -/
theorem test_survey_boundary : surveyResult 237500 250000 50 = .good ∧ surveyResult 237499 250000 50 = .slow
    ∧ surveyResult 262500 250000 50 = .good ∧ surveyResult 262501 250000 50 = .fast ∧ surveyResult 31249 250000 50 = .stopped := by
  decide
/-- R121, across the wrap. -/
theorem test_reached : reached 3#32 (dueIn 0xFFFFFFFE#32 5) = true ∧ reached 2#32 (dueIn 0xFFFFFFFE#32 5) = false := by decide

/-! ### One step -/

theorem test_reset_idles : step State.reset = .next State.reset := rfl
theorem test_step_takes_front : step { live with pending := [.tick] } = exec .tick live := rfl
theorem test_echo : replied (after (.echo 7#8 [0xAB#8]) live) = [7#8, 0x82#8, 0#8, 0#8, 0xAB#8] := by decide
theorem test_identify : replied (after (.identify 9#8) live)
    = [9#8, 0x81#8, 0#8, 0#8, 0x0C#8, 0x58#8, 1#8, 1#8, 2#8, 0#8, 0#8, 0#8, 0#8, 0#8, 8#8, 0#8, 0#8, 0#8, 0#8] := by decide
theorem test_unknown_kind : replied (after (.unknownKind 1#8 0x04#8) live) = [1#8, 0x84#8, 0x10#8, 0#8] := by decide
theorem test_restart_then_held : let t := after (.restart 1#8) live
    t.link.restartTaken = true ∧ (after (.timeQuery 2#8) t).link.held = [⟨2#8, 0x40#8⟩] := by decide
theorem test_source_keep_starts : let t := after (.sourceKeep 1#8 1#8 1#8) live
    (t.osc .xa).state = .starting ∧ (t.osc .xa).timer = some ⟨.start, 5#32⟩ := by decide
theorem test_source_keep_rco : replied (after (.sourceKeep 1#8 0#8 1#8) live) = [1#8, 0x92#8, 0x1A#8, 0#8] := by decide
theorem test_start_timer_expiry :
    let t := after (.startTimerExpiry .xa) (withOsc .xa .starting (some ⟨.start, 0#32⟩))
    (t.osc .xa).state = .quarantined ∧ (t.osc .xa).fault = some .noStart ∧ (t.osc .xa).timer = some ⟨.quarantine, 1000#32⟩
    ∧ t.alertLow = true := by decide
theorem test_source_clear_quarantined :
    let t := after (.sourceClear 1#8 1#8) ((withOsc .xa .quarantined (some ⟨.quarantine, 9#32⟩)).putOsc .syn
      { live.osc .syn with state := .starting })
    (t.osc .xa).state = .off ∧ (t.osc .syn).state = .quarantined ∧ (t.osc .syn).fault = some .inputLost := by decide
theorem test_monitor_set : replied (after (.monitorSet 3#8 ⟨1#16, ⟨⟨50#8, 3#8, 2#8⟩, ⟨50#8, 3#8, 2#8⟩, ⟨50#8, 3#8, 2#8⟩,
    ⟨50#8, 3#8, 2#8⟩⟩, ⟨40#8, 3#8, 2#8⟩⟩) live) = [3#8, 0x98#8, 0x12#8, 0#8] := by decide
theorem test_survey_completion : (after (.surveyCompletion 0#32 0#32 0#32 0#32) live).clk.mon.surveyNumber = 1#32 := by
  decide
/-- R22, R27: a completion with fewer than two witnesses records NONE as the consensus result, and leaves the last survey judged. -/
theorem test_survey_without_witnesses :
    let s := { live with clk := { live.clk with mon := { live.clk.mon with rco := ⟨0, 0, .good, some 7#32, 2⟩ } } }
    (after (.surveyCompletion 0#32 0#32 0#32 0#32) s).clk.mon.rco = ⟨0, 0, .none, some 7#32, 0⟩ := by decide
theorem test_output_set : let t := after (.outputSet 1#8 ⟨1#8, 1#8, 0#8, 0#8, 2#16, 0#8, 0#8, 100#16⟩) live
    (t.out 1).state = .switching .acquire ∧ (t.out 1).target = some ⟨.rco, 2⟩ ∧ t.outPin 1 = .low := by decide
theorem test_acquire_end : let t := after (.acquireEnd 1) (withOut acquiring);
    (t.out 1).state = .running ∧ t.outPin 1 = .clock ⟨.rco, 2⟩ := by decide
theorem test_output_select_fixed : replied (after (.outputSelect 1#8 0#8 0#8) live) = [1#8, 0xA2#8, 0x16#8, 0#8] := by
  decide
theorem test_chain_set : (after (.chainSet 1#8 ⟨2#8, 5#16, 1#8, 0#8, 4#16, [⟨1#8, 2#16⟩, ⟨0#8, 3#16⟩]⟩) live).chains.get 2
    = ⟨[⟨.osc .xa, 2⟩, ⟨.rco, 3⟩], 5, true, false, some 4⟩ := by decide
theorem test_chain_set_takes_target_away : let s := withOut { outOn (.chain 0) (.switching .acquire) with
      target := some ⟨.rco, 1⟩, phase := some ⟨0#32, 1000⟩, place := some ⟨.lastResort, .use⟩ }
    let s := { s with chains := s.chains.set 0 ⟨[⟨.osc .xa, 2⟩], 10, false, false, some 1⟩ }
    ((after (.chainSet 1#8 ⟨0#8, 10#16, 0#8, 0#8, 0#16, [⟨1#8, 2#16⟩]⟩) s).out 1).state = .waiting := by decide
theorem test_release_to_last_resort : let s := withOut { outOn (.chain 0) (.switching .release) with
      current := some ⟨.osc .xa, 2⟩, target := some ⟨.rco, 1⟩, phase := some ⟨0#32, 1000⟩, place := some ⟨.lastResort, .use⟩ }
    let s := { s with chains := s.chains.set 0 ⟨[⟨.osc .xa, 2⟩], 10, false, false, some 1⟩ }
    ((after (.releaseEnd 1) s).out 1).state = .switching .acquire := by decide
/-- OUT1 leaves XA, entry 0 of its chain; RCO is entry 1. -/
def releasing : State :=
  let s := (withOut { outOn (.chain 0) (.switching .release) with
    current := some ⟨.osc .xa, 2⟩, target := some ⟨.osc .xa, 2⟩, phase := some ⟨0#32, 1000⟩, place := some ⟨.entry 0, .use⟩ }).putOsc .xa
    { live.osc .xa with state := .running, runningSince := some 0#32 }
  { s with chains := s.chains.set 0 ⟨[⟨.osc .xa, 2⟩, ⟨.rco, 3⟩], 10, false, false, none⟩ }
/-- R75: OUTPUT SELECT of an eligible entry, taken in the release phase, is told by no FAILOVER when the release ends. -/
theorem test_release_to_pin : let t := after (.releaseEnd 1) (after (.outputSelect 1#8 1#8 1#8) releasing)
    (t.out 1).state = .switching .acquire ∧ (t.out 1).target = some ⟨.rco, 3⟩ ∧ (t.out 1).place = some ⟨.entry 1, .use⟩
    ∧ t.notices.records.map NoticeRec.kind = [.outputState, .sourceState] := by decide
/-- The reasons of the FAILOVER notices: the fifth byte of their details. -/
def failovers (s : State) : List (Option Byte) :=
  (s.notices.records.filter fun n => decide (n.kind = .failover)).map fun n => n.details[4]?
/-- R75: the source of the release's target faults; the reason is kept, also under a pin that stands. -/
theorem test_release_target_faults :
    let s := releasing.putOsc .xb { live.osc .xb with state := .running }
    let r := { s.out 1 with current := some ⟨.osc .xb, 1⟩ }
    let f := fun p => (after (.startTimerExpiry .xa)
      ((s.putOut 1 { r with pin := p }).putOsc .xa { s.osc .xa with state := .starting, timer := some ⟨.start, 0#32⟩ })).out 1
    (f none).awaits = some .fault ∧ (f (some 1)).awaits = some .fault ∧ (f none).place = some ⟨.entry 0, .use⟩ := by decide
/-- R75: the fault is told when the release ends, though the source has been cleared and starts again. -/
theorem test_release_tells_fault :
    let s := (releasing.putOut 1 { releasing.out 1 with awaits := some .fault, current := some ⟨.rco, 1⟩ }).putOsc .xa
      { live.osc .xa with state := .starting, timer := some ⟨.start, 5#32⟩ }
    failovers (after (.releaseEnd 1) s) = [some (BitVec.ofNat 8 (failReasonCode .fault))]
    ∧ (after (.outputSelect 1#8 1#8 0xFF#8) (s.putOut 1 { s.out 1 with pin := some 1 })).out 1 = s.out 1 := by decide
/-- R75: the last HOLD claim of a HELD output goes, and with it the permission that honour kept: PERMISSION, not REVERT. -/
theorem test_honour_ends_held_revert :
    let r := { outOn (.chain 0) .running with current := some ⟨.osc .xa, 2⟩, place := some ⟨.entry 1, .use⟩, revert := .held }
    let s := (withOut r).putOsc .xa { live.osc .xa with state := .running, runningSince := some 0#32 }
    let t := after (.leaseExpiry 5#8 1) { s with
      chains := s.chains.set 0 ⟨[⟨.rco, 3⟩, ⟨.osc .xa, 2⟩], 10, false, false, none⟩
      profiles := .fill { defaultProfile with permitted := ⟨false, true, true, true⟩, honour := ⟨true, false, false, false⟩ }
      claims := [{ softClaim 5#8 1 (some 0#32) with level := .hold }] }
    failovers t = [some (BitVec.ofNat 8 (failReasonCode .permission))] ∧ (t.osc .xa).state = .off := by decide
/-- R76: no notice tells the pin of an output without a position that the chain has become too short for. -/
theorem test_chain_set_pin_without_position :
    let s := releasing.putOut 1 { releasing.out 1 with pin := some 1, place := none, target := none, current := some ⟨.rco, 1⟩ }
    let t := after (.chainSet 1#8 ⟨0#8, 10#16, 0#8, 0#8, 0#16, [⟨1#8, 2#16⟩]⟩) s
    (t.out 1).pin = none ∧ failovers t = [] := by decide
/-- APPLY of a warm restart, OUT1 as given on XA, which runs for OUT1 alone. -/
def restarting (r : OutRec) (p : ProfileRec) (ch : ChainRec) : State :=
  let c := { defaultConfig with outs := defaultConfig.outs.set 1 r.cfg, profiles := .fill p, chains := .fill ch }
  let s := (withOut r).putOsc .xa { live.osc .xa with state := .running, runningSince := some 0#32 }
  { s with
    chains := .fill ⟨[⟨.osc .xb, 1⟩, ⟨.osc .xa, 2⟩], 10, false, false, none⟩
    startup := { s.startup with state := .apply, warm := true, chosen := some (.slot false 1#32) }
    image := { s.image with contents := ⟨.written ⟨Config.formatCode, 1#32, 0, c, 0#32⟩, .erased⟩ } }
/-- R79: the new profile forbids XA, which stops for want of demand. -/
theorem test_restart_stops_source :
    let t := after (.live 0#8) (restarting { outOn (.chain 0) .running with
      current := some ⟨.osc .xa, 2⟩, place := some ⟨.entry 1, .use⟩ } { defaultProfile with permitted := ⟨false, true, true, true⟩ } defaultChain)
    (t.osc .xa).state = .off ∧ failovers t = [some (BitVec.ofNat 8 (failReasonCode .stopped))] := by decide
/-- R79: the new chain has no XA; the acquire is left for the new configuration, and XA stops because it is. -/
theorem test_restart_drops_target :
    let t := after (.live 0#8) (restarting { outOn (.chain 0) (.switching .acquire) with
      target := some ⟨.osc .xa, 2⟩, phase := some ⟨0#32, 1000⟩, place := some ⟨.entry 1, .use⟩ } defaultProfile
      ⟨[⟨.osc .xb, 1⟩], 10, false, false, none⟩)
    (t.osc .xa).state = .off ∧ failovers t = [some (BitVec.ofNat 8 (failReasonCode .restart))] := by decide
theorem test_claim : let t := after (.claim 1#8 ⟨5#16, 3#8, 3#8, 100#32, 0#16⟩) live
    t.claims = [⟨.soft 5#8, 3, .hold, some 100#32, none, 0#32⟩] ∧ replied t = [1#8, 0xB0#8, 0#8, 0#8, 1#8, 0#8] := by
  decide
theorem test_lease_expiry : let t := after (.leaseExpiry 5#8 3) { live with claims := [softClaim 5#8 3 (some 0#32)] }
    t.claims = [] ∧ t.notices.records.map NoticeRec.kind = [.claimExpired] := by decide
theorem test_line_map_set : ((after (.lineMapSet 1#8 ⟨2#8, 1#8, 0#16, [⟨3#8, 1#8⟩]⟩) live).line 2).set = ⟨[⟨3, .hold⟩], true, 0⟩ := by
  decide
theorem test_line_activation : let s := live.putLine 2 ⟨⟨[⟨3, .hold⟩], true, 0⟩, false, false, none⟩
    (after (.lineActivation 2) s).claims = [lineClaim 2 3] := by decide
theorem test_profile_enter : let t := after (.profileEnter 1#8 4#8) live
    t.stack = ⟨[], 4⟩ ∧ t.notices.records.map NoticeRec.kind = [.profileEntered, .profileSettled] := by decide
theorem test_resume_bottom : replied (after (.resume 1#8) live) = [1#8, 0xBB#8, 0x19#8, 0#8] := by decide
theorem test_wake : let s := { live with profiles := .fill { defaultProfile with wakeMask := 0x100#9, wakeProfile := some 2 } }
    (after .wakePinEdge s).stack = ⟨[0], 2⟩ := by decide
theorem test_tick : (after .tick live).tick = 1#32 := by decide
theorem test_action_add : (after (.actionAdd 1#8 ⟨7#8, 0#8, 10#32, 0#32, 6#8, 0#8, 7#8, 0#8⟩) live).actions
    = [remind 7#8 10#32 none] := by decide
theorem test_action_firing : let t := after .actionFiring { live with actions := [remind 7#8 0#32 (some 10)] }
    t.actions = [remind 7#8 10#32 (some 10)] ∧ t.notices.records.map NoticeRec.kind = [.actionDone] := by decide
theorem test_notice_ack : (after (.noticeAck 1#8 1#16) { live with notices := ⟨[notice 1#16 true], 2#16, 3, everyKind⟩ }).notices
    = ⟨[⟨2#16, .lost, 0#32, 0#8, [3#8], false⟩], 3#16, 0, everyKind⟩ := by decide
theorem test_image_save : replied (after (.imageSave 1#8 2#8) live) = [1#8, 0xD0#8, 1#8, 0#8, 0#8, 0#8, 0#8, 0#8, 1#8] := by
  decide
theorem test_check_complete : let t := after (.checkComplete true) (saving .check)
    t.image.records.get false = .valid 1#32 0 ∧ t.image.save = none
    ∧ t.notices.records.map NoticeRec.kind = [.imageSaved] := by decide
theorem test_reset_release : (after .resetRelease State.reset).startup.released = true := by decide
theorem test_live : let t := after (.live 0#8) { inState .apply false with clk := .cold defaultConfig fun c => if c.enable then .parked else .off }
    t.startup.state = .live ∧ (t.out 0).state = .switching .acquire
    ∧ t.notices.records.map NoticeRec.kind = [.started, .outputState] := by decide

/-! ### Every statement's premises are met: states, operands, and each clause at a value of its own -/

theorem test_wit_StepTakesFrontCommand :
    ({ live with pending := [.gap, .tick] } : State).pending = .gap :: [.tick] ∧ State.reset.pending = [] := ⟨rfl, rfl⟩
theorem test_wit_CommandsTouchOnlyTheirParts : exec .gap State.reset = .next State.reset ∧ Part.claims ∉ mayTouch .gap :=
  ⟨rfl, by decide⟩
theorem test_wit_RequestsAreTheirFrames : (Instr.identify 1#8).request? = some (1#8, .identify)
    ∧ Request.fits (.echo (List.replicate 118 0#8)) = true
    ∧ Request.fits (.chainSet ⟨0#8, 0#16, 0#8, 0#8, 0#16, List.replicate 37 ⟨0#8, 0#16⟩⟩) = true
    ∧ Request.fits (.lineMapSet ⟨0#8, 0#8, 0#16, List.replicate 57 ⟨0#8, 0#8⟩⟩) = true := by decide
theorem test_wit_CharactersMakeTheFrame : (List.replicate 120 0#8).length ≤ 120 ∧ live.startup.running = true
    ∧ live.link.rx = .hunting ∧ live.endEvent = live := by decide
theorem test_wit_FramesNotPerformed : (Instr.unknownKind 0#8 0x7F#8).header? = some (0#8, 0x7F#8)
    ∧ State.reset.startup.running = false
    ∧ ((inState .select true).startup.running = true ∧ (inState .select true).isLive = false)
    ∧ (let s := withLink fun l => { l with held := List.replicate 4 ⟨0#8, 0#8⟩ }
       s.startup.running = true ∧ 4 ≤ s.link.windowCount)
    ∧ (let s := withLink fun l => { l with held := List.replicate 3 ⟨0#8, 0#8⟩, restartTaken := true }
       s.isLive = true ∧ s.link.windowCount < 4 ∧ s.link.restartTaken = true) := by decide
theorem test_wit_TakenRequestIsAnswered : (Instr.resume 1#8).request? = some (1#8, .resume) ∧ live.takes
    ∧ (performRequest .resume live).status ≠ .ok ∧ (performRequest .resume live).status ≠ .accepted :=
  ⟨rfl, live_takes, by decide, by decide⟩
theorem test_wit_EndOfEventRules :
    (State.reset.isLive = false ∧ (withLink fun l => { l with onLtx := some ⟨[], false, false⟩ }).link.onLtx ≠ none)
    ∧ (live.isLive = true ∧ live.link.onLtx = none)
    ∧ (withLink fun l => { l with queued := [⟨0#8, 0x83#8, .ok, [], true⟩] }).link.queued = ⟨0#8, 0x83#8, .ok, [], true⟩ :: []
    ∧ ({ live with notices := ⟨[notice 1#16 true, notice 2#16 false], 3#16, 0, everyKind⟩ } : State).notices.records
        = [notice 1#16 true] ++ notice 2#16 false :: []
    ∧ ((∀ x ∈ [notice 1#16 true], x.sent = true) ∧ (notice 2#16 false).sent = false)
    ∧ (∀ x ∈ live.notices.records, x.sent = true) ∧ live.settling = none
    ∧ (∀ o, (live.out o).cfg.enable = true →
        (live.out o).state = .running ∨ (live.out o).state = .parked ∨ (live.out o).state = .dark)
    ∧ ((withOut acquiring).out 1).cfg.enable = true ∧ ((withOut acquiring).out 1).state = .switching .acquire := by decide
theorem test_wit_EndOfEventRules_settling : ({ live with settling := some ⟨0, 0#32, 1⟩ } : State).settling = some ⟨0, 0#32, 1⟩ := rfl

/-- Invariants and steps: the state after power-on meets every premise of the statements that a step keeps something. -/
theorem test_wit_StepKeeps : gateLaw State.reset.clk ∧ outputsOk State.reset.clk ∧ sourcesOk State.reset.clk
    ∧ State.reset.notices.wf ∧ State.reset.notices.laidOut ∧ State.reset.link.windowCount ≤ 4 ∧ claimsOk State.reset
    ∧ State.reset.stack.depth ≤ 6 ∧ actionsOk State.reset.actions ∧ saveOk State.reset ∧ State.reset.link.rx.wf
    ∧ step State.reset = .next State.reset := by
  refine ⟨?_, ?_, ⟨?_, ?_⟩, ?_, ?_, by decide, ?_, by decide, ?_, ?_, rfl, rfl⟩
  · unfold gateLaw; intro o h; revert h; revert o; decide
  · unfold outputsOk OutRec.wf; decide
  · intro o; unfold OscRec.wf; cases o <;> decide
  · unfold RcoRec.wf; decide
  · unfold Notices.wf; decide
  · unfold Notices.laidOut; decide
  · unfold claimsOk ImageStore.mapsFit
    exact ⟨by decide, by decide, by decide, by decide, trivial, trivial, fun v hv => by cases hv⟩
  · unfold actionsOk; decide
  · intro v hv; cases hv
theorem test_wit_StepKeepsOutputsStanding : live.startup.running = true ∧ outputsStand live
    ∧ exec .gap live = .next live ∧ step { live with pending := [.gap] } = .next live := by
  refine ⟨by decide, ?_, rfl, rfl⟩
  unfold outputsStand; decide

theorem test_wit_StepKeepsAtRest : outputsOk live.clk ∧ live.startup.running = true ∧ atRest live
    ∧ step { live with pending := [.gap] } = .next live := by
  refine ⟨?_, by decide, ?_, rfl⟩
  · unfold outputsOk OutRec.wf; decide
  · exact rest_of (by decide) (by decide +kernel) (by decide +kernel)

theorem test_wit_SurveyResultAndConsensus : 2 ≤ [Direction.fast, .fast].length ∧ (∀ d ∈ [Direction.fast, .fast], d = .fast)
    ∧ (∀ d ∈ [Direction.slow, .slow], d = .slow)
    ∧ ((∃ d ∈ [Direction.slow, .fast], d ≠ .fast) ∧ ∃ d ∈ [Direction.slow, .fast], d ≠ .slow)
    ∧ [Direction.fast].length < 2 := by decide
theorem test_wit_VerdictRules : (OscMonitor.cold.verify < 16 ∧ 16 ≤ OscMonitor.cold.verify + (List.replicate 16 SurveyResult.good).length)
    ∧ ({ OscMonitor.cold with verify := 15 } : OscMonitor).verify < 16 ∧ (1 : Nat) ≤ 1 ∧ (1 : Nat) < 2
    ∧ countVerifying ⟨50, 2, 2⟩ { OscMonitor.cold with verify := 15 } .good = ⟨1, 0, 16, some (.failed .unstable)⟩
    ∧ countVerifying ⟨50, 2, 2⟩ { OscMonitor.cold with verify := 14 } .slow = ⟨0, 1, 15, none⟩ := by decide
theorem test_wit_TimersReachTheirDueTick : 2 ^ 31 - 1 < 2 ^ 31 ∧ 0 < 2 ^ 31 := by decide

/-- A chain of XA, then XB with RCO as last resort; sources in two states. -/
def ch : ChainRec := ⟨[⟨.osc .xa, 2⟩, ⟨.osc .xb, 1⟩], 10, false, false, some 1⟩
def chEnv : Env := { envOf .ordinary live live with chains := .fill ch }
def chOut : OutRec := outOn (.chain 0) .dark
theorem test_wit_ChainSelectionOrder :
    chainSelect chEnv (withOsc .xa .running none).clk.src 1 chOut ch = .use ⟨.osc .xa, 2⟩ (some (.entry 0))
    ∧ chainSelect chEnv live.clk.src 1 chOut ch = .wait ⟨.osc .xa, 2⟩ (some (.entry 0))
    ∧ chainSelect chEnv live.clk.src 1 { chOut with refused := [.osc .xa, .osc .xb] } ch = .use ⟨.rco, 1⟩ (some .lastResort)
    ∧ chainSelect chEnv live.clk.src 1 { chOut with refused := [.osc .xa, .osc .xb, .rco] } ch = .dark
    ∧ (chOut.cfg.mode = .chain 0 ∧ ({ chOut with pin := some 1 } : OutRec).pin = some 1 ∧ (chEnv.chains.get 0).entry 1 = some ⟨.osc .xb, 1⟩)
    ∧ eligible chEnv (withOsc .xb .running none).clk.src 1 { chOut with pin := some 1 } (chEnv.chains.get 0) (.osc .xb) = true
    ∧ eligible chEnv live.clk.src 1 { chOut with pin := some 1 } (chEnv.chains.get 0) (.osc .xb) = false
    ∧ (let r := { chOut with state := .running, current := some ⟨.osc .xa, 2⟩ }
       anchor r ch = some (.entry 0) ∧ ch.entry 0 = some ⟨.osc .xa, 2⟩
       ∧ eligible chEnv (withOsc .xa .running none).clk.src 1 r ch (.osc .xa) = true ∧ r.revert ≠ .due) := by decide
theorem test_wit_NewestValidSlotIsChosen : (0#32).toNat < (1#32).toNat
    ∧ chooseSlot ⟨.valid 2#32 0, .valid 3#32 0⟩ = .slot true 3#32
    ∧ generationsUsedUp ⟨.valid 0xFFFFFFFE#32 0, .invalid .erased⟩ = false
    ∧ (inState .select false).startup.state = .select := by decide
theorem test_wit_NoticePosting :
    (let q : Notices := ⟨[], 65535#16, 0, 0#16⟩
     NoticeKind.wake ≠ .started ∧ NoticeKind.wake ≠ .lost ∧ q.filter.getLsbD NoticeKind.wake.code = false
     ∧ q.records.length < 24 ∧ q.lost = 0)
    ∧ everyKind.getLsbD NoticeKind.imageFailed.code = true ∧ 24 ≤ (List.replicate 24 (notice 1#16 true)).length
    ∧ (List.replicate 23 (notice 1#16 true)).length < 24 ∧ (255 : Nat) ≠ 0
    ∧ OutState.off ≠ .dark
    ∧ (let v : Ev := ⟨live.clk, [], []⟩
       ((markFaulted v (.xa, .slow)).osc .xa).state = .faulted)
    ∧ ((outOn (.chain 0) (.switching .acquire)).state = .switching .acquire ∧ (false = false ∧ true = true)) := by decide
theorem test_wit_PinsFollowTheState : State.reset.startup.state = .powerup
    ∧ ((inState .select false).startup.state = .select ∧ (inState .select false).startup.warm = false)
    ∧ ((inState .apply false).startup.state = .apply ∧ (inState .select true).startup.state = .select
      ∧ (inState .select true).startup.warm = true)
    ∧ live.startup.state = .live ∧ ((live.out 0).gateOpen = true ∧ (live.out 0).current = some ⟨.rco, 1⟩)
    ∧ ((withOut acquiring).out 1).state = .switching .acquire ∧ (live.out 7).state = .off ∧ 2 ≤ 2 := by decide
theorem test_wit_LinkRequests : live.takes ∧ 0x04#8 ∉ requestKinds := ⟨live_takes, by decide⟩
theorem test_wit_EchoReturnsItsBody : live.takes ∧ (List.replicate 118 0#8).length ≤ 118 ∧ 118 < (List.replicate 119 0#8).length
    ∧ (List.replicate 118 0#8).length = 118 := ⟨live_takes, by decide, by decide, by decide⟩

/-- The receiver's states, each as its clause has it. -/
theorem test_wit_LinkEvents : live.startup.running = true ∧ live.link.rx = .hunting ∧ live.link.rx.state = .hunt
    ∧ (let r : Rx := ⟨.header, [], 3, true⟩
       (withLink fun l => { l with rx := r }).link.rx = r ∧ r.state ≠ .hunt ∧ 120 < (121#8 : Byte).toNat ∧ (120#8 : Byte).toNat ≤ 120)
    ∧ (withLink fun l => { l with rx := ⟨.header, [0#8, 5#8], 1, true⟩ }).link.rx = ⟨.header, [0#8, 5#8], 1, true⟩
    ∧ (withLink fun l => { l with rx := ⟨.body, [2#8, 5#8, 2#8], 2, true⟩ }).link.rx = ⟨.body, [2#8, 5#8, 2#8], 0 + 2, true⟩
    ∧ (withLink fun l => { l with rx := ⟨.check, [0#8, 5#8, 1#8] ++ [9#8], 1, true⟩ }).link.rx
        = ⟨.check, 0#8 :: 5#8 :: 1#8 :: ([] ++ [9#8]), 1, true⟩
    ∧ crc16 [0#8, 5#8, 1#8] ≠ 9#8 ++ 9#8
    ∧ live.link.onLtx = none
    ∧ (withLink fun l => { l with onLtx := some ⟨[], false, false⟩ }).link.onLtx = some ⟨[], false, false⟩
    ∧ ({ saving .write with link := { live.link with onLtx := some ⟨[], true, true⟩ } } : State).image.save = some (aSave .write) := by
  decide +kernel
theorem test_wit_LinkEvents_gap : Rx.wf ⟨.header, [], 3, true⟩ :=
  ⟨rfl, by decide, rfl, fun _ _ h => by cases h⟩

/-- SOURCE SET on REF: 10 MHz, and a nominal frequency whose expected count is too small at the period in force. -/
def refSet (hz : Word) : SourceSetReq := ⟨3#8, hz, 10#16, 1000#16, 3#8, 60#16, 0#8, 0#8, 0#8⟩
def synSet (n : Byte) : SourceSetReq := ⟨4#8, 0#32, 2#16, 1000#16, 3#8, 60#16, 0#8, 1#8, n⟩
theorem test_wit_SourceSetRule : live.takes ∧ srcOfCode 5#8 = none ∧ srcOfCode 0#8 = some .rco ∧ srcOfCode 3#8 = some (.osc .ref)
    ∧ sourceSetInRange .ref (refSet 999999#32) = false
    ∧ sourceSetFits live .syn (sourceSetSources .syn (synSet 64#8) live.clk.src) = false
    ∧ (sourceSetInRange .ref (refSet 1000000#32) = true
      ∧ sourceSetFits live .ref (sourceSetSources .ref (refSet 1000000#32) live.clk.src) = true
      ∧ sourceSetConflicts live (sourceSetSources .ref (refSet 1000000#32) live.clk.src) = false)
    ∧ (let s := withOut { outOn (.fixed ⟨.osc .syn, 2⟩) .running with current := some ⟨.osc .syn, 2⟩ }
       sourceSetInRange .syn (synSet 4#8) = true ∧ sourceSetFits s .syn (sourceSetSources .syn (synSet 4#8) s.clk.src) = true
       ∧ sourceSetConflicts s (sourceSetSources .syn (synSet 4#8) s.clk.src) = true) :=
  ⟨live_takes, by decide⟩
theorem test_wit_SourceKeepClearQuery : live.takes ∧ srcOfCode 255#8 = none ∧ srcOfCode 1#8 = some (.osc .xa)
    ∧ ((2#8 : Byte) ≠ 0#8 ∧ (2#8 : Byte) ≠ 1#8) ∧ (live.osc .xa).state = .off
    ∧ live.clk.src.rco.state ≠ .faulted
    ∧ (let s : State := { live with clk := { live.clk with src := { live.clk.src with rco := ⟨.faulted, some .disagree, none⟩ } } }
       s.clk.src.rco.state = .faulted)
    ∧ ((withOsc .xa .quarantined none).osc .xa).state = .quarantined ∧ ((withOsc .xa .lockedOut none).osc .xa).state = .lockedOut
    ∧ (let s := (withOsc .xa .quarantined none).putOsc .syn { live.osc .syn with state := .starting }
       synInputSrc s.clk.src.syn.input = .osc .xa ∧ synDepends s.clk.src = true) :=
  ⟨live_takes, by decide⟩
/-- SYN kept, waiting for its lock with XA running. -/
def locking : State :=
  let x := live.osc .xa
  let r := live.osc .syn
  (live.putOsc .xa { x with state := .running, runningSince := some 0#32 }).putOsc .syn
    { r with cfg := { r.cfg with keep := true }, state := .starting, timer := some ⟨.lock, 2#32⟩ }
theorem test_wit_SourceProgressEvents_atRest : (keptXa .starting (some ⟨.start, 5#32⟩)).startup.running = true
    ∧ ((keptXa .starting (some ⟨.start, 5#32⟩)).osc .xa).state = .starting ∧ atRest (keptXa .starting (some ⟨.start, 5#32⟩))
    ∧ locking.startup.running = true ∧ (locking.osc .syn).state = .starting ∧ (locking.osc .syn).timer ≠ none
    ∧ atRest locking :=
  ⟨by decide, by decide, rest_of (by decide) (by decide +kernel) (by decide +kernel), by decide, by decide, by decide,
    rest_of (by decide) (by decide +kernel) (by decide +kernel)⟩
theorem test_wit_SourceProgressEvents : live.startup.running = true ∧ (live.osc .xa).state ≠ .starting
    ∧ ((withOsc .xa .starting (some ⟨.start, 5#32⟩)).osc .xa).state = .starting
    ∧ (let s := withOsc .syn .starting (some ⟨.lock, 2#32⟩)
       (s.osc .syn).state = .starting ∧ (s.osc .syn).timer ≠ none)
    ∧ ((withOsc .syn .starting none).osc .syn).timer = none
    ∧ (let s := withOsc .xa .running (some ⟨.rehabilitation, 0#32⟩)
       (s.osc .xa).state = .running ∧ (s.osc .xa).timer = some ⟨.rehabilitation, 0#32⟩ ∧ reached s.tick 0#32 = true
       ∧ reached s.tick 1#32 = false) := by decide
theorem test_wit_QuarantineEvents : outputsOk live.clk ∧
    (let s := withOsc .xa .starting (some ⟨.start, 0#32⟩)
     (s.osc .xa).state = .starting ∧ (s.osc .xa).timer = some ⟨if Osc.xa = .syn then .lock else .start, 0#32⟩
     ∧ reached s.tick 0#32 = true ∧ synInputSrc s.clk.src.syn.input = .osc .xa)
    ∧ (let s := (withOsc .xa .starting (some ⟨.start, 0#32⟩)).putOsc .syn { live.osc .syn with state := .starting }
       (s.osc .syn).state = .starting)
    ∧ (let s := withOsc .syn .starting (some ⟨.lock, 0#32⟩)
       (s.osc .syn).timer = some ⟨if Osc.syn = .syn then .lock else .start, 0#32⟩)
    ∧ (let s := withOsc .xa .quarantined (some ⟨.quarantine, 0#32⟩)
       (s.osc .xa).state = .quarantined ∧ (s.osc .xa).timer = some ⟨.quarantine, 0#32⟩
       ∧ demanded (envOf .ordinary s s) s.clk .xa = false ∧ 1 ≤ (s.osc .xa).budget)
    ∧ (let r := live.osc .xa
       let s := live.putOsc .xa { r with
         cfg := { r.cfg with keep := true }, budget := 0, state := .quarantined, timer := some ⟨.quarantine, 0#32⟩ }
       demanded (envOf .ordinary s s) s.clk .xa = true ∧ (s.osc .xa).budget = 0)
    ∧ (let s := keptXa .quarantined (some ⟨.quarantine, 0#32⟩)
       demanded (envOf .ordinary s s) s.clk .xa = true ∧ 1 ≤ (s.osc .xa).budget) := by
  unfold outputsOk OutRec.wf; decide
/-- Two witnesses, XA and XB, captured. -/
def twoWitnesses : State :=
  let s := (withOsc .xa .running none).putOsc .xb { live.osc .xb with state := .running }
  let m : OscMonitor := { OscMonitor.cold with mark := true, expected := 1000 }
  { s with clk := { s.clk with mon := { s.clk.mon with osc := ⟨m, m, .cold, .cold⟩ } } }
theorem test_wit_SurveyCompletionRule : twoWitnesses.startup.running = true
    ∧ (twoWitnesses.clk.mon.osc.get .xa).mark = true ∧ (twoWitnesses.clk.mon.osc.get .syn).mark = false
    ∧ 2 ≤ (witnessDirections twoWitnesses.clk (captures twoWitnesses.clk ⟨1000#32, 1000#32, 0#32, 0#32⟩)).length
    ∧ (witnessDirections live.clk (captures live.clk ⟨0#32, 0#32, 0#32, 0#32⟩)).length < 2
    ∧ monitored (twoWitnesses.osc .xa).state = true
    ∧ (let s := locking.putOsc .syn { locking.osc .syn with state := .running }
       monitored (s.osc .syn).state = true ∧ synInputSrc s.clk.src.syn.input = .osc .xa) := by decide
def monSet (period : Half) : MonitorSetReq :=
  ⟨period, ⟨⟨50#8, 3#8, 2#8⟩, ⟨50#8, 3#8, 2#8⟩, ⟨50#8, 3#8, 2#8⟩, ⟨50#8, 3#8, 2#8⟩⟩, ⟨40#8, 3#8, 2#8⟩⟩
theorem test_wit_MonitorRequests : live.takes ∧ (monitorOfReq (monSet 1001#16)).inRanges = false
    ∧ ((monitorOfReq (monSet 2#16)).inRanges = true ∧ periodFits live.clk.src (monitorOfReq (monSet 2#16)).period = true
      ∧ (monitorOfReq (monSet 2#16)).period ≠ live.clk.mon.settings.period)
    ∧ (monitorOfReq (monSet 10#16)).period = live.clk.mon.settings.period
    ∧ periodFits (live.putOsc .xb { live.osc .xb with cfg := { (live.osc .xb).cfg with nominal := 30000 } }).clk.src 2 = false :=
  ⟨live_takes, by decide⟩
def outSet (mode x : Byte) (div timeout : Half) : OutputSetReq := ⟨1#8, 1#8, mode, x, div, 0#8, 0#8, timeout⟩
theorem test_wit_OutputSetRule : live.takes ∧ eightOfCode 8#8 = none ∧ eightOfCode 7#8 = some 7
    ∧ outConfigOfReq (outSet 0#8 0#8 1#16 49#16) = none
    ∧ outConfigOfReq (outSet 0#8 0#8 1024#16 50#16) = some ⟨true, .fixed ⟨.rco, 1024⟩, false, .low, 50⟩
    ∧ OutConfig.fits ⟨true, .fixed ⟨.rco, 1⟩, false, .low, 50⟩ live.clk.src = true
    ∧ (let s := live.putOsc .ref { live.osc .ref with cfg := { (live.osc .ref).cfg with nominal := 100000000 } }
       let c : Sources := { s.clk.src with syn := ⟨.ref, 1, 4⟩ }
       OutConfig.fits ⟨true, .fixed ⟨.osc .syn, 1⟩, false, .low, 50⟩ c = false)
    ∧ sameFeed (.fixed ⟨.rco, 1⟩) (.fixed ⟨.rco, 2⟩) = true ∧ sameFeed (.fixed ⟨.rco, 1⟩) (.chain 0) = false := ⟨live_takes, by decide⟩
theorem test_wit_OutputSelectAndQuery : live.takes ∧ eightOfCode 8#8 = none ∧ eightOfCode 1#8 = some 1
    ∧ (live.out 1).phase = none ∧ ((withOut acquiring).out 1).phase ≠ none ∧ (live.out 1).cfg.mode = .fixed ⟨.rco, 1⟩
    ∧ ((withOut chOut).out 1).cfg.mode = .chain 0 ∧ (4#8 ≠ 0xFF#8 ∧ 4 ≤ (4#8 : Byte).toNat)
    ∧ ((3#8 : Byte).toNat = (3 : Fin 4).val ∧ ((withOut chOut).chains.get 0).entry 3 = none)
    ∧ ((0#8 : Byte).toNat = (0 : Fin 4).val ∧ ((withOut chOut).chains.get 0).entry 0 = some ⟨.osc .xa, 2⟩)
    ∧ ({ withOut { chOut with state := .off, cfg := { chOut.cfg with enable := false } } with pending := [] } : State).wants 1 = false
    ∧ ((withOut chOut).wants 1 = true
      ∧ eligible (envOf .ordinary (withOut chOut) (withOut chOut)) (withOut chOut).clk.src 1 chOut ((withOut chOut).chains.get 0)
          (.osc .xa) = false) := ⟨live_takes, by decide⟩
/-- OUT1 runs from XA, entry 0 of its chain. -/
def onChain : State :=
  (withOut { outOn (.chain 0) .running with current := some ⟨.osc .xa, 2⟩, place := some ⟨.entry 0, .use⟩ }).putOsc .xa
    { live.osc .xa with state := .running, runningSince := some 0#32 }
theorem test_wit_OutputSelectAndQuery_atRest : onChain.takes ∧ atRest onChain
    ∧ eligible (envOf .ordinary onChain onChain) onChain.clk.src 1 (onChain.out 1) (onChain.chains.get 0) (.osc .xa) = true :=
  ⟨⟨by decide, by decide, by decide⟩, rest_of (by decide) (by decide +kernel) (by decide +kernel), by decide⟩
theorem test_wit_OutputEvents : live.startup.running = true ∧ (live.out 1).state ≠ .switching .release
    ∧ (let s := withOut { outOn (.fixed ⟨.rco, 2⟩) (.switching .release) with current := some ⟨.rco, 1⟩ }
       (s.out 1).state = .switching .release ∧ s.wants 1 = true)
    ∧ (let s := withOut { OutRec.cold (defaultOut false) (.switching .release) with current := some ⟨.rco, 1⟩ }
       (s.out 1).state = .switching .release ∧ s.wants 1 = false)
    ∧ (acquiring.state = .switching .acquire ∧ acquiring.target = some ⟨.rco, 2⟩ ∧ feeds live.clk.src .rco = true)
    ∧ (let s := live.putOut 0 { live.out 0 with nextDiv := some 3 }
       (s.out 0).state = .running ∧ (s.out 0).current = some ⟨.rco, 1⟩ ∧ (s.out 0).nextDiv = some 3)
    ∧ (live.out 0).nextDiv = none := by decide
def chSet (n : Nat) (div : Half) : ChainSetReq := ⟨3#8, 600#16, 0#8, 1#8, 0#16, List.replicate n ⟨1#8, div⟩⟩
theorem test_wit_ChainRequestsAndRevertTimer : live.takes ∧ chainOfCode 4#8 = none ∧ chainOfCode 3#8 = some 3
    ∧ ((chSet 0 1#16).entries = [] ∧ 4 < (chSet 5 1#16).entries.length ∧ chainOfReq (chSet 1 0#16) = none)
    ∧ (chainOfReq (chSet 1 1024#16) = some ⟨[⟨.osc .xa, 1024⟩], 600, false, true, none⟩
      ∧ distinctSources [⟨.osc .xa, 1024⟩] = true ∧ nominal live.clk.src (.osc .xa) ≤ 200000000 * 1024)
    ∧ distinctSources [⟨.osc .xa, 1⟩, ⟨.osc .xa, 2⟩] = false
    ∧ (let s := withOut { chOut with revert := .timing 0#32 }
       (s.out 1).revert = .timing 0#32 ∧ reached s.tick 0#32 = true ∧ held s.claims 1 = false ∧ reached s.tick 1#32 = false)
    ∧ held [{ softClaim 1#8 1 none with level := .hold }] 1 = true := ⟨live_takes, by decide⟩
theorem test_wit_ChainRequests_tooFast : 200000000 * 1 < nominal ({ live.clk.src with syn := ⟨.xa, 1, 16⟩ } : Sources) (.osc .syn) := by
  decide
def claimReq (c : Half) (o opts : Byte) (lease : Word) : ClaimReq := ⟨c, o, opts, lease, 0#16⟩
theorem test_wit_ClaimRequestRule : live.takes ∧ 0x0107#16 = 0x0100#16 + BitVec.ofNat 16 (7 : Fin 8).val
    ∧ claimantOfCode 251#16 = .bad ∧ claimantOfCode 0#16 = .bad ∧ claimantOfCode 0x0108#16 = .bad
    ∧ claimantOfCode 250#16 = .soft 250#8 ∧ claimantOfCode 1#16 = .soft 1#8
    ∧ eightOfCode 8#8 = none ∧ eightOfCode 0#8 = some 0
    ∧ claimTerms (claimReq 1#16 0#8 2#8 9#32) = none ∧ claimTerms (claimReq 1#16 0#8 8#8 10#32) = none
    ∧ claimTerms (claimReq 1#16 0#8 2#8 10#32) = some ⟨.run, some 10, none⟩
    ∧ softCount live.claims < 32 - mappedTotal live.lines
    ∧ 32 - mappedTotal live.lines ≤ softCount ((List.range 32).map fun n => softClaim (BitVec.ofNat 8 (n + 2)) 0 none)
    ∧ (∀ c ∈ (List.range 32).map fun n => softClaim (BitVec.ofNat 8 (n + 2)) 0 none, ¬ (c.claimant = .soft 1#8 ∧ c.output = 0))
    ∧ (∃ c ∈ [softClaim 1#8 0 none], c.claimant = .soft 1#8 ∧ c.output = 0) := ⟨live_takes, by decide⟩
theorem test_wit_ReleaseListAndLeaseRule : live.takes ∧ claimantOfCode 0x0100#16 = .line ∧ claimantOfCode 0xFFFF#16 = .bad
    ∧ claimantOfCode 1#16 = .soft 1#8 ∧ eightOfCode 8#8 = none ∧ eightOfCode 3#8 = some 3
    ∧ (∀ c ∈ live.claims, ¬ (c.claimant = .soft 1#8 ∧ c.output = 3))
    ∧ (∃ c ∈ [softClaim 1#8 3 none], c.claimant = .soft 1#8 ∧ c.output = 3)
    ∧ 31 < (32#8 : Byte).toNat ∧ (31#8 : Byte).toNat ≤ 31
    ∧ ([softClaim 1#8 3 (some 0#32)].find? fun c => decide (c.claimant = .soft 1#8 ∧ c.output = 3)) = some (softClaim 1#8 3 (some 0#32))
    ∧ reached live.tick 0#32 = true ∧ reached live.tick 1#32 = false
    ∧ (∀ c ∈ [softClaim 1#8 3 none], c.claimant = .soft 1#8 → c.output = 3 → c.lease = none) := ⟨live_takes, by decide⟩
def lineReq (n : Nat) (hold : Half) : LineMapReq := ⟨2#8, 1#8, hold, (List.range n).map fun k => ⟨BitVec.ofNat 8 k, 0#8⟩⟩
/-- LIVE with two lines of eight pairs each. -/
def sixteen : State :=
  let g : LineSettings := ⟨(List.range 8).map fun k => ⟨Fin.ofNat 8 k, .run⟩, true, 0⟩
  (live.putLine 0 (.cold g)).putLine 1 (.cold g)
theorem test_wit_LineRequests : live.takes ∧ eightOfCode 8#8 = none ∧ eightOfCode 2#8 = some 2
    ∧ lineOfReq (lineReq 9 0#16) = none ∧ lineOfReq (lineReq 0 1001#16) = none
    ∧ lineOfReq (lineReq 1 1000#16) = some ⟨[⟨0, .run⟩], true, 1000⟩
    ∧ 16 < mappedTotal (sixteen.lines.set 2 { sixteen.lines.get 2 with set := ⟨[⟨0, .run⟩], true, 1000⟩ })
    ∧ mappedTotal (live.lines.set 2 { live.lines.get 2 with set := ⟨[⟨0, .run⟩], true, 1000⟩ }) ≤ 16
    ∧ softCount live.claims ≤ 32 - mappedTotal (live.lines.set 2 { live.lines.get 2 with set := ⟨[⟨0, .run⟩], true, 1000⟩ })
    ∧ (let s := live.putLine 2 ⟨⟨[], true, 0⟩, true, true, none⟩
       (s.lines.get 2).active = true ∧ decide ((s.lines.get 2).pinHigh = true) = true ∧ decide ((s.lines.get 2).pinHigh = false) = false)
    ∧ (let s := live.putLine 2 ⟨⟨[], true, 1000⟩, false, false, some 5#32⟩
       (s.lines.get 2).active = false ∧ decide ((s.lines.get 2).pinHigh = false) = true) :=
  ⟨live_takes, by decide⟩
theorem test_wit_LineEvents : live.startup.running = true ∧ (live.lines.get 2).active = false
    ∧ (let s := live.putLine 2 ⟨⟨[], true, 0⟩, true, true, none⟩
       (s.lines.get 2).active = true ∧ (s.lines.get 2).set.holdTime = 0)
    ∧ (let s := live.putLine 2 ⟨⟨[], true, 1000⟩, true, true, none⟩
       (s.lines.get 2).active = true ∧ (s.lines.get 2).set.holdTime ≠ 0)
    ∧ (let s := live.putLine 2 ⟨⟨[], true, 1⟩, false, false, some 0#32⟩
       (s.lines.get 2).hold = some 0#32 ∧ reached s.tick 0#32 = true)
    ∧ (live.lines.get 2).hold = none
    ∧ (([⟨0, .run⟩, ⟨7, .hold⟩] : List MapPair).map MapPair.output).Nodup := by decide
def profSet (p wp : Byte) : ProfileSetReq := ⟨p, ⟨0#8, 1#8, 2#8, 0#8, 0#8, 0#8, 0#8, 0#8⟩, 0x1E#8, 0#8, 0x1FF#16, wp⟩
theorem test_wit_ProfileRequests : live.takes ∧ profileOfCode 6#8 = none ∧ profileOfCode 5#8 = some 5
    ∧ ((0 : Fin 6) = live.stack.top ∧ (5 : Fin 6) ≠ live.stack.top)
    ∧ profileOfReq (profSet 5#8 6#8) = none ∧ (profileOfReq (profSet 5#8 0xFF#8)).isSome = true := ⟨live_takes, by decide⟩
theorem test_wit_Resume : live.takes ∧ live.stack.below = [] ∧ profileOfCode 6#8 = none ∧ profileOfCode 0#8 = some 0
    ∧ (withStack ⟨[1, 2], 0⟩).stack.below = [1] ++ [2] ∧ (2 : Fin 6) ≠ (withStack ⟨[1, 2], 0⟩).stack.top
    ∧ (2 : Fin 6) = (withStack ⟨[1, 2], 2⟩).stack.top ∧ (3 : Fin 6) ∉ (withStack ⟨[1, 2], 2⟩).stack.entries := ⟨live_takes, by decide⟩
theorem test_wit_Resume_takes : (withStack ⟨[1, 2], 0⟩).takes := ⟨by decide, by decide, by decide⟩
/-- LIVE at a depth, with a wake profile. -/
def wakes (w : Option (Fin 6)) (n : Nat) : State :=
  { withStack ⟨List.replicate n 1, 0⟩ with profiles := .fill { defaultProfile with wakeMask := 0x100#9, wakeProfile := w } }
theorem test_wit_WakeAndTransitionRule : live.active.wakeProfile = none ∧ (wakes (some 0) 0).active.wakeProfile = some (wakes (some 0) 0).stack.top
    ∧ ((wakes (some 2) 5).active.wakeProfile = some 2 ∧ 2 ≠ (wakes (some 2) 5).stack.top ∧ 6 ≤ (wakes (some 2) 5).stack.depth)
    ∧ (wakes (some 2) 4).stack.depth < 6 ∧ (wakes none 0).startup.running = true
    ∧ (wakes none 0).active.wakeMask.getLsbD 8 = true ∧ live.active.wakeMask.getLsbD 8 = false ∧ live.settling = none := by decide
def addReq (n kind : Byte) (period : Word) : ActionAddReq := ⟨n, 0#8, 0x7FFFFFFF#32, period, kind, 0#8, 0#8, 0#8⟩
theorem test_wit_ActionRequests : live.takes ∧ actionOfReq 0#32 (addReq 0#8 6#8 0#32) = none
    ∧ actionOfReq 0#32 (addReq 1#8 6#8 9#32) = none
    ∧ actionOfReq 0#32 (addReq 1#8 6#8 10#32) = some ⟨1#8, 0x7FFFFFFF#32, some 10, .remind 0#16⟩
    ∧ (∃ x ∈ [remind 1#8 0#32 none], x.number = 1#8) ∧ (∀ x ∈ live.actions, x.number ≠ 1#8)
    ∧ 16 ≤ (List.replicate 16 (remind 1#8 0#32 none)).length ∧ live.actions.length < 16
    ∧ ([remind 1#8 0#32 none].find? fun x => decide (x.number = 1#8)) = some (remind 1#8 0#32 none)
    ∧ 15 < (16#8 : Byte).toNat ∧ (15#8 : Byte).toNat ≤ 15 := ⟨live_takes, by decide⟩
theorem test_wit_ActionOrderAndPeriod : (remind 1#8 0#32 (some 86400000)).period = some 86400000 ∧ 10 ≤ 86400000 ∧ 10 ≤ 10
    ∧ reached 0x7FFFFFFF#32 (remind 1#8 0#32 (some 10)).due = true
    ∧ (insertAction 0#32 (remind 2#8 5#32 none) [remind 1#8 9#32 none]).head? = some (remind 2#8 5#32 none) := by decide
theorem test_wit_TickAndActionFiring : live.actions = [] ∧ State.reset.startup.running = false ∧ live.takes
    ∧ reached live.tick 1#32 = false ∧ reached live.tick 0#32 = true ∧ (remind 1#8 0#32 none).period = none
    ∧ nextOccurrence 0#32 (remind 1#8 0#32 (some 10)) = some (remind 1#8 10#32 (some 10))
    ∧ (remind 1#8 0#32 none).kind = .remind 7#16 :=
  ⟨rfl, by decide, live_takes, by decide, by decide, by decide, by decide, by decide⟩
/-- Each kind of action, and each outcome of it. -/
theorem test_wit_TickAndActionFiring_kinds :
    (let s := withStack ⟨[1], 2⟩
     s.stack.below = [] ++ [1] ∧ (2 : Fin 6) = s.stack.top ∧ (1 : Fin 6) ≠ s.stack.top ∧ (withStack ⟨[], 2⟩).stack.below = [])
    ∧ wakeResult (wakes (some 2) 5) = .stackFull ∧ wakeResult (wakes (some 2) 4) ≠ .stackFull
    ∧ (∀ c ∈ live.claims, ¬ (c.claimant = .soft 1#8 ∧ c.output = 3))
    ∧ (∃ c ∈ [softClaim 1#8 3 none], c.claimant = .soft 1#8 ∧ c.output = 3)
    ∧ (live.out 1).cfg.mode = .fixed ⟨.rco, 1⟩ ∧ ((withOut chOut).out 1).cfg.mode = .chain 0
    ∧ ((withOut chOut).chains.get 0).entry 1 = none ∧ ((withOut chOut).chains.get 0).entry 0 ≠ none := by decide
theorem test_wit_NoticeRequests : live.takes ∧ 0xFFFF#16 ≠ 0#16 ∧ (∀ r ∈ live.notices.records, r.number ≠ 0xFFFF#16)
    ∧ [notice 65535#16 true, notice 1#16 false] = [notice 65535#16 true] ++ notice 1#16 false :: []
    ∧ (∀ x ∈ [notice 65535#16 true], x.number ≠ (notice 1#16 false).number)
    ∧ 0x2000#16 &&& 0xE001#16 ≠ 0#16 ∧ 0x1FFE#16 &&& 0xE001#16 = 0#16 := ⟨live_takes, by decide⟩
theorem test_wit_ImageRequestsAndPhases : live.takes ∧ profileOfCode 6#8 = none ∧ profileOfCode 5#8 = some 5
    ∧ live.image.save = none ∧ (saving .erase).image.save ≠ none
    ∧ (let r : Bank2 SlotRecord := ⟨.invalid .crc, .valid 0xFFFFFFFF#32 0⟩
       r.get true = .valid 0xFFFFFFFF#32 0)
    ∧ newestValid live.image.records = none ∧ newestValid ⟨.valid 1#32 0, .valid 2#32 0⟩ = some (true, 2#32)
    ∧ (saving .check).startup.running = true ∧ (saving .check).image.save = some (aSave .check) := ⟨live_takes, by decide⟩
theorem test_wit_StartUpEvents : State.reset.startup.state = .powerup ∧ live.startup.state ≠ .powerup
    ∧ (let s := after .resetRelease State.reset
       s.startup.state = .powerup ∧ s.startup.released = true)
    ∧ (inState .select false).startup.state = .select ∧ (inState .select true).startup.warm = true
    ∧ live.startup.state ≠ .select ∧ live.startup.state ≠ .apply
    ∧ (live.image.save = none ∧ (saving .erase).image.save = some (aSave .erase))
    ∧ ((inState .select false).startup.abandoned = none ∧ (inState .select false).image.contents.get true = .erased
      ∧ (saving .erase).image.contents.get false = .unfinished) := by decide
/-- SELECT with an image in slot A. -/
def holding (i : StoredImage) : State :=
  let s := inState .select false
  { s with image := { s.image with contents := ⟨.written i, .erased⟩ } }
def image (format : Byte) (g crc : Word) : StoredImage := ⟨format, g, 0, defaultConfig, crc⟩
theorem test_wit_StartUpEvents_slots (i : StoredImage) : (holding i).startup.state = .select
    ∧ (holding i).startup.abandoned ≠ some false ∧ (holding i).image.contents.get false = .written i :=
  ⟨rfl, by rintro ⟨⟩, rfl⟩
theorem test_succ_ne (h : Word) : h + 1#32 ≠ h := by
  intro hc
  have h1 := congrArg BitVec.toNat hc
  simp only [BitVec.toNat_add, BitVec.toNat_ofNat] at h1
  omega
theorem test_wit_StartUpEvents_judged : (image 0xFF#8 1#32 0#32).format ≠ Config.formatCode
    ∧ (image Config.formatCode 0#32 0#32).generation = 0#32
    ∧ (∀ h, (image Config.formatCode 1#32 h).generation ≠ 0#32)
    ∧ (∃ h, (image Config.formatCode 1#32 h).crc = imageCrc Config.formatCode 1#32 0 defaultConfig)
    ∧ (∃ h, (image Config.formatCode 1#32 h).crc ≠ imageCrc Config.formatCode 1#32 0 defaultConfig) :=
  ⟨by decide, rfl, fun _ => show 1#32 ≠ 0#32 by decide, ⟨imageCrc Config.formatCode 1#32 0 defaultConfig, rfl⟩,
    ⟨imageCrc Config.formatCode 1#32 0 defaultConfig + 1#32, test_succ_ne _⟩⟩
theorem test_wit_LiveRule : (let s := inState .apply false
      s.startup.state = .apply ∧ s.startup.warm = false ∧ s.notices = ⟨[], 1#16, 0, s.notices.filter⟩ ∧ s.settling = none
      ∧ s.link.onLtx = none ∧ s.link.queued = [])
    ∧ (inState .apply true).startup.state = .apply ∧ (inState .apply true).startup.warm = true := by decide

end Sys2Proof.Tests
end

section
/-! SUPPORT. What the effect of a command keeps of the source records, of the output records and of rest (`Keeps`): the
general rules, cited request by request and event by event below. -/

namespace Sys2Proof.Machine

/-! ### The entries into source states, source by source -/

theorem osc_ofClocks (k : Clocks) (ns : List (Fin 8 × OutNote)) (ps : List Posting) (x : Osc) :
    (Ev.mk k ns ps).osc x = k.src.osc.get x := rfl

theorem osc_ofPutOsc (s : State) (ns : List (Fin 8 × OutNote)) (ps : List Posting) (o x : Osc) (r : OscRec) :
    (Ev.mk (s.putOsc o r).clk ns ps).osc x = if x = o then r else s.osc x :=
  BankOsc.get_set _ _ _ _

theorem osc_enterStarting (e : Env) (o x : Osc) (v : Ev) :
    (enterStarting e o v).osc x = if x = o then (v.osc o).started o e.tick else v.osc x := by
  rw [enterStarting, Ev.osc_clearCounts, Ev.osc_changeOsc]

theorem osc_enterOff (o x : Osc) (v : Ev) : (enterOff o v).osc x = if x = o then (v.osc o).stopped else v.osc x := by
  rw [enterOff, Ev.osc_clearCounts, Ev.osc_changeOsc]

theorem osc_enterVerifying (o x : Osc) (v : Ev) :
    (enterVerifying o v).osc x = if x = o then { v.osc o with state := .verifying, timer := none } else v.osc x :=
  Ev.osc_changeOsc ..

theorem osc_enterSuspect (o x : Osc) (v : Ev) : (enterSuspect o v).osc x =
    if x = o then { v.osc o with state := .suspect, runningSince := none, timer := none } else v.osc x :=
  Ev.osc_changeOsc ..

theorem osc_enterLockedOut (o x : Osc) (v : Ev) :
    (enterLockedOut o v).osc x = if x = o then { v.osc o with state := .lockedOut, timer := none } else v.osc x :=
  Ev.osc_changeOsc ..

theorem osc_enterRunning (e : Env) (o x : Osc) (v : Ev) :
    (enterRunning e o v).osc x = if x = o then (v.osc o).ran e.tick else v.osc x :=
  Ev.osc_changeOsc ..

/-! ### Effects that keep records and rest -/

/-- From `s` to `t` a command's effect has kept the source records and the output records ones the rules allow, and rest. -/
structure Keeps (s t : State) : Prop where
  src : sourcesOk s.clk → sourcesOk t.clk
  outs : outputsOk s.clk → outputsOk t.clk
  rest : outputsOk s.clk → atRest s → atRest t

theorem Keeps.refl (s : State) : Keeps s s := ⟨id, id, fun _ => id⟩

theorem Keeps.trans {s t u : State} (h : Keeps s t) (g : Keeps t u) : Keeps s u :=
  ⟨g.src ∘ h.src, g.outs ∘ h.outs, fun ho hr => g.rest (h.outs ho) (h.rest ho hr)⟩

/-- An effect outside clocks, chains, active profile and claims. -/
theorem Keeps.quiet {s t : State} (hk : t.clk = s.clk) (hch : t.chains = s.chains) (hp : t.active = s.active)
    (hcl : t.claims = s.claims) : Keeps s t where
  src := by rw [hk]; exact id
  outs := by rw [hk]; exact id
  rest ho hr := atRest_congr hr ho hk hch hp hcl

/-- An effect that sources and outputs evaluate: their own part has to keep the records; the course of the event does the rest. -/
theorem Keeps.runEvent (cause : Cause) {s s' : State} {f : Env → Ev → Ev}
    (hs : sourcesOk s.clk → ∀ e, sourcesOk (f e ⟨s'.clk, [], []⟩).clk)
    (ho : outputsOk s.clk → ∀ e, outputsOk (f e ⟨s'.clk, [], []⟩).clk) : Keeps s (runEvent cause s s' f) where
  src h := by rw [clk_runEvent]; exact (calm_settle _ _).srcOk (hs h _)
  outs h := by rw [clk_runEvent]; exact (calm_settle _ _).outsOk (ho h _)
  rest h _ := atRest_runEvent cause s s' f (ho h _)

/-- An event whose own part is sound. -/
theorem Keeps.event (cause : Cause) {s : State} {f : Env → Ev → Ev} (h : ∀ e, Ev.Sound ⟨s.clk, [], []⟩ (f e ⟨s.clk, [], []⟩)) :
    Keeps s (Machine.runEvent cause s s f) :=
  .runEvent cause (fun hs e => (h e).srcOk hs) (fun ho e => (h e).outsOk ho)

/-- A change of configuration, claims or profile evaluated. -/
theorem Keeps.reevaluate (cause : Cause) {s s' : State} (hs : sourcesOk s.clk → sourcesOk s'.clk)
    (ho : outputsOk s.clk → outputsOk s'.clk) : Keeps s (reevaluate cause s s') :=
  .runEvent cause (fun h _ => hs h) (fun h _ => ho h)

/-- A change outside the clocks evaluated. -/
theorem Keeps.reevaluate_of_clk (cause : Cause) {s s' : State} (h : s'.clk = s.clk) : Keeps s (Machine.reevaluate cause s s') :=
  .reevaluate cause (by rw [h]; exact id) (by rw [h]; exact id)

/-! ### One record replaced -/

/-- One source's record changed, as the rules allow. -/
theorem sourcesOk_change {k l : Clocks} (o : Osc) (hx : ∀ x, x ≠ o → l.src.osc.get x = k.src.osc.get x)
    (hr : l.src.rco = k.src.rco) (ho : OscRec.wf o (k.src.osc.get o) → OscRec.wf o (l.src.osc.get o)) (h : sourcesOk k) :
    sourcesOk l := by
  refine ⟨fun x => ?_, by rw [hr]; exact h.2⟩
  by_cases hxo : x = o
  · subst hxo; exact ho (h.1 x)
  · rw [hx x hxo]; exact h.1 x

theorem sourcesOk_putOsc {s : State} {o : Osc} {r : OscRec} (hr : OscRec.wf o (s.osc o) → OscRec.wf o r)
    (h : sourcesOk s.clk) : sourcesOk (s.putOsc o r).clk :=
  srcOk_putOsc (v := ⟨s.clk, [], []⟩) hr h

theorem outputsOk_set {k : Clocks} {o : Fin 8} {r : OutRec} (hr : (k.outs.get o).wf → r.wf) (h : outputsOk k) :
    outputsOk { k with outs := k.outs.set o r } := by
  intro x
  rw [Bank8.get_set]
  split
  · rename_i hx; subst hx; exact hr (h x)
  · exact h x

theorem sound_putOut {v : Ev} {o : Fin 8} {m : Moved} (hc : m.1.cfg = (v.clk.outs.get o).cfg)
    (hw : (v.clk.outs.get o).wf → m.1.wf) : v.Sound (v.putOut o m) where
  outCfg x := by rw [Ev.get_putOut]; split; (· rename_i hx; subst hx; exact hc); (· rfl)
  srcCfg _ := rfl
  syn := rfl
  settings := rfl
  notes := id
  outsOk := outputsOk_set hw
  srcOk := id

end Sys2Proof.Machine
end

section
/-! SUPPORT. Requests on sources and the monitor keep the records and rest. -/

namespace Sys2Proof.Machine

/-! ### Requests on sources and the monitor -/

@[simp] theorem Done.state_ok (s : State) (l : List Byte) : (Done.ok s l).state = s := rfl
@[simp] theorem Done.state_refuse (s : State) (st : Status) : (Done.refuse s st).state = s := rfl

theorem OscRec.wf_configured {o : Osc} {r : OscRec} (h : OscRec.wf o r) (c : OscConfig) : OscRec.wf o (r.configured c) := by
  obtain ⟨hf, ht, hs, -, hl⟩ := h
  refine ⟨hf, ht, hs, Nat.min_le_right _ _, fun hst => ?_⟩
  show min r.budget c.retryCount = 0
  rw [hl hst, Nat.zero_min]

/-- A full budget keeps the record's rules, but for a source that is locked out. -/
theorem OscRec.wf_fullBudget {o : Osc} {r : OscRec} (h : OscRec.wf o r) (hl : r.state ≠ .lockedOut) :
    OscRec.wf o { r with budget := r.cfg.retryCount } :=
  ⟨h.1, h.2.1, h.2.2.1, Nat.le_refl _, fun hst => absurd hst hl⟩

theorem sourcesOk_sourceSet (o : Osc) (r : SourceSetReq) {k : Clocks} (h : sourcesOk k) :
    sourcesOk { k with src := sourceSetSources o r k.src } := by
  refine sourcesOk_change (k := k) o (fun x hx => ?_) rfl (fun h => ?_) h
  · show (k.src.osc.set o _).get x = _
    rw [BankOsc.get_set, if_neg hx]
  · show OscRec.wf o ((k.src.osc.set o _).get o)
    rw [BankOsc.get_set, if_pos rfl]
    exact OscRec.wf_configured h _

theorem keeps_sourceSet (r : SourceSetReq) (s : State) : Keeps s (performSourceSet r s).state := by
  unfold performSourceSet
  split
  · exact .refl s
  · exact .refl s
  · rename_i o _
    split
    · exact .refl s
    · dsimp only
      split
      · exact .refl s
      · split
        · exact .refl s
        · have hsyn : ∀ e v, Ev.Sound v (if synRestarts s.clk.src (sourceSetSources o r s.clk.src) then restartSyn e v else v) := by
            intro e v
            split
            · exact sound_enterStarting e .syn v
            · exact .refl v
          rw [Done.state_ok]
          exact .runEvent _ (fun hs e => (hsyn e _).srcOk (sourcesOk_sourceSet o r hs)) (fun ho e => (hsyn e _).outsOk ho)

theorem keeps_sourceKeep (x f : Byte) (s : State) : Keeps s (performSourceKeep x f s).state := by
  unfold performSourceKeep
  split
  · exact .refl s
  · exact .refl s
  · split
    · exact .refl s
    · exact .reevaluate _ (sourcesOk_putOsc fun h => h) id

/-- Of the sources, rest sees their classes, what demand may move, the keep flags, SYN's settings and SYN's timer. -/
theorem restsIn_sameClass {e : Env} {k l : Clocks} (hc : SameClass l.src k.src) (ho : l.outs = k.outs)
    (hi : l.src.syn = k.src.syn) (hkeep : ∀ o, (l.src.osc.get o).cfg.keep = (k.src.osc.get o).cfg.keep)
    (hstop : ∀ o w, mustStop w (l.src.osc.get o).state = mustStop w (k.src.osc.get o).state)
    (hoff : ∀ o, (l.src.osc.get o).state = .off → (k.src.osc.get o).state = .off)
    (ht : l.src.osc.syn.state = .starting → k.src.osc.syn.state = .starting
      ∧ (k.src.osc.syn.timer ≠ none → l.src.osc.syn.timer ≠ none))
    (h : restsIn e k) : restsIn e l := by
  have hd : ∀ x, demanded e l x = demanded e k x := demanded_congr hc ho hkeep hi
  obtain ⟨hev, hdm, hlock⟩ := h
  refine ⟨fun o => ?_, fun o => ?_, fun hst hf => ?_⟩
  · rw [hc.evalOut, ho]; exact hev o
  · rw [hd, hstop]
    exact ⟨(hdm o).1, fun hwant hst => (hdm o).2 hwant (hoff o hst)⟩
  · obtain ⟨hst', htimer⟩ := ht hst
    exact htimer (hlock hst' (by rwa [← hc.feeds, ← hi]))

/-- Where the states are the same, only SYN's timer is left to see. -/
theorem restsIn_congr {e : Env} {k l : Clocks} (ho : l.outs = k.outs) (hi : l.src.syn = k.src.syn)
    (hs : ∀ o, (l.src.osc.get o).state = (k.src.osc.get o).state ∧ (l.src.osc.get o).cfg.keep = (k.src.osc.get o).cfg.keep)
    (ht : k.src.osc.syn.state = .starting → k.src.osc.syn.timer ≠ none → l.src.osc.syn.timer ≠ none)
    (h : restsIn e k) : restsIn e l :=
  restsIn_sameClass (fun x => by rw [(hs x).1]) ho hi (fun o => (hs o).2) (fun o w => by rw [(hs o).1])
    (fun o hst => by rwa [(hs o).1] at hst)
    (fun hst => have hst' := (hs .syn).1.symm.trans hst; ⟨hst', ht hst'⟩) h

/-- A source's record rewritten within its state, and without its keep flag, moves nothing. -/
theorem atRest_putOsc {s : State} {o : Osc} {r : OscRec} (h1 : r.state = (s.osc o).state) (h2 : r.cfg = (s.osc o).cfg)
    (h3 : (s.osc o).state = .starting → (s.osc o).timer ≠ none → r.timer ≠ none) (hk : outputsOk s.clk) (h : atRest s) :
    atRest (s.putOsc o r) := by
  have hl : restsIn (envOf .ordinary (s.putOsc o r) (s.putOsc o r)) s.clk :=
    restsIn_later (e := envOf .ordinary s s)
      (fun x => later_ordinary x (g := (s.clk.outs.get x).cfg) (t := s.putOsc o r) rfl rfl rfl rfl) hk h
  refine restsIn_congr (k := s.clk) rfl rfl (fun x => ?_) (fun hst ht => ?_) hl
  · rw [State.clk_putOsc, BankOsc.get_set]
    split
    · rename_i hx; subst hx; exact ⟨h1, by rw [h2]; rfl⟩
    · exact ⟨rfl, rfl⟩
  · show ((s.clk.src.osc.set o r).get .syn).timer ≠ none
    rw [BankOsc.get_set]
    split
    · rename_i hx; subst hx; exact h3 hst ht
    · exact ht

theorem keeps_clearSource (o : Osc) (s : State) : Keeps s (clearSource o s) := by
  unfold clearSource
  dsimp only
  split
  case h_1 hq =>
    refine .runEvent _ (fun hs e => ?_) (fun ho e => (sound_unquarantine e o _).outsOk ho)
    exact (sound_unquarantine e o _).srcOk (sourcesOk_putOsc (fun h => OscRec.wf_fullBudget h (by rw [hq]; decide)) hs)
  case h_2 =>
    refine .runEvent _ (fun hs e => ?_) (fun ho e => (sound_enterOff o _).outsOk ho)
    refine sourcesOk_change (k := s.clk) o (fun x hx => ?_) rfl (fun _ => ?_) hs
    · show (enterOff o _).osc x = s.osc x
      rw [osc_enterOff, if_neg hx, osc_ofPutOsc, if_neg hx]
    · show OscRec.wf o ((enterOff o _).osc o)
      rw [osc_enterOff, if_pos rfl, osc_ofPutOsc, if_pos rfl]
      exact OscRec.wf_stopped o (Nat.le_refl _)
  case h_3 hq hl =>
    exact ⟨sourcesOk_putOsc (fun h => OscRec.wf_fullBudget h hl), id, fun ho hr => atRest_putOsc rfl rfl (fun _ h => h) ho hr⟩

theorem keeps_clearRco (s : State) : Keeps s (clearRco s) := by
  unfold clearRco
  split
  · rename_i hf
    refine .event _ fun e => sound_changeRco _ _ fun h => ?_
    obtain ⟨hs, hk, -⟩ := h
    exact ⟨by simpa [hf] using hs, hk, by simp⟩
  · exact .refl s

theorem keeps_sourceClear (x : Byte) (s : State) : Keeps s (performSourceClear x s).state := by
  unfold performSourceClear
  split
  · exact .refl s
  · exact keeps_clearRco s
  · exact keeps_clearSource _ s

theorem clk_withMonitor (k : Clocks) (tick : Tick) (m : MonitorSettings) :
    (k.withMonitor tick m).src = k.src ∧ (k.withMonitor tick m).outs = k.outs := by
  unfold Clocks.withMonitor
  dsimp only
  split <;> exact ⟨rfl, rfl⟩

/-- The monitor takes no part in the records nor in rest. -/
theorem Keeps.monitor {s t : State} (hs : t.clk.src = s.clk.src) (ho : t.clk.outs = s.clk.outs) (hch : t.chains = s.chains)
    (hp : t.active = s.active) (hcl : t.claims = s.claims) : Keeps s t where
  src h := by unfold sourcesOk; rw [hs]; exact h
  outs h := by unfold outputsOk; rw [ho]; exact h
  rest hk hr := by
    have hl : restsIn (envOf .ordinary t t) s.clk :=
      restsIn_later (e := envOf .ordinary s s)
        (fun x => later_ordinary x (g := (s.clk.outs.get x).cfg) hch hp hcl (by rw [ho])) hk hr
    exact restsIn_congr ho (by rw [hs]) (fun o => by rw [hs]; exact ⟨rfl, rfl⟩) (fun _ h => by rw [hs]; exact h) hl

theorem keeps_monitorSet (r : MonitorSetReq) (s : State) : Keeps s (performMonitorSet r s).state := by
  unfold performMonitorSet
  dsimp only
  split
  · exact .refl s
  · exact .monitor (clk_withMonitor _ _ _).1 (clk_withMonitor _ _ _).2 rfl rfl rfl

end Sys2Proof.Machine
end

section
/-! SUPPORT. Requests on outputs, chains, claims, lines, profiles and actions keep the records and rest. -/

namespace Sys2Proof.Machine

/-! ### Requests on outputs and chains -/

/-- Configuration, refused set and standing rewritten under the same state: the standing alone is to be judged anew. -/
theorem wf_restood {r : OutRec} (h : r.wf) {c : OutConfig} {l : List Src} {p : Option (Fin 4)} {pl : Option Place}
    {v : Revert} {w : Option FailReason} (hl : l.Nodup)
    (hs : ({ r with cfg := c, refused := l, pin := p, place := pl, revert := v, awaits := w } : OutRec).standingOk = true) :
    ({ r with cfg := c, refused := l, pin := p, place := pl, revert := v, awaits := w } : OutRec).wf := by
  obtain ⟨hcur, hph, hpe, hnd, htg, -, -⟩ := h
  exact ⟨hcur, hph, hpe, hnd, htg, hs, hl⟩

theorem standingOk_of_wf {r : OutRec} (h : r.wf) : r.standingOk = true := by
  obtain ⟨-, -, -, -, -, hs, -⟩ := h
  exact hs

theorem nodup_of_wf {r : OutRec} (h : r.wf) : r.refused.Nodup := by
  obtain ⟨-, -, -, -, -, -, hn⟩ := h
  exact hn

/-- The standing in a chain, clause by clause. -/
theorem standingOk_iff {r : OutRec} : r.standingOk = true ↔
    (∀ u, r.cfg.mode = .fixed u → r.pin = none ∧ r.place = none ∧ r.revert = .none ∧ r.awaits = none)
    ∧ (∀ k, r.cfg.mode = .chain k → r.pin ≠ none → r.revert = .none)
    ∧ (r.state = .off ∨ r.state = .parked → r.place = none ∧ r.revert = .none)
    ∧ (r.awaits ≠ none → r.state = .switching .release) := by
  unfold OutRec.standingOk
  rw [Bool.and_eq_true, Bool.and_eq_true, ← and_assoc, ← and_assoc]
  refine and_congr (and_congr ?_ ?_) ?_
  · cases r.cfg.mode <;> cases r.pin <;> simp [and_assoc]
  · cases r.state <;> simp
  · cases r.awaits <;> simp

theorem wf_reconfigured {r : OutRec} (h : r.wf) (c : OutConfig) : (r.reconfigured c).wf := by
  obtain ⟨hfix, hpin, hidle, hawait⟩ := standingOk_iff.mp (standingOk_of_wf h)
  unfold OutRec.reconfigured
  split
  · rename_i hf
    refine wf_restood h (nodup_of_wf h) (standingOk_iff.mpr ⟨fun u hc => ?_, fun k hc => ?_, hidle, hawait⟩)
    · cases hm : r.cfg.mode with
      | fixed _ => exact hfix _ hm
      | chain _ => rw [hm, show c.mode = _ from hc] at hf; cases hf
    · cases hm : r.cfg.mode with
      | fixed _ => rw [hm, show c.mode = _ from hc] at hf; cases hf
      | chain _ => exact hpin _ hm
  · split
    · rename_i hm hc
      obtain ⟨-, hplace, hrev, haw⟩ := hfix _ hm
      exact wf_restood h List.nodup_nil (standingOk_iff.mpr
        ⟨fun _ _ => ⟨rfl, hplace, hrev, haw⟩, fun _ _ hp => absurd rfl hp, hidle, hawait⟩)
    · exact wf_restood h List.nodup_nil (standingOk_iff.mpr
        ⟨fun _ _ => ⟨rfl, rfl, rfl, rfl⟩, fun _ _ _ => rfl, fun _ => ⟨rfl, rfl⟩, fun ha => absurd rfl ha⟩)

theorem wf_pinned {r : OutRec} (h : r.wf) {k : Fin 4} (hm : r.cfg.mode = .chain k) (i : Option (Fin 4)) :
    (r.pinned i).wf := by
  obtain ⟨-, -, hidle, hawait⟩ := standingOk_iff.mp (standingOk_of_wf h)
  have hchain : ∀ u, r.cfg.mode ≠ .fixed u := fun u => by rw [hm]; simp
  cases i with
  | none =>
    exact wf_restood h (nodup_of_wf h) (standingOk_iff.mpr
      ⟨fun u hu => absurd hu (hchain u), fun _ _ hp => absurd rfl hp, hidle, hawait⟩)
  | some i =>
    exact wf_restood h (nodup_of_wf h) (standingOk_iff.mpr
      ⟨fun u hu => absurd hu (hchain u), fun _ _ _ => rfl, fun hs => ⟨(hidle hs).1, rfl⟩, hawait⟩)

theorem outputsOk_putOut {s : State} {o : Fin 8} {r : OutRec} (hr : (s.out o).wf → r.wf) (h : outputsOk s.clk) :
    outputsOk (s.putOut o r).clk := outputsOk_set hr h

theorem keeps_outputSet (r : OutputSetReq) (s : State) : Keeps s (performOutputSet r s).state := by
  unfold performOutputSet
  split
  · exact .refl s
  · split
    · exact .refl s
    · split
      · exact .refl s
      · exact .reevaluate _ id (outputsOk_putOut fun h => wf_reconfigured h _)

theorem keeps_selectOutput (o : Fin 8) (entry : Option (Fin 4)) (s : State) : Keeps s (selectOutput o entry s).state := by
  unfold selectOutput
  split
  · exact .refl s
  · rename_i k hm
    have hset : ∀ i, Keeps s (reevaluate (.outputSelect o) s (s.putOut o ((s.out o).pinned i))) := fun i =>
      .reevaluate _ id (outputsOk_putOut fun h => wf_pinned h hm i)
    cases entry with
    | none => exact hset none
    | some i =>
      dsimp only
      split
      · exact .refl s
      · exact hset (some i)

theorem keeps_outputSelect (x i : Byte) (s : State) : Keeps s (performOutputSelect x i s).state := by
  unfold performOutputSelect
  split
  · exact .refl s
  · split
    · exact .refl s
    · split
      · exact .refl s
      · exact keeps_selectOutput _ _ s

theorem keeps_outputQuery (x : Byte) (s : State) : Keeps s (performOutputQuery x s).state := by
  unfold performOutputQuery
  split
  · exact .refl s
  · split
    · exact .refl s
    · exact .quiet rfl rfl rfl rfl

/-- The standing of an output on a chain without its revert timer (R76). -/
theorem wf_unreverted {r : OutRec} (h : r.wf) : ({ r with revert := .none } : OutRec).wf := by
  obtain ⟨hfix, -, hidle, hawait⟩ := standingOk_iff.mp (standingOk_of_wf h)
  refine wf_restood h (nodup_of_wf h) (standingOk_iff.mpr
    ⟨fun u hu => ?_, fun _ _ _ => rfl, fun hs => ⟨(hidle hs).1, rfl⟩, hawait⟩)
  obtain ⟨hp, hpl, -, ha⟩ := hfix u hu
  exact ⟨hp, hpl, rfl, ha⟩

/-- A pin taken away disturbs nothing else (R74). -/
theorem wf_unpinned {r : OutRec} (h : r.wf) : ({ r with pin := none } : OutRec).wf := by
  obtain ⟨hfix, -, hidle, hawait⟩ := standingOk_iff.mp (standingOk_of_wf h)
  exact wf_restood h (nodup_of_wf h) (standingOk_iff.mpr
    ⟨fun u hu => ⟨rfl, (hfix u hu).2⟩, fun _ _ hp => absurd rfl hp, hidle, hawait⟩)

theorem wf_dropPin (e : Env) (o : Fin 8) (k : Fin 4) {r : OutRec} (h : r.wf) : (dropPin e o k r).1.wf := by
  unfold dropPin
  split
  · exact h
  · split
    · exact h
    · exact wf_unpinned h

theorem cfg_dropPin (e : Env) (o : Fin 8) (k : Fin 4) (r : OutRec) : (dropPin e o k r).1.cfg = r.cfg := by
  unfold dropPin
  split
  · rfl
  · split <;> rfl

theorem sound_chainReplaced (e : Env) (k : Fin 4) (v : Ev) (o : Fin 8) :
    v.Sound (v.putOut o (chainReplaced e k o (v.clk.outs.get o))) := by
  unfold chainReplaced
  split
  · exact sound_putOut (cfg_dropPin ..) fun h => wf_dropPin _ _ _ (wf_unreverted h)
  · exact sound_putOut rfl id

theorem Ev.Sound.foldl {α : Type} {f : Ev → α → Ev} (h : ∀ (v : Ev) (a : α), v.Sound (f v a)) (l : List α) (v : Ev) :
    v.Sound (l.foldl f v) := by
  induction l generalizing v with
  | nil => exact .refl v
  | cons a l ih => exact (h v a).trans (ih _)

theorem sound_chainReplacedAll (e : Env) (k : Fin 4) (v : Ev) : v.Sound (chainReplacedAll e k v) :=
  .foldl (fun v o => sound_chainReplaced e k v o) eight v

theorem keeps_chainSet (r : ChainSetReq) (s : State) : Keeps s (performChainSet r s).state := by
  unfold performChainSet
  split
  · exact .refl s
  · rename_i k _
    split
    · exact .refl s
    · split
      · exact .refl s
      · split
        · exact .refl s
        · split
          · exact .refl s
          · dsimp only
            rw [Done.state_ok]
            exact .runEvent _ (fun hs e => (sound_chainReplacedAll e k _).srcOk hs)
              (fun ho e => (sound_chainReplacedAll e k _).outsOk ho)

/-! ### Requests on claims and lines -/

theorem keeps_setClaims (cs : List Claim) (s : State) : Keeps s (setClaims s cs) := .reevaluate_of_clk _ rfl

theorem keeps_claim (r : ClaimReq) (s : State) : Keeps s (performClaim r s).state := by
  unfold performClaim
  split
  · exact .refl s
  · exact .refl s
  · split
    · exact .refl s
    · split
      · exact .refl s
      · dsimp only
        split
        · exact .refl s
        · exact keeps_setClaims _ s

theorem keeps_releaseOne (n : Byte) (o : Fin 8) (s : State) : Keeps s (releaseOne n o s).state := by
  unfold releaseOne
  split
  · exact keeps_setClaims _ s
  · exact .refl s

theorem keeps_releaseEvery (n : Byte) (s : State) : Keeps s (releaseEvery n s).state := keeps_setClaims _ s

theorem keeps_release (c : Half) (x : Byte) (s : State) : Keeps s (performRelease c x s).state := by
  unfold performRelease
  split
  · exact .refl s
  · exact .refl s
  · split
    · exact .refl s
    · exact keeps_releaseOne _ _ s

theorem keeps_releaseAll (c : Half) (s : State) : Keeps s (performReleaseAll c s).state := by
  unfold performReleaseAll
  split
  · exact .refl s
  · exact .refl s
  · exact keeps_releaseEvery _ s

theorem clk_lineOff (l : Fin 8) (s : State) : (lineOff l s).clk = s.clk := by
  unfold lineOff
  dsimp only
  split <;> rfl

theorem clk_remapLine (l : Fin 8) (was : Bool) (s : State) : (remapLine l was s).clk = s.clk := by
  unfold remapLine
  dsimp only
  split
  · rfl
  · exact clk_lineOff _ _
  · rfl
  · rfl

theorem keeps_lineMapSet (r : LineMapReq) (s : State) : Keeps s (performLineMapSet r s).state := by
  unfold performLineMapSet
  split
  · exact .refl s
  · split
    · exact .refl s
    · dsimp only
      split
      · exact .refl s
      · split
        · exact .refl s
        · exact .reevaluate_of_clk _ (clk_remapLine _ _ _)

/-! ### Requests on profiles -/

theorem keeps_beginTransition (c : TransitionCause) {s s' : State} (h : s'.clk = s.clk) : Keeps s (beginTransition c s s') :=
  .reevaluate_of_clk _ h

theorem keeps_changeStack (c : TransitionCause) (k : Stack) (s : State) : Keeps s (changeStack c k s) := by
  unfold changeStack
  split
  · rename_i ht
    exact .quiet rfl rfl (by simp only [State.active, ht]) rfl
  · exact keeps_beginTransition c rfl

theorem keeps_post (s : State) (p : Posting) : Keeps s (s.post p) := .quiet rfl rfl rfl rfl

theorem keeps_wakeEvent (c : WakeCause) (s : State) : Keeps s (wakeEvent c s) :=
  (keeps_post s _).trans (keeps_changeStack _ _ _)

theorem keeps_offerWake (c : WakeCause) (s : State) : Keeps s (offerWake c s) := by
  unfold offerWake
  split
  · exact keeps_wakeEvent c s
  · exact .refl s

theorem keeps_enterProfile (c : TransitionCause) (p : Fin 6) (s : State) : Keeps s (enterProfile c p s).state :=
  keeps_changeStack _ _ s

theorem keeps_profileEnter (x : Byte) (s : State) : Keeps s (performProfileEnter x s).state := by
  unfold performProfileEnter
  split
  · exact .refl s
  · exact keeps_enterProfile _ _ s

theorem keeps_resumeProfile (c : TransitionCause) (s : State) : Keeps s (resumeProfile c s).state := by
  unfold resumeProfile
  split
  · exact .refl s
  · exact keeps_changeStack _ _ s

theorem keeps_resumeTarget (x : Byte) (s : State) : Keeps s (performResumeTarget x s).state := by
  unfold performResumeTarget
  split
  · exact .refl s
  · split
    · exact .refl s
    · exact .quiet rfl rfl rfl rfl

theorem keeps_profileSet (r : ProfileSetReq) (s : State) : Keeps s (performProfileSet r s).state := by
  unfold performProfileSet
  split
  · exact .refl s
  · rename_i p _
    split
    · exact .refl s
    · dsimp only
      rw [Done.state_ok]
      split
      · exact keeps_beginTransition _ rfl
      · rename_i hp
        exact .quiet rfl rfl (by simp only [State.active, Bank6.get_set, Ne.symm hp, if_false]) rfl

/-! ### Requests on actions, notices and images -/

theorem keeps_actionAdd (r : ActionAddReq) (s : State) : Keeps s (performActionAdd r s).state := by
  unfold performActionAdd
  split
  · exact .refl s
  · split
    · exact .refl s
    · dsimp only
      split
      · exact .refl s
      · exact .quiet rfl rfl rfl rfl

theorem keeps_actionCancel (n : Byte) (s : State) : Keeps s (performActionCancel n s).state := by
  unfold performActionCancel
  split
  · exact .refl s
  · split
    · exact .refl s
    · exact .quiet rfl rfl rfl rfl

theorem keeps_noticeAck (n : Half) (s : State) : Keeps s (performNoticeAck n s).state := by
  unfold performNoticeAck
  split
  · exact .refl s
  · split
    · exact .refl s
    · exact .quiet rfl rfl rfl rfl

theorem keeps_noticeFilter (f : Half) (s : State) : Keeps s (performNoticeFilter f s).state := by
  unfold performNoticeFilter
  split
  · exact .refl s
  · exact .quiet rfl rfl rfl rfl

theorem keeps_imageSave (x : Byte) (s : State) : Keeps s (performImageSave x s).state := by
  unfold performImageSave
  split
  · exact .refl s
  · split
    · exact .refl s
    · split
      · exact .refl s
      · exact .quiet rfl rfl rfl rfl

/-- A request that only answers. -/
theorem Keeps.answer {p : State → Done} {s : State} (h : (p s).state = s) : Keeps s (p s).state := by
  rw [h]; exact .refl s

/-- Every request keeps the records and rest. -/
theorem keeps_request (r : Request) (s : State) : Keeps s (performRequest r s).state := by
  cases r with
  | identify => exact .refl s
  | echo b => exact .answer (by unfold performRequest performEcho; dsimp only; split <;> rfl)
  | restart => exact .quiet rfl rfl rfl rfl
  | sourceSet r => exact keeps_sourceSet r s
  | sourceQuery x => exact .answer (p := performSourceQuery x) (by unfold performSourceQuery; split <;> rfl)
  | sourceKeep x f => exact keeps_sourceKeep x f s
  | sourceClear x => exact keeps_sourceClear x s
  | monitorSet r => exact keeps_monitorSet r s
  | monitorQuery => exact .refl s
  | outputSet r => exact keeps_outputSet r s
  | outputQuery x => exact keeps_outputQuery x s
  | outputSelect x i => exact keeps_outputSelect x i s
  | chainSet r => exact keeps_chainSet r s
  | chainQuery x => exact .answer (p := performChainQuery x) (by unfold performChainQuery; split <;> rfl)
  | claim r => exact keeps_claim r s
  | release c x => exact keeps_release c x s
  | releaseAll c => exact keeps_releaseAll c s
  | claimList f => exact .answer (p := performClaimList f) (by unfold performClaimList; split <;> rfl)
  | lineMapSet r => exact keeps_lineMapSet r s
  | lineQuery x => exact .answer (p := performLineQuery x) (by unfold performLineQuery; split <;> rfl)
  | profileSet r => exact keeps_profileSet r s
  | profileQuery x => exact .answer (p := performProfileQuery x) (by unfold performProfileQuery; split <;> rfl)
  | profileEnter x => exact keeps_profileEnter x s
  | resume => exact keeps_resumeProfile _ s
  | resumeTarget x => exact keeps_resumeTarget x s
  | stackQuery => exact .refl s
  | timeQuery => exact .refl s
  | actionAdd r => exact keeps_actionAdd r s
  | actionCancel n => exact keeps_actionCancel n s
  | actionList f => exact .answer (p := performActionList f) (by unfold performActionList; split <;> rfl)
  | noticeAck n => exact keeps_noticeAck n s
  | noticeResend => exact .quiet rfl rfl rfl rfl
  | noticeFilter f => exact keeps_noticeFilter f s
  | imageSave x => exact keeps_imageSave x s
  | imageInfo => exact .refl s

end Sys2Proof.Machine
end

section
/-! SUPPORT. A divider change that takes effect and a revert timer that runs out under a HOLD claim leave an output as its evaluation
leaves it (R52, R71). -/

namespace Sys2Proof.Machine

/-! ### Rest under a rewritten output record -/

/-- Selection in a chain sees of the record the refused set, what the output runs from, the anchor, and whether a revert is due. -/
theorem chainSelect_congr (e : Env) (c : Sources) (o : Fin 8) {r r' : OutRec} (ch : ChainRec) (href : r'.refused = r.refused)
    (hrun : ∀ s, r'.runsFrom s = r.runsFrom s) (hanc : anchor r' ch = anchor r ch)
    (hdue : r'.revert = .due ↔ r.revert = .due) : chainSelect e c o r' ch = chainSelect e c o r ch := by
  have hel : ∀ s, eligible e c o r' ch s = eligible e c o r ch s := fun s => by
    simp only [eligible, permittedOrKept, href, hrun]
  have hea : ∀ j, earlierEligible e c o r' ch j = earlierEligible e c o r ch j := fun j => by
    simp only [earlierEligible, hel]
  have hhb : holdBack e c o r' ch = holdBack e c o r ch := by
    simp only [holdBack, hanc, hel, hea, ne_eq, hdue]
  simp only [chainSelect, hhb, hel, onLastResort, hanc, lastResortUse_congr ch href, startable_congr e c href]
  rfl

/-- The record in which a divider change has taken effect (R52). -/
def OutRec.divided (r : OutRec) (u : Use) (d : Nat) : OutRec := { r with current := some { u with div := d }, nextDiv := none }

section
variable {e : Env} {c : Sources} {o : Fin 8} {r : OutRec} {u : Use} {d : Nat} (h : r.current = some u)
include h

theorem runsFrom_divided (s : Src) : (r.divided u d).runsFrom s = r.runsFrom s := by
  simp only [OutRec.runsFrom, OutRec.divided, h]

theorem anchor_divided (ch : ChainRec) : anchor (r.divided u d) ch = anchor r ch := by
  simp only [anchor, OutRec.divided, h, Option.bind_some]

theorem eligible_divided (ch : ChainRec) (s : Src) : eligible e c o (r.divided u d) ch s = eligible e c o r ch s := by
  simp only [eligible, permittedOrKept, runsFrom_divided h]; rfl

theorem chainSelect_divided (ch : ChainRec) : chainSelect e c o (r.divided u d) ch = chainSelect e c o r ch :=
  chainSelect_congr e c o ch rfl (runsFrom_divided h) (anchor_divided h ch) Iff.rfl

theorem afterSelect_divided (pl : Option Place) :
    afterSelect e c o (r.divided u d) pl = (afterSelect e c o r pl).divided u d := by
  cases hm : r.cfg.mode with
  | fixed _ => simp only [afterSelect, OutRec.divided, hm]
  | chain k =>
    have hb : betterPlaced e c o ({ r with place := pl, awaits := none }.divided u d) (e.chains.get k)
        = betterPlaced e c o { r with place := pl, awaits := none } (e.chains.get k) := by
      simp only [betterPlaced, earlierEligible, anchor_divided (r := { r with place := pl, awaits := none }) h,
        eligible_divided (r := { r with place := pl, awaits := none }) h]
    have hn : nextRevert e c o ({ r with place := pl, awaits := none }.divided u d) (e.chains.get k)
        = nextRevert e c o { r with place := pl, awaits := none } (e.chains.get k) := by
      simp only [nextRevert, hb]; rfl
    simp only [afterSelect, OutRec.divided, hm] at hn ⊢
    rw [hn]

theorem select_divided : select e c o (r.divided u d) =
    ⟨(select e c o r).out.divided u d, (select e c o r).pinLost, (select e c o r).pick⟩ := by
  have hheld : releaseHeld e o (r.divided u d) = (releaseHeld e o r).divided u d := by
    unfold releaseHeld
    by_cases hr : (decide (r.revert = .held) && !held e.claims o) = true
    · rw [if_pos hr, if_pos (show (decide ((r.divided u d).revert = .held) && _) = true from hr)]; rfl
    · rw [if_neg hr, if_neg (show ¬ (decide ((r.divided u d).revert = .held) && _) = true from hr)]
  have hcur : (releaseHeld e o r).current = some u := by unfold releaseHeld; split <;> exact h
  cases hm : r.cfg.mode with
  | fixed f =>
    simp only [select, OutRec.divided, hm, fixedSelect, fixedUsable, permittedOrKept, OutRec.runsFrom, h]
    rfl
  | chain k =>
    have hmd : (r.divided u d).cfg.mode = .chain k := hm
    simp only [select, hm, hmd, hheld]
    cases hp : (releaseHeld e o r).pin with
    | none =>
      have hpd : ((releaseHeld e o r).divided u d).pin = none := hp
      simp only [hpd, chainSelect_divided hcur]
    | some i =>
      have hpd : ((releaseHeld e o r).divided u d).pin = some i := hp
      have hpu : pinnedUse e c o ((releaseHeld e o r).divided u d) (e.chains.get k) i
          = pinnedUse e c o (releaseHeld e o r) (e.chains.get k) i := by
        simp only [pinnedUse, eligible_divided hcur]
      simp only [hpd, hpu]
      split
      · rfl
      · have := chainSelect_divided (e := e) (c := c) (o := o) (r := { releaseHeld e o r with pin := none }) (d := d) hcur
          (e.chains.get k)
        simp only [OutRec.divided] at this ⊢
        rw [this]

end

/-- An evaluation that leaves the record posts nothing either. -/
theorem evalOut_of_fixed {e : Env} {c : Sources} {o : Fin 8} {r : OutRec} (hr : r.wf) (h : (evalOut e c o r).1 = r) :
    evalOut e c o r = (r, []) := by
  have := evalOut_again (c := c) (Env.Later.refl o r.cfg e) hr
  rwa [h] at this

/-- An output that its evaluation leaves has not lost its source: the gate law would close its gate (R54). -/
theorem gateLost_of_fixed {e : Env} {c : Sources} {o : Fin 8} {r : OutRec} (h : (evalOut e c o r).1 = r) :
    gateLost c r = false := by
  by_contra hg
  obtain ⟨u, hu, hf⟩ := gateFed_evalOut e c o r (by
    rw [h]; simp only [gateLost, Bool.not_eq_false, Bool.and_eq_true] at hg; exact hg.1)
  rw [h] at hu
  simp [gateLost, hu, hf] at hg

/-- An output that its evaluation leaves is wanted, if it seeks or gives a clock (R44). -/
theorem wanted_of_fixed {e : Env} {c : Sources} {o : Fin 8} {r : OutRec} (h : (evalOut e c o r).1 = r)
    (hs : r.state = .waiting ∨ r.state = .dark ∨ r.state = .running ∨ r.state = .switching .acquire) :
    wanted e.profile e.claims o r.cfg = true := by
  have hst := stands_evalOut e c o r
  rw [h] at hst
  rcases hs with hs | hs | hs | hs <;> simpa [OutRec.standsAs, hs] using hst

/-- The evaluation of a running output that is left as it is, is a selection. -/
theorem evalOut_running {e : Env} {c : Sources} {o : Fin 8} {r : OutRec} (hs : r.state = .running)
    (hg : gateLost c r = false) (hw : wanted e.profile e.claims o r.cfg = true) :
    evalOut e c o r = selectRunning e c o r := by
  simp [evalOut, hs, hg, hw]

/-- A result that leaves a running output running is a USE of its source, and sets the divider to come (R46, R52). -/
theorem actRunning_running {e : Env} {r : OutRec} {p : Pick} (h : (actRunning e r p).state = .running) :
    ∃ u pos c, p = .use u pos ∧ r.current = some c ∧ u.src = c.src
      ∧ actRunning e r p = { r with nextDiv := if u.div = c.div then none else some u.div } := by
  unfold actRunning at h ⊢
  split at h
  · split at h
    · rename_i u pos c hc hsrc
      exact ⟨u, pos, c, rfl, hc, hsrc, by rw [hc]; simp [hsrc]⟩
    · cases h
  all_goals cases h

theorem nextDiv_afterSelect (e : Env) (c : Sources) (o : Fin 8) (r : OutRec) (pl : Option Place) :
    (afterSelect e c o r pl).nextDiv = r.nextDiv := by
  unfold afterSelect
  split <;> rfl

/-- A divider change that takes effect leaves the output at rest (R52). -/
theorem fixed_divided {e : Env} {c : Sources} {o : Fin 8} {r : OutRec} {u : Use} {d : Nat} (hwf : (r.divided u d).wf)
    (hs : r.state = .running) (hcur : r.current = some u) (hnd : r.nextDiv = some d) (h : (evalOut e c o r).1 = r) :
    evalOut e c o (r.divided u d) = (r.divided u d, []) := by
  have hg := gateLost_of_fixed h
  have hw := wanted_of_fixed h (.inr (.inr (.inl hs)))
  rw [evalOut_running hs hg hw] at h
  change afterSelect e c o (actRunning e (select e c o r).out (select e c o r).pick) (select e c o r).pick.place = r at h
  refine evalOut_of_fixed hwf ?_
  have hgd : gateLost c (r.divided u d) = false := by
    simpa [gateLost, OutRec.gateOpen, OutRec.divided, hs, hcur] using hg
  rw [evalOut_running (r := r.divided u d) hs hgd hw]
  change afterSelect e c o (actRunning e (select e c o (r.divided u d)).out (select e c o (r.divided u d)).pick)
    (select e c o (r.divided u d)).pick.place = r.divided u d
  rw [select_divided hcur]
  obtain ⟨w, pos, k, hp, hk, hsrc, hact⟩ := actRunning_running (e := e) (r := (select e c o r).out) (p := (select e c o r).pick)
    (by rw [← state_afterSelect e c o _ (select e c o r).pick.place, h, hs])
  obtain rfl : u = k := by rw [current_select, hcur] at hk; exact Option.some.inj hk
  have hnext : (if w.div = u.div then none else some w.div) = some d := by
    rw [← hnd, ← h, nextDiv_afterSelect, hact]
  have hdiv : w.div = d := by
    split at hnext
    · cases hnext
    · exact Option.some.inj hnext
  have hstay : actRunning e ((select e c o r).out.divided u d) (select e c o r).pick = (select e c o r).out.divided u d := by
    rw [hp]; simp [actRunning, OutRec.divided, hsrc, hdiv]
  dsimp only
  rw [hstay]
  calc afterSelect e c o ((select e c o r).out.divided u d) (select e c o r).pick.place
      = afterSelect e c o ((actRunning e (select e c o r).out (select e c o r).pick).divided u d)
          (select e c o r).pick.place := by rw [hact]; rfl
    _ = (afterSelect e c o (actRunning e (select e c o r).out (select e c o r).pick) (select e c o r).pick.place).divided u d :=
        afterSelect_divided (by rw [current_actRunning]; exact hk) _
    _ = r.divided u d := by rw [h]

/-- The record whose revert timer has run out under a HOLD claim (R71). -/
def OutRec.heldBack (r : OutRec) : OutRec := { r with revert := .held }

section
variable {e : Env} {c : Sources} {o : Fin 8} {r : OutRec} {k : Fin 4} {t : Tick}

/-- With a revert timer running and no pin, selection touches nothing. -/
theorem select_timing (hm : r.cfg.mode = .chain k) (hp : r.pin = none) (hr : r.revert = .timing t) :
    select e c o r = ⟨r, false, chainSelect e c o r (e.chains.get k)⟩ := by
  have hid : releaseHeld e o r = r := releaseHeld_id (by rw [hr]; exact fun h => nomatch h)
  simp only [select, hm, hid, hp]

/-- Nor does it once the output is held, and its result is the same. -/
theorem select_heldBack (hm : r.cfg.mode = .chain k) (hp : r.pin = none) (hr : r.revert = .timing t)
    (hh : held e.claims o = true) : select e c o r.heldBack = ⟨r.heldBack, false, (select e c o r).pick⟩ := by
  have hid : releaseHeld e o r.heldBack = r.heldBack := releaseHeld_id fun _ => hh
  have hsel : chainSelect e c o r.heldBack (e.chains.get k) = chainSelect e c o r (e.chains.get k) :=
    chainSelect_congr e c o _ rfl (fun _ => rfl) rfl (by simp [OutRec.heldBack, hr])
  have hmh : r.heldBack.cfg.mode = .chain k := hm
  have hph : r.heldBack.pin = none := hp
  rw [select_timing hm hp hr]
  simp only [select, hmh, hid, hph, hsel]

/-- Where the timer runs on after a selection, HELD stands in its place. -/
theorem afterSelect_heldBack {x : OutRec} {pl : Option Place}
    (h : (afterSelect e c o x pl).revert = .timing t) :
    afterSelect e c o x.heldBack pl = (afterSelect e c o x pl).heldBack := by
  cases hm : x.cfg.mode with
  | fixed _ => simp [afterSelect, hm] at h
  | chain k =>
    have hn : nextRevert e c o { x.heldBack with place := pl, awaits := none } (e.chains.get k) = .held := by
      simp only [afterSelect, hm, nextRevert] at h
      split at h
      · cases h
      · rename_i hb
        exact (if_neg hb).trans rfl
    have hmh : x.heldBack.cfg.mode = .chain k := hm
    simp only [afterSelect, hmh, hm] at hn ⊢
    rw [hn]
    rfl

/-- Without an anchor no revert runs. -/
theorem revert_afterSelect_of_anchor (hm : r.cfg.mode = .chain k) (ha : anchor r (e.chains.get k) = none) (pl : Option Place) :
    (afterSelect e c o r pl).revert = .none := by
  have hb : betterPlaced e c o { r with place := pl, awaits := none } (e.chains.get k) = false := by
    unfold betterPlaced
    rw [show anchor { r with place := pl, awaits := none } (e.chains.get k) = none from ha]
  simp [afterSelect, hm, nextRevert, hb]

/-- An output that waits, or is dark, has no anchor. -/
theorem anchor_idle {ch : ChainRec} (h : r.state = .waiting ∨ r.state = .dark) : anchor r ch = none := by
  rcases h with h | h <;> simp [anchor, h]

/-- Only an output that runs or switches has a revert timer running when its evaluation leaves it. -/
theorem state_of_timing (hm : r.cfg.mode = .chain k) (hr : r.revert = .timing t) (hwf : r.wf) (h : (evalOut e c o r).1 = r) :
    r.state = .running ∨ ∃ p, r.state = .switching p := by
  obtain ⟨-, -, hidle, -⟩ := standingOk_iff.mp (standingOk_of_wf hwf)
  have hno : ¬ (r.state = .waiting ∨ r.state = .dark) := fun hs => by
    have hw := wanted_of_fixed h (by tauto)
    have hev : evalOut e c o r = selectClosed e c o r r .select false := by
      rcases hs with hs | hs <;> simp [evalOut, gateLost_of_fixed h, hs, hw]
    rw [hev] at h
    have hrev : (selectClosed e c o r r .select false).1.revert = .none := by
      have hst : (selectClosed e c o r r .select false).1.state = r.state := by rw [h]
      refine revert_afterSelect_of_anchor (by rw [cfg_actClosed, cfg_select]; exact hm) (anchor_idle ?_) _
      change (afterSelect e c o _ _).state = r.state at hst
      rw [state_afterSelect] at hst
      rwa [hst]
    rw [h, hr] at hrev
    cases hrev
  cases hs : r.state with
  | running => exact .inl rfl
  | switching p => exact .inr ⟨p, rfl⟩
  | off => rw [hr] at hidle; exact absurd (hidle (.inl hs)).2 (by simp)
  | parked => rw [hr] at hidle; exact absurd (hidle (.inr hs)).2 (by simp)
  | waiting => exact absurd (.inl hs) hno
  | dark => exact absurd (.inr hs) hno

theorem actRunning_heldBack (x : OutRec) (p : Pick) : actRunning e x.heldBack p = (actRunning e x p).heldBack := by
  obtain ⟨cfg, st, cur, nd, tgt, pen, ref, pin, ph, pl, rv, aw⟩ := x
  cases p with
  | use u pos =>
    cases cur with
    | none => rfl
    | some v => simp only [actRunning, OutRec.heldBack]; split <;> rfl
  | wait u pos => rfl
  | dark => rfl

theorem actAcquire_heldBack (x : OutRec) (p : Pick) : actAcquire e x.heldBack p = (actAcquire e x p).heldBack := by
  obtain ⟨cfg, st, cur, nd, tgt, pen, ref, pin, ph, pl, rv, aw⟩ := x
  cases p with
  | use u pos =>
    cases tgt with
    | none => rfl
    | some v => simp only [actAcquire, OutRec.heldBack]; split <;> rfl
  | wait u pos => rfl
  | dark => rfl

theorem nextAwaits_heldBack (hm : r.cfg.mode = .chain k) (hp : r.pin = none) (p : Pick) :
    nextAwaits e c o r.heldBack ⟨r.heldBack, false, p⟩ = nextAwaits e c o r ⟨r, false, p⟩ := by
  have hpos : ∀ a, positionReason e c o r.heldBack (e.chains.get k) a = positionReason e c o r (e.chains.get k) a :=
    fun a => positionReason_congr e c o _ a rfl rfl
  have hmv : ∀ a, movesAway e c o k ⟨r.heldBack, false, p⟩ a = movesAway e c o k ⟨r, false, p⟩ a := fun a => by
    simp only [movesAway, unpinned, OutRec.heldBack, hp]
  have hst : ∀ a, standingReason e c o r.heldBack k a = standingReason e c o r k a := fun _ => rfl
  have hmh : r.heldBack.cfg.mode = .chain k := hm
  have hpl : r.heldBack.place = r.place := rfl
  have haw : r.heldBack.awaits = r.awaits := rfl
  cases hplace : r.place with
  | none => simp only [nextAwaits, hm, hmh, hpl, hplace]
  | some a => simp only [nextAwaits, hm, hmh, hpl, hplace, hpos, hmv, hst, haw]

/-- An acquire that ends as another begins posts a notice (log 14). -/
theorem notes_selectClosed_again {was r : OutRec} {why : OutReason}
    (h : (selectClosed e c o was r why true).1.state = .switching .acquire) : (selectClosed e c o was r why true).2 ≠ [] := by
  intro hnil
  change _ ++ stateNote was.state (selectClosed e c o was r why true).1 why
    (true && decide ((selectClosed e c o was r why true).1.state = .switching .acquire)) = [] at hnil
  rw [h] at hnil
  simp [stateNote] at hnil

/-- A revert timer that runs out under a HOLD claim leaves the output at rest (R71). -/
theorem fixed_heldBack (hwb : e.wantedBefore.get o = wanted e.profile e.claims o r.cfg) (hm : r.cfg.mode = .chain k)
    (hp : r.pin = none) (hr : r.revert = .timing t) (hh : held e.claims o = true) (hwf : r.wf) (hwfh : r.heldBack.wf)
    (h : evalOut e c o r = (r, [])) : evalOut e c o r.heldBack = (r.heldBack, []) := by
  have h1 : (evalOut e c o r).1 = r := by rw [h]
  refine evalOut_of_fixed hwfh ?_
  have hsel := select_heldBack (c := c) hm hp hr hh
  have hout : (select e c o r).out = r := by rw [select_timing hm hp hr]
  have hg := gateLost_of_fixed h1
  have hgh : gateLost c r.heldBack = false := hg
  have hafter : ∀ {x : OutRec} {pl : Option Place}, afterSelect e c o x pl = r →
      afterSelect e c o x.heldBack pl = r.heldBack := fun ha => by
    rw [afterSelect_heldBack (by rw [ha]; exact hr), ha]
  rcases state_of_timing hm hr hwf h1 with hs | ⟨p, hs⟩
  · have hw := wanted_of_fixed h1 (.inr (.inr (.inl hs)))
    rw [evalOut_running hs hg hw] at h1
    rw [evalOut_running (r := r.heldBack) hs hgh hw]
    change afterSelect e c o (actRunning e (select e c o r).out (select e c o r).pick) _ = r at h1
    change afterSelect e c o (actRunning e (select e c o r.heldBack).out (select e c o r.heldBack).pick) _ = r.heldBack
    rw [hsel, actRunning_heldBack]
    rw [hout] at h1
    exact hafter h1
  · cases p with
    | release =>
      cases hw : wanted e.profile e.claims o r.cfg with
      | false =>
        have hev : evalOut e c o r = (idleRelease e c o r, []) := by simp [evalOut, hs, hg, hw]
        have hnone : (evalOut e c o r).1.revert = .none := by rw [hev]; rfl
        rw [h1, hr] at hnone
        cases hnone
      | true =>
        have hev : evalOut e c o r = selectRelease e c o r := by simp [evalOut, hs, hg, hw, hwb]
        have hevh : evalOut e c o r.heldBack = selectRelease e c o r.heldBack := by
          have hsh : r.heldBack.state = .switching .release := hs
          have hwh : wanted e.profile e.claims o r.heldBack.cfg = true := hw
          simp [evalOut, hsh, hgh, hwh, hwb, hw]
        rw [hev] at h1
        rw [hevh]
        change ({ afterSelect e c o (select e c o r).out r.place with awaits := nextAwaits e c o r (select e c o r) } : OutRec) = r at h1
        change ({ afterSelect e c o (select e c o r.heldBack).out r.place with
          awaits := nextAwaits e c o r.heldBack (select e c o r.heldBack) } : OutRec) = r.heldBack
        have hsr : select e c o r = ⟨r, false, (select e c o r).pick⟩ := by rw [select_timing hm hp hr]
        rw [hsr] at h1
        rw [hsel, nextAwaits_heldBack hm hp]
        have hrev : (afterSelect e c o r r.place).revert = .timing t := by
          have := congrArg OutRec.revert h1
          rwa [hr] at this
        dsimp only at h1 ⊢
        rw [afterSelect_heldBack hrev]
        exact congrArg OutRec.heldBack h1
    | acquire =>
      have hw := wanted_of_fixed h1 (.inr (.inr (.inr hs)))
      cases hu : targetUsable e c o r with
      | false =>
        have hev : evalOut e c o r = selectClosed e c o r r.closed .abandoned true := by simp [evalOut, hs, hg, hw, hu]
        rw [hev] at h h1
        have hst : (selectClosed e c o r r.closed .abandoned true).1.state = .switching .acquire := by rw [h1, hs]
        exact absurd (congrArg Prod.snd h) (notes_selectClosed_again hst)
      | true =>
        have hev : evalOut e c o r = selectAcquire e c o r := by simp [evalOut, hs, hg, hw, hu]
        have hevh : evalOut e c o r.heldBack = selectAcquire e c o r.heldBack := by
          have hsh : r.heldBack.state = .switching .acquire := hs
          have hwh : wanted e.profile e.claims o r.heldBack.cfg = true := hw
          have huh : targetUsable e c o r.heldBack = true := hu
          simp [evalOut, hsh, hgh, hwh, huh]
        rw [hev] at h1
        rw [hevh]
        change afterSelect e c o (actAcquire e (select e c o r).out (select e c o r).pick) _ = r at h1
        change afterSelect e c o (actAcquire e (select e c o r.heldBack).out (select e c o r.heldBack).pick) _ = r.heldBack
        rw [hsel, actAcquire_heldBack]
        rw [hout] at h1
        exact hafter h1

end
theorem get_putOut (s : State) (o x : Fin 8) (r : OutRec) :
    (s.putOut o r).clk.outs.get x = if x = o then r else s.clk.outs.get x := Bank8.get_set ..

/-- Demand sees of an output's record its use of sources and its standby entry (R3). -/
theorem demanded_putOut {e : Env} {s : State} {o : Fin 8} {r : OutRec}
    (hu : ∀ x, usedBy e o r x = usedBy e o (s.out o) x)
    (hsb : standbyEntry e s.clk.src r = standbyEntry e s.clk.src (s.out o)) (x : Osc) :
    demanded e (s.putOut o r).clk x = demanded e s.clk x := by
  have hused : ∀ y z, usedBy e y ((s.putOut o r).clk.outs.get y) z = usedBy e y (s.clk.outs.get y) z := fun y z => by
    rw [get_putOut]
    split
    · rename_i hy; subst hy; exact hu z
    · rfl
  have hstand : ∀ y, standbyEntry e s.clk.src ((s.putOut o r).clk.outs.get y) = standbyEntry e s.clk.src (s.clk.outs.get y) :=
    fun y => by
      rw [get_putOut]
      split
      · rename_i hy; subst hy; exact hsb
      · rfl
  have hdir : ∀ y, demandedDirectly e (s.putOut o r).clk y = demandedDirectly e s.clk y := fun y => by
    have h1 : usedByOutput e (s.putOut o r).clk.outs (.osc y) = usedByOutput e s.clk.outs (.osc y) :=
      congrArg eight.any (funext fun z => hused z _)
    have h2 : usedAsStandby e (s.putOut o r).clk (.osc y) = usedAsStandby e s.clk (.osc y) :=
      congrArg eight.any (funext fun z => by
        rw [show (s.putOut o r).clk.src = s.clk.src from rfl, hstand])
    simp only [demandedDirectly, h1, h2]
    rfl
  simp only [demanded, hdir]
  rfl

/-- An output's record rewritten that its evaluation leaves, with the same use of sources and the same standby entry, moves
nothing. -/
theorem atRest_putOut {s : State} {o : Fin 8} {r : OutRec} (hcfg : r.cfg = (s.out o).cfg)
    (hu : ∀ e x, usedBy e o r x = usedBy e o (s.out o) x) (hsb : ∀ e c, standbyEntry e c r = standbyEntry e c (s.out o))
    (hev : ∀ e, e.claims = s.claims → e.wantedBefore.get o = wanted e.profile e.claims o r.cfg →
      evalOut e s.clk.src o (s.out o) = (s.out o, []) → evalOut e s.clk.src o r = (r, []))
    (hk : outputsOk s.clk) (h : atRest s) : atRest (s.putOut o r) := by
  have hl : restsIn (envOf .ordinary (s.putOut o r) (s.putOut o r)) s.clk := by
    refine restsIn_later (e := envOf .ordinary s s)
      (fun x => later_ordinary x (g := (s.clk.outs.get x).cfg) (t := s.putOut o r) rfl rfl rfl ?_) hk h
    rw [get_putOut]
    split
    · rename_i hx; subst hx; exact hcfg
    · rfl
  obtain ⟨hout, hdm, hlock⟩ := hl
  refine ⟨fun x => ?_, fun x => ?_, hlock⟩
  · rw [get_putOut]
    split
    · rename_i hx; subst hx
      refine hev _ rfl ?_ (hout x)
      change (Bank8.ofFn (s.putOut x r).wants).get x = wanted s.active s.claims x r.cfg
      rw [Bank8.get_ofFn, State.wants, get_putOut, if_pos rfl]
      rfl
    · exact hout x
  · rw [demanded_putOut (hu _) (hsb _ _)]; exact hdm x

/-! ### Events of outputs -/

theorem wf_divided {r : OutRec} {u : Use} {d : Nat} (h : r.wf) (hs : r.state = .running) : (r.divided u d).wf := by
  obtain ⟨-, hph, hpe, -, htg, hst, href⟩ := h
  exact ⟨by simp [OutRec.divided, OutRec.gateOpen, hs], hph, hpe, by simp [OutRec.divided], htg, hst, href⟩

/-- DIVIDER_CHANGE either finds nothing to do or lets the divider to come take effect (R52). -/
theorem takeDivider_cases (r : OutRec) : takeDivider r = r
    ∨ ∃ u d, r.state = .running ∧ r.current = some u ∧ r.nextDiv = some d ∧ takeDivider r = r.divided u d := by
  unfold takeDivider
  split
  · rename_i u d hs hc hn
    exact .inr ⟨u, d, hs, hc, hn, by rfl⟩
  · exact .inl rfl

theorem State.putOut_self (s : State) (o : Fin 8) : s.putOut o (s.out o) = s := by
  have : s.clk.outs.set o (s.out o) = s.clk.outs := by
    apply Bank8.ext_get
    intro i
    rw [Bank8.get_set]
    split
    · rename_i h; rw [h]; rfl
    · rfl
  unfold State.putOut
  rw [this]

theorem keeps_takeDivider (o : Fin 8) (s : State) : Keeps s (s.putOut o (takeDivider (s.out o))) := by
  rcases takeDivider_cases (s.out o) with h | ⟨u, d, hs, hc, hn, h⟩
  · rw [h, State.putOut_self]; exact .refl s
  · rw [h]
    refine ⟨id, outputsOk_putOut fun h => wf_divided h hs, fun hk hr => ?_⟩
    refine atRest_putOut rfl (fun e x => ?_) (fun e c => ?_) (fun e _ _ he => ?_) hk hr
    · have hst : ((s.out o).divided u d).state = .running := hs
      simp only [usedBy, OutRec.uses, permittedOrKept, runsFrom_divided hc, hst, hs]
    · have hmode : ((s.out o).divided u d).cfg = (s.out o).cfg := rfl
      simp only [standbyEntry, hmode, anchor_divided hc]; rfl
    · exact fixed_divided (wf_divided (hk o) hs) hs hc hn (by rw [he])

/-- A revert is under way only in CHAIN mode, without a pin (R65, R71). -/
theorem chain_of_revert {r : OutRec} (h : r.wf) (hr : r.revert ≠ .none) : (∃ k, r.cfg.mode = .chain k) ∧ r.pin = none := by
  obtain ⟨hfix, hpin, -, -⟩ := standingOk_iff.mp (standingOk_of_wf h)
  cases hm : r.cfg.mode with
  | fixed u => exact absurd (hfix u hm).2.2.1 hr
  | chain k => exact ⟨⟨k, rfl⟩, by_contra fun hp => hr (hpin k hm hp)⟩

/-- A revert under way may change its state. -/
theorem wf_setRevert {r : OutRec} (h : r.wf) (hr : r.revert ≠ .none) (v : Revert) : ({ r with revert := v } : OutRec).wf := by
  obtain ⟨⟨k, hm⟩, hp⟩ := chain_of_revert h hr
  obtain ⟨-, -, hidle, hawait⟩ := standingOk_iff.mp (standingOk_of_wf h)
  exact wf_restood h (nodup_of_wf h) (standingOk_iff.mpr ⟨fun u hu => (by rw [hm] at hu; cases hu),
    fun _ _ hne => absurd hp hne, fun hs => absurd (hidle hs).2 hr, hawait⟩)

theorem keeps_expireRevert (o : Fin 8) (s : State) : Keeps s (expireRevert o s) := by
  unfold expireRevert
  split
  · rename_i t hr
    have hne : (s.out o).revert ≠ .none := by rw [hr]; simp
    split
    · exact .refl s
    · split
      · rename_i hh
        refine ⟨id, outputsOk_putOut fun h => wf_setRevert h hne _, fun hk hrest => ?_⟩
        refine atRest_putOut rfl (fun _ _ => rfl) (fun _ _ => rfl) (fun e hcl hwb he => ?_) hk hrest
        obtain ⟨⟨k, hm⟩, hp⟩ := chain_of_revert (hk o) hne
        exact fixed_heldBack hwb hm hp hr (by rw [hcl]; exact hh) (hk o) (wf_setRevert (hk o) hne _) he
      · exact .reevaluate _ id (outputsOk_putOut fun h => wf_setRevert h hne _)
  · exact .refl s

end Sys2Proof.Machine
end

section
/-! PROOFS. Every event and start-up event keeps the records; every step keeps source records (O15) and rest (O60). -/

namespace Sys2Proof.Machine

/-- The end of a phase rewrites the output alone. -/
theorem keeps_outputEvent {s : State} (o : Fin 8) {m : Env → Sources → OutRec → Moved}
    (hc : ∀ e c, (m e c (s.out o)).1.cfg = (s.out o).cfg) (hw : ∀ e c, (s.out o).wf → (m e c (s.out o)).1.wf) :
    Keeps s (runEvent .ordinary s s fun e v => v.putOut o (m e v.clk.src (v.clk.outs.get o))) :=
  .event _ fun e => sound_putOut (v := ⟨s.clk, [], []⟩) (hc e _) (hw e _)

theorem keeps_finishRelease (o : Fin 8) (why : OutReason) (s : State) : Keeps s (finishRelease o why s) := by
  unfold finishRelease
  split
  · exact keeps_outputEvent o (m := fun e c r => endRelease e c o r why) (fun _ _ => cfg_endRelease ..)
      fun _ _ h => wf_endRelease _ _ _ h _
  · exact .refl s

/-- The gate opened on a target leaves a record R41 allows (R49). -/
theorem wf_openGate {r : OutRec} (h : r.wf) (hs : r.state = .switching .acquire) : (openGate r).wf := by
  obtain ⟨-, -, -, -, htg, hst, href⟩ := h
  obtain ⟨hfix, hpin, -, hawait⟩ := standingOk_iff.mp hst
  have hsome : r.target.isSome = true := by simpa [OutRec.targetOk, hs] using htg
  refine ⟨hsome, rfl, nofun, nofun, rfl, standingOk_iff.mpr ⟨hfix, hpin, nofun, fun ha => ?_⟩, href⟩
  exact absurd (hawait ha) (by rw [hs]; simp)

theorem keeps_finishAcquire (o : Fin 8) (s : State) : Keeps s (finishAcquire o s) := by
  unfold finishAcquire
  split
  · rename_i hopen
    simp only [canOpen, Bool.and_eq_true, decide_eq_true_eq] at hopen
    exact keeps_outputEvent o (m := fun _ _ r => openedGate r) (fun _ _ => rfl) fun _ _ h => wf_openGate h hopen.1
  · exact .refl s

/-- A target refused joins the refused set once (R53). -/
theorem wf_refuseTarget {r : OutRec} (h : r.wf) : (refuseTarget r).wf := by
  unfold refuseTarget
  split
  · rename_i t _
    refine wf_restood (r := r) h ?_ (show r.standingOk = true from standingOk_of_wf h)
    split
    · exact nodup_of_wf h
    · rename_i hn
      have hmem : t.src ∉ r.refused := by simpa using hn
      exact List.nodup_append.mpr ⟨nodup_of_wf h, List.nodup_singleton _, fun a ha b hb => by
        rw [List.mem_singleton.mp hb]; rintro rfl; exact hmem ha⟩
  · exact h

theorem cfg_refuseTarget (r : OutRec) : (refuseTarget r).cfg = r.cfg := by
  unfold refuseTarget
  split <;> rfl

theorem wf_timedOut (e : Env) (c : Sources) (o : Fin 8) {r : OutRec} (h : r.wf) : (timedOut e c o r).1.wf := by
  have hr := wf_refuseTarget h
  unfold timedOut
  split
  · have hcore := OutRec.wf_core hr
    obtain ⟨-, -, -, -, -, href, hpin⟩ := hcore
    exact wf_selectClosed e c o _ (r := (refuseTarget r).closed) href hpin _ _
  · exact wf_rested hr

theorem cfg_timedOut (e : Env) (c : Sources) (o : Fin 8) (r : OutRec) : (timedOut e c o r).1.cfg = r.cfg := by
  unfold timedOut
  split
  · rw [cfg_selectClosed, OutRec.cfg_closed, cfg_refuseTarget]
  · exact (OutRec.cfg_rested _).trans (cfg_refuseTarget r)

theorem keeps_timeoutAcquire (o : Fin 8) (s : State) : Keeps s (timeoutAcquire o s) := by
  unfold timeoutAcquire
  split
  · exact keeps_outputEvent o (m := fun e c r => timedOut e c o r) (fun _ _ => cfg_timedOut ..) fun _ _ => wf_timedOut _ _ _
  · exact .refl s

/-! ### Events of sources and surveys -/

theorem keeps_detectStart (o : Osc) (s : State) : Keeps s (detectStart o s) := by
  unfold detectStart
  split
  · rename_i h
    simp only [Bool.and_eq_true, decide_eq_true_eq] at h
    exact .event _ fun _ => sound_enterVerifying h.1
  · exact .refl s

theorem keeps_detectLock (s : State) : Keeps s (detectLock s) := by
  unfold detectLock
  split
  · rename_i h
    simp only [Bool.and_eq_true, decide_eq_true_eq] at h
    exact .event _ fun _ => sound_enterVerifying h.1
  · exact .refl s

theorem keeps_failStart (o : Osc) (k : TimerKind) (s : State) : Keeps s (failStart o k s) := by
  unfold failStart
  split
  · exact .event _ fun e => sound_fault e o _ _
  · exact .refl s

theorem keeps_expireQuarantine (o : Osc) (s : State) : Keeps s (expireQuarantine o s) := by
  unfold expireQuarantine
  split
  · rename_i h
    simp only [Bool.and_eq_true, decide_eq_true_eq] at h
    exact .event _ fun e => sound_leaveQuarantine e h.1
  · exact .refl s

theorem keeps_expireRehabilitation (o : Osc) (s : State) : Keeps s (expireRehabilitation o s) := by
  unfold expireRehabilitation
  split
  · rename_i h
    simp only [Bool.and_eq_true, decide_eq_true_eq] at h
    obtain ⟨hrun, -⟩ := h
    refine ⟨sourcesOk_putOsc fun hw => ?_, id, fun hk hr => atRest_putOsc rfl rfl (fun hst => ?_) hk hr⟩
    · obtain ⟨hf, -, hs, -, -⟩ := hw
      exact ⟨hf, by simp [hrun, timerOk], hs, Nat.le_refl _, fun hl => absurd hl (by rw [hrun]; simp)⟩
    · rw [hrun] at hst; cases hst
  · exact .refl s

/-! ### Events of claims, profiles, time and images -/

theorem keeps_expireLease (n : Byte) (o : Fin 8) (s : State) : Keeps s (expireLease n o s) := by
  unfold expireLease
  split
  · split
    · exact .reevaluate_of_clk _ rfl
    · exact .refl s
  · exact .refl s

theorem keeps_testSettled (s : State) : Keeps s s.testSettled :=
  .quiet (by simp) (by simp) (by simp [State.active]) (by simp)

theorem keeps_activateLine (l : Fin 8) (s : State) : Keeps s (activateLine l s) := by
  unfold activateLine
  split
  · exact .refl s
  · dsimp only
    have hk : (lineOn l (s.putLine l { s.line l with pinHigh := (s.line l).set.activeHigh })).clk = s.clk := rfl
    generalize lineOn l _ = s' at hk ⊢
    exact ((Keeps.reevaluate_of_clk _ hk).trans (keeps_testSettled _)).trans (keeps_offerWake _ _)

theorem keeps_deactivateLine (l : Fin 8) (s : State) : Keeps s (deactivateLine l s) := by
  unfold deactivateLine
  split
  · exact .reevaluate_of_clk _ (clk_lineOff _ _)
  · exact .refl s

theorem keeps_expireHold (l : Fin 8) (s : State) : Keeps s (expireHold l s) := by
  unfold expireHold
  split
  · exact .reevaluate_of_clk _ rfl
  · exact .refl s

theorem keeps_performAction (a : Action) (s : State) : Keeps s (performAction a s).state := by
  unfold performAction
  split
  · exact keeps_enterProfile _ _ s
  · exact keeps_wakeEvent _ s
  · exact keeps_resumeProfile _ s
  · exact keeps_releaseEvery _ s
  · exact keeps_releaseOne _ _ s
  · exact keeps_selectOutput _ _ s
  · exact .refl s

theorem keeps_settleAction (a : Action) (s : State) : Keeps s (settleAction a s) := by
  unfold settleAction
  split
  · exact keeps_testSettled s
  · exact keeps_testSettled s
  · exact .refl s

theorem keeps_fireHead (s : State) : Keeps s (fireHead s) := by
  unfold fireHead
  split
  · exact .refl s
  · rename_i a rest _
    split
    · have hrest : Keeps s { s with actions := rest } := .quiet rfl rfl rfl rfl
      have hdone := (hrest.trans (keeps_performAction a _)).trans (keeps_settleAction a _)
      exact hdone.trans (.quiet rfl rfl rfl rfl)
    · exact .refl s

theorem keeps_endCheck (good : Bool) (s : State) : Keeps s (endCheck good s) := by
  unfold endCheck
  split
  · split
    · exact .quiet rfl rfl rfl rfl
    · exact .refl s
  · exact .refl s

theorem keeps_expireGap (s : State) : Keeps s (expireGap s) := by
  unfold expireGap
  split
  · exact .quiet rfl rfl rfl rfl
  · exact .refl s

theorem active_congr {s t : State} (hp : t.profiles = s.profiles) (hk : t.stack = s.stack) : t.active = s.active := by
  unfold State.active
  rw [hp, hk]

theorem keeps_restartTakesEffect (s : State) : Keeps s (restartTakesEffect s) :=
  .quiet (State.clk_cutSave s) (State.chains_cutSave s) (active_congr (State.profiles_cutSave s) (State.stack_cutSave s))
    (State.claims_cutSave s)

theorem keeps_endFrame (s : State) : Keeps s (endFrame s) := by
  unfold endFrame
  split
  · exact .refl s
  · rename_i f _
    have hquiet : Keeps s { s with link := { s.link with onLtx := none } } := .quiet rfl rfl rfl rfl
    dsimp only
    split
    · exact hquiet.trans (keeps_restartTakesEffect _)
    · exact hquiet

/-- Every event of the running part keeps the records and rest; a character received is a step of its own. -/
theorem keeps_event {i : Instr} {f : State → State} (s : State) (hf : eventBody i = some f)
    (hc : ∀ c b, i ≠ .characterReceived c b) : Keeps s (f s) := by
  cases i <;> cases hf
  case characterReceived c b => exact absurd rfl (hc c b)
  case gap => exact keeps_expireGap s
  case linkBreak => exact .quiet rfl rfl rfl rfl
  case frameSent => exact keeps_endFrame s
  case startDetection o => exact keeps_detectStart o s
  case startTimerExpiry o => exact keeps_failStart o _ s
  case lockDetection => exact keeps_detectLock s
  case lockTimerExpiry => exact keeps_failStart _ _ s
  case quarantineExpiry o => exact keeps_expireQuarantine o s
  case rehabilitationExpiry o => exact keeps_expireRehabilitation o s
  case surveyCompletion xa xb ref syn => exact .event _ fun e => sound_completeSurvey _ e _
  case releaseEnd o => exact keeps_finishRelease o _ s
  case releaseTimeout o => exact keeps_finishRelease o _ s
  case acquireEnd o => exact keeps_finishAcquire o s
  case acquireTimeout o => exact keeps_timeoutAcquire o s
  case dividerChange o => exact keeps_takeDivider o s
  case revertTimerExpiry o => exact keeps_expireRevert o s
  case leaseExpiry n o => exact keeps_expireLease n o s
  case lineActivation l => exact keeps_activateLine l s
  case lineDeactivation l => exact keeps_deactivateLine l s
  case holdExpiry l => exact keeps_expireHold l s
  case wakePinEdge => exact keeps_offerWake _ s
  case tick => exact .quiet rfl rfl rfl rfl
  case actionFiring => exact keeps_fireHead s
  case eraseComplete => exact .quiet rfl rfl rfl rfl
  case writeComplete => exact .quiet rfl rfl rfl rfl
  case checkComplete good => exact keeps_endCheck good s

/-! ### Start-up events -/

theorem sourcesOk_cold (c : BoardConfig) (st : OutConfig → OutState) : sourcesOk (.cold c st) := by
  refine ⟨fun o => ?_, rfl, .inl rfl, nofun⟩
  rw [show (Clocks.cold c st).src.osc.get o = .cold (c.osc.get o) from BankOsc.get_ofFn ..]
  exact ⟨nofun, rfl, rfl, Nat.le_refl _, nofun⟩

theorem outputsOk_cold (c : BoardConfig) {st : OutConfig → OutState} (hst : ∀ g, st g = .off ∨ st g = .parked) :
    outputsOk (.cold c st) := by
  intro o
  rw [show (Clocks.cold c st).outs.get o = .cold (c.outs.get o) (st (c.outs.get o)) from Bank8.get_ofFn ..]
  have hstand : (OutRec.cold (c.outs.get o) (st (c.outs.get o))).standingOk = true :=
    standingOk_iff.mpr ⟨fun _ _ => ⟨rfl, rfl, rfl, rfl⟩, fun _ _ _ => rfl, fun _ => ⟨rfl, rfl⟩, fun h => absurd rfl h⟩
  rcases hst (c.outs.get o) with h | h <;> rw [h] at hstand ⊢ <;>
    exact ⟨rfl, rfl, nofun, nofun, rfl, hstand, List.nodup_nil⟩

theorem clk_readLine (pins : Byte) (s : State) (l : Fin 8) : (readLine pins s l).clk = s.clk := by
  unfold readLine
  dsimp only
  split <;> rfl

theorem clk_readLines (pins : Byte) (ls : List (Fin 8)) (s : State) : (ls.foldl (readLine pins) s).clk = s.clk := by
  induction ls generalizing s with
  | nil => rfl
  | cons l ls ih => rw [List.foldl_cons, ih, clk_readLine]

/-- A survey begun touches neither sources nor outputs. -/
theorem sourcesOk_beginSurvey {k : Clocks} (tick : Tick) (h : sourcesOk k) : sourcesOk (beginSurvey tick k) := h

/-- The records a cold start's LIVE evaluates are those of APPLY. -/
theorem keeps_liveCold (pins : Byte) (s : State) :
    (sourcesOk s.clk → sourcesOk (liveCold pins s).clk) ∧ (outputsOk s.clk → outputsOk (liveCold pins s).clk)
      ∧ (outputsOk s.clk → atRest (liveCold pins s)) := by
  unfold liveCold
  dsimp only
  have hk : (eight.foldl (readLine pins) (({ enterLive (coldCause s.startup) s with tick := 0#32 } : State).post
      (startedPosting (enterLive (coldCause s.startup) s).startup.record))).clk = s.clk := clk_readLines ..
  generalize eight.foldl (readLine pins) _ = s' at hk ⊢
  have h := Keeps.reevaluate_of_clk .live (s := { s' with clk := beginSurvey s'.tick s'.clk }) rfl
  rw [← hk]
  exact ⟨fun hs => h.src hs, fun ho => h.outs ho, fun ho => atRest_reevaluate _ _ _ ho⟩

/-- A restarted output's record is one the rules allow (R62, R79). -/
theorem wf_restartedOut {r : OutRec} (h : r.wf) (c : OutConfig) : (r.restarted c).wf := by
  obtain ⟨-, -, hidle, hawait⟩ := standingOk_iff.mp (standingOk_of_wf h)
  unfold OutRec.restarted
  cases hm : c.mode with
  | fixed u => exact wf_restood h List.nodup_nil (standingOk_iff.mpr
      ⟨fun _ _ => ⟨rfl, rfl, rfl, rfl⟩, fun _ _ _ => rfl, fun _ => ⟨rfl, rfl⟩, fun ha => absurd rfl ha⟩)
  | chain k => exact wf_restood h List.nodup_nil (standingOk_iff.mpr
      ⟨fun u hu => (by rw [show c.mode = _ from hu] at hm; cases hm), fun _ _ _ => rfl, fun hs => ⟨(hidle hs).1, rfl⟩, hawait⟩)

theorem get_clocksRestarted (c : BoardConfig) (tick : Tick) (k : Clocks) :
    (∀ o, (clocksRestarted c tick k).src.osc.get o = (k.src.osc.get o).restarted (c.osc.get o))
    ∧ (clocksRestarted c tick k).src.rco = k.src.rco ∧ (clocksRestarted c tick k).src.syn = c.syn
    ∧ (∀ o, (clocksRestarted c tick k).outs.get o = (k.outs.get o).restarted (c.outs.get o)) := by
  unfold clocksRestarted
  obtain ⟨hs, ho⟩ := clk_withMonitor { k with
    src := { k.src with osc := k.src.osc.mapIdx fun o r => r.restarted (c.osc.get o), syn := c.syn }
    outs := k.outs.mapIdx fun o r => r.restarted (c.outs.get o) } tick c.monitor
  rw [hs, ho]
  exact ⟨fun o => BankOsc.get_mapIdx .., rfl, rfl, fun o => Bank8.get_mapIdx ..⟩

/-- What a warm restart makes of one source before the evaluation: LOCKED_OUT ends (R21). -/
def stopLockedOut (v : Ev) (o : Osc) : Ev := if (v.osc o).state = .lockedOut then enterOff o v else v

theorem osc_stopLockedOut (v : Ev) (o x : Osc) : (stopLockedOut v o).osc x =
    if x = o ∧ (v.osc o).state = .lockedOut then (v.osc o).stopped else v.osc x := by
  unfold stopLockedOut
  by_cases h : (v.osc o).state = .lockedOut
  · rw [if_pos h, osc_enterOff]; simp [h]
  · rw [if_neg h]; simp [h]

theorem osc_stopLockedOuts (v : Ev) (x : Osc) : (oscs.foldl stopLockedOut v).osc x =
    if (v.osc x).state = .lockedOut then (v.osc x).stopped else v.osc x := by
  simp only [oscs, List.foldl_cons, List.foldl_nil, osc_stopLockedOut]
  cases x <;> simp

theorem rco_stopLockedOut (v : Ev) (o : Osc) : (stopLockedOut v o).clk.src.rco = v.clk.src.rco := by
  unfold stopLockedOut
  split <;> rfl

theorem sound_stopLockedOuts (v : Ev) : v.Sound (oscs.foldl stopLockedOut v) :=
  .foldl (fun v o => by unfold stopLockedOut; split; exacts [sound_enterOff o v, .refl v]) oscs v

theorem restartSources_eq (old : SynConfig) (e : Env) (v : Ev) : restartSources old e v =
    if decide ((oscs.foldl stopLockedOut v).clk.src.syn ≠ old) && synDepends (oscs.foldl stopLockedOut v).clk.src
    then enterStarting e .syn (oscs.foldl stopLockedOut v) else oscs.foldl stopLockedOut v := rfl

/-- After a warm restart's own part every source's record is one the rules allow, also where LOCKED_OUT met a full budget. -/
theorem sourcesOk_restartSources {old : SynConfig} (e : Env) {v : Ev}
    (h : ∀ o, OscRec.wf o (v.osc o) ∨ ((v.osc o).state = .lockedOut ∧ (v.osc o).budget ≤ (v.osc o).cfg.retryCount))
    (hr : v.clk.src.rco.wf) : sourcesOk (restartSources old e v).clk := by
  have hrco : (oscs.foldl stopLockedOut v).clk.src.rco = v.clk.src.rco := by
    simp only [oscs, List.foldl_cons, List.foldl_nil, rco_stopLockedOut]
  have hok : sourcesOk (oscs.foldl stopLockedOut v).clk := by
    refine ⟨fun o => ?_, by rw [hrco]; exact hr⟩
    change OscRec.wf o ((oscs.foldl stopLockedOut v).osc o)
    rw [osc_stopLockedOuts]
    split
    · rcases h o with hw | ⟨-, hb⟩
      · exact OscRec.wf_stopped o hw.2.2.2.1
      · exact OscRec.wf_stopped o hb
    · rename_i hn
      exact (h o).resolve_right fun hl => hn hl.1
  rw [restartSources_eq]
  split
  · exact (sound_enterStarting e .syn _).srcOk hok
  · exact hok

theorem sound_restartSources (old : SynConfig) (e : Env) (v : Ev) : v.Sound (restartSources old e v) := by
  have h := sound_stopLockedOuts v
  rw [restartSources_eq]
  split
  · exact h.trans (sound_enterStarting e .syn _)
  · exact h

/-- LIVE after a warm restart keeps the records and ends at rest. -/
theorem keeps_liveWarm (s : State) :
    (sourcesOk s.clk → sourcesOk (liveWarm s).clk) ∧ (outputsOk s.clk → outputsOk (liveWarm s).clk)
      ∧ (outputsOk s.clk → atRest (liveWarm s)) := by
  unfold liveWarm
  dsimp only
  generalize hc : chosenConfig s.image s.chosen = c
  have hk : ((enterLive .restart (applyWarm c.1 c.2 s)).post
      (startedPosting (enterLive .restart (applyWarm c.1 c.2 s)).startup.record)).clk = clocksRestarted c.1 s.tick s.clk := rfl
  generalize State.post _ _ = s' at hk ⊢
  obtain ⟨hosc, hrco, -, hout⟩ := get_clocksRestarted c.1 s.tick s.clk
  rw [← hk] at hosc hrco hout
  have hout' : outputsOk s.clk → outputsOk s'.clk := fun h o => by rw [hout]; exact wf_restartedOut (h o) _
  have hsound := fun e => sound_restartSources s.clk.src.syn e ⟨s'.clk, [], []⟩
  refine ⟨fun h => ?_, fun h => ?_, fun h => atRest_runEvent _ _ _ _ ((hsound _).outsOk (hout' h))⟩
  · rw [clk_runEvent]
    refine (calm_settle _ _).srcOk (sourcesOk_restartSources _ (fun o => ?_) ?_)
    · obtain ⟨hf, ht, hs, -, -⟩ := h.1 o
      rw [osc_ofClocks, hosc]
      by_cases hl : (s.clk.src.osc.get o).state = .lockedOut
      · exact .inr ⟨hl, Nat.le_refl _⟩
      · exact .inl ⟨hf, ht, hs, Nat.le_refl _, fun hst => absurd hst hl⟩
    · rw [show (Ev.mk s'.clk [] []).clk.src.rco = s.clk.src.rco from hrco]; exact h.2
  · rw [clk_runEvent]
    exact (calm_settle _ _).outsOk ((hsound _).outsOk (hout' h))

/-- A part that holds after the end of the event. -/
theorem keeps_endEvent (s : State) : Keeps s s.endEvent :=
  .quiet (State.clk_endEvent s) (State.chains_endEvent s) (active_congr (State.profiles_endEvent s) (State.stack_endEvent s))
    (State.claims_endEvent s)

/-- A start-up event keeps the records. -/
theorem keepsRecords_start {i : Instr} {f : State → State} (s : State) (hf : startBody i = some f) :
    (sourcesOk s.clk → sourcesOk (f s).clk) ∧ (outputsOk s.clk → outputsOk (f s).clk) := by
  cases i <;> cases hf
  case coldStart supply => exact ⟨fun _ => sourcesOk_cold _ _, fun _ => outputsOk_cold _ fun _ => .inl rfl⟩
  case resetRelease => unfold releaseReset; split <;> exact ⟨id, id⟩
  case powerupEnd b1 b0 => unfold endPowerup; split <;> exact ⟨id, id⟩
  case selectDone =>
    unfold endSelect
    split
    · dsimp only
      split
      · exact ⟨id, id⟩
      · refine ⟨fun _ => sourcesOk_cold _ _, fun _ => outputsOk_cold _ fun g => ?_⟩
        split
        · exact .inr rfl
        · exact .inl rfl
    · exact ⟨id, id⟩
  case live pins =>
    unfold reachLive
    split
    · rw [State.clk_endEvent]
      split
      · exact ⟨(keeps_liveWarm s).1, (keeps_liveWarm s).2.1⟩
      · exact ⟨(keeps_liveCold pins s).1, (keeps_liveCold pins s).2.1⟩
    · exact ⟨id, id⟩

/-- A start-up event after which the part runs leaves it at rest. -/
theorem atRest_start {i : Instr} {f : State → State} (s : State) (hf : startBody i = some f) (ho : outputsOk s.clk)
    (hr : s.startup.running = true → atRest s) (hrun : (f s).startup.running = true) : atRest (f s) := by
  cases i <;> cases hf
  case coldStart supply => cases hrun
  case resetRelease =>
    unfold releaseReset at hrun ⊢
    split at hrun
    · rename_i hs; simp [Startup.running, hs] at hrun
    · rename_i hs; rw [if_neg hs]; exact hr hrun
  case powerupEnd b1 b0 =>
    unfold endPowerup at hrun ⊢
    split at hrun
    · cases hrun
    · rename_i hs; rw [if_neg hs]; exact hr hrun
  case selectDone =>
    by_cases hs : s.startup.state = .select
    · cases hw : s.startup.warm with
      | true =>
        have hquiet : Keeps s (endSelect s) := by
          unfold endSelect
          rw [if_pos hs]
          dsimp only
          rw [if_pos hw]
          exact .quiet rfl rfl rfl rfl
        exact hquiet.rest ho (hr (by simp [Startup.running, hs, hw]))
      | false =>
        have hstop : (endSelect s).startup.running = false := by
          unfold endSelect
          rw [if_pos hs]
          simp [hw, Startup.running, applyCold]
        rw [hstop] at hrun
        cases hrun
    · unfold endSelect at hrun ⊢
      rw [if_neg hs] at hrun ⊢
      exact hr hrun
  case live pins =>
    unfold reachLive at hrun ⊢
    split at hrun
    · rename_i hs
      rw [if_pos hs]
      split
      · exact (keeps_endEvent _).rest ((keeps_liveWarm s).2.1 ho) ((keeps_liveWarm s).2.2 ho)
      · exact (keeps_endEvent _).rest ((keeps_liveCold pins s).2.1 ho) ((keeps_liveCold pins s).2.2 ho)
    · rename_i hs; rw [if_neg hs]; exact hr hrun

/-! ### Every step -/

/-- Settles O15: requests and events keep the source records (`Keeps`), start-up events write cold or restarted ones. -/
theorem stepKeepsSourceRecords : Obligations.StepKeepsSourceRecords := fun _ _ h hs =>
  step_keeps (P := fun s => sourcesOk s.clk) (fun _ _ h => h) (fun _ _ h => h) (fun s h => (keeps_endEvent s).src h)
    (fun r s _ h => (keeps_request r s).src h) (fun _ _ s hf hc _ h => (keeps_event s hf hc).src h)
    (fun _ _ s hf h => (keepsRecords_start s hf).1 h) h hs

/-- The output records are ones the rules allow, and while the part runs it is at rest. -/
def Rested (s : State) : Prop := outputsOk s.clk ∧ (s.startup.running = true → atRest s)

/-- An effect that keeps records and rest, taken while the part runs. -/
theorem Rested.keeps {s t : State} (h : Rested s) (hrun : s.startup.running = true) (hk : Keeps s t) : Rested t :=
  ⟨hk.outs h.1, fun _ => hk.rest h.1 (h.2 hrun)⟩

/-- A change outside clocks, chains, active profile, claims and start-up. -/
theorem Rested.quiet {s t : State} (h : Rested s) (hk : Keeps s t) (hu : t.startup = s.startup) : Rested t :=
  ⟨hk.outs h.1, fun hrun => hk.rest h.1 (h.2 (by rwa [hu] at hrun))⟩

/-- Settles O60: a request or an event of the running part either moves nothing that rest depends on or runs its course, which ends at
rest; of the start-up events only LIVE evaluates anything, and the others stop the part or leave it. -/
theorem stepKeepsAtRest : Obligations.StepKeepsAtRest := fun _ _ ho hr hs => by
  refine (step_keeps (P := Rested) (fun _ _ h => h.quiet (.quiet rfl rfl rfl rfl) rfl)
    (fun _ _ h => h.quiet (.quiet rfl rfl rfl rfl) rfl) (fun s h => h.quiet (keeps_endEvent s) (State.startup_endEvent s))
    (fun r s hl h => h.keeps ?_ (keeps_request r s)) (fun _ _ s hf hc hrun h => h.keeps hrun (keeps_event s hf hc))
    (fun _ _ s hf h => ⟨(keepsRecords_start s hf).2 h.1, atRest_start s hf h.1 h.2⟩) ⟨ho, hr⟩ hs).2
  rw [State.isLive, decide_eq_true_eq] at hl
  rw [Startup.running, hl]

end Sys2Proof.Machine
end

section
/-! PROOFS. The part right after power-on (O10), the ranges of SOURCE SET (O21), and how notices enter the queue (O29). -/

namespace Sys2Proof.Machine

/-! ### Right after power-on -/

/-- Every output is cold and off in the reset state (R61). -/
theorem out_reset (o : Fin 8) : State.reset.out o = .cold (defaultConfig.outs.get o) .off := Bank8.get_ofFn ..

/-- Every source is cold in the reset state (R20). -/
theorem osc_reset (o : Osc) : State.reset.osc o = .cold (defaultConfig.osc.get o) := BankOsc.get_ofFn ..

/-- Settles O10: outputs and sources are cold records, and the rest is what the reset state writes. -/
theorem resetState : Obligations.ResetState := by
  refine ⟨rfl, rfl, rfl, rfl, fun o => ⟨rfl, ?_⟩, fun o => ?_, rfl, rfl, rfl, rfl, rfl, rfl, rfl, rfl, rfl, rfl, rfl, rfl, rfl,
    rfl, rfl, rfl, rfl⟩
  · rw [out_reset]; exact ⟨rfl, rfl, rfl⟩
  · rw [osc_reset]; exact ⟨rfl, rfl, rfl, rfl, rfl⟩

/-! ### The ranges of R2 -/

theorem inRange_iff {lo hi n : Nat} : inRange lo hi n = true ↔ lo ≤ n ∧ n ≤ hi := by simp [inRange]

/-- The codes of SYN's inputs (R2). -/
theorem synInputOfCode_isSome {b : Byte} : (synInputOfCode b).isSome = true ↔ b = 0#8 ∨ b = 1#8 ∨ b = 3#8 := by
  have hcode : ∀ n : Nat, n < 256 → (b.toNat = n ↔ b = BitVec.ofNat 8 n) := fun n hn => by
    rw [← BitVec.toNat_inj, BitVec.toNat_ofNat, Nat.mod_eq_of_lt hn]
  rw [← hcode 0 (by decide), ← hcode 1 (by decide), ← hcode 3 (by decide)]
  unfold synInputOfCode
  split <;> simp_all

/-- Settles O21: the Bool test clause by clause, for XA, XB and REF with their own range of nominal frequency, for SYN with its
input, M and N. -/
theorem sourceRanges : Obligations.SourceRanges := by
  refine ⟨fun o r => ?_, fun c => rfl⟩
  cases o
  case syn =>
    simp only [sourceSetInRange, if_true, Bool.and_eq_true, inRange_iff, decide_eq_true_eq, synInputOfCode_isSome, oscRange]
    tauto
  all_goals
    simp only [sourceSetInRange, reduceCtorEq, if_false, Bool.and_eq_true, inRange_iff, decide_eq_true_eq, oscRange]
    tauto

/-! ### Notices -/

/-- A notice passes the filter if its kind is STARTED or LOST, or is in the filter (step 1 of R163). -/
theorem passes_iff {q : Notices} {k : NoticeKind} :
    q.passes k = true ↔ k = .started ∨ k = .lost ∨ q.filter.getLsbD k.code = true := by
  cases k <;> simp [Notices.passes]

theorem post_filtered {q : Notices} {p : Posting} (h : q.passes p.kind = false) (tick : Tick) : q.post tick p = q := by
  simp [Notices.post, h]

theorem post_full {q : Notices} {p : Posting} (h : q.passes p.kind = true) (hl : 24 ≤ q.records.length) (tick : Tick) :
    q.post tick p = { q with lost := min 255 (q.lost + 1) } := by
  simp [Notices.post, h, Config.noticeRoom, hl]

theorem post_entered {q : Notices} {p : Posting} (h : q.passes p.kind = true) (hl : q.records.length < 24) (tick : Tick) :
    q.post tick p = q.enter tick p := by
  simp [Notices.post, h, Config.noticeRoom, Nat.not_le.mpr hl]

theorem stateNote_same {before : OutState} {r : OutRec} (h : before = r.state) (why : OutReason) :
    stateNote before r why false = [] := by simp [stateNote, h]

theorem stateNote_changed {before : OutState} {r : OutRec} {again : Bool} (h : before ≠ r.state ∨ again = true)
    (why : OutReason) : stateNote before r why again = [.state before r.state r.current r.target why] := by
  rcases h with h | h <;> simp [stateNote, h]

/-- A source in FAULTED is quarantined with two notices, into FAULTED and into QUARANTINED (R9, R14). -/
theorem srcNotes_quarantine {e : Env} {before : Sources} {v : Ev} {o : Osc} {k : FaultKind} (h : (v.osc o).state = .faulted) :
    (quarantine e before v (o, k)).srcNotes = v.srcNotes
      ++ [sourceNote (oscCode o) (oscStateCode (before.osc.get o).state) (oscStateCode .faulted) (v.osc o).budget (some k),
        sourceNote (oscCode o) (oscStateCode .faulted) (oscStateCode .quarantined) (v.osc o).budget none] := by
  change (v.srcNotes ++ [_]) ++ [sourceNote (oscCode o) (oscStateCode (v.osc o).state) (oscStateCode .quarantined)
    (v.osc o).budget none] = _
  rw [h, List.append_assoc]
  rfl

/-- Settles O29: the queue by its three cases, the lost count by the post of a LOST notice; then the writes of a source's record and the
notices they add. -/
theorem noticePosting : Obligations.NoticePosting := by
  refine ⟨fun q tick p => ⟨fun h1 h2 h3 => ?_, fun hp => ⟨fun hl => ?_, fun hl => ?_⟩, fun h => ?_, fun h hl => ?_⟩,
    fun v o r => ⟨?_, ?_⟩, fun v o k => ⟨(quiet_marks [(o, k)] v).2.2.2.2, ?_, ?_⟩,
    fun e before v o k h => ⟨?_, srcNotes_quarantine h⟩,
    fun before r why again => ⟨fun h ha => ?_, fun h => stateNote_changed h why⟩⟩
  · exact post_filtered (Bool.eq_false_iff.mpr fun h => by
      rcases passes_iff.mp h with h | h | h
      · exact h1 h
      · exact h2 h
      · rw [h3] at h; cases h) tick
  · exact post_full (passes_iff.mpr hp) hl tick
  · exact post_entered (passes_iff.mpr hp) hl tick
  · simp [Notices.testLost, h]
  · rw [Notices.testLost, if_neg h, post_entered (passes_iff.mpr (.inr (.inl rfl))) hl]
    rfl
  · rw [Ev.osc_changeOsc, if_pos rfl]
  · change v.srcNotes ++ [sourceNote _ _ _ _ _] = _
    split <;> rfl
  · rw [osc_markFaulted, if_pos rfl]; rfl
  · rw [osc_markFaulted, if_pos rfl]; rfl
  · rw [osc_quarantine, if_pos rfl]; rfl
  · subst ha; exact stateNote_same h why

end Sys2Proof.Machine
end

section
/-! PROOFS. SOURCE SET (O34); SOURCE KEEP, SOURCE CLEAR and SOURCE QUERY (O35). -/

namespace Sys2Proof.Machine

/-! ### Taken requests -/

/-- A taken request is answered with its owner's status and result, after its effects (R153). -/
theorem takeFrame_answered {s : State} (h : s.takes) (tag kind : Byte) (perform : State → Done) :
    takeFrame tag kind perform s =
      afterReply (perform s.hunt).state tag kind (perform s.hunt).status (perform s.hunt).result :=
  takeFrame_takes h tag kind perform

theorem refuses_of_refuse {i : Instr} {s : State} {tag kind : Byte} {perform : State → Done} {st : Status} (h : s.takes)
    (hi : exec i s = .next (takeFrame tag kind perform s)) (hp : perform s.hunt = .refuse s.hunt st) :
    Refuses i s tag kind st := by
  rw [Refuses, hi, takeFrame_answered h, hp]
  rfl

theorem accepted_of_ok {i : Instr} {s u : State} {tag kind : Byte} {perform : State → Done} {l : List Byte} (h : s.takes)
    (hi : exec i s = .next (takeFrame tag kind perform s)) (hp : perform s.hunt = .ok u l) :
    exec i s = .next (afterReply u tag kind .ok l) := by
  rw [hi, takeFrame_answered h, hp]
  rfl

/-! ### Sources after an event -/

theorem osc_runEvent (cause : Cause) (s0 s : State) (f : Env → Ev → Ev) (x : Osc) :
    (runEvent cause s0 s f).osc x = (settle (envOf cause s0 s) (f (envOf cause s0 s) ⟨s.clk, [], []⟩)).osc x := by
  unfold State.osc Ev.osc
  rw [clk_runEvent]

/-- Configuration, budget and fault kind are those that the event's own part has left. -/
theorem kept_runEvent (cause : Cause) (s0 s : State) (f : Env → Ev → Ev) (x : Osc) :
    ((runEvent cause s0 s f).osc x).cfg = ((f (envOf cause s0 s) ⟨s.clk, [], []⟩).osc x).cfg
    ∧ ((runEvent cause s0 s f).osc x).budget = ((f (envOf cause s0 s) ⟨s.clk, [], []⟩).osc x).budget
    ∧ ((runEvent cause s0 s f).osc x).fault = ((f (envOf cause s0 s) ⟨s.clk, [], []⟩).osc x).fault := by
  rw [osc_runEvent]
  exact ((calm_settle _ _).osc x).1

theorem syn_runEvent (cause : Cause) (s0 s : State) (f : Env → Ev → Ev) :
    (runEvent cause s0 s f).clk.src.syn = (f (envOf cause s0 s) ⟨s.clk, [], []⟩).clk.src.syn := by
  rw [clk_runEvent]
  exact (calm_settle _ _).syn

/-- A source that is stuck after the event's own part stays as it is (R9, R11). -/
theorem stuck_runEvent (cause : Cause) (s0 s : State) (f : Env → Ev → Ev) (x : Osc)
    (h : ((f (envOf cause s0 s) ⟨s.clk, [], []⟩).osc x).state = .quarantined
      ∨ ((f (envOf cause s0 s) ⟨s.clk, [], []⟩).osc x).state = .lockedOut) :
    (runEvent cause s0 s f).osc x = (f (envOf cause s0 s) ⟨s.clk, [], []⟩).osc x := by
  rw [osc_runEvent]
  obtain ⟨-, hstuck, -⟩ := (calm_settle (envOf cause s0 s) (f (envOf cause s0 s) ⟨s.clk, [], []⟩)).osc x
  exact hstuck (.inr h)

/-- A source OFF after the event's own part is OFF or STARTING at its end. -/
theorem off_runEvent (cause : Cause) (s0 s : State) (f : Env → Ev → Ev) (x : Osc)
    (h : ((f (envOf cause s0 s) ⟨s.clk, [], []⟩).osc x).state = .off) :
    ((runEvent cause s0 s f).osc x).state = .off ∨ ((runEvent cause s0 s f).osc x).state = .starting := by
  rw [osc_runEvent]
  obtain ⟨-, -, hst, -⟩ := (calm_settle (envOf cause s0 s) (f (envOf cause s0 s) ⟨s.clk, [], []⟩)).osc x
  rw [h] at hst
  tauto

/-- An event's course acts on demand at least once, and goes on calmly from there. -/
theorem calm_fromDemand (e : Env) (v : Ev) : (demandPass e (outputsPass e v)).Calm (settle e v) := by
  change (demandPass e (outputsPass e v)).Calm (if someStop e (outputsPass e v)
    then settleRounds e 7 (demandPass e (outputsPass e v)) else demandPass e (outputsPass e v))
  split
  · exact calm_settleRounds e 7 _
  · exact .refl _

/-- A kept source in OFF starts in the event (R3, R4, R17). -/
theorem starting_settle {e : Env} {v : Ev} {x : Osc} (hk : (v.osc x).cfg.keep = true) (h : (v.osc x).state = .off) :
    ((settle e v).osc x).state = .starting := by
  have hw : ((outputsPass e v).osc x).cfg.keep = true := by rw [osc_outputsPass]; exact hk
  have hst : ((demandPass e (outputsPass e v)).osc x).state = .starting := by
    have hd := demands_keep e (outputsPass e v) x hw
    rw [demands, BankOsc.get_ofFn] at hd
    rw [osc_demandPass, hd, osc_outputsPass, h]
    rfl
  obtain ⟨⟨hcfg, -⟩, -⟩ := (calm_demandPass e (outputsPass e v)).osc x
  obtain ⟨-, -, -, hkeep, -⟩ := (calm_fromDemand e v).osc x
  rw [hkeep (by rw [hcfg]; exact hw) (by rw [hst]; simp), hst]

/-! ### SOURCE SET (R15, R16) -/

/-- The state that an accepted SOURCE SET leaves. -/
def sourceSetDone (o : Osc) (r : SourceSetReq) (s : State) : State :=
  runEvent .ordinary s { s with clk := { s.clk with src := sourceSetSources o r s.clk.src } }
    fun e v => if synRestarts s.clk.src (sourceSetSources o r s.clk.src) then restartSyn e v else v

section
variable {o : Osc} {r : SourceSetReq} (h : srcOfCode r.source = some (.osc o)) (s : State)
include h

theorem performSourceSet_outOfRange (hr : sourceSetInRange o r = false ∨ sourceSetFits s o (sourceSetSources o r s.clk.src) = false) :
    performSourceSet r s = .refuse s .badValue := by
  unfold performSourceSet
  rw [h]
  cases hin : sourceSetInRange o r with
  | false => simp [hin]
  | true =>
    have hf := hr.resolve_left (by rw [hin]; simp)
    simp [hin, hf]

theorem performSourceSet_conflict (hr : sourceSetInRange o r = true)
    (hf : sourceSetFits s o (sourceSetSources o r s.clk.src) = true)
    (hc : sourceSetConflicts s (sourceSetSources o r s.clk.src) = true) : performSourceSet r s = .refuse s .conflict := by
  unfold performSourceSet
  rw [h]
  simp [hr, hf, hc]

theorem performSourceSet_accepted (hr : sourceSetInRange o r = true)
    (hf : sourceSetFits s o (sourceSetSources o r s.clk.src) = true)
    (hc : sourceSetConflicts s (sourceSetSources o r s.clk.src) = false) :
    performSourceSet r s = .ok (sourceSetDone o r s) [] := by
  unfold performSourceSet
  rw [h]
  simp [hr, hf, hc, sourceSetDone]

end

theorem osc_sourceSetSources (o : Osc) (r : SourceSetReq) (c : Sources) (x : Osc) :
    (sourceSetSources o r c).osc.get x =
      if x = o then (c.osc.get o).configured (sourceSetConfig o r (c.osc.get o).cfg) else c.osc.get x :=
  BankOsc.get_set ..

/-- What an accepted SOURCE SET leaves of every source's configuration, budget and fault kind. -/
theorem kept_sourceSet (o : Osc) (r : SourceSetReq) (s : State) (x : Osc) :
    ((sourceSetDone o r s).osc x).cfg = ((sourceSetSources o r s.clk.src).osc.get x).cfg
    ∧ ((sourceSetDone o r s).osc x).budget = ((sourceSetSources o r s.clk.src).osc.get x).budget
    ∧ ((sourceSetDone o r s).osc x).fault = ((sourceSetSources o r s.clk.src).osc.get x).fault := by
  obtain ⟨hc, hb, hf⟩ := kept_runEvent .ordinary s { s with clk := { s.clk with src := sourceSetSources o r s.clk.src } }
    (fun e v => if synRestarts s.clk.src (sourceSetSources o r s.clk.src) then restartSyn e v else v) x
  rw [sourceSetDone, hc, hb, hf]
  split
  · rw [restartSyn, osc_enterStarting, osc_ofClocks, osc_ofClocks]
    split
    · rename_i hx; subst hx; exact ⟨rfl, rfl, rfl⟩
    · exact ⟨rfl, rfl, rfl⟩
  · exact ⟨rfl, rfl, rfl⟩

theorem syn_sourceSet (o : Osc) (r : SourceSetReq) (s : State) :
    (sourceSetDone o r s).clk.src.syn = sourceSetSyn o r s.clk.src.syn := by
  rw [sourceSetDone, syn_runEvent]
  split <;> rfl

/-- A SOURCE SET of SYN in range names its input (R2). -/
theorem synInput_of_inRange {r : SourceSetReq} (h : sourceSetInRange .syn r = true) :
    ∃ i, synInputOfCode r.synInput = some i := by
  simp only [sourceSetInRange, if_true, Bool.and_eq_true] at h
  exact Option.isSome_iff_exists.mp h.2.1.1

/-- Settles O34: the checks in their order, then what the accepted request writes, which the event's course keeps. -/
theorem sourceSetRule : Obligations.SourceSetRule := by
  intro s tag r ht
  have hexec : exec (.sourceSet tag r) s = .next (takeFrame tag 0x10#8 (performSourceSet r) s) := rfl
  refine ⟨fun h => ?_, fun h => ?_, fun o h => ⟨fun hr => ?_, fun hr hf => ⟨fun hc => ?_, fun hc => ?_⟩⟩⟩
  · exact refuses_of_refuse ht hexec (by unfold performSourceSet; rw [h])
  · exact refuses_of_refuse ht hexec (by unfold performSourceSet; rw [h])
  · exact refuses_of_refuse ht hexec (performSourceSet_outOfRange h s.hunt hr)
  · exact refuses_of_refuse ht hexec (performSourceSet_conflict h s.hunt hr hf hc)
  · refine ⟨sourceSetDone o r s.hunt, accepted_of_ok ht hexec (performSourceSet_accepted h s.hunt hr hf hc), ?_⟩
    have hkept := kept_sourceSet o r s.hunt
    simp only [osc_sourceSetSources] at hkept
    obtain ⟨hcfg, hbud, hflt⟩ := hkept o
    rw [if_pos rfl] at hcfg hbud hflt
    have hsyn := syn_sourceSet o r s.hunt
    refine ⟨hcfg, hbud, hflt, fun x hx => ?_, fun ho => ?_, fun ho => ?_⟩
    · obtain ⟨hc', hb', -⟩ := hkept x
      rw [if_neg hx] at hc' hb'
      exact ⟨hc', hb'⟩
    · rw [hsyn, sourceSetSyn, if_neg ho]; rfl
    · subst ho
      obtain ⟨i, hi⟩ := synInput_of_inRange hr
      rw [hsyn, sourceSetSyn, if_pos rfl, hi]
      exact ⟨rfl, rfl, rfl⟩

/-! ### SOURCE KEEP (R17) -/

/-- The state that an accepted SOURCE KEEP leaves. -/
def sourceKeepDone (o : Osc) (b : Bool) (s : State) : State :=
  reevaluate .ordinary s (s.putOsc o { s.osc o with cfg := { (s.osc o).cfg with keep := b } })

/-- A yes/no field is 0 or 1 (R172). -/
theorem yesNoOfCode_bool (b : Bool) : yesNoOfCode (if b then 1#8 else 0#8) = some b := by cases b <;> rfl

theorem yesNoOfCode_bad {f : Byte} (h0 : f ≠ 0#8) (h1 : f ≠ 1#8) : yesNoOfCode f = none := by
  have hn0 : f.toNat ≠ 0 := fun h => h0 (BitVec.eq_of_toNat_eq h)
  have hn1 : f.toNat ≠ 1 := fun h => h1 (BitVec.eq_of_toNat_eq h)
  unfold yesNoOfCode
  split <;> simp_all

/-- SOURCE KEEP rewrites the keep flag of the named source alone, and starts it from OFF if it sets the flag. -/
theorem sourceKeepDone_effect (o : Osc) (b : Bool) (s : State) :
    ((sourceKeepDone o b s).osc o).cfg = { (s.osc o).cfg with keep := b }
    ∧ (∀ x, x ≠ o → ((sourceKeepDone o b s).osc x).cfg = (s.osc x).cfg)
    ∧ (b = true → (s.osc o).state = .off → ((sourceKeepDone o b s).osc o).state = .starting) := by
  have hcfg : ∀ x, ((sourceKeepDone o b s).osc x).cfg =
      (if x = o then { s.osc o with cfg := { (s.osc o).cfg with keep := b } } else s.osc x).cfg := fun x => by
    rw [sourceKeepDone, reevaluate]
    obtain ⟨hc, -⟩ := kept_runEvent .ordinary s (s.putOsc o { s.osc o with cfg := { (s.osc o).cfg with keep := b } })
      (fun _ v => v) x
    rw [hc, osc_ofPutOsc]
  refine ⟨by rw [hcfg, if_pos rfl], fun x hx => by rw [hcfg, if_neg hx], fun hb hoff => ?_⟩
  rw [sourceKeepDone, reevaluate, osc_runEvent]
  refine starting_settle ?_ ?_
  · rw [osc_ofPutOsc, if_pos rfl]; exact hb
  · rw [osc_ofPutOsc, if_pos rfl]; exact hoff

/-! ### SOURCE CLEAR (R7, R18) -/

/-- SYN is never its own input (R2). -/
theorem synInputSrc_ne_syn (i : SynInput) : synInputSrc i ≠ .osc .syn := by cases i <;> simp [synInputSrc]

/-- The source itself is none that a lost input takes along. -/
theorem osc_loseInput_self (e : Env) (o : Osc) (v : Ev) : (loseInput e (.osc o) v).osc o = v.osc o := by
  rw [loseInput, osc_faultAll e _ (nodup_inputLost _ _)]
  rcases inputLost_forms v.clk.src (.osc o) with h | ⟨h, hi, -⟩
  · rw [h]; rfl
  · have hne : o ≠ .syn := fun ho => synInputSrc_ne_syn _ (ho ▸ hi)
    rw [h]
    simp [Ne.symm hne]

/-- A SYN that depends on the lost input faults (R7). -/
theorem osc_loseInput_syn (e : Env) {s : Src} {v : Ev} (hi : synInputSrc v.clk.src.syn.input = s)
    (hd : synDepends v.clk.src = true) : (loseInput e s v).osc .syn = (v.osc .syn).failed .inputLost e.tick := by
  have hl : inputLost v.clk.src s = [(.syn, .inputLost)] := by simp [inputLost, hi, hd]
  rw [loseInput, osc_faultAll e _ (nodup_inputLost _ _), hl]
  rfl

/-- No other source than SYN is touched. -/
theorem osc_loseInput_other (e : Env) (s : Src) (v : Ev) {x : Osc} (hx : x ≠ .syn) : (loseInput e s v).osc x = v.osc x := by
  rw [loseInput, osc_faultAll e _ (nodup_inputLost _ _)]
  rcases inputLost_forms v.clk.src s with h | ⟨h, -, -⟩
  · rw [h]; rfl
  · rw [h]; simp [Ne.symm hx]

theorem osc_unquarantine_self (e : Env) (o : Osc) (v : Ev) : (unquarantine e o v).osc o = (v.osc o).stopped := by
  rw [unquarantine, osc_loseInput_self, osc_enterOff, if_pos rfl]

theorem synDepends_congr {c d : Sources} (h : (c.osc.get .syn).state = (d.osc.get .syn).state) : synDepends c = synDepends d := by
  unfold synDepends
  rw [show c.osc.syn.state = d.osc.syn.state from h]

theorem osc_unquarantine_syn (e : Env) {o : Osc} {v : Ev} (hi : synInputSrc v.clk.src.syn.input = .osc o)
    (hd : synDepends v.clk.src = true) : (unquarantine e o v).osc .syn = (v.osc .syn).failed .inputLost e.tick := by
  have hne : Osc.syn ≠ o := fun ho => synInputSrc_ne_syn _ (ho ▸ hi)
  have hsyn : (enterOff o v).osc .syn = v.osc .syn := by rw [osc_enterOff, if_neg hne]
  rw [unquarantine, osc_loseInput_syn e (v := enterOff o v) hi, hsyn]
  rw [← hd]
  exact synDepends_congr (congrArg OscRec.state hsyn)

/-- The record that SOURCE CLEAR first fills the budget of. -/
def OscRec.filled (r : OscRec) : OscRec := { r with budget := r.cfg.retryCount }

theorem clearSource_quarantined {o : Osc} {s : State} (h : (s.osc o).state = .quarantined) :
    clearSource o s = runEvent .ordinary s (s.putOsc o (s.osc o).filled) fun e v => unquarantine e o v := by
  unfold clearSource
  dsimp only
  split
  · rfl
  · rename_i hl; rw [h] at hl; cases hl
  · rename_i hq _; exact absurd h hq

theorem clearSource_lockedOut {o : Osc} {s : State} (h : (s.osc o).state = .lockedOut) :
    clearSource o s = runEvent .ordinary s (s.putOsc o (s.osc o).filled) fun _ v => enterOff o v := by
  unfold clearSource
  dsimp only
  split
  · rename_i hq; rw [h] at hq; cases hq
  · rfl
  · rename_i _ hl; exact absurd h hl

theorem clearSource_other {o : Osc} {s : State} (hq : (s.osc o).state ≠ .quarantined) (hl : (s.osc o).state ≠ .lockedOut) :
    clearSource o s = s.putOsc o (s.osc o).filled := by
  unfold clearSource
  dsimp only
  split
  · rename_i h; exact absurd h hq
  · rename_i h; exact absurd h hl
  · rfl

theorem osc_putOsc (s : State) (o x : Osc) (r : OscRec) : (s.putOsc o r).osc x = if x = o then r else s.osc x :=
  BankOsc.get_set ..

/-- SOURCE CLEAR fills the budget and leaves the fault kind (R18). -/
theorem kept_clearSource (o : Osc) (s : State) :
    ((clearSource o s).osc o).budget = (s.osc o).cfg.retryCount ∧ ((clearSource o s).osc o).fault = (s.osc o).fault := by
  by_cases hq : (s.osc o).state = .quarantined
  · rw [clearSource_quarantined hq]
    obtain ⟨-, hb, hf⟩ := kept_runEvent .ordinary s (s.putOsc o (s.osc o).filled) (fun e v => unquarantine e o v) o
    rw [hb, hf, osc_unquarantine_self, osc_ofPutOsc, if_pos rfl]
    exact ⟨rfl, rfl⟩
  · by_cases hl : (s.osc o).state = .lockedOut
    · rw [clearSource_lockedOut hl]
      obtain ⟨-, hb, hf⟩ := kept_runEvent .ordinary s (s.putOsc o (s.osc o).filled) (fun _ v => enterOff o v) o
      rw [hb, hf, osc_enterOff, if_pos rfl, osc_ofPutOsc, if_pos rfl]
      exact ⟨rfl, rfl⟩
    · rw [clearSource_other hq hl, osc_putOsc, if_pos rfl]
      exact ⟨rfl, rfl⟩

/-- It takes the source out of QUARANTINED and LOCKED_OUT (R18). -/
theorem state_clearSource {o : Osc} {s : State} (h : (s.osc o).state = .quarantined ∨ (s.osc o).state = .lockedOut) :
    ((clearSource o s).osc o).state = .off ∨ ((clearSource o s).osc o).state = .starting := by
  rcases h with h | h
  · rw [clearSource_quarantined h]
    exact off_runEvent _ _ _ _ _ (by rw [osc_unquarantine_self]; rfl)
  · rw [clearSource_lockedOut h]
    exact off_runEvent _ _ _ _ _ (by rw [osc_enterOff, if_pos rfl]; rfl)

/-- A SYN that depends on a QUARANTINED input faults as that is cleared (R7, R18). -/
theorem syn_clearSource_quarantined {o : Osc} {s : State} (hi : synInputSrc s.clk.src.syn.input = .osc o)
    (h : (s.osc o).state = .quarantined) (hd : synDepends s.clk.src = true) :
    ((clearSource o s).osc .syn).state = .quarantined ∧ ((clearSource o s).osc .syn).fault = some .inputLost := by
  have hne : Osc.syn ≠ o := fun ho => synInputSrc_ne_syn _ (ho ▸ hi)
  have hd' : synDepends (s.putOsc o (s.osc o).filled).clk.src = true := by
    rw [← hd]
    exact synDepends_congr (congrArg OscRec.state ((osc_putOsc s o .syn _).trans (if_neg hne)))
  have hsyn := fun e => osc_unquarantine_syn e (v := ⟨(s.putOsc o (s.osc o).filled).clk, [], []⟩) hi hd'
  rw [clearSource_quarantined h, stuck_runEvent _ _ _ _ _ (.inl (by rw [hsyn]; rfl)), hsyn]
  exact ⟨rfl, rfl⟩

/-- One that depends on a LOCKED_OUT input keeps its fault kind (log 12). -/
theorem syn_clearSource_lockedOut {o : Osc} {s : State} (hi : synInputSrc s.clk.src.syn.input = .osc o)
    (h : (s.osc o).state = .lockedOut) : ((clearSource o s).osc .syn).fault = (s.osc .syn).fault := by
  have hne : Osc.syn ≠ o := fun ho => synInputSrc_ne_syn _ (ho ▸ hi)
  rw [clearSource_lockedOut h]
  obtain ⟨-, -, hf⟩ := kept_runEvent .ordinary s (s.putOsc o (s.osc o).filled) (fun _ v => enterOff o v) .syn
  rw [hf, osc_enterOff, if_neg hne, osc_ofPutOsc, if_neg hne]

/-- RCO in FAULTED enters UNCHECKED with its counts cleared (R18, R33). -/
theorem clearRco_faulted {s : State} (h : s.clk.src.rco.state = .faulted) :
    (clearRco s).clk.src.rco = { s.clk.src.rco with state := .unchecked }
    ∧ (clearRco s).clk.mon.rco.good = 0 ∧ (clearRco s).clk.mon.rco.bad = 0 := by
  rw [clearRco, if_pos h, clk_runEvent]
  have hcalm := calm_settle (envOf .ordinary s s)
    ((Ev.mk s.clk [] []).changeRco { s.clk.src.rco with state := .unchecked } 0 0)
  rw [hcalm.rco, hcalm.monRco]
  exact ⟨rfl, rfl, rfl⟩

/-- Settles O35: each request's refusals, and its effect by the lemmas on `sourceKeepDone`, `clearRco` and `clearSource`. -/
theorem sourceKeepClearQuery : Obligations.SourceKeepClearQuery := by
  refine ⟨fun s tag source f ht => ?_, fun s tag source ht => ?_⟩
  · have hexec : exec (.sourceKeep tag source f) s = .next (takeFrame tag 0x12#8 (performSourceKeep source f) s) := rfl
    refine ⟨fun h => ?_, fun h => ?_, fun o h => ⟨fun h0 h1 => ?_, fun b hb => ?_⟩⟩
    · exact refuses_of_refuse ht hexec (by unfold performSourceKeep; rw [h])
    · exact refuses_of_refuse ht hexec (by unfold performSourceKeep; rw [h])
    · exact refuses_of_refuse ht hexec (by unfold performSourceKeep; rw [h, yesNoOfCode_bad h0 h1])
    · subst hb
      exact ⟨sourceKeepDone o b s.hunt, accepted_of_ok ht hexec (by unfold performSourceKeep; rw [h, yesNoOfCode_bool]; rfl),
        sourceKeepDone_effect o b s.hunt⟩
  · have hclear : exec (.sourceClear tag source) s = .next (takeFrame tag 0x13#8 (performSourceClear source) s) := rfl
    have hquery : exec (.sourceQuery tag source) s = .next (takeFrame tag 0x11#8 (performSourceQuery source) s) := rfl
    refine ⟨fun h => ⟨?_, ?_⟩, fun x h => ?_, fun h => ⟨fun hr => ?_, fun hr => ?_⟩, fun o h => ?_⟩
    · exact refuses_of_refuse ht hclear (by unfold performSourceClear; rw [h])
    · exact refuses_of_refuse ht hquery (by unfold performSourceQuery; rw [h])
    · exact accepted_of_ok ht hquery (by unfold performSourceQuery; rw [h]; rfl)
    · refine accepted_of_ok ht hclear ?_
      unfold performSourceClear
      rw [h]
      exact congrArg (Done.ok · []) (if_neg hr)
    · obtain ⟨hrco, hgood, hbad⟩ := clearRco_faulted (s := s.hunt) hr
      refine ⟨clearRco s.hunt, accepted_of_ok ht hclear (by unfold performSourceClear; rw [h]), ?_, hgood, hbad, ?_⟩
      · rw [hrco]
      · rw [hrco]; rfl
    · refine ⟨clearSource o s.hunt, accepted_of_ok ht hclear (by unfold performSourceClear; rw [h]), ?_, ?_,
        state_clearSource (s := s.hunt), fun hi => ?_, clearSource_other (s := s.hunt)⟩
      · exact (kept_clearSource o s.hunt).1
      · exact (kept_clearSource o s.hunt).2
      · exact ⟨syn_clearSource_quarantined (s := s.hunt) hi, syn_clearSource_lockedOut (s := s.hunt) hi⟩

end Sys2Proof.Machine
end

section
/-! PROOFS. Start detection, lock detection and the end of rehabilitation (O36); failed starts and the end of a quarantine (O37). -/

namespace Sys2Proof.Machine

/-! ### An event's course from a state at rest -/

theorem Ev.putOut_self (v : Ev) (o : Fin 8) : v.putOut o (v.clk.outs.get o, []) = v := by
  have hset : v.clk.outs.set o (v.clk.outs.get o) = v.clk.outs := by
    apply Bank8.ext_get
    intro i
    rw [Bank8.get_set]
    split
    · rename_i h; rw [h]
    · rfl
  change { v with clk := { v.clk with outs := v.clk.outs.set o (v.clk.outs.get o) } } = v
  rw [hset]

theorem foldl_id {α β : Type} {f : α → β → α} {a : α} (l : List β) (h : ∀ b ∈ l, f a b = a) : l.foldl f a = a := by
  induction l with
  | nil => rfl
  | cons b l ih =>
    rw [List.foldl_cons, h b (List.mem_cons_self ..)]
    exact ih fun c hc => h c (List.mem_cons_of_mem _ hc)

/-- At rest an evaluation of the outputs moves nothing and posts nothing. -/
theorem outputsPass_of_rests {e : Env} {v : Ev} (h : restsIn e v.clk) : outputsPass e v = v := by
  obtain ⟨hout, -⟩ := h
  exact foldl_id _ fun o _ => by rw [Ev.evalOne, hout o, Ev.putOut_self]

/-- At rest demand moves no source. -/
theorem demandPass_of_rests {e : Env} {v : Ev} (h : restsIn e v.clk) : demandPass e v = v := by
  obtain ⟨-, hdm, hlock⟩ := h
  have hfold : oscsSynFirst.foldl (applyDemand e (demands e v.clk)) v = v := foldl_id _ fun o _ => by
    have hwant : (demands e v.clk).get o = demanded e v.clk o := BankOsc.get_ofFn ..
    have hstay : ¬ (demanded e v.clk o && decide ((v.osc o).state = .off)) = true := fun hm => by
      simp only [Bool.and_eq_true, decide_eq_true_eq] at hm
      exact (hdm o).2 hm.1 hm.2
    have hrun : ¬ mustStop (demanded e v.clk o) (v.osc o).state = true := fun hm =>
      Bool.noConfusion ((hdm o).1.symm.trans hm)
    rw [applyDemand, hwant, if_neg hstay, if_neg hrun]
  have hwait : ¬ (decide ((v.osc .syn).state = .starting) && (v.osc .syn).timer.isNone
      && feeds v.clk.src (synInputSrc v.clk.src.syn.input)) = true := fun hm => by
    simp only [Bool.and_eq_true, decide_eq_true_eq, Option.isNone_iff_eq_none] at hm
    obtain ⟨⟨hst, ht⟩, hf⟩ := hm
    exact hlock hst hf ht
  rw [demandPass, hfold]
  exact if_neg hwait

/-- An event that leaves the part at rest has run its course. -/
theorem settle_of_rests {e : Env} {v : Ev} (h : restsIn e v.clk) : settle e v = v := by
  have hstop : someStop e v = false := by
    obtain ⟨-, hdm, -⟩ := h
    rw [someStop, List.any_eq_false]
    intro o _
    rw [demands, BankOsc.get_ofFn]
    exact ne_true_of_eq_false (hdm o).1
  change (if someStop e (outputsPass e v) then settleRounds e 7 (demandPass e (outputsPass e v))
    else demandPass e (outputsPass e v)) = v
  rw [outputsPass_of_rests h, demandPass_of_rests h, hstop]
  rfl

/-! ### Start detection and lock detection (R5, R6) -/

/-- The record of a source whose start or lock has been detected. -/
def OscRec.verifying (r : OscRec) : OscRec := { r with state := .verifying, timer := none }

/-- From STARTING to VERIFYING no output and no demand sees a difference. -/
theorem rests_enterVerifying {s : State} {o : Osc} (hs : (s.osc o).state = .starting) (h : atRest s) :
    restsIn (envOf .ordinary s s) (s.putOsc o (s.osc o).verifying).clk := by
  have hget : ∀ x, (s.putOsc o (s.osc o).verifying).clk.src.osc.get x = if x = o then (s.osc o).verifying else s.osc x :=
    fun x => osc_putOsc s o x _
  refine restsIn_sameClass (k := s.clk) (fun x => ?_) rfl rfl (fun x => ?_) (fun x w => ?_) (fun x hoff => ?_)
    (fun hst => ?_) h
  · rw [hget]
    split
    · rename_i hx; subst hx
      rw [show (s.clk.src.osc.get x).state = _ from hs]; rfl
    · rfl
  · rw [hget]
    split
    · rename_i hx; subst hx; rfl
    · rfl
  · rw [hget]
    split
    · rename_i hx; subst hx
      rw [show (s.clk.src.osc.get x).state = _ from hs]; rfl
    · rfl
  · rw [hget] at hoff
    split at hoff
    · cases hoff
    · exact hoff
  · have hsyn := hget .syn
    change ((s.putOsc o (s.osc o).verifying).clk.src.osc.get .syn).state = .starting at hst
    change _ ∧ (_ → ((s.putOsc o (s.osc o).verifying).clk.src.osc.get .syn).timer ≠ none)
    rw [hsyn] at hst ⊢
    split at hst
    · cases hst
    · rename_i hne
      rw [if_neg hne]
      exact ⟨hst, id⟩

/-- At rest, detection moves the source and posts its notice, and nothing else moves. -/
theorem runEvent_enterVerifying {s : State} {o : Osc} (hs : (s.osc o).state = .starting) (h : atRest s) :
    runEvent .ordinary s s (fun _ v => enterVerifying o v) = (s.putOsc o (s.osc o).verifying).post
      ⟨.sourceState, BitVec.ofNat 8 (oscCode o), [1#8, 2#8, BitVec.ofNat 8 (s.osc o).budget, 0#8]⟩ := by
  have hset : settle (envOf .ordinary s s) (enterVerifying o ⟨s.clk, [], []⟩) = enterVerifying o ⟨s.clk, [], []⟩ :=
    settle_of_rests (rests_enterVerifying hs h)
  have hnote : (enterVerifying o ⟨s.clk, [], []⟩).postings (envOf .ordinary s s)
      = [⟨.sourceState, BitVec.ofNat 8 (oscCode o), [1#8, 2#8, BitVec.ofNat 8 (s.osc o).budget, 0#8]⟩] := by
    change [sourceNote (oscCode o) (oscStateCode (s.osc o).state) 2 (s.osc o).budget none] = _
    rw [hs]
    rfl
  rw [runEvent, hset, hnote]
  rfl

/-- In any state the source is in VERIFYING without a timer after detection, unless it is not kept and is stopped (R4). -/
theorem verifying_runEvent (s : State) (o : Osc) :
    (((runEvent .ordinary s s fun _ v => enterVerifying o v).osc o).state = .verifying
      ∧ ((runEvent .ordinary s s fun _ v => enterVerifying o v).osc o).timer = none)
    ∨ ((s.osc o).cfg.keep = false ∧ (((runEvent .ordinary s s fun _ v => enterVerifying o v).osc o).state = .off
      ∨ ((runEvent .ordinary s s fun _ v => enterVerifying o v).osc o).state = .starting)) := by
  have hv : (enterVerifying o ⟨s.clk, [], []⟩).osc o = (s.osc o).verifying := by rw [osc_enterVerifying, if_pos rfl]; rfl
  rw [osc_runEvent]
  obtain ⟨-, -, hst, hkeep, hsame⟩ := (calm_settle (envOf .ordinary s s) (enterVerifying o ⟨s.clk, [], []⟩)).osc o
  rw [hv] at hst hkeep hsame
  rcases hst with hst | hst
  · refine .inl ⟨hst, ?_⟩
    rw [hsame hst (by simp [OscRec.verifying]) (by simp [OscRec.verifying])]
    rfl
  · refine .inr ⟨Bool.eq_false_iff.mpr fun hk => ?_, hst⟩
    have hstay := hkeep hk (by simp [OscRec.verifying])
    rcases hst with hst | hst <;> rw [hst] at hstay <;> cases hstay

theorem detectStart_starting {o : Osc} {s : State} (ho : o ≠ .syn) (hs : (s.osc o).state = .starting) :
    detectStart o s = runEvent .ordinary s s fun _ v => enterVerifying o v :=
  if_pos (by simp [hs, ho])

theorem detectStart_other {o : Osc} {s : State} (h : o = .syn ∨ (s.osc o).state ≠ .starting) : detectStart o s = s :=
  if_neg (by rcases h with h | h <;> simp [h])

theorem detectLock_starting {s : State} (hs : (s.osc .syn).state = .starting) (ht : (s.osc .syn).timer ≠ none) :
    detectLock s = runEvent .ordinary s s fun _ v => enterVerifying .syn v :=
  if_pos (by simp [hs, Option.isSome_iff_ne_none, ht])

theorem detectLock_other {s : State} (h : (s.osc .syn).state ≠ .starting ∨ (s.osc .syn).timer = none) : detectLock s = s :=
  if_neg (by rcases h with h | h <;> simp [h])

theorem timerDue_iff {s : State} {o : Osc} {k : TimerKind} {due : Tick} (h : (s.osc o).timer = some ⟨k, due⟩) :
    timerDue s o k = reached s.tick due := by
  simp [timerDue, h]

theorem expireRehabilitation_due {s : State} {o : Osc} {due : Tick} (hs : (s.osc o).state = .running)
    (ht : (s.osc o).timer = some ⟨.rehabilitation, due⟩) (hd : reached s.tick due = true) :
    expireRehabilitation o s = s.putOsc o { s.osc o with budget := (s.osc o).cfg.retryCount, timer := none } :=
  if_pos (by simp [hs, timerDue_iff ht, hd])

theorem expireRehabilitation_early {s : State} {o : Osc} {due : Tick}
    (ht : (s.osc o).timer = some ⟨.rehabilitation, due⟩) (hd : reached s.tick due = false) : expireRehabilitation o s = s :=
  if_neg (by simp [timerDue_iff ht, hd])

theorem whileRunning_eq {s : State} (h : s.startup.running = true) (f : State → State) : whileRunning f s = (f s).endEvent :=
  if_pos h

theorem osc_endEvent (s : State) (o : Osc) : s.endEvent.osc o = s.osc o := by
  unfold State.osc
  rw [State.clk_endEvent]

/-- Settles O36: the event's own part is one record and one notice; from rest its course moves nothing more, and elsewhere calmly. -/
theorem sourceProgressEvents : Obligations.SourceProgressEvents := by
  intro s hrun found
  have hstart : ∀ o, exec (.startDetection o) s = .next (detectStart o s).endEvent := fun o =>
    congrArg Host.Outcome.next (whileRunning_eq hrun _)
  have hlock : exec .lockDetection s = .next (detectLock s).endEvent := congrArg Host.Outcome.next (whileRunning_eq hrun _)
  have hrehab : ∀ o, exec (.rehabilitationExpiry o) s = .next (expireRehabilitation o s).endEvent := fun o =>
    congrArg Host.Outcome.next (whileRunning_eq hrun _)
  refine ⟨fun o ho hs hrest => ?_, fun hs ht hrest => ?_, fun o ho hs => ⟨_, hstart o, ?_⟩, fun o ho => ?_,
    fun hs ht => ⟨_, hlock, ?_⟩, fun h => ?_, fun o due hs ht => ⟨fun hd => ?_, fun hd => ?_⟩⟩
  · rw [hstart, detectStart_starting ho hs, runEvent_enterVerifying hs hrest]
    rfl
  · rw [hlock, detectLock_starting hs ht, runEvent_enterVerifying hs hrest]
    rfl
  · rw [osc_endEvent, detectStart_starting ho hs]
    exact verifying_runEvent s o
  · rw [hstart, detectStart_other ho]
  · rw [osc_endEvent, detectLock_starting hs ht]
    exact verifying_runEvent s .syn
  · rw [hlock, detectLock_other h]
  · rw [hrehab, expireRehabilitation_due hs ht hd]
  · rw [hrehab, expireRehabilitation_early ht hd]

/-! ### A failed start (R5, R6, R7, R9) -/

theorem failStart_due {s : State} {o : Osc} {k : TimerKind} {due : Tick} (hs : (s.osc o).state = .starting)
    (ht : (s.osc o).timer = some ⟨k, due⟩) (hd : reached s.tick due = true) :
    failStart o k s = runEvent .ordinary s s fun e v => fault e o .noStart v :=
  if_pos (by simp [hs, timerDue_iff ht, hd])

/-- A source that faults is in QUARANTINED at the end of the event, as R9 leaves it. -/
theorem osc_runEvent_fault (s : State) (o : Osc) (k : FaultKind) :
    (runEvent .ordinary s s fun e v => fault e o k v).osc o = (s.osc o).failed k s.tick := by
  have hv := osc_fault (envOf .ordinary s s) o k ⟨s.clk, [], []⟩
  rw [stuck_runEvent _ _ _ _ _ (.inl (by rw [hv]; rfl)), hv]
  rfl

/-- So is a SYN that depends on it (R7). -/
theorem syn_runEvent_fault {s : State} {o : Osc} (k : FaultKind) (hi : synInputSrc s.clk.src.syn.input = .osc o)
    (hd : synDepends s.clk.src = true) :
    (runEvent .ordinary s s fun e v => fault e o k v).osc .syn = (s.osc .syn).failed .inputLost s.tick := by
  have hv := osc_fault_syn (envOf .ordinary s s) o k ⟨s.clk, [], []⟩ hi hd
  rw [stuck_runEvent _ _ _ _ _ (.inl (by rw [hv]; rfl)), hv]
  rfl

/-- A SYN in STARTING depends on its input. -/
theorem synDepends_starting {s : State} (h : (s.osc .syn).state = .starting) : synDepends s.clk.src = true := by
  rw [synDepends, show s.clk.src.osc.syn.state = .starting from h]

/-- What the failed start of a source leaves of it and of a SYN that waits for it. -/
theorem failStart_effect {s : State} {o : Osc} {k : TimerKind} {due : Tick} (hs : (s.osc o).state = .starting)
    (ht : (s.osc o).timer = some ⟨k, due⟩) (hd : reached s.tick due = true) :
    (failStart o k s).osc o = (s.osc o).failed .noStart s.tick
    ∧ (synInputSrc s.clk.src.syn.input = .osc o → (s.osc .syn).state = .starting →
      (failStart o k s).osc .syn = (s.osc .syn).failed .inputLost s.tick) := by
  rw [failStart_due hs ht hd]
  exact ⟨osc_runEvent_fault s o _, fun hi hsyn => syn_runEvent_fault _ hi (synDepends_starting hsyn)⟩

/-! ### The end of a quarantine (R10) -/

section
variable {s : State} {o : Osc} {due : Tick}

theorem expireQuarantine_due (hs : (s.osc o).state = .quarantined) (ht : (s.osc o).timer = some ⟨.quarantine, due⟩)
    (hd : reached s.tick due = true) :
    expireQuarantine o s = runEvent .ordinary s s fun e v => leaveQuarantine e o v :=
  if_pos (by simp [hs, timerDue_iff ht, hd])

/-- What R10 makes of the source before the event runs its course: started at a charge, locked out, or stopped. -/
def OscRec.released (r : OscRec) (o : Osc) (want : Bool) (tick : Tick) : OscRec :=
  if want then
    if r.budget = 0 then { r with state := .lockedOut, timer := none }
    else ({ r with budget := r.budget - 1 } : OscRec).started o tick
  else r.stopped

theorem osc_leaveQuarantine (e : Env) (o : Osc) (v : Ev) :
    (leaveQuarantine e o v).osc o = (v.osc o).released o (demanded e v.clk o) e.tick := by
  unfold leaveQuarantine OscRec.released
  dsimp only
  split
  · split
    · rw [osc_loseInput_self, osc_enterLockedOut, if_pos rfl]
    · rw [osc_enterStarting, if_pos rfl, Ev.osc_putOsc, if_pos rfl]
  · exact osc_unquarantine_self e o v

/-- A source in OFF or STARTING, in a state at rest, is in STARTING exactly if it is demanded. -/
theorem state_of_rest {t : State} (h : atRest t) (hst : (t.osc o).state = .off ∨ (t.osc o).state = .starting) :
    (t.osc o).state = if demanded (envOf .ordinary t t) t.clk o then .starting else .off := by
  obtain ⟨-, hdm, -⟩ := h
  obtain ⟨hstop, hoff⟩ := hdm o
  cases hd : demanded (envOf .ordinary t t) t.clk o with
  | true => exact hst.resolve_left (hoff hd)
  | false =>
    refine hst.resolve_right fun hs => ?_
    rw [hd, show (t.clk.src.osc.get o).state = _ from hs] at hstop
    cases hstop

/-- The end of a quarantine in a state that has the event. -/
theorem quarantine_ends (hs : (s.osc o).state = .quarantined) (ho : outputsOk s.clk) :
    let want := demanded (envOf .ordinary s s) s.clk o
    let t := runEvent .ordinary s s fun e v => leaveQuarantine e o v
    atRest t ∧ (t.osc o).fault = (s.osc o).fault
    ∧ (want = false ∨ 1 ≤ (s.osc o).budget → (t.osc o).state = .off ∨ (t.osc o).state = .starting)
    ∧ (want = false → (t.osc o).budget = (s.osc o).budget)
    ∧ (want = true → 1 ≤ (s.osc o).budget → (t.osc o).budget = (s.osc o).budget - 1
        ∧ ((s.osc o).cfg.keep = true → (t.osc o).state = .starting))
    ∧ (want = true → (s.osc o).budget = 0 → (t.osc o).budget = 0 ∧ (t.osc o).state = .lockedOut) := by
  intro want t
  have hv : (leaveQuarantine (envOf .ordinary s s) o ⟨s.clk, [], []⟩).osc o = (s.osc o).released o want s.tick :=
    osc_leaveQuarantine _ o _
  obtain ⟨⟨-, hb, hf⟩, hstuck, hst, hkeep, -⟩ := (calm_settle (envOf .ordinary s s)
    (leaveQuarantine (envOf .ordinary s s) o ⟨s.clk, [], []⟩)).osc o
  rw [← osc_runEvent .ordinary s s (fun e v => leaveQuarantine e o v), hv] at hb hf hstuck hst hkeep
  have hstop : want = false → (s.osc o).released o want s.tick = (s.osc o).stopped := fun hw => by
    rw [hw]; rfl
  have hcharge : want = true → 1 ≤ (s.osc o).budget → (s.osc o).released o want s.tick
      = ({ s.osc o with budget := (s.osc o).budget - 1 } : OscRec).started o s.tick := fun hw hp => by
    rw [hw, OscRec.released, if_pos rfl, if_neg (Nat.pos_iff_ne_zero.mp hp)]
  have hlock : want = true → (s.osc o).budget = 0 → (s.osc o).released o want s.tick
      = { s.osc o with state := .lockedOut, timer := none } := fun hw hz => by
    rw [hw, OscRec.released, if_pos rfl, if_pos hz]
  refine ⟨atRest_runEvent _ _ _ _ ((sound_leaveQuarantine _ (v := ⟨s.clk, [], []⟩) hs).outsOk ho), ?_, fun hw => ?_, fun hw => ?_,
    fun hw hp => ?_, fun hw hz => ?_⟩
  · rw [hf]
    unfold OscRec.released
    split
    · split <;> rfl
    · rfl
  · cases hwant : want with
    | false =>
      rw [hstop hwant] at hst
      exact hst.elim .inl id
    | true =>
      rw [hcharge hwant (hw.resolve_left (by rw [hwant]; simp))] at hst
      exact hst.elim .inr id
  · rw [hb, hstop hw]; rfl
  · rw [hcharge hw hp] at hb hkeep
    exact ⟨hb, fun hk => hkeep hk (by simp [OscRec.started])⟩
  · rw [hlock hw hz] at hstuck
    rw [hstuck (.inr (.inr rfl))]
    exact ⟨hz, rfl⟩

end

/-- Settles O37: the faulted records are stuck for the event's course (`failStart_effect`), and the end of a quarantine leaves the part at
rest, where STARTING stands for demand (`quarantine_ends`). -/
theorem quarantineEvents : Obligations.QuarantineEvents := by
  refine ⟨fun s hrun o due hs ht hd => ?_, fun s hrun ho o due hs ht hd => ?_⟩
  · obtain ⟨hself, hsyn⟩ := failStart_effect hs ht hd
    refine ⟨(failStart o (if o = .syn then .lock else .start) s).endEvent, ?_, ?_⟩
    · by_cases hsynOsc : o = .syn
      · subst hsynOsc
        exact congrArg Host.Outcome.next (whileRunning_eq hrun _)
      · rw [if_neg hsynOsc, if_neg hsynOsc]
        exact congrArg Host.Outcome.next (whileRunning_eq hrun _)
    · simp only [osc_endEvent, hself]
      exact ⟨rfl, rfl, rfl, rfl, rfl, fun hi hst => by rw [hsyn hi hst]; exact ⟨rfl, rfl⟩⟩
  · refine ⟨(expireQuarantine o s).endEvent, congrArg Host.Outcome.next (whileRunning_eq hrun _), ?_⟩
    rw [expireQuarantine_due hs ht hd]
    obtain ⟨hrest, hf, hst, hidle, hcharge, hlock⟩ := quarantine_ends hs ho
    have hrest' := (keeps_endEvent _).rest
      (Keeps.event .ordinary (f := fun e v => leaveQuarantine e o v) (fun e => sound_leaveQuarantine e hs) |>.outs ho) hrest
    refine ⟨by rw [osc_endEvent]; exact hf, fun hw => state_of_rest hrest' ?_, ?_, ?_, ?_⟩
    · rw [osc_endEvent]; exact hst hw
    · rw [osc_endEvent]; exact hidle
    · rw [osc_endEvent]; exact hcharge
    · rw [osc_endEvent]; exact hlock

end Sys2Proof.Machine
end

section
/-! PROOFS. LIVE after a cold start and after a warm restart (O59). -/

namespace Sys2Proof.Machine

/-! ### The notice queue as notices are posted -/

/-- A posted notice leaves the records that stand (R163). -/
theorem records_post (q : Notices) (tick : Tick) (p : Posting) : ∃ l, (q.post tick p).records = q.records ++ l := by
  unfold Notices.post
  split
  · exact ⟨[], by simp⟩
  · split
    · exact ⟨[], by simp⟩
    · exact ⟨_, rfl⟩

theorem records_postAll (s : State) (ps : List Posting) : ∃ l, (s.postAll ps).notices.records = s.notices.records ++ l := by
  induction ps generalizing s with
  | nil => exact ⟨[], by simp [State.postAll]⟩
  | cons p ps ih =>
    obtain ⟨l, hl⟩ := records_post s.notices s.tick p
    obtain ⟨m, hm⟩ := ih (s.post p)
    exact ⟨l ++ m, by rw [← List.append_assoc, ← hl]; exact hm⟩

theorem records_runEvent (cause : Cause) (s0 s : State) (f : Env → Ev → Ev) :
    ∃ l, (runEvent cause s0 s f).notices.records = s.notices.records ++ l :=
  records_postAll _ _

/-- With LTX idle in LIVE, no reply queued and no settling, the event ends with the oldest unsent notice on LTX (R156, R165). -/
theorem endEvent_notice {s : State} (hlive : s.isLive = true) (hset : s.settling = none) (hltx : s.link.onLtx = none)
    (hq : s.link.queued = []) {r : NoticeRec} {rest : List NoticeRec} (hr : s.notices.records = r :: rest) (hu : r.sent = false) :
    s.endEvent.notices.records = { r with sent := true } :: rest
    ∧ s.endEvent.link.onLtx = some ⟨frameBytes 0#8 0x7E#8 r.body, false, false⟩ := by
  have hts : s.testSettled = s := by rw [State.testSettled, hset]
  have htake : takeUnsent s.notices.records = some (r, { r with sent := true } :: rest) := by
    rw [hr, takeUnsent, hu]; rfl
  rw [State.endEvent, hts, State.transmit, hlive, hltx]
  simp only [hq, htake]
  exact ⟨rfl, rfl⟩

/-- A notice that passes the filter into an empty queue is its first record. -/
theorem records_post_cold {q : Notices} {tick : Tick} {p : Posting} (hq : q = ⟨[], 1#16, 0, q.filter⟩)
    (hp : p.kind = .started) : (q.post tick p).records = [⟨1#16, p.kind, tick, p.subject, p.details, false⟩] := by
  rw [post_entered (passes_iff.mpr (.inl hp)) (by rw [hq]; exact Nat.zero_lt_succ _), hq]
  rfl

/-! ### Lines at LIVE after a cold start (R97) -/

/-- A line's record as its pin is read at LIVE (R97). -/
def LineRec.readAt (r : LineRec) (high : Bool) : LineRec := ⟨r.set, high, decide (high = r.set.activeHigh), none⟩

/-- Reading a line's pin writes that line and the claims alone. -/
theorem readLine_eq (pins : Byte) (s : State) (l : Fin 8) : readLine pins s l = { s with
    lines := s.lines.set l ((s.line l).readAt (pins.getLsbD l.val)), claims := (readLine pins s l).claims } := by
  have hset : ∀ a b, (s.lines.set l a).set l b = s.lines.set l b := fun a b =>
    Bank8.ext_get fun i => by simp only [Bank8.get_set]; split <;> rfl
  have hread : ∀ on, decide (pins.getLsbD l.val = (s.line l).set.activeHigh) = on →
      (s.line l).readAt (pins.getLsbD l.val) = ⟨(s.line l).set, pins.getLsbD l.val, on, none⟩ := fun on h => by rw [LineRec.readAt, h]
  unfold readLine
  dsimp only
  split
  · rename_i h
    rw [hread true h]
    simp only [lineOn, State.putLine, State.line, Bank8.get_set, if_true, hset]
  · rename_i h
    rw [hread false (Bool.eq_false_iff.mpr h)]
    rfl

theorem readLines_eq (pins : Byte) (ls : List (Fin 8)) (s : State) : ls.foldl (readLine pins) s = { s with
    lines := (ls.foldl (readLine pins) s).lines, claims := (ls.foldl (readLine pins) s).claims } := by
  induction ls generalizing s with
  | nil => rfl
  | cons l ls ih =>
    rw [List.foldl_cons, ih, readLine_eq]

theorem line_readLines (pins : Byte) (ls : List (Fin 8)) (hn : ls.Nodup) (s : State) (l : Fin 8) :
    (ls.foldl (readLine pins) s).line l = if l ∈ ls then (s.line l).readAt (pins.getLsbD l.val) else s.line l := by
  induction ls generalizing s with
  | nil => simp
  | cons x ls ih =>
    obtain ⟨hx, hn'⟩ := List.nodup_cons.mp hn
    have hline : (readLine pins s x).line l = if l = x then (s.line x).readAt (pins.getLsbD x.val) else s.line l := by
      rw [readLine_eq]; exact Bank8.get_set ..
    rw [List.foldl_cons, ih hn', hline]
    by_cases h : l = x
    · subst h; simp [hx]
    · simp [h]

/-! ### LIVE after a cold start (R97, R120, R136) -/

theorem outputsStand_congr {s t : State} (hk : t.clk = s.clk) (hp : t.active = s.active) (hc : t.claims = s.claims)
    (h : outputsStand s) : outputsStand t := by
  intro o
  have ho := h o
  unfold State.out State.wants at ho ⊢
  rw [hk, hp, hc]
  exact ho

theorem outputsStand_endEvent {s : State} (h : outputsStand s) : outputsStand s.endEvent :=
  outputsStand_congr (State.clk_endEvent s) (active_congr (State.profiles_endEvent s) (State.stack_endEvent s))
    (State.claims_endEvent s) h

/-- The state that LIVE after a cold start evaluates: tick 0, STARTED posted, the lines read, the first survey begun. -/
def coldReady (pins : Byte) (s : State) : State :=
  let u := ({ enterLive (coldCause s.startup) s with tick := 0#32 } : State)
  let r := eight.foldl (readLine pins) (u.post (startedPosting u.startup.record))
  { r with clk := beginSurvey r.tick r.clk }

theorem liveCold_eq (pins : Byte) (s : State) : liveCold pins s = reevaluate .live (coldReady pins s) (coldReady pins s) := rfl

/-- What stands in it, but for claims and lines. -/
theorem coldReady_eq (pins : Byte) (s : State) : coldReady pins s =
    { s with
      clk := beginSurvey 0#32 s.clk
      tick := 0#32
      startup := (enterLive (coldCause s.startup) s).startup
      notices := s.notices.post 0#32 (startedPosting (enterLive (coldCause s.startup) s).startup.record)
      lines := (coldReady pins s).lines
      claims := (coldReady pins s).claims } := by
  unfold coldReady
  dsimp only
  rw [readLines_eq]
  rfl

theorem line_coldReady (pins : Byte) (s : State) (l : Fin 8) :
    (coldReady pins s).line l = (s.line l).readAt (pins.getLsbD l.val) :=
  (line_readLines pins eight (by decide) _ l).trans (if_pos (mem_eight l))

/-- The start record that LIVE after a cold start writes. -/
theorem record_coldReady (pins : Byte) (s : State) : (coldReady pins s).startup.record =
    ⟨if s.startup.supplyFell then .powerOn else .pin, s.startup.chosen.getD .builtIn⟩ := by
  rw [coldReady_eq]
  rfl

/-- From a cold queue, STARTED is the first record. -/
theorem records_coldReady (pins : Byte) {s : State} (hq : s.notices = ⟨[], 1#16, 0, s.notices.filter⟩) :
    (coldReady pins s).notices.records =
      [⟨1#16, .started, 0#32, 0#8, startBytes (coldReady pins s).startup.record, false⟩] := by
  rw [coldReady_eq]
  exact records_post_cold hq rfl

theorem exec_live {s : State} {pins : Byte} (h : s.startup.state = .apply) :
    exec (.live pins) s = .next (if s.startup.warm then liveWarm s else liveCold pins s).endEvent :=
  congrArg Host.Outcome.next (if_pos h)

/-- LIVE after a cold start, in the form of O59. -/
theorem liveCold_effect (pins : Byte) (s : State) :
    let t := (liveCold pins s).endEvent
    t.startup.state = .live ∧ t.tick = 0#32 ∧ t.clk.mon.surveyStart = 0#32
    ∧ t.startup.record = ⟨if s.startup.supplyFell then .powerOn else .pin, s.startup.chosen.getD .builtIn⟩
    ∧ t.startup.supplyFell = false ∧ outputsStand t ∧ gateLaw t.clk
    ∧ (∀ l, t.line l = (s.line l).readAt (pins.getLsbD l.val))
    ∧ (s.notices = ⟨[], 1#16, 0, s.notices.filter⟩ → s.settling = none → s.link.onLtx = none → s.link.queued = [] →
      ∃ rest, t.notices.records = ⟨1#16, .started, 0#32, 0#8, startBytes t.startup.record, true⟩ :: rest
        ∧ t.link.onLtx = some ⟨frameBytes 0#8 0x7E#8 (NoticeRec.body ⟨1#16, .started, 0#32, 0#8,
            startBytes t.startup.record, false⟩), false, false⟩) := by
  intro t
  have hstartup : t.startup = (coldReady pins s).startup := by
    rw [show t.startup = (liveCold pins s).startup from State.startup_endEvent _, liveCold_eq, startup_reevaluate]
  have htick : (coldReady pins s).tick = 0#32 := by rw [coldReady_eq]
  have hclk : t.clk = (reevaluate .live (coldReady pins s) (coldReady pins s)).clk := by
    rw [show t.clk = (liveCold pins s).clk from State.clk_endEvent _, liveCold_eq]
  have hsurvey : (coldReady pins s).clk.mon.surveyStart = 0#32 := by rw [coldReady_eq]; rfl
  refine ⟨?_, ?_, ?_, ?_, ?_, ?_, ?_, fun l => ?_, fun hq hset hltx hqueue => ?_⟩
  · rw [hstartup, coldReady_eq]; rfl
  · rw [show t.tick = (liveCold pins s).tick from State.tick_endEvent _, liveCold_eq, tick_reevaluate, htick]
  · rw [hclk, ← hsurvey]
    exact (calm_reevaluate .live (coldReady pins s) (coldReady pins s)).survey.2
  · rw [hstartup, record_coldReady]
  · rw [hstartup, coldReady_eq]; rfl
  · exact outputsStand_endEvent (outputsStand_reevaluate _ _ _)
  · rw [hclk]; exact gateLaw_reevaluate _ _ _
  · rw [State.line, show t.lines = (liveCold pins s).lines from State.lines_endEvent _, liveCold_eq, lines_reevaluate]
    exact line_coldReady pins s l
  · obtain ⟨more, hmore⟩ := records_runEvent .live (coldReady pins s) (coldReady pins s) fun _ v => v
    rw [records_coldReady pins hq] at hmore
    have hend := endEvent_notice (s := liveCold pins s) ?_ ?_ ?_ ?_ hmore rfl
    · rw [hstartup]
      exact ⟨more, hend⟩
    · rw [State.isLive, liveCold_eq, startup_reevaluate, coldReady_eq]; rfl
    · rw [liveCold_eq, settling_reevaluate, coldReady_eq]; exact hset
    · rw [liveCold_eq, link_reevaluate, coldReady_eq]; exact hltx
    · rw [liveCold_eq, link_reevaluate, coldReady_eq]; exact hqueue

/-! ### Pins of outputs through an event -/

section
variable {e : Env} {c : Sources} {o : Fin 8} {r : OutRec}

@[simp] theorem pin_afterSelect (pl : Option Place) : (afterSelect e c o r pl).pin = r.pin := by
  unfold afterSelect
  split <;> rfl

@[simp] theorem pin_actClosed (p : Pick) : (actClosed e r p).pin = r.pin := by cases p <;> rfl

@[simp] theorem pin_actRunning (p : Pick) : (actRunning e r p).pin = r.pin := by
  unfold actRunning
  split
  · split <;> rfl
  all_goals rfl

@[simp] theorem pin_actAcquire (p : Pick) : (actAcquire e r p).pin = r.pin := by
  unfold actAcquire
  split
  · split <;> rfl
  · exact pin_actClosed _

/-- Selection sets no pin (R74). -/
theorem pin_select_none (h : r.pin = none) : (select e c o r).out.pin = none := by
  obtain ⟨p, v, hout, hp⟩ := select_out e c o r
  rw [hout]
  exact hp.elim (fun hp => hp.trans h) id

theorem pin_selectClosed (was : OutRec) (why : OutReason) (again : Bool) (h : r.pin = none) :
    (selectClosed e c o was r why again).1.pin = none :=
  (pin_afterSelect _).trans ((pin_actClosed _).trans (pin_select_none h))

/-- An evaluation sets no pin. -/
theorem pin_evalOut (h : r.pin = none) : (evalOut e c o r).1.pin = none := by
  unfold evalOut
  dsimp only
  split
  · split
    · exact pin_selectClosed _ _ _ h
    · exact h
  · split
    · split
      · exact h
      · split
        · exact pin_selectClosed _ _ _ h
        · exact h
    · split
      · exact pin_selectClosed _ _ _ h
      · split <;> exact h
    · split
      · exact pin_selectClosed _ _ _ h
      · exact h
    · split
      · exact pin_selectClosed _ _ _ h
      · exact h
    · split
      · exact (pin_afterSelect _).trans ((pin_actRunning _).trans (pin_select_none h))
      · exact h
    · split
      · exact h
      · split
        · exact (pin_afterSelect _).trans (pin_select_none h)
        · exact (pin_afterSelect _).trans (pin_select_none h)
    · split
      · exact h
      · split
        · exact (pin_afterSelect _).trans ((pin_actAcquire _).trans (pin_select_none h))
        · exact pin_selectClosed _ _ _ h

end

theorem pin_outputsPass {e : Env} {v : Ev} {o : Fin 8} (h : (v.clk.outs.get o).pin = none) :
    ((outputsPass e v).clk.outs.get o).pin = none := by
  rw [(outputsPass_get e v o).2]
  exact pin_evalOut h

theorem pin_settleRounds {e : Env} {o : Fin 8} (n : Nat) {v : Ev} (h : (v.clk.outs.get o).pin = none) :
    ((settleRounds e n v).clk.outs.get o).pin = none := by
  induction n generalizing v with
  | zero => exact pin_outputsPass h
  | succ n ih =>
    have hp := pin_outputsPass (e := e) h
    rw [settleRounds]
    split
    · exact ih (by rw [outs_demandPass]; exact hp)
    · rw [outs_demandPass]; exact hp

/-! ### LIVE after a warm restart (R21, R38, R62, R98, R146) -/

/-- The state that LIVE after a warm restart evaluates: the chosen configuration applied, and STARTED posted. -/
def warmReady (s : State) : State :=
  let c := chosenConfig s.image s.chosen
  let u := enterLive .restart (applyWarm c.1 c.2 s)
  u.post (startedPosting u.startup.record)

theorem liveWarm_eq (s : State) : liveWarm s =
    runEvent (.restart (stillWanted s) s.clk) s (warmReady s) (restartSources s.clk.src.syn) := rfl

theorem settings_clocksRestarted (c : BoardConfig) (tick : Tick) (k : Clocks) :
    (clocksRestarted c tick k).mon.settings = c.monitor := by
  unfold clocksRestarted Clocks.withMonitor
  dsimp only
  split <;> rfl

/-- A source before the evaluation of a warm restart: out of LOCKED_OUT, and a SYN with new settings restarted. -/
theorem osc_restartSources (old : SynConfig) (e : Env) (v : Ev) (o : Osc) :
    ((restartSources old e v).osc o).cfg = (v.osc o).cfg ∧ ((restartSources old e v).osc o).budget = (v.osc o).budget
    ∧ ((restartSources old e v).osc o).fault = (v.osc o).fault ∧ ((restartSources old e v).osc o).state ≠ .lockedOut := by
  have hstop : ((oscs.foldl stopLockedOut v).osc o).cfg = (v.osc o).cfg
      ∧ ((oscs.foldl stopLockedOut v).osc o).budget = (v.osc o).budget
      ∧ ((oscs.foldl stopLockedOut v).osc o).fault = (v.osc o).fault
      ∧ ((oscs.foldl stopLockedOut v).osc o).state ≠ .lockedOut := by
    rw [osc_stopLockedOuts]
    split
    · exact ⟨rfl, rfl, rfl, by simp [OscRec.stopped]⟩
    · rename_i h; exact ⟨rfl, rfl, rfl, h⟩
  rw [restartSources_eq]
  generalize oscs.foldl stopLockedOut v = w at hstop ⊢
  split
  · rw [osc_enterStarting]
    split
    · rename_i ho; subst ho
      obtain ⟨hc, hb, hf, -⟩ := hstop
      exact ⟨hc, hb, hf, by simp [OscRec.started]⟩
    · exact hstop
  · exact hstop

theorem outs_restartSources (old : SynConfig) (e : Env) (v : Ev) : (restartSources old e v).clk.outs = v.clk.outs := by
  have hone : ∀ (w : Ev) (o : Osc), (stopLockedOut w o).clk.outs = w.clk.outs := fun w o => by
    unfold stopLockedOut
    split <;> rfl
  have hall : (oscs.foldl stopLockedOut v).clk.outs = v.clk.outs := by
    simp only [oscs, List.foldl_cons, List.foldl_nil, hone]
  rw [restartSources_eq]
  split
  · rw [enterStarting, Ev.outs_clearCounts, Ev.outs_changeOsc, hall]
  · exact hall

/-- A claim of the restarted line, or one that stood before, none of the line's unless it is active (step 4 of R98). -/
theorem mem_lineRestarted {tick : Tick} {ls : Bank8 LineRec} {cs : List Claim} {l : Fin 8} {x : Claim}
    (h : x ∈ lineRestarted tick ls cs l) :
    (x.claimant = .line l → (ls.get l).active = true)
    ∧ (x.claimant = .line l ∨ ∃ y ∈ cs, y.claimant = x.claimant) := by
  unfold lineRestarted at h
  dsimp only at h
  split at h
  · rename_i hact
    refine ⟨fun _ => hact, ?_⟩
    have hkey := List.mem_map_of_mem (f := Claim.key) (mem_trimPairs.mp h).1
    rcases (mem_keys_addPairs ..).mp hkey with hk | ⟨p, -, hk⟩
    · obtain ⟨y, hy, hyk⟩ := List.mem_map.mp hk
      exact .inr ⟨y, hy, congrArg Prod.fst hyk⟩
    · exact .inl (congrArg Prod.fst hk)
  · obtain ⟨hx, hne⟩ := List.mem_filter.mp h
    exact ⟨fun hl => absurd hl (of_decide_eq_true hne), .inr ⟨x, hx, rfl⟩⟩

/-- After the lines of `ks` are restarted, a claim is one of their active lines', or of a claimant that stood before and is none
of theirs unless active. -/
theorem mem_linesRestarted {tick : Tick} {ls : Bank8 LineRec} (ks : List (Fin 8)) {cs : List Claim} {x : Claim}
    (h : x ∈ ks.foldl (lineRestarted tick ls) cs) :
    (∀ l ∈ ks, x.claimant = .line l → (ls.get l).active = true)
    ∧ ((∃ l ∈ ks, x.claimant = .line l) ∨ ∃ y ∈ cs, y.claimant = x.claimant) := by
  induction ks generalizing cs with
  | nil => exact ⟨nofun, .inr ⟨x, h, rfl⟩⟩
  | cons k ks ih =>
    obtain ⟨hact, horig⟩ := ih h
    rcases horig with ⟨l, hl, hx⟩ | ⟨y, hy, hyx⟩
    · have hal := hact l hl hx
      refine ⟨fun m hm hxm => ?_, .inl ⟨l, List.mem_cons_of_mem _ hl, hx⟩⟩
      rw [hx] at hxm
      cases hxm
      exact hal
    · obtain ⟨hk, hfrom⟩ := mem_lineRestarted hy
      rw [hyx] at hk hfrom
      refine ⟨fun m hm hxm => ?_, ?_⟩
      · rcases List.mem_cons.mp hm with rfl | hm
        · exact hk hxm
        · exact hact m hm hxm
      · exact hfrom.imp_left fun hx => ⟨k, List.mem_cons_self .., hx⟩

/-- Only active lines hold claims after a warm restart (R98). -/
theorem claims_warmReady {s : State} {x : Claim} (h : x ∈ (warmReady s).claims) :
    ∃ l, x.claimant = .line l ∧ ((warmReady s).line l).active = true := by
  obtain ⟨hact, horig⟩ := mem_linesRestarted eight h
  rcases horig with ⟨l, hl, hx⟩ | ⟨y, hy, hyx⟩
  · exact ⟨l, hx, hact l hl hx⟩
  · have hline := (List.mem_filter.mp hy).2
    cases hc : y.claimant with
    | soft n => rw [hc] at hline; cases hline
    | line l =>
      have hx := hyx.symm.trans hc
      exact ⟨l, hx, hact l (mem_eight l) hx⟩

/-- Outside clocks, settling, link and notices the event ends with what it has made ready. -/
theorem fields_liveWarm (s : State) :
    let c := chosenConfig s.image s.chosen
    let t := (liveWarm s).endEvent
    t.startup.state = .live ∧ t.startup.record = ⟨.restart, s.chosen⟩ ∧ t.tick = s.tick
    ∧ t.chains = c.1.chains ∧ t.profiles = c.1.profiles ∧ t.stack = ⟨[], c.2⟩ ∧ t.notices.filter = c.1.filter
    ∧ t.claims = (warmReady s).claims ∧ t.lines = (warmReady s).lines := by
  dsimp only
  rw [State.startup_endEvent, State.tick_endEvent, State.chains_endEvent, State.profiles_endEvent, State.stack_endEvent,
    State.claims_endEvent, State.lines_endEvent, State.filter_endEvent, liveWarm_eq, startup_runEvent, tick_runEvent,
    chains_runEvent, profiles_runEvent, stack_runEvent, claims_runEvent, lines_runEvent, filter_runEvent]
  exact ⟨rfl, rfl, rfl, rfl, rfl, rfl, Notices.filter_post .., rfl, rfl⟩

/-- The clocks after it: the chosen configuration with full budgets, nothing locked out, refused sets and pins empty (R21, R38, R62). -/
theorem clocks_liveWarm (s : State) :
    let c := (chosenConfig s.image s.chosen).1
    (∀ o, ((liveWarm s).osc o).cfg = c.osc.get o ∧ ((liveWarm s).osc o).budget = (c.osc.get o).retryCount
      ∧ ((liveWarm s).osc o).state ≠ .lockedOut ∧ ((liveWarm s).osc o).fault = (s.osc o).fault)
    ∧ (∀ o, ((liveWarm s).out o).cfg = c.outs.get o ∧ ((liveWarm s).out o).refused = [] ∧ ((liveWarm s).out o).pin = none)
    ∧ (liveWarm s).clk.mon.settings = c.monitor := by
  intro c
  have hready : (warmReady s).clk = clocksRestarted c s.tick s.clk := rfl
  obtain ⟨hosc, -, -, hout⟩ := get_clocksRestarted c s.tick s.clk
  have hsettings := settings_clocksRestarted c s.tick s.clk
  rw [← hready] at hosc hout hsettings
  have hrun := clk_runEvent (.restart (stillWanted s) s.clk) s (warmReady s) (restartSources s.clk.src.syn)
  rw [← liveWarm_eq] at hrun
  generalize envOf (.restart (stillWanted s) s.clk) s (warmReady s) = e at hrun
  generalize hv : Ev.mk (warmReady s).clk [] [] = v at hrun
  have hk : v.clk = (warmReady s).clk := by rw [← hv]
  have hcalm := calm_settle e (restartSources s.clk.src.syn e v)
  refine ⟨fun o => ?_, fun o => ?_, ?_⟩
  · obtain ⟨hc, hb, hf, hl⟩ := osc_restartSources s.clk.src.syn e v o
    have hvo : v.osc o = (s.clk.src.osc.get o).restarted (c.osc.get o) := by rw [Ev.osc, hk, hosc]
    rw [hvo] at hc hb hf
    obtain ⟨⟨hc', hb', hf'⟩, -, hst, -⟩ := hcalm.osc o
    rw [show (liveWarm s).osc o = (settle e (restartSources s.clk.src.syn e v)).osc o from
      congrArg (fun k => k.src.osc.get o) hrun]
    refine ⟨hc'.trans hc, hb'.trans hb, fun hlock => ?_, hf'.trans hf⟩
    rw [hlock] at hst
    rcases hst with hst | hst | hst
    · exact hl hst.symm
    · cases hst
    · cases hst
  · rw [State.out, hrun, hcalm.outCfg, hcalm.refused, outs_restartSources, hk, hout]
    refine ⟨rfl, rfl, pin_settleRounds 8 ?_⟩
    rw [outs_restartSources, hk, hout]
    rfl
  · rw [hrun, hcalm.settings, (sound_restartSources _ _ _).settings, hk]
    exact hsettings

/-- LIVE after a warm restart, in the form of O59. -/
theorem liveWarm_effect (s : State) :
    let c := chosenConfig s.image s.chosen
    let t := (liveWarm s).endEvent
    t.startup.state = .live ∧ t.tick = s.tick ∧ t.startup.record = ⟨.restart, s.chosen⟩
    ∧ (∀ o, (t.osc o).cfg = c.1.osc.get o ∧ (t.osc o).budget = (c.1.osc.get o).retryCount
        ∧ (t.osc o).state ≠ .lockedOut ∧ (t.osc o).fault = (s.osc o).fault)
    ∧ (∀ o, (t.out o).cfg = c.1.outs.get o ∧ (t.out o).refused = [] ∧ (t.out o).pin = none)
    ∧ t.chains = c.1.chains ∧ t.profiles = c.1.profiles ∧ t.stack = ⟨[], c.2⟩ ∧ t.notices.filter = c.1.filter
    ∧ (∀ x ∈ t.claims, ∃ l, x.claimant = .line l ∧ (t.line l).active = true)
    ∧ (∀ l, t.line l = ⟨c.1.lines.get l, (s.line l).pinHigh, decide ((s.line l).pinHigh = (c.1.lines.get l).activeHigh), none⟩)
    ∧ t.clk.mon.settings = c.1.monitor ∧ outputsStand t ∧ gateLaw t.clk := by
  obtain ⟨hstate, hrecord, htick, hchains, hprofiles, hstack, hfilter, hclaims, hlines⟩ := fields_liveWarm s
  obtain ⟨hosc, hout, hsettings⟩ := clocks_liveWarm s
  have hclk := State.clk_endEvent (liveWarm s)
  refine ⟨hstate, htick, hrecord, fun o => ?_, fun o => ?_, hchains, hprofiles, hstack, hfilter, fun x hx => ?_, fun l => ?_,
    ?_, ?_, ?_⟩
  · rw [osc_endEvent]; exact hosc o
  · rw [State.out, hclk]; exact hout o
  · rw [hclaims] at hx
    have hline : ∀ l, (liveWarm s).endEvent.line l = (warmReady s).line l := fun l => congrArg (fun ls => ls.get l) hlines
    obtain ⟨l, hl, hactive⟩ := claims_warmReady hx
    exact ⟨l, hl, by rw [hline]; exact hactive⟩
  · have hget := congrArg (fun ls => ls.get l) hlines
    exact hget.trans (Bank8.get_mapIdx ..)
  · rw [hclk]; exact hsettings
  · rw [liveWarm_eq]; exact outputsStand_endEvent (outputsStand_runEvent _ _ _ _)
  · rw [hclk, liveWarm_eq]; exact gateLaw_runEvent _ _ _ _

/-- Settles O59: the states that LIVE evaluates after a cold start and after a warm restart (`coldReady`, `warmReady`), and what the
evaluation keeps of them. -/
theorem liveRule : Obligations.LiveRule := by
  refine ⟨fun s pins ha hw => ?_, fun s pins ha hw => ?_⟩
  · refine ⟨(liveCold pins s).endEvent, by rw [exec_live ha, hw]; rfl, ?_⟩
    obtain ⟨hlive, htick, hsurvey, hrec, hfell, hstand, hgate, hline, hnote⟩ := liveCold_effect pins s
    exact ⟨hlive, htick, hsurvey, hrec, hfell, hstand, hgate, fun l => by rw [hline]; exact ⟨rfl, rfl, rfl, rfl⟩, hnote⟩
  · exact ⟨(liveWarm s).endEvent, by rw [exec_live ha, hw]; rfl, liveWarm_effect s⟩

end Sys2Proof.Machine
end

section
/-! PROOFS. What the completion of a survey records, judges and delivers (O38). Three facts are carried through its steps: which of the
monitor's records stay (`Ev.RecordsKept`), that a mark goes with the monitored states (`Ev.Paced`), and how a monitored source stands
(`Ev.StandsAs`). -/

namespace Sys2Proof.Machine

/-! ### Marks and counts through an event's course -/

/-- A source that stops or starts loses its mark (R32); any other keeps its monitor record. -/
def Ev.Paced (o : Osc) (v w : Ev) : Prop :=
  (w.clk.mon.osc.get o = v.clk.mon.osc.get o ∧ (w.osc o).state = (v.osc o).state)
  ∨ ((w.clk.mon.osc.get o).mark = false ∧ ((w.osc o).state = .off ∨ (w.osc o).state = .starting))

theorem Ev.Paced.refl (o : Osc) (v : Ev) : v.Paced o v := .inl ⟨rfl, rfl⟩

theorem Ev.Paced.trans {o : Osc} {u v w : Ev} (h : u.Paced o v) (g : v.Paced o w) : u.Paced o w := by
  rcases g with ⟨gm, gs⟩ | g
  · rcases h with ⟨hm, hs⟩ | h
    · exact .inl ⟨gm.trans hm, gs.trans hs⟩
    · right
      rw [gm, gs]
      exact h
  · exact .inr g

theorem Ev.Paced.foldl {α : Type} {o : Osc} {f : Ev → α → Ev} (h : ∀ (v : Ev) (a : α), v.Paced o (f v a)) (l : List α) (v : Ev) :
    v.Paced o (l.foldl f v) := by
  induction l generalizing v with
  | nil => exact Ev.Paced.refl o v
  | cons a l ih => exact (h v a).trans (ih _)

theorem mon_clearCounts (v : Ev) (o x : Osc) :
    (v.clearCounts o).clk.mon.osc.get x = if x = o then (v.clk.mon.osc.get o).cleared else v.clk.mon.osc.get x :=
  BankOsc.get_set ..

/-- A change of state with the counts cleared, into OFF or STARTING. -/
theorem paced_changeCleared {o x : Osc} {v : Ev} {r : OscRec} (hr : r.state = .off ∨ r.state = .starting) :
    v.Paced o ((v.changeOsc x r).clearCounts x) := by
  by_cases hx : o = x
  · right
    rw [mon_clearCounts, if_pos hx, Ev.osc_clearCounts, Ev.osc_changeOsc, if_pos hx]
    exact ⟨rfl, hr⟩
  · left
    rw [mon_clearCounts, if_neg hx, Ev.osc_clearCounts, Ev.osc_changeOsc, if_neg hx]
    exact ⟨rfl, rfl⟩

theorem paced_applyDemand (o : Osc) (e : Env) (want : BankOsc Bool) (v : Ev) (x : Osc) : v.Paced o (applyDemand e want v x) := by
  unfold applyDemand
  split
  · exact paced_changeCleared (.inr rfl)
  · split
    · exact paced_changeCleared (.inl rfl)
    · exact Ev.Paced.refl o v

theorem paced_lockCheck (o : Osc) (e : Env) (v : Ev) : v.Paced o (lockCheck e v) := by
  unfold lockCheck
  dsimp only
  split
  · refine .inl ⟨rfl, ?_⟩
    rw [Ev.osc_putOsc]
    split
    next ho => rw [ho]
    next => rfl
  · exact Ev.Paced.refl o v

theorem paced_outputsPass (o : Osc) (e : Env) (v : Ev) : v.Paced o (outputsPass e v) :=
  Ev.Paced.foldl (fun _ _ => .inl ⟨rfl, rfl⟩) eight v

theorem paced_demandPass (o : Osc) (e : Env) (v : Ev) : v.Paced o (demandPass e v) :=
  (Ev.Paced.foldl (paced_applyDemand o e _) oscsSynFirst v).trans (paced_lockCheck o e _)

theorem paced_settleRounds (o : Osc) (e : Env) (n : Nat) (v : Ev) : v.Paced o (settleRounds e n v) := by
  induction n generalizing v with
  | zero => exact paced_outputsPass o e v
  | succ n ih =>
    have hround := (paced_outputsPass o e v).trans (paced_demandPass o e _)
    unfold settleRounds
    dsimp only
    split
    · exact hround.trans (ih _)
    · exact hround

theorem paced_settle (o : Osc) (e : Env) (v : Ev) : v.Paced o (settle e v) := paced_settleRounds o e 8 v

/-- A mark that goes with the monitored states still does after the course. -/
theorem mark_settle {e : Env} {v : Ev} {o : Osc} (h : (v.clk.mon.osc.get o).mark = monitored (v.osc o).state) :
    ((settle e v).clk.mon.osc.get o).mark = monitored ((settle e v).osc o).state := by
  rcases paced_settle o e v with ⟨hm, hs⟩ | ⟨hm, hs | hs⟩
  · rw [hm, hs, h]
  · rw [hm, hs]; rfl
  · rw [hm, hs]; rfl

/-! ### The records that stay -/

/-- Survey number and begin, and of every source the last capture with its result, counter and expected count stay. -/
structure Ev.RecordsKept (v w : Ev) : Prop where
  survey : w.clk.mon.surveyNumber = v.clk.mon.surveyNumber ∧ w.clk.mon.surveyStart = v.clk.mon.surveyStart
  mon : ∀ o, (w.clk.mon.osc.get o).last = (v.clk.mon.osc.get o).last
    ∧ (w.clk.mon.osc.get o).lastResult = (v.clk.mon.osc.get o).lastResult
    ∧ (w.clk.mon.osc.get o).edges = (v.clk.mon.osc.get o).edges
    ∧ (w.clk.mon.osc.get o).expected = (v.clk.mon.osc.get o).expected

/-- RCO and its monitor record stay. -/
def Ev.RcoKept (v w : Ev) : Prop := w.clk.src.rco = v.clk.src.rco ∧ w.clk.mon.rco = v.clk.mon.rco

theorem Ev.RecordsKept.refl (v : Ev) : v.RecordsKept v := ⟨⟨rfl, rfl⟩, fun _ => ⟨rfl, rfl, rfl, rfl⟩⟩

theorem Ev.RecordsKept.trans {u v w : Ev} (h : u.RecordsKept v) (g : v.RecordsKept w) : u.RecordsKept w := by
  refine ⟨⟨g.survey.1.trans h.survey.1, g.survey.2.trans h.survey.2⟩, fun o => ?_⟩
  obtain ⟨hl, hr, he, hx⟩ := h.mon o
  obtain ⟨gl, gr, ge, gx⟩ := g.mon o
  exact ⟨gl.trans hl, gr.trans hr, ge.trans he, gx.trans hx⟩

theorem Ev.RcoKept.trans {u v w : Ev} (h : u.RcoKept v) (g : v.RcoKept w) : u.RcoKept w :=
  ⟨g.1.trans h.1, g.2.trans h.2⟩

theorem Ev.Calm.recordsKept {v w : Ev} (h : v.Calm w) : v.RecordsKept w := ⟨h.survey, h.mon⟩
theorem Ev.Calm.rcoKept {v w : Ev} (h : v.Calm w) : v.RcoKept w := ⟨h.rco, h.monRco⟩

/-- The good, bad and verify counts of a source. -/
def Ev.counts (v : Ev) (o : Osc) : Nat × Nat × Nat :=
  ((v.clk.mon.osc.get o).good, (v.clk.mon.osc.get o).bad, (v.clk.mon.osc.get o).verify)

/-- Outside the sources' records a step writes at most whole-survey marks. -/
structure Ev.MarksOnly (v w : Ev) : Prop where
  rco : v.RcoKept w
  survey : w.clk.mon.surveyNumber = v.clk.mon.surveyNumber ∧ w.clk.mon.surveyStart = v.clk.mon.surveyStart
  mon : ∀ o, (w.clk.mon.osc.get o).unmarked = (v.clk.mon.osc.get o).unmarked

theorem Ev.MarksOnly.refl (v : Ev) : v.MarksOnly v := ⟨⟨rfl, rfl⟩, ⟨rfl, rfl⟩, fun _ => rfl⟩

theorem Ev.MarksOnly.trans {u v w : Ev} (h : u.MarksOnly v) (g : v.MarksOnly w) : u.MarksOnly w :=
  ⟨h.rco.trans g.rco, ⟨g.survey.1.trans h.survey.1, g.survey.2.trans h.survey.2⟩, fun o => (g.mon o).trans (h.mon o)⟩

theorem Ev.MarksOnly.foldl {α : Type} {f : Ev → α → Ev} (h : ∀ (v : Ev) (a : α), v.MarksOnly (f v a)) (l : List α) (v : Ev) :
    v.MarksOnly (l.foldl f v) := by
  induction l generalizing v with
  | nil => exact Ev.MarksOnly.refl v
  | cons a l ih => exact (h v a).trans (ih _)

/-- Of a monitor record all but the mark stays. -/
theorem Ev.MarksOnly.fields {v w : Ev} (h : v.MarksOnly w) (o : Osc) :
    ((w.clk.mon.osc.get o).last = (v.clk.mon.osc.get o).last
      ∧ (w.clk.mon.osc.get o).lastResult = (v.clk.mon.osc.get o).lastResult
      ∧ (w.clk.mon.osc.get o).edges = (v.clk.mon.osc.get o).edges
      ∧ (w.clk.mon.osc.get o).expected = (v.clk.mon.osc.get o).expected)
    ∧ w.counts o = v.counts o := by
  have hm := h.mon o
  simp only [OscMonitor.unmarked, OscMonitor.mk.injEq] at hm
  obtain ⟨hexp, -, hedges, hgood, hbad, hver, hlast, hres⟩ := hm
  exact ⟨⟨hlast, hres, hedges, hexp⟩, by rw [Ev.counts, Ev.counts, hgood, hbad, hver]⟩

theorem Ev.MarksOnly.recordsKept {v w : Ev} (h : v.MarksOnly w) : v.RecordsKept w := ⟨h.survey, fun o => (h.fields o).1⟩
theorem Ev.MarksOnly.counts {v w : Ev} (h : v.MarksOnly w) (o : Osc) : w.counts o = v.counts o := (h.fields o).2

theorem marksOnly_markFaulted (v : Ev) (f : Osc × FaultKind) : v.MarksOnly (markFaulted v f) := by
  refine ⟨⟨rfl, rfl⟩, ⟨rfl, rfl⟩, fun o => ?_⟩
  have hget : (markFaulted v f).clk.mon.osc.get o = if o = f.1 then (v.clk.mon.osc.get f.1).unmarked else v.clk.mon.osc.get o :=
    BankOsc.get_set ..
  rw [hget]
  split
  next ho => rw [ho]; rfl
  next => rfl

theorem marksOnly_faultAll (e : Env) (fs : List (Osc × FaultKind)) (v : Ev) : v.MarksOnly (faultAll e fs v) := by
  unfold faultAll
  split
  · exact Ev.MarksOnly.refl v
  · refine (Ev.MarksOnly.foldl marksOnly_markFaulted fs v).trans (Ev.MarksOnly.trans ?_ (Ev.MarksOnly.foldl (fun w f => ?_) fs _))
    · exact Ev.MarksOnly.foldl (f := Ev.evalOne e) (fun _ _ => ⟨⟨rfl, rfl⟩, ⟨rfl, rfl⟩, fun _ => rfl⟩) eight _
    · exact ⟨⟨rfl, rfl⟩, ⟨rfl, rfl⟩, fun _ => rfl⟩

theorem marksOnly_fault (e : Env) (o : Osc) (k : FaultKind) (v : Ev) : v.MarksOnly (fault e o k v) := marksOnly_faultAll e _ v
theorem marksOnly_loseInput (e : Env) (s : Src) (v : Ev) : v.MarksOnly (loseInput e s v) := marksOnly_faultAll e _ v
theorem marksOnly_enterRunning (e : Env) (o : Osc) (v : Ev) : v.MarksOnly (enterRunning e o v) :=
  ⟨⟨rfl, rfl⟩, ⟨rfl, rfl⟩, fun _ => rfl⟩
theorem marksOnly_enterSuspect (o : Osc) (v : Ev) : v.MarksOnly (enterSuspect o v) := ⟨⟨rfl, rfl⟩, ⟨rfl, rfl⟩, fun _ => rfl⟩

/-- What a verdict can come to (R30): nothing, or, in a monitored state, one of three changes and the course that follows. -/
theorem deliver_cases {P : Ev → Prop} {e : Env} {v : Ev} {o : Osc} (vd : Option Verdict) (discarded : P v)
    (acted : monitored (v.osc o).state = true →
      P (settle e (enterRunning e o v)) ∧ P (settle e (enterSuspect o v)) ∧ ∀ k, P (settle e (fault e o k v))) :
    P (deliver e v (o, vd)) := by
  have hmon : ∀ {st}, (v.osc o).state = st → monitored st = true → monitored (v.osc o).state = true := fun h hm => by rw [h, hm]
  unfold deliver
  split
  next hst => exact (acted (hmon hst rfl)).1
  next hst => exact (acted (hmon hst rfl)).2.1
  next hst => exact (acted (hmon hst rfl)).1
  next hst => exact (acted (hmon hst rfl)).2.2 _
  next hst => exact (acted (hmon hst rfl)).2.2 _
  next hst => exact (acted (hmon hst rfl)).2.2 _
  next => exact discarded

theorem kept_deliver (e : Env) (v : Ev) (x : Osc × Option Verdict) :
    v.RecordsKept (deliver e v x) ∧ v.RcoKept (deliver e v x) := by
  have hsettle : ∀ {w : Ev}, v.MarksOnly w → v.RecordsKept (settle e w) ∧ v.RcoKept (settle e w) := fun h =>
    ⟨h.recordsKept.trans (calm_settle e _).recordsKept, h.rco.trans (calm_settle e _).rcoKept⟩
  exact deliver_cases (P := fun w => v.RecordsKept w ∧ v.RcoKept w) x.2 ⟨Ev.RecordsKept.refl v, rfl, rfl⟩ fun _ =>
    ⟨hsettle (marksOnly_enterRunning e _ v), hsettle (marksOnly_enterSuspect _ v), fun k => hsettle (marksOnly_fault e _ k v)⟩

theorem kept_delivers (e : Env) (l : List (Osc × Option Verdict)) (v : Ev) :
    v.RecordsKept (l.foldl (deliver e) v) ∧ v.RcoKept (l.foldl (deliver e) v) := by
  induction l generalizing v with
  | nil => exact ⟨Ev.RecordsKept.refl v, rfl, rfl⟩
  | cons x l ih =>
    obtain ⟨hrec, hrco⟩ := kept_deliver e v x
    obtain ⟨irec, irco⟩ := ih (deliver e v x)
    exact ⟨hrec.trans irec, hrco.trans irco⟩

end Sys2Proof.Machine
end

section
/-! PROOFS. How a monitored source stands at each step of the completion of a survey (O38). -/

namespace Sys2Proof.Machine

/-- The source that drives SYN's input is lost for the rest of the event (R7). -/
def Ev.LostInput (v : Ev) : Prop :=
  match synInputSrc v.clk.src.syn.input with
  | .rco => v.clk.src.rco.state = .faulted
  | .osc x => (v.osc x).state = .quarantined

/-- The source, not kept, is stopped or started anew for want of demand (R4). -/
def Ev.Stopped (v : Ev) (o : Osc) : Prop :=
  (v.osc o).cfg.keep = false ∧ ((v.osc o).state = .off ∨ (v.osc o).state = .starting)

/-- The source has the record `r` and the counts `c`, unless it is SYN without its input, or stopped. -/
def Ev.StandsAs (v : Ev) (o : Osc) (r : OscRec) (c : Nat × Nat × Nat) : Prop :=
  (o = .syn ∧ v.LostInput) ∨ v.Stopped o ∨ (v.osc o = r ∧ v.counts o = c)

section
variable {e : Env} {v w : Ev} {o : Osc} {r : OscRec} {c : Nat × Nat × Nat}

/-! ### The lost input -/

theorem Ev.LostInput.of_rco (h : v.LostInput) (hin : synInputSrc v.clk.src.syn.input = .rco) : v.clk.src.rco.state = .faulted := by
  unfold Ev.LostInput at h
  rwa [hin] at h

theorem Ev.LostInput.of_osc {x : Osc} (h : v.LostInput) (hin : synInputSrc v.clk.src.syn.input = .osc x) :
    (v.osc x).state = .quarantined := by
  unfold Ev.LostInput at h
  rwa [hin] at h

/-- Losing the input lasts: QUARANTINED and a faulted RCO are not left within an event. -/
theorem Ev.LostInput.mono (h : v.LostInput) (hsyn : w.clk.src.syn = v.clk.src.syn) (hrco : w.clk.src.rco = v.clk.src.rco)
    (hq : ∀ x, (v.osc x).state = .quarantined → (w.osc x).state = .quarantined) : w.LostInput := by
  unfold Ev.LostInput at h ⊢
  rw [hsyn]
  split at h
  · rw [hrco]; exact h
  · exact hq _ h

theorem lost_settle (e : Env) (h : v.LostInput) : (settle e v).LostInput :=
  h.mono (calm_settle e v).syn (calm_settle e v).rco fun x hx => by
    obtain ⟨-, hstuck, -⟩ := (calm_settle e v).osc x
    rw [hstuck (.inr (.inl hx))]
    exact hx

theorem lost_faultAll (e : Env) {fs : List (Osc × FaultKind)} (hn : (fs.map Prod.fst).Nodup) (h : v.LostInput) :
    (faultAll e fs v).LostInput :=
  h.mono (sound_faultAll e fs hn v).syn (marksOnly_faultAll e fs v).rco.1 fun x hx => by
    rw [osc_faultAll e fs hn]
    split
    · rfl
    · exact hx

/-- RUNNING and SUSPECT are entered by monitored sources, so the lost input stays lost. -/
theorem lost_enter (hsyn : w.clk.src.syn = v.clk.src.syn) (hrco : w.clk.src.rco = v.clk.src.rco)
    (hosc : ∀ x, x ≠ o → w.osc x = v.osc x) (ho : (v.osc o).state ≠ .quarantined) (h : v.LostInput) : w.LostInput :=
  h.mono hsyn hrco fun x hx => by
    rw [hosc x fun hxo => ho (hxo ▸ hx)]
    exact hx

theorem state_of_monitored {st : OscState} (h : monitored st = true) : st ≠ .off ∧ st ≠ .starting ∧ st ≠ .quarantined := by
  cases st <;> simp [monitored] at h ⊢

/-! ### The steps of an event -/

theorem Ev.StandsAs.of_same (h : v.StandsAs o r c) (hosc : w.osc o = v.osc o) (hcounts : w.counts o = v.counts o)
    (hlost : v.LostInput → w.LostInput) : w.StandsAs o r c := by
  unfold Ev.StandsAs Ev.Stopped
  rw [hosc, hcounts]
  exact h.imp_left fun ⟨ho, hl⟩ => ⟨ho, hlost hl⟩

/-- Through the course of an event a monitored or stuck source stands as it did, or stops. -/
theorem standsAs_settle (hr : r.state ≠ .off ∧ r.state ≠ .starting) (h : v.StandsAs o r c) : (settle e v).StandsAs o r c := by
  obtain ⟨⟨hcfg, -, -⟩, -, hst, hkeep, hsame⟩ := (calm_settle e v).osc o
  rcases h with ⟨ho, hl⟩ | ⟨hk, hs⟩ | ⟨hosc, hcounts⟩
  · exact .inl ⟨ho, lost_settle e hl⟩
  · refine .inr (.inl ⟨by rw [hcfg]; exact hk, ?_⟩)
    rcases hst with hst | hst
    · rw [hst]; exact hs
    · exact hst
  · rw [hosc] at hkeep hsame hst
    have hstopped : ((settle e v).osc o).state = .off ∨ ((settle e v).osc o).state = .starting → (settle e v).Stopped o := by
      refine fun hs => ⟨?_, hs⟩
      rw [hcfg, hosc]
      by_contra hk
      have heq := hkeep (Bool.not_eq_false _ ▸ hk) hr.1
      rw [heq] at hs
      exact hs.elim hr.1 hr.2
    rcases paced_settle o e v with ⟨hm, hs⟩ | ⟨-, hs⟩
    · refine .inr (.inr ⟨?_, ?_⟩)
      · rw [hosc] at hs
        exact hsame hs hr.2 hr.1
      · rw [← hcounts, Ev.counts, Ev.counts, hm]
    · exact .inr (.inl (hstopped hs))

/-- The fault of another source leaves the source alone, unless it is SYN and loses its input. -/
theorem standsAs_fault {y : Osc} (hy : y ≠ o) (k : FaultKind) (h : v.StandsAs o r c) : (fault e y k v).StandsAs o r c := by
  by_cases hin : o = .syn ∧ synInputSrc v.clk.src.syn.input = .osc y
  · refine .inl ⟨hin.1, ?_⟩
    unfold Ev.LostInput
    rw [(sound_fault e y k v).syn, hin.2]
    dsimp only
    rw [osc_fault]
    rfl
  · refine h.of_same ?_ ((marksOnly_fault e y k v).counts o) (lost_faultAll e (nodup_fault _ _ _))
    rw [fault, osc_faultAll e _ (nodup_fault _ _ _), List.find?_cons_of_neg (by simpa using hy)]
    rcases inputLost_forms v.clk.src (.osc y) with hl | ⟨hl, hi, -⟩
    · rw [hl]; rfl
    · have hsyn : ¬ Osc.syn = o := fun hso => hin ⟨hso.symm, hi⟩
      rw [hl, List.find?_cons_of_neg (by simpa using hsyn)]
      rfl

/-- So does the loss of an RCO that is faulted. -/
theorem standsAs_loseRco (hf : v.clk.src.rco.state = .faulted) (h : v.StandsAs o r c) :
    (loseInput e .rco v).StandsAs o r c := by
  by_cases hin : o = .syn ∧ synInputSrc v.clk.src.syn.input = .rco
  · refine .inl ⟨hin.1, ?_⟩
    unfold Ev.LostInput
    rw [(sound_loseInput e .rco v).syn, hin.2]
    dsimp only
    rw [(marksOnly_loseInput e .rco v).rco.1]
    exact hf
  · refine h.of_same ?_ ((marksOnly_loseInput e .rco v).counts o) (lost_faultAll e (nodup_inputLost _ _))
    rcases inputLost_forms v.clk.src .rco with hl | ⟨-, hi, -⟩
    · rw [loseInput, hl]; rfl
    · exact osc_loseInput_other e .rco v fun ho => hin ⟨ho, hi⟩

/-! ### Verdicts -/

/-- A verdict never brings a lost input back. -/
theorem lost_deliver (y : Osc) (vd : Option Verdict) (h : v.LostInput) : (deliver e v (y, vd)).LostInput := by
  refine deliver_cases vd h fun hm => ⟨lost_settle e ?_, lost_settle e ?_, fun k => lost_settle e ?_⟩
  · refine lost_enter (v := v) (o := y) rfl rfl (fun x hx => ?_) (state_of_monitored hm).2.2 h
    rw [osc_enterRunning, if_neg hx]
  · refine lost_enter (v := v) (o := y) rfl rfl (fun x hx => ?_) (state_of_monitored hm).2.2 h
    rw [osc_enterSuspect, if_neg hx]
  · exact lost_faultAll e (nodup_fault _ _ _) h

/-- The verdict of another source. -/
theorem standsAs_deliver_other {y : Osc} (hy : y ≠ o) (vd : Option Verdict) (hr : r.state ≠ .off ∧ r.state ≠ .starting)
    (h : v.StandsAs o r c) : (deliver e v (y, vd)).StandsAs o r c := by
  have ho : ¬ o = y := fun hoy => hy hoy.symm
  refine deliver_cases (P := fun w => w.StandsAs o r c) vd h fun hm => ⟨standsAs_settle hr ?_, standsAs_settle hr ?_, fun k => standsAs_settle hr ?_⟩
  · refine h.of_same (by rw [osc_enterRunning, if_neg ho]) rfl (lost_enter (v := v) (o := y) rfl rfl (fun x hx => ?_) (state_of_monitored hm).2.2)
    rw [osc_enterRunning, if_neg hx]
  · refine h.of_same (by rw [osc_enterSuspect, if_neg ho]) rfl (lost_enter (v := v) (o := y) rfl rfl (fun x hx => ?_) (state_of_monitored hm).2.2)
    rw [osc_enterSuspect, if_neg hx]
  · exact standsAs_fault hy k h

theorem standsAs_delivers (l : List (Osc × Option Verdict)) (ho : o ∉ l.map Prod.fst) (hr : r.state ≠ .off ∧ r.state ≠ .starting)
    (h : v.StandsAs o r c) : (l.foldl (deliver e) v).StandsAs o r c := by
  induction l generalizing v with
  | nil => exact h
  | cons x l ih =>
    rw [List.map_cons, List.mem_cons, not_or] at ho
    exact ih ho.2 (standsAs_deliver_other (fun hx => ho.1 hx.symm) x.2 hr h)

/-- The verdicts that counting gives in each state (R29, R30). -/
theorem verdict_countOsc (j : JudgeSettings) (st : OscState) (m : OscMonitor) (res : SurveyResult) :
    (countOsc j st m res).verdict = none
    ∨ ((countOsc j st m res).verdict = some .verified ∧ st = .verifying)
    ∨ ((countOsc j st m res).verdict = some .degraded ∧ st = .running)
    ∨ ((countOsc j st m res).verdict = some .recovered ∧ st = .suspect)
    ∨ ((∃ k, (countOsc j st m res).verdict = some (.failed k)) ∧ monitored st = true) := by
  cases st
  case verifying =>
    simp only [countOsc, countVerifying]
    split_ifs <;> simp [monitored]
  case running =>
    simp only [countOsc, countRunning]
    split_ifs <;> simp [monitored]
  case suspect =>
    simp only [countOsc, countSuspect]
    split_ifs <;> simp [monitored]
  all_goals exact .inl rfl

/-- Counting sees only good, bad and verify counts. -/
theorem countOsc_congr {m m' : OscMonitor} (h : (m.good, m.bad, m.verify) = (m'.good, m'.bad, m'.verify)) (j : JudgeSettings)
    (st : OscState) (res : SurveyResult) : countOsc j st m res = countOsc j st m' res := by
  simp only [Prod.mk.injEq] at h
  obtain ⟨hg, hb, hv⟩ := h
  unfold countOsc countVerifying countRunning countSuspect
  rw [hg, hb, hv]

/-- A source that has left the monitored states is not given its verdict (R30). -/
theorem deliver_stopped (vd : Option Verdict) (h : monitored (v.osc o).state = false) : deliver e v (o, vd) = v :=
  deliver_cases (P := fun w => w = v) vd rfl fun hm => by rw [h] at hm; cases hm

theorem deliver_failed (k : FaultKind) (h : monitored (v.osc o).state = true) :
    deliver e v (o, some (.failed k)) = settle e (fault e o k v) := by
  unfold deliver
  dsimp only
  cases hst : (v.osc o).state
  case verifying => rfl
  case running => rfl
  case suspect => rfl
  all_goals
    rw [hst] at h
    cases h

/-- The source itself, given the verdict that its state allows. -/
theorem standsAs_deliver_self {j : JudgeSettings} {m : OscMonitor} {res : SurveyResult} (h : v.StandsAs o r c) :
    (deliver e v (o, (countOsc j r.state m res).verdict)).StandsAs o
      (r.delivered e.tick (countOsc j r.state m res).verdict) c := by
  rcases h with ⟨ho, hl⟩ | ⟨hk, hs⟩ | ⟨hosc, hcounts⟩
  · exact .inl ⟨ho, lost_deliver o _ hl⟩
  · rw [deliver_stopped _ (by rcases hs with hs | hs <;> rw [hs] <;> rfl)]
    exact .inr (.inl ⟨hk, hs⟩)
  · have hstate : (v.osc o).state = r.state := by rw [hosc]
    have hran : (settle e (enterRunning e o v)).StandsAs o (r.ran e.tick) c := by
      refine standsAs_settle ⟨by simp [OscRec.ran], by simp [OscRec.ran]⟩ (.inr (.inr ⟨?_, hcounts⟩))
      rw [osc_enterRunning, if_pos rfl, hosc]
    rcases verdict_countOsc j r.state m res with hvd | ⟨hvd, hst⟩ | ⟨hvd, hst⟩ | ⟨hvd, hst⟩ | ⟨⟨k, hvd⟩, hst⟩ <;> rw [hvd]
    · exact .inr (.inr ⟨hosc, hcounts⟩)
    · unfold deliver
      dsimp only
      rw [hstate, hst]
      exact hran
    · unfold deliver
      dsimp only
      rw [hstate, hst]
      refine standsAs_settle ⟨nofun, nofun⟩ (.inr (.inr ⟨?_, hcounts⟩))
      rw [osc_enterSuspect, if_pos rfl, hosc]
      rfl
    · unfold deliver
      dsimp only
      rw [hstate, hst]
      exact hran
    · rw [deliver_failed k (hstate ▸ hst)]
      refine standsAs_settle ⟨nofun, nofun⟩ (.inr (.inr ⟨?_, ?_⟩))
      · rw [osc_fault, hosc]
        rfl
      · rw [(marksOnly_fault e o k v).counts, hcounts]

end

end Sys2Proof.Machine
end

section
/-! PROOFS. The completion of a survey (O38): RCO's judgement, the captures recorded, the verdicts delivered, the next survey begun. -/

namespace Sys2Proof.Machine

/-! ### RCO (R27, R31) -/

section
variable {e : Env} {v : Ev} {o : Osc} {r : OscRec} {c : Nat × Nat × Nat}

/-- RCO in its new state, before SYN and the outputs follow. -/
def Ev.rcoMoved (v : Ev) (e : Env) (st : RcoState) (good bad : Nat) : Ev :=
  let w := v.changeRco (v.clk.src.rco.moved st e.tick) good bad
  if st = .running then w.unrefuse .rco else w

theorem moveRco_eq (e : Env) (st : RcoState) (g b : Nat) (v : Ev) :
    moveRco e st g b v = settle e (if st = .faulted then loseInput e .rco (v.rcoMoved e st g b) else v.rcoMoved e st g b) := rfl

theorem fields_rcoMoved (e : Env) (st : RcoState) (g b : Nat) (v : Ev) :
    (v.rcoMoved e st g b).clk.src.rco = v.clk.src.rco.moved st e.tick
    ∧ (v.rcoMoved e st g b).clk.mon = { v.clk.mon with rco := { v.clk.mon.rco with good := g, bad := b } }
    ∧ (v.rcoMoved e st g b).clk.src.osc = v.clk.src.osc := by
  unfold Ev.rcoMoved
  dsimp only
  split <;> exact ⟨rfl, rfl, rfl⟩

/-- What a change of RCO's state keeps of the surveys' records, and what it writes of RCO. -/
theorem kept_moveRco (e : Env) (st : RcoState) (g b : Nat) (v : Ev) :
    v.RecordsKept (moveRco e st g b v) ∧ (moveRco e st g b v).clk.src.rco.state = st
    ∧ (moveRco e st g b v).clk.mon.rco = { v.clk.mon.rco with good := g, bad := b } := by
  obtain ⟨hrco, hmon, -⟩ := fields_rcoMoved e st g b v
  rw [moveRco_eq]
  generalize v.rcoMoved e st g b = w at hrco hmon
  have hw : v.RecordsKept w := by
    refine ⟨?_, fun o => ?_⟩ <;> rw [hmon]
    · exact ⟨rfl, rfl⟩
    · exact ⟨rfl, rfl, rfl, rfl⟩
  have hlost : w.MarksOnly (if st = .faulted then loseInput e .rco w else w) := by
    split
    · exact marksOnly_loseInput e .rco w
    · exact Ev.MarksOnly.refl w
  generalize (if st = .faulted then loseInput e .rco w else w) = u at hlost
  obtain ⟨hsrc, hrec⟩ := hlost.rco.trans (calm_settle e u).rcoKept
  refine ⟨hw.trans (hlost.recordsKept.trans (calm_settle e u).recordsKept), ?_, ?_⟩
  · rw [hsrc, hrco]; rfl
  · rw [hrec, hmon]

theorem standsAs_moveRco (st : RcoState) (g b : Nat) (hr : r.state ≠ .off ∧ r.state ≠ .starting) (hosc : v.osc o = r)
    (hcounts : v.counts o = c) : (moveRco e st g b v).StandsAs o r c := by
  obtain ⟨hrco, hmon, hsrc⟩ := fields_rcoMoved e st g b v
  rw [moveRco_eq]
  generalize v.rcoMoved e st g b = w at hrco hmon hsrc
  have hw : w.StandsAs o r c := by
    refine .inr (.inr ⟨?_, ?_⟩)
    · rw [Ev.osc, hsrc]; exact hosc
    · rw [Ev.counts, hmon]; exact hcounts
  refine standsAs_settle hr ?_
  split
  next hst => exact standsAs_loseRco (by rw [hrco]; exact hst) hw
  next => exact hw

/-- RCO's record after its judgement: with fewer than two witnesses it is UNCHECKED at counts of 0 unless it is FAULTED, else as
its verdict has it. -/
theorem judgeRco_effect (e : Env) (n : Word) (ds : List Direction) (v : Ev) :
    v.RecordsKept (judgeRco e n ds v)
    ∧ (judgeRco e n ds v).clk.mon.rco.witnesses = ds.length
    ∧ (judgeRco e n ds v).clk.mon.rco.lastResult = consensus ds
    ∧ (ds.length < 2 → (judgeRco e n ds v).clk.mon.rco.good = 0 ∧ (judgeRco e n ds v).clk.mon.rco.bad = 0
        ∧ (judgeRco e n ds v).clk.mon.rco.lastSurvey = v.clk.mon.rco.lastSurvey
        ∧ (judgeRco e n ds v).clk.src.rco.state = if v.clk.src.rco.state = .faulted then .faulted else .unchecked)
    ∧ (2 ≤ ds.length → (judgeRco e n ds v).clk.mon.rco.lastSurvey = some n
        ∧ (judgeRco e n ds v).clk.src.rco.state = (countRco v.clk.mon.settings.rco v.clk.src.rco.state v.clk.mon.rco.good
            v.clk.mon.rco.bad (consensus ds)).move.getD v.clk.src.rco.state) := by
  have hset : ∀ m, v.RecordsKept (v.setRcoMonitor m) := fun _ => ⟨⟨rfl, rfl⟩, fun _ => ⟨rfl, rfl, rfl, rfl⟩⟩
  unfold judgeRco
  dsimp only
  by_cases hd : ds.length < 2
  · rw [if_pos hd]
    split
    next hst =>
      obtain ⟨hrec, hstate, hmon⟩ := kept_moveRco e .unchecked 0 0
        (v.setRcoMonitor ⟨0, 0, consensus ds, v.clk.mon.rco.lastSurvey, ds.length⟩)
      rw [hmon, hstate]
      refine ⟨(hset _).trans hrec, rfl, rfl, fun _ => ⟨rfl, rfl, rfl, ?_⟩, fun h => absurd hd (by omega)⟩
      rw [if_neg fun hf => by rw [hf] at hst; cases hst]
    next hst =>
      refine ⟨hset _, rfl, rfl, fun _ => ⟨rfl, rfl, rfl, ?_⟩, fun h => absurd hd (by omega)⟩
      change v.clk.src.rco.state = _
      cases hs : v.clk.src.rco.state
      case unchecked => rfl
      case faulted => rfl
      all_goals
        rw [hs] at hst
        exact absurd rfl hst
  · rw [if_neg hd]
    split
    next st' hmove =>
      obtain ⟨hrec, hstate, hmon⟩ := kept_moveRco e st' _ (if st' = .suspect then 1 else 0)
        (v.setRcoMonitor ⟨_, _, consensus ds, some n, ds.length⟩)
      rw [hmon, hstate, hmove]
      exact ⟨(hset _).trans hrec, rfl, rfl, fun h => absurd h hd, fun _ => ⟨rfl, rfl⟩⟩
    next hmove =>
      rw [hmove]
      exact ⟨hset _, rfl, rfl, fun h => absurd h hd, fun _ => ⟨rfl, rfl⟩⟩

theorem standsAs_judgeRco (n : Word) (ds : List Direction) (hr : r.state ≠ .off ∧ r.state ≠ .starting) (hosc : v.osc o = r)
    (hcounts : v.counts o = c) : (judgeRco e n ds v).StandsAs o r c := by
  unfold judgeRco
  dsimp only
  split
  · split
    · exact standsAs_moveRco _ _ _ hr hosc hcounts
    · exact .inr (.inr ⟨hosc, hcounts⟩)
  · split
    · exact standsAs_moveRco _ _ _ hr hosc hcounts
    · exact .inr (.inr ⟨hosc, hcounts⟩)

/-! ### The captures recorded and the verdicts delivered (R28 to R30) -/

/-- The disposition in the words of R28. -/
theorem disposition_eq (ds : List Direction) (st : RcoState) :
    disposition ds st = if consensus ds = .slow ∨ consensus ds = .fast then .excused
      else if st = .suspect ∨ st = .faulted then .suspended else .judged := by
  unfold disposition badRcoSurvey
  cases consensus ds <;> cases st <;> rfl

/-- The monitor's records with the captures entered, and the counts of the sources that are JUDGED. -/
def Ev.recorded (n : Word) (d : Disposition) (caps : BankOsc (Option Captured)) (v : Ev) : Ev :=
  { v with clk := { v.clk with mon := { v.clk.mon with osc :=
      (BankOsc.ofFn fun o => recordOsc n d v.clk o (caps.get o)).mapIdx fun _ x => x.1 } } }

theorem mon_recorded (n : Word) (d : Disposition) (caps : BankOsc (Option Captured)) (v : Ev) (o : Osc) :
    (v.recorded n d caps).clk.mon.osc.get o = (recordOsc n d v.clk o (caps.get o)).1 := by
  rw [Ev.recorded, BankOsc.get_mapIdx, BankOsc.get_ofFn]

theorem judgeOscs_eq (e : Env) (n : Word) (ds : List Direction) (caps : BankOsc (Option Captured)) (v : Ev) :
    let d := disposition ds v.clk.src.rco.state
    judgeOscs e n ds caps v =
      (oscsSynFirst.map fun o => (o, (recordOsc n d v.clk o (caps.get o)).2)).foldl (deliver e) (v.recorded n d caps) := by
  unfold judgeOscs Ev.recorded
  simp only [BankOsc.get_ofFn]

/-- SYN comes first, and no source twice. -/
theorem oscsSynFirst_split (o : Osc) : ∃ l₁ l₂, oscsSynFirst = l₁ ++ o :: l₂ ∧ o ∉ l₁ ∧ o ∉ l₂ := by
  cases o
  case syn => exact ⟨[], [.xa, .xb, .ref], rfl, by decide, by decide⟩
  case xa => exact ⟨[.syn], [.xb, .ref], rfl, by decide, by decide⟩
  case xb => exact ⟨[.syn, .xa], [.ref], rfl, by decide, by decide⟩
  case ref => exact ⟨[.syn, .xa, .xb], [], rfl, by decide, by decide⟩

/-- Verdicts of all sources: a source stands as its own verdict leaves it. -/
theorem standsAs_verdicts {r' : OscRec} {c' : Nat × Nat × Nat} (vd : Osc → Option Verdict)
    (hr : r.state ≠ .off ∧ r.state ≠ .starting) (hr' : r'.state ≠ .off ∧ r'.state ≠ .starting)
    (hself : ∀ u : Ev, u.StandsAs o r c → (deliver e u (o, vd o)).StandsAs o r' c') (h : v.StandsAs o r c) :
    ((oscsSynFirst.map fun x => (x, vd x)).foldl (deliver e) v).StandsAs o r' c' := by
  obtain ⟨l₁, l₂, hl, h₁, h₂⟩ := oscsSynFirst_split o
  have hmem : ∀ l : List Osc, o ∉ l → o ∉ (l.map fun x => (x, vd x)).map Prod.fst := fun l ho => by
    rw [List.map_map]
    exact fun hm => ho (by simpa using hm)
  rw [hl, List.map_append, List.map_cons, List.foldl_append, List.foldl_cons]
  exact standsAs_delivers _ (hmem l₂ h₂) hr' (hself _ (standsAs_delivers _ (hmem l₁ h₁) hr h))

theorem lost_delivers (l : List (Osc × Option Verdict)) (h : v.LostInput) : (l.foldl (deliver e) v).LostInput := by
  induction l generalizing v with
  | nil => exact h
  | cons x l ih => exact ih (lost_deliver x.1 x.2 h)

/-- A delivered verdict leads to no state in which demand starts a source. -/
theorem state_delivered (vd : Option Verdict) (tick : Tick) (hr : r.state ≠ .off ∧ r.state ≠ .starting) :
    (r.delivered tick vd).state ≠ .off ∧ (r.delivered tick vd).state ≠ .starting := by
  cases vd with
  | none => exact hr
  | some x => cases x <;> exact ⟨nofun, nofun⟩

section
variable {n : Word} {d : Disposition} {caps : BankOsc (Option Captured)} {x : Captured}

/-- A capture that is not JUDGED gives neither counts nor a verdict. -/
theorem recordOsc_unjudged (k : Clocks) (o : Osc) (y : Option Captured) (hd : d ≠ .judged) :
    (recordOsc n d k o y).2 = none ∧ (recordOsc n d k o y).1.good = (k.mon.osc.get o).good
    ∧ (recordOsc n d k o y).1.bad = (k.mon.osc.get o).bad ∧ (recordOsc n d k o y).1.verify = (k.mon.osc.get o).verify := by
  unfold recordOsc
  cases y with
  | none => exact ⟨rfl, rfl, rfl, rfl⟩
  | some y =>
    dsimp only
    rw [if_neg hd]
    exact ⟨rfl, rfl, rfl, rfl⟩

/-- One that is JUDGED gives both as its source's state has it. -/
theorem recordOsc_judged (k : Clocks) (o : Osc) (x : Captured) :
    let t := countOsc (k.mon.settings.osc.get o) (k.src.osc.get o).state (k.mon.osc.get o) x.result
    (recordOsc n .judged k o (some x)).2 = t.verdict ∧ (recordOsc n .judged k o (some x)).1.good = t.good
    ∧ (recordOsc n .judged k o (some x)).1.bad = t.bad ∧ (recordOsc n .judged k o (some x)).1.verify = t.verify :=
  ⟨rfl, rfl, rfl, rfl⟩

theorem counts_recorded (v : Ev) (o : Osc) : (v.recorded n d caps).counts o =
    ((recordOsc n d v.clk o (caps.get o)).1.good, (recordOsc n d v.clk o (caps.get o)).1.bad,
      (recordOsc n d v.clk o (caps.get o)).1.verify) := by
  rw [Ev.counts, mon_recorded]

/-- A source that is not JUDGED stands after steps 4 to 6 as before them. -/
theorem standsAs_judgeOscs_unjudged {ds : List Direction} (hd : disposition ds v.clk.src.rco.state ≠ .judged)
    (hr : r.state ≠ .off ∧ r.state ≠ .starting) (h : v.StandsAs o r c) : (judgeOscs e n ds caps v).StandsAs o r c := by
  rw [judgeOscs_eq]
  refine standsAs_verdicts (fun x => (recordOsc n _ v.clk x (caps.get x)).2) hr hr (fun u hu => ?_) (h.of_same rfl ?_ id)
  · rw [(recordOsc_unjudged _ _ _ hd).1]
    exact hu
  · obtain ⟨-, hg, hb, hv⟩ := recordOsc_unjudged (n := n) v.clk o (caps.get o) hd
    rw [counts_recorded, hg, hb, hv]
    rfl

/-- One that is JUDGED has its new counts, and its verdict delivered. -/
theorem standsAs_judgeOscs_judged {ds : List Direction} {m : OscMonitor} (hd : disposition ds v.clk.src.rco.state = .judged)
    (hcap : caps.get o = some x) (hr : monitored r.state = true) (h : v.StandsAs o r (m.good, m.bad, m.verify)) :
    let t := countOsc (v.clk.mon.settings.osc.get o) r.state m x.result
    (judgeOscs e n ds caps v).StandsAs o (r.delivered e.tick t.verdict) (t.good, t.bad, t.verify) := by
  intro t
  have hne : r.state ≠ .off ∧ r.state ≠ .starting := ⟨(state_of_monitored hr).1, (state_of_monitored hr).2.1⟩
  have hne' := state_delivered t.verdict e.tick hne
  rw [judgeOscs_eq, hd]
  obtain ⟨hvd, hg, hb, hv⟩ := recordOsc_judged (n := n) v.clk o x
  have hcounts : (v.recorded n .judged caps).counts o = _ := counts_recorded v o
  rw [hcap, hg, hb, hv] at hcounts
  rcases h with ⟨ho, hl⟩ | ⟨hk, hs⟩ | ⟨hosc, hc⟩
  · exact .inl ⟨ho, lost_delivers _ hl⟩
  · have hnone : (recordOsc n .judged v.clk o (caps.get o)).2 = none := by
      rw [hcap, hvd]
      change (v.clk.src.osc.get o).state = .off ∨ (v.clk.src.osc.get o).state = .starting at hs
      rcases hs with hs | hs <;> rw [hs] <;> rfl
    refine standsAs_verdicts (c := (t.good, t.bad, t.verify)) (fun y => (recordOsc n .judged v.clk y (caps.get y)).2) hne' hne' (fun u hu => ?_)
      (.inr (.inl ⟨hk, hs⟩))
    rw [hnone]
    exact hu
  · have ht : countOsc (v.clk.mon.settings.osc.get o) (v.clk.src.osc.get o).state (v.clk.mon.osc.get o) x.result = t := by
      rw [show (v.clk.src.osc.get o).state = r.state from congrArg OscRec.state hosc]
      exact countOsc_congr hc _ _ _
    rw [ht] at hvd hcounts
    refine standsAs_verdicts (fun y => (recordOsc n .judged v.clk y (caps.get y)).2) hne hne' (fun u hu => ?_)
      (.inr (.inr ⟨hosc, hcounts⟩))
    rw [hcap, hvd]
    exact standsAs_deliver_self hu

end

end

end Sys2Proof.Machine
end

section
/-! PROOFS. The completion of a survey as one event (O38). -/

namespace Sys2Proof.Machine

/-! ### The next survey begun (R23, R24) -/

/-- The nominal frequencies stay with the configurations (R1, R2). -/
theorem Ev.Sound.nominal {v w : Ev} (h : v.Sound w) (s : Src) : nominal w.clk.src s = nominal v.clk.src s := by
  have hcfg : ∀ o, (w.clk.src.osc.get o).cfg = (v.clk.src.osc.get o).cfg := h.srcCfg
  have hosc : ∀ o, (w.clk.src.osc.get o).cfg.nominal = (v.clk.src.osc.get o).cfg.nominal := fun o => by rw [hcfg]
  match s with
  | .rco => rfl
  | .osc .xa => exact hosc .xa
  | .osc .xb => exact hosc .xb
  | .osc .ref => exact hosc .ref
  | .osc .syn =>
    change synNominal w.clk.src = synNominal v.clk.src
    have hxa : w.clk.src.osc.xa.cfg.nominal = v.clk.src.osc.xa.cfg.nominal := hosc .xa
    have href : w.clk.src.osc.ref.cfg.nominal = v.clk.src.osc.ref.cfg.nominal := hosc .ref
    rw [synNominal, synNominal, h.syn, hxa, href]

/-- What a survey begins with: counters from 0, marks from the states, expected counts from the nominal frequencies. -/
theorem mon_beginSurvey (tick : Tick) (k : Clocks) (o : Osc) :
    (beginSurvey tick k).mon.osc.get o = { k.mon.osc.get o with
      edges := 0#32, mark := monitored (k.src.osc.get o).state
      expected := nominal k.src (.osc o) * k.mon.settings.period / 1000 } :=
  BankOsc.get_mapIdx ..

/-! ### The event of a survey's completion -/

/-- The survey number counted up (R22). -/
def Ev.numbered (v : Ev) : Ev :=
  { v with clk := { v.clk with mon := { v.clk.mon with surveyNumber := v.clk.mon.surveyNumber + 1#32 } } }

/-- Step 3: RCO judged under the new number. -/
def rcoJudged (edges : BankOsc Word) (e : Env) (v : Ev) : Ev :=
  judgeRco e (v.clk.mon.surveyNumber + 1#32) (witnessDirections v.clk (captures v.clk edges)) v.numbered

/-- Steps 4 to 6, and the course that follows. -/
def oscsJudged (edges : BankOsc Word) (e : Env) (v : Ev) : Ev :=
  settle e (judgeOscs e (v.clk.mon.surveyNumber + 1#32) (witnessDirections v.clk (captures v.clk edges)) (captures v.clk edges)
    (rcoJudged edges e v))

/-- The event as it ends: the next survey begun, and the course once more. -/
def surveyed (edges : BankOsc Word) (e : Env) (v : Ev) : Ev := settle e (completeSurvey edges e v)

theorem completeSurvey_eq (edges : BankOsc Word) (e : Env) (v : Ev) :
    completeSurvey edges e v = { oscsJudged edges e v with clk := beginSurvey e.tick (oscsJudged edges e v).clk } := rfl

section
variable {edges : BankOsc Word} {e : Env} {v : Ev} {o : Osc}

/-- Steps 4 to 6 keep RCO, and the records as the captures have left them. -/
theorem kept_oscsJudged (edges : BankOsc Word) (e : Env) (v : Ev) :
    ((rcoJudged edges e v).recorded (v.clk.mon.surveyNumber + 1#32)
      (disposition (witnessDirections v.clk (captures v.clk edges)) (rcoJudged edges e v).clk.src.rco.state)
      (captures v.clk edges)).RecordsKept (oscsJudged edges e v)
    ∧ (rcoJudged edges e v).RcoKept (oscsJudged edges e v) := by
  unfold oscsJudged
  generalize rcoJudged edges e v = u
  rw [judgeOscs_eq]
  generalize hw : u.recorded _ _ _ = w
  have hrco : u.RcoKept w := by rw [← hw]; exact ⟨rfl, rfl⟩
  obtain ⟨hrec, hkept⟩ := kept_delivers e (oscsSynFirst.map fun x => (x, (recordOsc (v.clk.mon.surveyNumber + 1#32)
    (disposition (witnessDirections v.clk (captures v.clk edges)) u.clk.src.rco.state) u.clk x
    ((captures v.clk edges).get x)).2)) w
  exact ⟨hrec.trans (calm_settle e _).recordsKept, hrco.trans (hkept.trans (calm_settle e _).rcoKept)⟩

theorem sound_oscsJudged (edges : BankOsc Word) (e : Env) (v : Ev) : v.Sound (oscsJudged edges e v) := by
  have hn : v.Sound v.numbered := sound_clocks rfl rfl rfl
  exact ((hn.trans (sound_judgeRco e _ _ _)).trans (sound_judgeOscs e _ _ _ _)).trans (sound_settle e _)

theorem sound_surveyed (edges : BankOsc Word) (e : Env) (v : Ev) : v.Sound (surveyed edges e v) :=
  (sound_completeSurvey edges e v).trans (sound_settle e _)

/-- RCO is at the end of the event as its judgement has left it. -/
theorem rcoKept_surveyed (edges : BankOsc Word) (e : Env) (v : Ev) : (rcoJudged edges e v).RcoKept (surveyed edges e v) := by
  have hbegin : (oscsJudged edges e v).RcoKept (completeSurvey edges e v) := ⟨rfl, rfl⟩
  exact (kept_oscsJudged edges e v).2.trans (hbegin.trans (calm_settle e _).rcoKept)

/-- The survey that begins with the event's end (R22 to R24). -/
theorem begun_surveyed (edges : BankOsc Word) (e : Env) (v : Ev) :
    (surveyed edges e v).clk.mon.surveyNumber = v.clk.mon.surveyNumber + 1#32
    ∧ (surveyed edges e v).clk.mon.surveyStart = e.tick
    ∧ (surveyed edges e v).clk.mon.settings = v.clk.mon.settings
    ∧ ∀ o, ((surveyed edges e v).clk.mon.osc.get o).edges = 0#32
      ∧ ((surveyed edges e v).clk.mon.osc.get o).mark = monitored ((surveyed edges e v).osc o).state
      ∧ ((surveyed edges e v).clk.mon.osc.get o).expected = nominal v.clk.src (.osc o) * v.clk.mon.settings.period / 1000 := by
  have hsound := sound_oscsJudged edges e v
  have hnumber := (kept_oscsJudged edges e v).1.survey.1
  have hjudge := (judgeRco_effect e (v.clk.mon.surveyNumber + 1#32) (witnessDirections v.clk (captures v.clk edges)) v.numbered).1
  have hkept := (calm_settle e (completeSurvey edges e v)).recordsKept
  have hget : ∀ o, (completeSurvey edges e v).clk.mon.osc.get o = _ := fun o => mon_beginSurvey e.tick (oscsJudged edges e v).clk o
  refine ⟨hkept.survey.1.trans (hnumber.trans hjudge.survey.1), hkept.survey.2,
    (sound_surveyed edges e v).settings, fun o => ?_⟩
  obtain ⟨-, -, hedges, hexp⟩ := hkept.mon o
  refine ⟨?_, mark_settle ?_, ?_⟩
  · rw [surveyed, hedges, hget]
  · rw [hget]
    rfl
  · rw [surveyed, hexp, hget]
    dsimp only
    rw [hsound.nominal, hsound.settings]

/-- Every capture is recorded with its result and RCO's word on it; without one the old record stays (R25, R28). -/
theorem captured_surveyed (edges : BankOsc Word) (e : Env) (v : Ev) (o : Osc) :
    ((captures v.clk edges).get o = none →
      ((surveyed edges e v).clk.mon.osc.get o).last = (v.clk.mon.osc.get o).last
      ∧ ((surveyed edges e v).clk.mon.osc.get o).lastResult = (v.clk.mon.osc.get o).lastResult)
    ∧ ∀ x, (captures v.clk edges).get o = some x →
      ((surveyed edges e v).clk.mon.osc.get o).last = some ⟨x.count, v.clk.mon.surveyNumber + 1#32,
        disposition (witnessDirections v.clk (captures v.clk edges)) (surveyed edges e v).clk.src.rco.state⟩
      ∧ ((surveyed edges e v).clk.mon.osc.get o).lastResult = x.result := by
  obtain ⟨hlast, hres, -, -⟩ := (calm_settle e (completeSurvey edges e v)).recordsKept.mon o
  have hget := mon_beginSurvey e.tick (oscsJudged edges e v).clk o
  obtain ⟨jlast, jres, -, -⟩ := (kept_oscsJudged edges e v).1.mon o
  rw [mon_recorded] at jlast jres
  rw [(rcoKept_surveyed edges e v).1]
  have wlast : ((surveyed edges e v).clk.mon.osc.get o).last = _ := hlast.trans ((congrArg OscMonitor.last hget).trans jlast)
  have wres : ((surveyed edges e v).clk.mon.osc.get o).lastResult = _ :=
    hres.trans ((congrArg OscMonitor.lastResult hget).trans jres)
  rw [wlast, wres]
  obtain ⟨rlast, rres, -, -⟩ := (judgeRco_effect e (v.clk.mon.surveyNumber + 1#32)
    (witnessDirections v.clk (captures v.clk edges)) v.numbered).1.mon o
  refine ⟨fun h => ?_, fun x h => ?_⟩ <;> rw [h]
  · exact ⟨rlast, rres⟩
  · unfold recordOsc
    dsimp only
    split_ifs with hd
    · exact ⟨rfl, rfl⟩
    · exact ⟨rfl, rfl⟩

theorem get_captures (k : Clocks) (edges : BankOsc Word) (o : Osc) :
    (captures k edges).get o = if (k.mon.osc.get o).mark then
        some ⟨(k.mon.osc.get o).edges + edges.get o,
          surveyResult ((k.mon.osc.get o).edges + edges.get o).toNat (k.mon.osc.get o).expected (k.mon.settings.osc.get o).band⟩
      else none :=
  BankOsc.get_mapIdx ..

/-- Once steps 4 to 6 are done, the end of the event leaves a monitored or stuck source as it stands, or stops it. -/
theorem standsAs_surveyed {r : OscRec} {c : Nat × Nat × Nat} (hr : r.state ≠ .off ∧ r.state ≠ .starting)
    (h : (oscsJudged edges e v).StandsAs o r c) : (surveyed edges e v).StandsAs o r c := by
  refine standsAs_settle hr (h.of_same rfl ?_ id)
  rw [completeSurvey_eq, Ev.counts]
  dsimp only
  rw [mon_beginSurvey]
  rfl

/-- What the event makes of a monitored source that has a capture. -/
theorem judged_surveyed {x : Captured} (hcap : (captures v.clk edges).get o = some x) (hmon : monitored (v.osc o).state = true) :
    let t := countOsc (v.clk.mon.settings.osc.get o) (v.osc o).state (v.clk.mon.osc.get o) x.result
    let d := disposition (witnessDirections v.clk (captures v.clk edges)) (surveyed edges e v).clk.src.rco.state
    (d = .judged → (surveyed edges e v).StandsAs o ((v.osc o).delivered e.tick t.verdict) (t.good, t.bad, t.verify))
    ∧ (d ≠ .judged → (surveyed edges e v).StandsAs o (v.osc o) (v.counts o)) := by
  have hr : (v.osc o).state ≠ .off ∧ (v.osc o).state ≠ .starting := ⟨(state_of_monitored hmon).1, (state_of_monitored hmon).2.1⟩
  have hrco : (rcoJudged edges e v).StandsAs o (v.osc o) (v.counts o) := standsAs_judgeRco _ _ hr rfl rfl
  have hsettings : (rcoJudged edges e v).clk.mon.settings = v.clk.mon.settings := (sound_judgeRco e _ _ v.numbered).settings
  rw [(rcoKept_surveyed edges e v).1]
  intro t d
  refine ⟨fun hd => ?_, fun hd => ?_⟩
  · have hr' := state_delivered t.verdict e.tick hr
    have hjudged := standsAs_judgeOscs_judged (e := e) (n := v.clk.mon.surveyNumber + 1#32) (m := v.clk.mon.osc.get o) hd hcap hmon hrco
    rw [hsettings] at hjudged
    exact standsAs_surveyed hr' (standsAs_settle hr' hjudged)
  · exact standsAs_surveyed hr (standsAs_settle hr (standsAs_judgeOscs_unjudged hd hr hrco))

/-- Fewer than two witnesses give no consensus (R27). -/
theorem consensus_of_few {ds : List Direction} (h : ds.length < 2) : consensus ds = .none := if_pos h

/-- RCO and its record at the end of the event (R27, R31). -/
theorem rco_surveyed (edges : BankOsc Word) (e : Env) (v : Ev) :
    let ds := witnessDirections v.clk (captures v.clk edges)
    let m := v.clk.mon
    let t := (surveyed edges e v).clk
    t.mon.rco.witnesses = ds.length
    ∧ (ds.length < 2 → t.mon.rco.good = 0 ∧ t.mon.rco.bad = 0 ∧ t.mon.rco.lastResult = .none
        ∧ t.mon.rco.lastSurvey = m.rco.lastSurvey
        ∧ t.src.rco.state = (if v.clk.src.rco.state = .faulted then .faulted else .unchecked))
    ∧ (2 ≤ ds.length → t.mon.rco.lastResult = consensus ds ∧ t.mon.rco.lastSurvey = some (m.surveyNumber + 1#32)
        ∧ t.src.rco.state = (countRco m.settings.rco v.clk.src.rco.state m.rco.good m.rco.bad (consensus ds)).move.getD
            v.clk.src.rco.state) := by
  intro ds m t
  obtain ⟨hsrc, hmon⟩ := rcoKept_surveyed edges e v
  obtain ⟨-, hwit, hres, hfew, hmany⟩ := judgeRco_effect e (m.surveyNumber + 1#32) ds v.numbered
  change t.src.rco = (judgeRco e (m.surveyNumber + 1#32) ds v.numbered).clk.src.rco at hsrc
  change t.mon.rco = (judgeRco e (m.surveyNumber + 1#32) ds v.numbered).clk.mon.rco at hmon
  rw [hmon, hsrc]
  refine ⟨hwit, fun h => ?_, fun h => ⟨hres, hmany h⟩⟩
  obtain ⟨hgood, hbad, hlast, hstate⟩ := hfew h
  exact ⟨hgood, hbad, hres.trans (consensus_of_few h), hlast, hstate⟩

/-- The disposition is JUDGED as step 4 of R30 has it. -/
theorem disposition_judged_iff (ds : List Direction) (st : RcoState) : disposition ds st = .judged ↔
    consensus ds ≠ .slow ∧ consensus ds ≠ .fast ∧ st ≠ .suspect ∧ st ≠ .faulted := by
  unfold disposition badRcoSurvey
  cases consensus ds <;> cases st <;> decide

/-- A source that stands as it should, is not SYN without its input, and is kept or running, has its record and counts. -/
theorem Ev.StandsAs.outcome {r : OscRec} {good bad verify : Nat} (h : v.StandsAs o r (good, bad, verify))
    (hsyn : ¬ (o = .syn ∧ v.LostInput)) :
    v.Stopped o ∨ (v.osc o = r ∧ (v.clk.mon.osc.get o).good = good ∧ (v.clk.mon.osc.get o).bad = bad
      ∧ (v.clk.mon.osc.get o).verify = verify) := by
  rcases h with h | h | ⟨hosc, hcounts⟩
  · exact absurd h hsyn
  · exact .inl h
  · simp only [Ev.counts, Prod.mk.injEq] at hcounts
    exact .inr ⟨hosc, hcounts⟩

end

/-! ### Over the whole state -/

/-- The state that the completion of a survey leaves. -/
def surveyDone (edges : BankOsc Word) (s : State) : State := (runEvent .ordinary s s (completeSurvey edges)).endEvent

theorem exec_surveyCompletion {s : State} (hrun : s.startup.running = true) (xa xb ref syn : Word) :
    exec (.surveyCompletion xa xb ref syn) s = .next (surveyDone ⟨xa, xb, ref, syn⟩ s) :=
  congrArg Host.Outcome.next (whileRunning_eq hrun _)

/-- The event before anything of it has happened. -/
def eventStart (s : State) : Ev := ⟨s.clk, [], []⟩

theorem clk_surveyDone (edges : BankOsc Word) (s : State) :
    (surveyDone edges s).clk = (surveyed edges (envOf .ordinary s s) (eventStart s)).clk := by
  rw [surveyDone, State.clk_endEvent, clk_runEvent]
  rfl

/-- Settles O38: RCO's judgement (`rco_surveyed`), the survey that begins (`begun_surveyed`), the captures (`captured_surveyed`) and
the standing of each monitored source (`judged_surveyed`), read off the event's clocks. -/
theorem surveyCompletionRule : Obligations.SurveyCompletionRule := by
  intro s xa xb ref syn hrun edges ds m
  refine ⟨surveyDone edges s, exec_surveyCompletion hrun xa xb ref syn, ?_⟩
  have hosc : ∀ o, (surveyDone edges s).osc o = (surveyed edges (envOf .ordinary s s) (eventStart s)).osc o := fun o =>
    congrArg (fun k => k.src.osc.get o) (clk_surveyDone edges s)
  obtain ⟨hnumber, hstart, hsettings, hbegun⟩ := begun_surveyed edges (envOf .ordinary s s) (eventStart s)
  have hcap := captured_surveyed edges (envOf .ordinary s s) (eventStart s)
  have hstand := fun o x => judged_surveyed (edges := edges) (e := envOf .ordinary s s) (v := eventStart s) (o := o) (x := x)
  have hsound := sound_surveyed edges (envOf .ordinary s s) (eventStart s)
  obtain ⟨hwit, hfew, hmany⟩ := rco_surveyed edges (envOf .ordinary s s) (eventStart s)
  rw [clk_surveyDone]
  refine ⟨hnumber, hstart, hsettings, fun o => ?_, hwit, hfew, hmany, fun o hmark hmon hsyn => ?_⟩
  · obtain ⟨hedges, hbegin, hexp⟩ := hbegun o
    obtain ⟨hnone, hsome⟩ := hcap o
    refine ⟨hedges, ?_, hexp, fun h => hnone ?_, fun h => ?_⟩
    · rw [hosc]; exact hbegin
    · exact (get_captures s.clk edges o).trans (if_neg (by rw [h]; exact Bool.false_ne_true))
    · rw [← disposition_eq]
      exact hsome _ ((get_captures s.clk edges o).trans (if_pos h))
  · have hnot : ¬ (o = .syn ∧ (surveyed edges (envOf .ordinary s s) (eventStart s)).LostInput) := by
      rintro ⟨ho, hl⟩
      have hlost := hsyn ho
      have hsyninput : (surveyed edges (envOf .ordinary s s) (eventStart s)).clk.src.syn = s.clk.src.syn := hsound.syn
      cases hin : synInputSrc s.clk.src.syn.input with
      | rco =>
        rw [hin] at hlost
        exact hlost (hl.of_rco (by rw [hsyninput, hin]))
      | osc x =>
        rw [hin] at hlost
        exact hlost ((congrArg OscRec.state (hosc x)).trans (hl.of_osc (by rw [hsyninput, hin])))
    have hstopped : (surveyed edges (envOf .ordinary s s) (eventStart s)).Stopped o → _ := fun ⟨hk, hs⟩ =>
      And.intro ((congrArg OscConfig.keep (hsound.srcCfg o)).symm.trans hk) hs
    obtain ⟨hjudged, hunjudged⟩ := hstand o _ ((get_captures s.clk edges o).trans (if_pos hmark)) hmon
    rw [hosc]
    by_cases hd : disposition ds (surveyed edges (envOf .ordinary s s) (eventStart s)).clk.src.rco.state = .judged
    · have hj := (disposition_judged_iff _ _).mp hd
      exact ((hjudged hd).outcome hnot).imp hstopped fun h => .inl ⟨hj, h⟩
    · have hj := fun h => hd ((disposition_judged_iff _ _).mpr h)
      exact ((hunjudged hd).outcome hnot).imp hstopped fun h => .inr ⟨hj, h⟩

end Sys2Proof.Machine
end

section
/-! PROOFS. The rate monitor: results, directions and consensus (O22), the counting tables of sources (O23) and of RCO (O24), and its
requests (O39). -/

namespace Sys2Proof.Machine

/-! ### Results (R25), directions (R26) and the consensus (R27) -/

/-- The four results share out all counts: each stands exactly where its test is the first to hold (R25). -/
theorem surveyResult_iff (count expected tol : Nat) :
    (surveyResult count expected tol = .stopped ↔ count * 8 < expected)
    ∧ (surveyResult count expected tol = .slow ↔ expected ≤ count * 8 ∧ count * 1000 < expected * (1000 - tol))
    ∧ (surveyResult count expected tol = .fast ↔ expected ≤ count * 8 ∧ expected * (1000 - tol) ≤ count * 1000
        ∧ expected * (1000 + tol) < count * 1000)
    ∧ (surveyResult count expected tol = .good ↔ expected ≤ count * 8 ∧ expected * (1000 - tol) ≤ count * 1000
        ∧ count * 1000 ≤ expected * (1000 + tol)) := by
  unfold surveyResult
  split_ifs with hstopped hslow hfast
  case pos => simp [hstopped]
  case pos => simp [hslow, Nat.le_of_not_lt hstopped]
  case pos => simp [hfast, Nat.le_of_not_lt hstopped, Nat.le_of_not_lt hslow]
  case neg => simp [Nat.le_of_not_lt hstopped, Nat.le_of_not_lt hslow, Nat.le_of_not_lt hfast]

/-- A witness above the upper bound appears fast; else a stopped one, or one below the lower bound, appears slow (R26). -/
theorem direction_iff (count expected thr : Nat) (res : SurveyResult) :
    (direction count expected thr res = .fast ↔ expected * (1000 + thr) < count * 1000)
    ∧ (direction count expected thr res = .slow ↔ count * 1000 ≤ expected * (1000 + thr)
        ∧ (res = .stopped ∨ count * 1000 < expected * (1000 - thr))) := by
  simp only [direction, Bool.or_eq_true, decide_eq_true_eq]
  split_ifs with hfast hslow
  case pos => simp [hfast]
  case pos => simp [hslow, Nat.le_of_not_lt hfast]
  case neg => simp [hslow, Nat.le_of_not_lt hfast]

section
variable {ds : List Direction}

theorem consensus_of_all_fast (hlen : 2 ≤ ds.length) (h : ∀ d ∈ ds, d = .fast) : consensus ds = .slow := by
  rw [consensus, if_neg (Nat.not_lt.mpr hlen), if_pos (by simpa using h)]

/-- Two witnesses that all appear slow do not all appear fast. -/
theorem consensus_of_all_slow (hlen : 2 ≤ ds.length) (h : ∀ d ∈ ds, d = .slow) : consensus ds = .fast := by
  obtain ⟨d, hd⟩ := List.exists_mem_of_length_pos (Nat.lt_of_lt_of_le Nat.two_pos hlen)
  have hnot : ¬ ∀ d ∈ ds, d = .fast := fun hfast => by cases (h d hd).symm.trans (hfast d hd)
  rw [consensus, if_neg (Nat.not_lt.mpr hlen), if_neg (by simpa using hnot), if_pos (by simpa using h)]

theorem consensus_of_mixed (hlen : 2 ≤ ds.length) (hfast : ∃ d ∈ ds, d ≠ .fast) (hslow : ∃ d ∈ ds, d ≠ .slow) :
    consensus ds = .good := by
  rw [consensus, if_neg (Nat.not_lt.mpr hlen), if_neg (by simpa using hfast), if_neg (by simpa using hslow)]

end

/-- Settles O22: the tests of R25 and R26 in their order, and the consensus by the length and the mixture of the directions. -/
theorem surveyResultAndConsensus : Obligations.SurveyResultAndConsensus :=
  ⟨surveyResult_iff, direction_iff, fun _ =>
    ⟨consensus_of_few, consensus_of_all_fast, consensus_of_all_slow, consensus_of_mixed⟩⟩

/-! ### Counting in VERIFYING (R29) -/

/-- `res` is a bad result, and `k` the fault kind that a FAILED verdict takes from it (R25). -/
def BadAs (res : SurveyResult) (k : FaultKind) : Prop :=
  (res = .slow ∧ k = .slow) ∨ (res = .fast ∧ k = .fast) ∨ (res = .stopped ∧ k = .stopped)

theorem BadAs.spec {res : SurveyResult} {k : FaultKind} (h : BadAs res k) : res ≠ .good ∧ resultKindOf res = k := by
  rcases h with ⟨rfl, rfl⟩ | ⟨rfl, rfl⟩ | ⟨rfl, rfl⟩ <;> exact ⟨nofun, rfl⟩

/-- The verdict of a survey in VERIFYING that is the sixteenth or a later one and completes no other verdict (R29). -/
def unstableAt (n : Nat) : Option Verdict := if 16 ≤ n then some (.failed .unstable) else none

theorem lt_of_unstableAt_none {n : Nat} (h : unstableAt n = none) : n < 16 :=
  Nat.lt_of_not_le fun hn => by rw [unstableAt, if_pos hn] at h; cases h

section
variable {j : JudgeSettings} {m : OscMonitor} {res : SurveyResult} {k : FaultKind}

theorem countVerifying_verified (h : j.k ≤ m.good + 1) : countVerifying j m .good = ⟨0, 0, 0, some .verified⟩ := if_pos h

theorem countVerifying_good (h : m.good + 1 < j.k) :
    countVerifying j m .good = ⟨m.good + 1, 0, m.verify + 1, unstableAt (m.verify + 1)⟩ := if_neg (Nat.not_le.mpr h)

/-- A bad survey counts, whatever its verdict. -/
theorem countVerifying_not_good (h : res ≠ .good) : countVerifying j m res = ⟨0, m.bad + 1, m.verify + 1,
    if j.f ≤ m.bad + 1 then some (.failed (resultKindOf res)) else unstableAt (m.verify + 1)⟩ := if_neg h

theorem countVerifying_failed (hbad : BadAs res k) (h : j.f ≤ m.bad + 1) :
    countVerifying j m res = ⟨0, m.bad + 1, m.verify + 1, some (.failed k)⟩ := by
  rw [countVerifying_not_good hbad.spec.1, if_pos h, hbad.spec.2]

theorem countVerifying_bad (hbad : BadAs res k) (h : m.bad + 1 < j.f) :
    countVerifying j m res = ⟨0, m.bad + 1, m.verify + 1, unstableAt (m.verify + 1)⟩ := by
  rw [countVerifying_not_good hbad.spec.1, if_neg (Nat.not_le.mpr h)]

/-- A survey without a verdict has counted verify up, below its limit. -/
theorem verify_of_no_verdict (h : (countVerifying j m res).verdict = none) :
    (countVerifying j m res).verify = m.verify + 1 ∧ m.verify + 1 < 16 := by
  by_cases hres : res = .good
  · subst hres
    rcases Nat.lt_or_ge (m.good + 1) j.k with hk | hk
    · rw [countVerifying_good hk] at h ⊢
      exact ⟨rfl, lt_of_unstableAt_none h⟩
    · rw [countVerifying_verified hk] at h
      cases h
  · rw [countVerifying_not_good hres] at h ⊢
    refine ⟨rfl, lt_of_unstableAt_none ?_⟩
    split at h
    · cases h
    · exact h

end

/-- Each survey without a verdict takes the verify count one nearer to its limit, where no survey is without a verdict (R29). -/
theorem verdictWithin_isSome (j : JudgeSettings) (m : OscMonitor) (rs : List SurveyResult) (hm : m.verify < 16)
    (hlen : 16 ≤ m.verify + rs.length) : (verdictWithin j m rs).isSome = true := by
  induction rs generalizing m with
  | nil => exact absurd hlen (Nat.not_le.mpr hm)
  | cons r rs ih =>
    rw [verdictWithin]
    split
    next => rfl
    next hnone =>
      obtain ⟨hverify, hlt⟩ := verify_of_no_verdict hnone
      refine ih _ (hverify ▸ hlt) ?_
      dsimp only
      rw [hverify]
      rw [List.length_cons] at hlen
      omega

/-! ### Counting in RUNNING and SUSPECT (R30) -/

section
variable {j : JudgeSettings} {m : OscMonitor} {res : SurveyResult} {k : FaultKind}

theorem countRunning_good : countRunning j m .good = ⟨m.good, m.bad, m.verify, none⟩ := rfl

theorem countRunning_not_good (h : res ≠ .good) : countRunning j m res =
    ⟨0, 1, m.verify, some (if j.f ≤ 1 then .failed (resultKindOf res) else .degraded)⟩ := if_neg h

theorem countRunning_failed (hbad : BadAs res k) (h : j.f ≤ 1) : countRunning j m res = ⟨0, 1, m.verify, some (.failed k)⟩ := by
  rw [countRunning_not_good hbad.spec.1, if_pos h, hbad.spec.2]

theorem countRunning_degraded (hbad : BadAs res k) (h : 1 < j.f) : countRunning j m res = ⟨0, 1, m.verify, some .degraded⟩ := by
  rw [countRunning_not_good hbad.spec.1, if_neg (Nat.not_le.mpr h)]

theorem countSuspect_recovered (h : j.k ≤ m.good + 1) : countSuspect j m .good = ⟨0, 0, m.verify, some .recovered⟩ := if_pos h

theorem countSuspect_good (h : m.good + 1 < j.k) : countSuspect j m .good = ⟨m.good + 1, m.bad, m.verify, none⟩ :=
  if_neg (Nat.not_le.mpr h)

theorem countSuspect_not_good (h : res ≠ .good) : countSuspect j m res =
    ⟨0, m.bad + 1, m.verify, if j.f ≤ m.bad + 1 then some (.failed (resultKindOf res)) else none⟩ := if_neg h

theorem countSuspect_failed (hbad : BadAs res k) (h : j.f ≤ m.bad + 1) :
    countSuspect j m res = ⟨0, m.bad + 1, m.verify, some (.failed k)⟩ := by
  rw [countSuspect_not_good hbad.spec.1, if_pos h, hbad.spec.2]

theorem countSuspect_bad (hbad : BadAs res k) (h : m.bad + 1 < j.f) : countSuspect j m res = ⟨0, m.bad + 1, m.verify, none⟩ := by
  rw [countSuspect_not_good hbad.spec.1, if_neg (Nat.not_le.mpr h)]

end

/-- Settles O23: sixteen surveys by induction over their results, and the tables row by row. -/
theorem verdictRules : Obligations.VerdictRules :=
  ⟨verdictWithin_isSome,
    fun _ _ => ⟨countVerifying_verified, countVerifying_good, fun _ _ h => ⟨countVerifying_failed h, countVerifying_bad h⟩⟩,
    fun _ _ => ⟨countRunning_good,
      fun _ _ h => ⟨countRunning_failed h, countRunning_degraded h, countSuspect_failed h, countSuspect_bad h⟩,
      countSuspect_recovered, countSuspect_good⟩⟩

/-! ### Counting RCO (R31) -/

section
variable {j : JudgeSettings} {st : RcoState} {g b : Nat} {res : SurveyResult}

/-- RCO enters RUNNING at K good surveys from every other state. -/
theorem countRco_trusted (hst : st ≠ .running) (h : j.k ≤ g + 1) : countRco j st g b .good = ⟨0, 0, some .running⟩ := by
  cases st
  case running => exact absurd rfl hst
  all_goals exact if_pos h

/-- Below K, a good survey clears the bad count in UNCHECKED alone. -/
theorem countRco_good (h : g + 1 < j.k) :
    countRco j .unchecked g b .good = ⟨g + 1, 0, none⟩ ∧ countRco j .suspect g b .good = ⟨g + 1, b, none⟩
    ∧ countRco j .faulted g b .good = ⟨g + 1, b, none⟩ := by
  have hk : ¬ j.k ≤ g + 1 := Nat.not_le.mpr h
  exact ⟨if_neg hk, if_neg hk, if_neg hk⟩

/-- What a result other than GOOD does in each state. -/
theorem countRco_not_good (h : res ≠ .good) :
    (∀ st, st = .unchecked ∨ st = .suspect →
      countRco j st g b res = if j.f ≤ b + 1 then ⟨0, 0, some .faulted⟩ else ⟨0, b + 1, none⟩)
    ∧ countRco j .running g b res = (if j.f ≤ 1 then ⟨0, 0, some .faulted⟩ else ⟨0, 1, some .suspect⟩)
    ∧ countRco j .faulted g b res = ⟨0, b, none⟩ := by
  unfold countRco
  rw [decide_eq_false h]
  refine ⟨?_, rfl, rfl⟩
  rintro _ (rfl | rfl) <;> rfl

end

/-- Settles O24: a good result by whether it is the K-th, a bad one by RCO's state and whether it is the F-th. -/
theorem rcoCounts : Obligations.RcoCounts := by
  intro j g b bad hbad
  have hne : bad ≠ .good := by rcases hbad with rfl | rfl <;> nofun
  obtain ⟨hchecking, hrunning, hfaulted⟩ := countRco_not_good (j := j) (g := g) (b := b) hne
  refine ⟨fun st hst => ⟨countRco_trusted ?_, fun h => ?_, fun h => ?_⟩, countRco_good, countRco_trusted nofun, hfaulted, rfl,
    fun h => ?_, fun h => ?_⟩
  · rcases hst with rfl | rfl <;> nofun
  · rw [hchecking st hst, if_pos h]
  · rw [hchecking st hst, if_neg (Nat.not_le.mpr h)]
  · rw [hrunning, if_neg (Nat.not_le.mpr h)]
  · rw [hrunning, if_pos h]

/-! ### MONITOR SET and MONITOR QUERY (R34 to R36) -/

section
variable {r : MonitorSetReq} {s : State}

theorem performMonitorSet_refused
    (h : (monitorOfReq r).inRanges = false ∨ periodFits s.clk.src (monitorOfReq r).period = false) :
    performMonitorSet r s = .refuse s .badValue := by
  refine if_pos ?_
  rcases h with h | h <;> simp [h]

theorem performMonitorSet_accepted (hr : (monitorOfReq r).inRanges = true)
    (hp : periodFits s.clk.src (monitorOfReq r).period = true) :
    performMonitorSet r s = .ok { s with clk := s.clk.withMonitor s.tick (monitorOfReq r) } [] :=
  if_neg (by simp [hr, hp])

end

section
variable {k : Clocks} {tick : Tick} {m : MonitorSettings}

/-- The period as it was: the survey in progress goes on (R35). -/
theorem withMonitor_same (h : m.period = k.mon.settings.period) :
    k.withMonitor tick m = { k with mon := { k.mon with settings := m } } := if_pos h

/-- A changed period: the survey in progress is abandoned, and a new one begins under the new settings (R35). -/
theorem withMonitor_changed (h : m.period ≠ k.mon.settings.period) :
    k.withMonitor tick m = beginSurvey tick { k with mon := { k.mon with settings := m } } := if_neg h

/-- The new settings are in force; RCO's record and the survey number stay, also where a new survey begins (R35). -/
theorem mon_withMonitor (k : Clocks) (tick : Tick) (m : MonitorSettings) :
    (k.withMonitor tick m).mon.settings = m ∧ (k.withMonitor tick m).mon.rco = k.mon.rco
    ∧ (k.withMonitor tick m).mon.surveyNumber = k.mon.surveyNumber := by
  by_cases h : m.period = k.mon.settings.period
  · rw [withMonitor_same h]; exact ⟨rfl, rfl, rfl⟩
  · rw [withMonitor_changed h]; exact ⟨rfl, rfl, rfl⟩

end

/-- Settles O39: the query reads the state alone; the set by its two checks, the clocks it leaves by whether the period changes. -/
theorem monitorRequests : Obligations.MonitorRequests := by
  intro s tag ht
  have hquery : exec (.monitorQuery tag) s = .next (takeFrame tag 0x19#8 performMonitorQuery s) := rfl
  refine ⟨accepted_of_ok ht hquery rfl, fun r => ?_⟩
  intro m
  have hset : exec (.monitorSet tag r) s = .next (takeFrame tag 0x18#8 (performMonitorSet r) s) := rfl
  refine ⟨fun h => refuses_of_refuse ht hset (performMonitorSet_refused h), fun hr hp => ?_⟩
  obtain ⟨hsrc, houts⟩ := clk_withMonitor s.clk s.tick m
  obtain ⟨hsettings, hrco, hnumber⟩ := mon_withMonitor s.clk s.tick m
  refine ⟨s.clk.withMonitor s.tick m, accepted_of_ok ht hset (performMonitorSet_accepted (s := s.hunt) hr hp), hsrc, houts,
    hsettings, hrco, hnumber, fun h => ?_, fun h => ?_⟩
  · rw [withMonitor_same h]
    exact ⟨rfl, rfl⟩
  · rw [withMonitor_changed h]
    exact ⟨rfl, fun o => mon_beginSurvey s.tick _ o⟩

end Sys2Proof.Machine
end

section
/-! PROOFS. Every step keeps the gate law (O12), the output records (O13) and, while the part runs, every output standing as its
wanted-ness has it (O14). An effect either moves nothing that these see, or ends in an event's course, which brings both about. -/

namespace Sys2Proof.Machine

/-! ### Effects that keep the gate law and how outputs stand -/

/-- From `s` to `t` a command's effect has kept the gate law, and every output standing as its wanted-ness has it. -/
structure Switches (s t : State) : Prop where
  gate : gateLaw s.clk → gateLaw t.clk
  stand : outputsStand s → outputsStand t

theorem Switches.refl (s : State) : Switches s s := ⟨id, id⟩

theorem Switches.trans {s t u : State} (h : Switches s t) (g : Switches t u) : Switches s u :=
  ⟨g.gate ∘ h.gate, g.stand ∘ h.stand⟩

/-- An effect that leaves the outputs, which sources feed gates, the active profile and the claims. -/
theorem Switches.of_feeds {s t : State} (ho : t.clk.outs = s.clk.outs) (hf : ∀ x, feeds t.clk.src x = feeds s.clk.src x)
    (hp : t.active = s.active) (hc : t.claims = s.claims) : Switches s t where
  gate h o := by rw [ho]; simpa only [hf] using h o
  stand h o := by
    have hs := h o
    unfold State.out State.wants at hs ⊢
    rw [ho, hp, hc]
    exact hs

/-- An effect outside clocks, active profile and claims. -/
theorem Switches.quiet {s t : State} (hk : t.clk = s.clk) (hp : t.active = s.active) (hc : t.claims = s.claims) : Switches s t :=
  .of_feeds (by rw [hk]) (fun _ => by rw [hk]) hp hc

/-- An event runs its course (R44, R54). -/
theorem Switches.event (cause : Cause) (s s0 s' : State) (f : Env → Ev → Ev) : Switches s (runEvent cause s0 s' f) :=
  ⟨fun _ => gateLaw_runEvent _ _ _ _, fun _ => outputsStand_runEvent _ _ _ _⟩

/-- A change evaluated. -/
theorem Switches.evaluated (cause : Cause) (s s0 s' : State) : Switches s (reevaluate cause s0 s') := .event ..

/-- A source's record rewritten within its state. -/
theorem Switches.putOsc {s : State} {o : Osc} {r : OscRec} (h : r.state = (s.osc o).state) : Switches s (s.putOsc o r) := by
  refine .of_feeds rfl (fun x => ?_) rfl rfl
  cases x with
  | rco => rfl
  | osc x =>
    have hst : ((s.putOsc o r).clk.src.osc.get x).state = (s.clk.src.osc.get x).state := by
      rw [State.clk_putOsc, BankOsc.get_set]
      split
      · rename_i hx; subst hx; exact h
      · rfl
    unfold feeds
    dsimp only
    rw [hst]

/-- Whether the gate is open is told by the state. -/
theorem gateOpen_congr {r q : OutRec} (h : r.state = q.state) : r.gateOpen = q.gateOpen := by
  unfold OutRec.gateOpen
  rw [h]

/-- An output's record rewritten in its state and configuration, on the source it was on. -/
theorem Switches.putOut {s : State} {o : Fin 8} {r : OutRec} (hc : r.cfg = (s.out o).cfg) (hs : r.state = (s.out o).state)
    (hu : r.current.map Use.src = (s.out o).current.map Use.src) : Switches s (s.putOut o r) where
  gate h x hx := by
    rw [get_putOut] at hx ⊢
    split
    · rename_i hxo; subst hxo
      rw [if_pos rfl] at hx
      obtain ⟨u, hcur, hfed⟩ := h x ((gateOpen_congr hs).symm.trans hx)
      obtain ⟨w, hw, hsrc⟩ := Option.map_eq_some_iff.mp (hu.trans (by rw [State.out, hcur]; rfl) : r.current.map Use.src = some u.src)
      exact ⟨w, hw, by rw [hsrc]; exact hfed⟩
    · rename_i hxo
      rw [if_neg hxo] at hx
      exact h x hx
  stand h x := by
    have hst := h x
    unfold State.out State.wants at hst ⊢
    rw [get_putOut]
    split
    · rename_i hxo; subst hxo
      rw [show r.cfg = (s.clk.outs.get x).cfg from hc]
      unfold OutRec.standsAs at hst ⊢
      rw [show r.state = (s.clk.outs.get x).state from hs, show r.cfg = (s.clk.outs.get x).cfg from hc]
      exact hst
    · exact hst

/-! ### Requests -/

section
variable (s : State)

theorem switches_sourceSet (r : SourceSetReq) : Switches s (performSourceSet r s).state := by
  unfold performSourceSet
  split
  · exact .refl s
  · exact .refl s
  · split
    · exact .refl s
    · dsimp only
      split
      · exact .refl s
      · split
        · exact .refl s
        · rw [Done.state_ok]; exact .event ..

theorem switches_sourceKeep (x f : Byte) : Switches s (performSourceKeep x f s).state := by
  unfold performSourceKeep
  split
  · exact .refl s
  · exact .refl s
  · split
    · exact .refl s
    · exact .evaluated ..

theorem switches_clearSource (o : Osc) : Switches s (clearSource o s) := by
  unfold clearSource
  dsimp only
  split
  · exact .event ..
  · exact .event ..
  · exact .putOsc rfl

theorem switches_clearRco : Switches s (clearRco s) := by
  unfold clearRco
  split
  · exact .event ..
  · exact .refl s

theorem switches_sourceClear (x : Byte) : Switches s (performSourceClear x s).state := by
  unfold performSourceClear
  split
  · exact .refl s
  · exact switches_clearRco s
  · exact switches_clearSource s _

theorem switches_monitorSet (r : MonitorSetReq) : Switches s (performMonitorSet r s).state := by
  unfold performMonitorSet
  dsimp only
  split
  · exact .refl s
  · obtain ⟨hsrc, houts⟩ := clk_withMonitor s.clk s.tick (monitorOfReq r)
    exact .of_feeds houts (fun x => congrArg (feeds · x) hsrc) rfl rfl

theorem switches_outputSet (r : OutputSetReq) : Switches s (performOutputSet r s).state := by
  unfold performOutputSet
  split
  · exact .refl s
  · split
    · exact .refl s
    · split
      · exact .refl s
      · exact .evaluated ..

theorem switches_selectOutput (o : Fin 8) (entry : Option (Fin 4)) : Switches s (selectOutput o entry s).state := by
  unfold selectOutput
  split
  · exact .refl s
  · cases entry with
    | none => exact .evaluated ..
    | some i =>
      dsimp only
      split
      · exact .refl s
      · exact .evaluated ..

theorem switches_outputSelect (x i : Byte) : Switches s (performOutputSelect x i s).state := by
  unfold performOutputSelect
  split
  · exact .refl s
  · split
    · exact .refl s
    · split
      · exact .refl s
      · exact switches_selectOutput s _ _

theorem switches_outputQuery (x : Byte) : Switches s (performOutputQuery x s).state := by
  unfold performOutputQuery
  split
  · exact .refl s
  · split
    · exact .refl s
    · exact .quiet rfl rfl rfl

theorem switches_chainSet (r : ChainSetReq) : Switches s (performChainSet r s).state := by
  unfold performChainSet
  split
  · exact .refl s
  · split
    · exact .refl s
    · split
      · exact .refl s
      · split
        · exact .refl s
        · split
          · exact .refl s
          · dsimp only; rw [Done.state_ok]; exact .event ..

theorem switches_claim (r : ClaimReq) : Switches s (performClaim r s).state := by
  unfold performClaim
  split
  · exact .refl s
  · exact .refl s
  · split
    · exact .refl s
    · split
      · exact .refl s
      · dsimp only
        split
        · exact .refl s
        · exact .evaluated ..

theorem switches_releaseOne (n : Byte) (o : Fin 8) : Switches s (releaseOne n o s).state := by
  unfold releaseOne
  split
  · exact .evaluated ..
  · exact .refl s

theorem switches_releaseEvery (n : Byte) : Switches s (releaseEvery n s).state := .evaluated ..

theorem switches_release (c : Half) (x : Byte) : Switches s (performRelease c x s).state := by
  unfold performRelease
  split
  · exact .refl s
  · exact .refl s
  · split
    · exact .refl s
    · exact switches_releaseOne s _ _

theorem switches_releaseAll (c : Half) : Switches s (performReleaseAll c s).state := by
  unfold performReleaseAll
  split
  · exact .refl s
  · exact .refl s
  · exact switches_releaseEvery s _

theorem switches_lineMapSet (r : LineMapReq) : Switches s (performLineMapSet r s).state := by
  unfold performLineMapSet
  split
  · exact .refl s
  · split
    · exact .refl s
    · dsimp only
      split
      · exact .refl s
      · split
        · exact .refl s
        · exact .evaluated ..

/-- A stack with the same top leaves the active profile; another top is a transition, evaluated (R106, R113). -/
theorem switches_changeStack (c : TransitionCause) (k : Stack) : Switches s (changeStack c k s) := by
  unfold changeStack
  split
  · rename_i ht
    exact .quiet rfl (by simp only [State.active, ht]) rfl
  · exact .evaluated ..

theorem switches_wakeEvent (c : WakeCause) : Switches s (wakeEvent c s) :=
  .trans (.quiet (t := s.post (wakePosting c s)) rfl rfl rfl) (switches_changeStack _ _ _)

theorem switches_offerWake (c : WakeCause) : Switches s (offerWake c s) := by
  unfold offerWake
  split
  · exact switches_wakeEvent s c
  · exact .refl s

theorem switches_profileEnter (x : Byte) : Switches s (performProfileEnter x s).state := by
  unfold performProfileEnter
  split
  · exact .refl s
  · exact switches_changeStack s _ _

theorem switches_resumeProfile (c : TransitionCause) : Switches s (resumeProfile c s).state := by
  unfold resumeProfile
  split
  · exact .refl s
  · exact switches_changeStack s _ _

theorem switches_resumeTarget (x : Byte) : Switches s (performResumeTarget x s).state := by
  unfold performResumeTarget
  split
  · exact .refl s
  · split
    · exact .refl s
    · exact .quiet rfl rfl rfl

theorem switches_profileSet (r : ProfileSetReq) : Switches s (performProfileSet r s).state := by
  unfold performProfileSet
  split
  · exact .refl s
  · split
    · exact .refl s
    · dsimp only
      rw [Done.state_ok]
      split
      · exact .evaluated ..
      · rename_i hp
        exact .quiet rfl (by simp only [State.active, Bank6.get_set, Ne.symm hp, if_false]) rfl

theorem switches_actionAdd (r : ActionAddReq) : Switches s (performActionAdd r s).state := by
  unfold performActionAdd
  split
  · exact .refl s
  · split
    · exact .refl s
    · split
      · exact .refl s
      · exact .quiet rfl rfl rfl

theorem switches_actionCancel (n : Byte) : Switches s (performActionCancel n s).state := by
  unfold performActionCancel
  split
  · exact .refl s
  · split
    · exact .refl s
    · exact .quiet rfl rfl rfl

theorem switches_noticeAck (n : Half) : Switches s (performNoticeAck n s).state := by
  unfold performNoticeAck
  split
  · exact .refl s
  · split
    · exact .refl s
    · exact .quiet rfl rfl rfl

theorem switches_noticeFilter (f : Half) : Switches s (performNoticeFilter f s).state := by
  unfold performNoticeFilter
  split
  · exact .refl s
  · exact .quiet rfl rfl rfl

theorem switches_imageSave (x : Byte) : Switches s (performImageSave x s).state := by
  unfold performImageSave
  split
  · exact .refl s
  · split
    · exact .refl s
    · split
      · exact .refl s
      · exact .quiet rfl rfl rfl

/-- A request that only answers. -/
theorem Switches.answer {p : State → Done} (h : (p s).state = s) : Switches s (p s).state := by
  rw [h]; exact .refl s

/-- Every request keeps the gate law and how outputs stand. -/
theorem switches_request (r : Request) : Switches s (performRequest r s).state := by
  cases r with
  | identify => exact .refl s
  | echo b => exact .answer (p := performEcho b) s (by unfold performEcho; split <;> rfl)
  | restart => exact .quiet rfl rfl rfl
  | sourceSet r => exact switches_sourceSet s r
  | sourceQuery x => exact .answer (p := performSourceQuery x) s (by unfold performSourceQuery; split <;> rfl)
  | sourceKeep x f => exact switches_sourceKeep s x f
  | sourceClear x => exact switches_sourceClear s x
  | monitorSet r => exact switches_monitorSet s r
  | monitorQuery => exact .refl s
  | outputSet r => exact switches_outputSet s r
  | outputQuery x => exact switches_outputQuery s x
  | outputSelect x i => exact switches_outputSelect s x i
  | chainSet r => exact switches_chainSet s r
  | chainQuery x => exact .answer (p := performChainQuery x) s (by unfold performChainQuery; split <;> rfl)
  | claim r => exact switches_claim s r
  | release c x => exact switches_release s c x
  | releaseAll c => exact switches_releaseAll s c
  | claimList f => exact .answer (p := performClaimList f) s (by unfold performClaimList; split <;> rfl)
  | lineMapSet r => exact switches_lineMapSet s r
  | lineQuery x => exact .answer (p := performLineQuery x) s (by unfold performLineQuery; split <;> rfl)
  | profileSet r => exact switches_profileSet s r
  | profileQuery x => exact .answer (p := performProfileQuery x) s (by unfold performProfileQuery; split <;> rfl)
  | profileEnter x => exact switches_profileEnter s x
  | resume => exact switches_resumeProfile s _
  | resumeTarget x => exact switches_resumeTarget s x
  | stackQuery => exact .refl s
  | timeQuery => exact .refl s
  | actionAdd r => exact switches_actionAdd s r
  | actionCancel n => exact switches_actionCancel s n
  | actionList f => exact .answer (p := performActionList f) s (by unfold performActionList; split <;> rfl)
  | noticeAck n => exact switches_noticeAck s n
  | noticeResend => exact .quiet rfl rfl rfl
  | noticeFilter f => exact switches_noticeFilter s f
  | imageSave x => exact switches_imageSave s x
  | imageInfo => exact .refl s

end

/-! ### Events of the running part -/

section
variable (s : State)

theorem switches_failStart (o : Osc) (k : TimerKind) : Switches s (failStart o k s) := by
  unfold failStart
  split
  · exact .event ..
  · exact .refl s

theorem switches_detectStart (o : Osc) : Switches s (detectStart o s) := by
  unfold detectStart
  split
  · exact .event ..
  · exact .refl s

theorem switches_detectLock : Switches s (detectLock s) := by
  unfold detectLock
  split
  · exact .event ..
  · exact .refl s

theorem switches_expireQuarantine (o : Osc) : Switches s (expireQuarantine o s) := by
  unfold expireQuarantine
  split
  · exact .event ..
  · exact .refl s

theorem switches_expireRehabilitation (o : Osc) : Switches s (expireRehabilitation o s) := by
  unfold expireRehabilitation
  split
  · exact .putOsc rfl
  · exact .refl s

theorem switches_finishRelease (o : Fin 8) (why : OutReason) : Switches s (finishRelease o why s) := by
  unfold finishRelease
  split
  · exact .event ..
  · exact .refl s

theorem switches_finishAcquire (o : Fin 8) : Switches s (finishAcquire o s) := by
  unfold finishAcquire
  split
  · exact .event ..
  · exact .refl s

theorem switches_timeoutAcquire (o : Fin 8) : Switches s (timeoutAcquire o s) := by
  unfold timeoutAcquire
  split
  · exact .event ..
  · exact .refl s

/-- A divider change leaves the output in its state and on its source (R52). -/
theorem switches_takeDivider (o : Fin 8) : Switches s (s.putOut o (takeDivider (s.out o))) := by
  rcases takeDivider_cases (s.out o) with h | ⟨u, d, hs, hc, -, h⟩
  · rw [h, State.putOut_self]; exact .refl s
  · rw [h]; exact .putOut rfl rfl (by rw [hc]; rfl)

theorem switches_expireRevert (o : Fin 8) : Switches s (expireRevert o s) := by
  unfold expireRevert
  split
  · split
    · exact .refl s
    · split
      · exact .putOut rfl rfl rfl
      · exact .evaluated ..
  · exact .refl s

theorem switches_expireLease (n : Byte) (o : Fin 8) : Switches s (expireLease n o s) := by
  unfold expireLease
  split
  · split
    · exact .evaluated ..
    · exact .refl s
  · exact .refl s

theorem switches_testSettled : Switches s s.testSettled := .quiet (by simp) (by simp [State.active]) (by simp)

theorem switches_activateLine (l : Fin 8) : Switches s (activateLine l s) := by
  unfold activateLine
  split
  · exact .refl s
  · exact ((Switches.evaluated ..).trans (switches_testSettled _)).trans (switches_offerWake _ _)

theorem switches_deactivateLine (l : Fin 8) : Switches s (deactivateLine l s) := by
  unfold deactivateLine
  split
  · exact .evaluated ..
  · exact .refl s

theorem switches_expireHold (l : Fin 8) : Switches s (expireHold l s) := by
  unfold expireHold
  split
  · exact .evaluated ..
  · exact .refl s

theorem switches_performAction (a : Action) : Switches s (performAction a s).state := by
  unfold performAction
  split
  · exact switches_changeStack s _ _
  · exact switches_wakeEvent s _
  · exact switches_resumeProfile s _
  · exact switches_releaseEvery s _
  · exact switches_releaseOne s _ _
  · exact switches_selectOutput s _ _
  · exact .refl s

theorem switches_settleAction (a : Action) : Switches s (settleAction a s) := by
  unfold settleAction
  split
  · exact switches_testSettled s
  · exact switches_testSettled s
  · exact .refl s

theorem switches_fireHead : Switches s (fireHead s) := by
  unfold fireHead
  split
  · exact .refl s
  · rename_i a rest _
    split
    · have hrest : Switches s { s with actions := rest } := .quiet rfl rfl rfl
      have hdone := (hrest.trans (switches_performAction _ a)).trans (switches_settleAction _ a)
      exact hdone.trans (.quiet rfl rfl rfl)
    · exact .refl s

theorem switches_endCheck (good : Bool) : Switches s (endCheck good s) := by
  unfold endCheck
  split
  · split
    · exact .quiet rfl rfl rfl
    · exact .refl s
  · exact .refl s

theorem switches_expireGap : Switches s (expireGap s) := by
  unfold expireGap
  split
  · exact .quiet rfl rfl rfl
  · exact .refl s

theorem switches_restartTakesEffect : Switches s (restartTakesEffect s) :=
  .quiet (State.clk_cutSave s) (active_congr (State.profiles_cutSave s) (State.stack_cutSave s)) (State.claims_cutSave s)

theorem switches_endFrame : Switches s (endFrame s) := by
  unfold endFrame
  split
  · exact .refl s
  · have hsent : Switches s { s with link := { s.link with onLtx := none } } := .quiet rfl rfl rfl
    dsimp only
    split
    · exact hsent.trans (switches_restartTakesEffect _)
    · exact hsent

/-- Every event of the running part does; a character received is a step of its own. -/
theorem switches_runningEvent {i : Instr} {f : State → State} (hf : eventBody i = some f)
    (hc : ∀ c b, i ≠ .characterReceived c b) : Switches s (f s) := by
  cases i <;> cases hf
  case characterReceived c b => exact absurd rfl (hc c b)
  case gap => exact switches_expireGap s
  case linkBreak => exact .quiet rfl rfl rfl
  case frameSent => exact switches_endFrame s
  case startDetection o => exact switches_detectStart s o
  case startTimerExpiry o => exact switches_failStart s o _
  case lockDetection => exact switches_detectLock s
  case lockTimerExpiry => exact switches_failStart s _ _
  case quarantineExpiry o => exact switches_expireQuarantine s o
  case rehabilitationExpiry o => exact switches_expireRehabilitation s o
  case surveyCompletion => exact .event ..
  case releaseEnd o => exact switches_finishRelease s o _
  case releaseTimeout o => exact switches_finishRelease s o _
  case acquireEnd o => exact switches_finishAcquire s o
  case acquireTimeout o => exact switches_timeoutAcquire s o
  case dividerChange o => exact switches_takeDivider s o
  case revertTimerExpiry o => exact switches_expireRevert s o
  case leaseExpiry n o => exact switches_expireLease s n o
  case lineActivation l => exact switches_activateLine s l
  case lineDeactivation l => exact switches_deactivateLine s l
  case holdExpiry l => exact switches_expireHold s l
  case wakePinEdge => exact switches_offerWake s _
  case tick => exact .quiet rfl rfl rfl
  case actionFiring => exact switches_fireHead s
  case eraseComplete => exact .quiet rfl rfl rfl
  case writeComplete => exact .quiet rfl rfl rfl
  case checkComplete good => exact switches_endCheck s good

theorem switches_endEvent : Switches s s.endEvent :=
  .quiet (State.clk_endEvent s) (active_congr (State.profiles_endEvent s) (State.stack_endEvent s)) (State.claims_endEvent s)

end

/-! ### Start-up events -/

/-- Outputs in OFF and PARKED have no gate open (R61). -/
theorem gateLaw_cold (c : BoardConfig) {st : OutConfig → OutState} (hst : ∀ g, st g = .off ∨ st g = .parked) :
    gateLaw (.cold c st) := by
  intro o ho
  rw [show (Clocks.cold c st).outs.get o = .cold (c.outs.get o) (st (c.outs.get o)) from Bank8.get_ofFn ..] at ho
  rcases hst (c.outs.get o) with h | h <;> rw [h] at ho <;> cases ho

/-- A start-up event cuts the part off cold, leaves the clocks, or evaluates every output (LIVE). -/
theorem gateLaw_start {i : Instr} {f : State → State} (s : State) (hf : startBody i = some f) (h : gateLaw s.clk) :
    gateLaw (f s).clk := by
  cases i <;> cases hf
  case coldStart supply => exact gateLaw_cold _ fun _ => .inl rfl
  case resetRelease => unfold releaseReset; split <;> exact h
  case powerupEnd b1 b0 => unfold endPowerup; split <;> exact h
  case selectDone =>
    unfold endSelect
    split
    · dsimp only
      split
      · exact h
      · refine gateLaw_cold _ fun g => ?_
        split
        · exact .inr rfl
        · exact .inl rfl
    · exact h
  case live pins =>
    unfold reachLive
    split
    · rw [State.clk_endEvent]
      split
      · exact gateLaw_runEvent _ _ _ _
      · exact gateLaw_reevaluate _ _ _
    · exact h

/-- After a start-up event that leaves the part running, outputs stand as they stood before, or as LIVE's evaluation leaves them. -/
theorem outputsStand_start {i : Instr} {f : State → State} (s : State) (hf : startBody i = some f)
    (h : s.startup.running = true → outputsStand s) (hrun : (f s).startup.running = true) : outputsStand (f s) := by
  cases i <;> cases hf
  case coldStart supply => cases hrun
  case resetRelease =>
    unfold releaseReset at hrun ⊢
    split at hrun
    · rename_i hs; simp [Startup.running, hs] at hrun
    · rename_i hs; rw [if_neg hs]; exact h hrun
  case powerupEnd b1 b0 =>
    unfold endPowerup at hrun ⊢
    split at hrun
    · cases hrun
    · rename_i hs; rw [if_neg hs]; exact h hrun
  case selectDone =>
    unfold endSelect at hrun ⊢
    by_cases hs : s.startup.state = .select
    · rw [if_pos hs] at hrun ⊢
      dsimp only at hrun ⊢
      cases hw : s.startup.warm with
      | true => exact h (by simp [Startup.running, hs, hw])
      | false => simp [hw, applyCold, Startup.running] at hrun
    · rw [if_neg hs] at hrun ⊢
      exact h hrun
  case live pins =>
    unfold reachLive at hrun ⊢
    split at hrun
    · rename_i hs
      rw [if_pos hs]
      apply outputsStand_endEvent
      split
      · exact outputsStand_runEvent _ _ _ _
      · exact outputsStand_reevaluate _ _ _
    · rename_i hs; rw [if_neg hs]; exact h hrun

/-! ### Every step -/

theorem running_of_isLive {s : State} (h : s.isLive = true) : s.startup.running = true := by
  rw [State.isLive, decide_eq_true_eq] at h
  rw [Startup.running, h]

/-- Settles O12: a request or an event of the running part keeps the law (`Switches`), a start-up event closes every gate, moves none,
or evaluates them all. -/
theorem stepKeepsGateLaw : Obligations.StepKeepsGateLaw := fun _ _ h hs =>
  step_keeps (P := fun s => gateLaw s.clk) (fun _ _ h => h) (fun _ _ h => h) (fun s h => (switches_endEvent s).gate h)
    (fun r s _ h => (switches_request s r).gate h) (fun _ _ s hf hc _ h => (switches_runningEvent s hf hc).gate h)
    (fun _ _ s hf h => gateLaw_start s hf h) h hs

/-- Settles O13: requests and events keep the output records (`Keeps`), start-up events write cold or restarted ones. -/
theorem stepKeepsOutputRecords : Obligations.StepKeepsOutputRecords := fun _ _ h hs =>
  step_keeps (P := fun s => outputsOk s.clk) (fun _ _ h => h) (fun _ _ h => h) (fun s h => (keeps_endEvent s).outs h)
    (fun r s _ h => (keeps_request r s).outs h) (fun _ _ s hf hc _ h => (keeps_event s hf hc).outs h)
    (fun _ _ s hf h => (keepsRecords_start s hf).2 h) h hs

/-- Settles O14: a request or an event is taken while the part runs, and keeps how outputs stand (`Switches`); of the start-up events,
only those that leave the outputs or evaluate them leave the part running. -/
theorem stepKeepsOutputsStanding : Obligations.StepKeepsOutputsStanding := fun _ _ h hs =>
  step_keeps (P := fun s => s.startup.running = true → outputsStand s) (fun _ _ h => h) (fun _ _ h => h)
    (fun s h hrun => (switches_endEvent s).stand (h (by rwa [State.startup_endEvent] at hrun)))
    (fun r s hl h _ => (switches_request s r).stand (h (running_of_isLive hl)))
    (fun _ _ s hf hc hrun h _ => (switches_runningEvent s hf hc).stand (h hrun))
    (fun _ _ s hf h => outputsStand_start s hf h) h hs

end Sys2Proof.Machine
end

section
/-! PROOFS. What makes an output wanted (O26), and what the pins show (O30). -/

namespace Sys2Proof

/-! ### Banks searched -/

theorem Bank8.any_toList {α : Type} (b : Bank8 α) (p : α → Bool) : b.toList.any p = true ↔ ∃ i, p (b.get i) = true := by
  rw [show b.toList = eight.map b.get from rfl, List.any_map, List.any_eq_true]
  exact ⟨fun ⟨i, _, h⟩ => ⟨i, h⟩, fun ⟨i, h⟩ => ⟨i, mem_eight i, h⟩⟩

theorem BankOsc.any_toList {α : Type} (b : BankOsc α) (p : α → Bool) : b.toList.any p = true ↔ ∃ i, p (b.get i) = true := by
  rw [show b.toList = oscs.map b.get from rfl, List.any_map, List.any_eq_true]
  exact ⟨fun ⟨i, _, h⟩ => ⟨i, h⟩, fun ⟨i, h⟩ => ⟨i, mem_oscs i, h⟩⟩

end Sys2Proof

namespace Sys2Proof.Machine

/-! ### Wanted outputs (R43) -/

theorem claimed_iff (cs : List Claim) (o : Fin 8) : claimed cs o = true ↔ ∃ c ∈ cs, c.output = o := by
  simp [claimed]

theorem wanted_iff (p : ProfileRec) (cs : List Claim) (o : Fin 8) (cfg : OutConfig) : wanted p cs o cfg = true ↔
    cfg.enable = true ∧ (p.policy.get o = .run ∨ (p.policy.get o = .onClaim ∧ ∃ c ∈ cs, c.output = o)
      ∨ cfg.essential = true) := by
  rw [wanted, Bool.and_eq_true]
  refine and_congr_right fun _ => ?_
  cases p.policy.get o with
  | run => simp
  | onClaim => simp [claimed_iff]
  | stop => simp

/-- Settles O26: the policy by cases. -/
theorem wantedRule : Obligations.WantedRule := fun s o => wanted_iff s.active s.claims o (s.out o).cfg

/-! ### The pins of outputs (R40, R42, R61) -/

/-- Where the outputs drive their pins: from APPLY on, and all through a warm restart (R61, R133). -/
theorem outPin_driven {s : State} (h : s.startup.state = .live ∨ s.startup.state = .apply
    ∨ (s.startup.state = .select ∧ s.startup.warm = true)) (o : Fin 8) : s.outPin o = (s.out o).drive := by
  rcases h with h | h | ⟨h, hw⟩
  · rw [State.outPin, h]; rfl
  · rw [State.outPin, h]; rfl
  · rw [State.outPin, h, hw]; rfl

theorem outPin_powerup {s : State} (h : s.startup.state = .powerup) (o : Fin 8) : s.outPin o = .highImpedance := by
  rw [State.outPin, h]

theorem outPin_select_cold {s : State} (h : s.startup.state = .select) (hw : s.startup.warm = false) (o : Fin 8) :
    s.outPin o = .highImpedance := by
  rw [State.outPin, h, hw]
  rfl

/-- An open gate shows the clock of the current source (R42). -/
theorem drive_open {r : OutRec} {u : Use} (h : r.gateOpen = true) (hu : r.current = some u) : r.drive = .clock u := by
  unfold OutRec.gateOpen at h
  unfold OutRec.drive
  split at h
  · rename_i hs; rw [hs, hu]
  · rename_i hs; rw [hs, hu]
  · cases h

theorem drive_acquire {r : OutRec} (h : r.state = .switching .acquire) : r.drive = .low := by rw [OutRec.drive, h]

/-- Outside the phases a closed gate leaves the stop level (R42). -/
theorem drive_stopped {r : OutRec} (h : r.state = .off ∨ r.state = .parked ∨ r.state = .waiting ∨ r.state = .dark) :
    r.drive = stopDrive r.cfg.stop := by
  rcases h with h | h | h | h <;> rw [OutRec.drive, h]

/-- SELECT_DONE of a cold start brings the configuration into the records, and every output to rest (R61; log 8). -/
theorem selectDone_cold {s : State} (h : s.startup.state = .select) (hw : s.startup.warm = false) (o : Fin 8) :
    (endSelect s).startup.state = .apply ∧ (endSelect s).outPin o = stopDrive ((endSelect s).out o).cfg.stop := by
  have hstate : (endSelect s).startup.state = .apply := by rw [endSelect, if_pos h]; simp [hw, applyCold]
  refine ⟨hstate, (outPin_driven (.inr (.inl hstate)) o).trans (drive_stopped ?_)⟩
  have hout : ∃ c : OutConfig, (endSelect s).out o = .cold c (if c.enable then .parked else .off) := by
    rw [endSelect, if_pos h]
    simp only [hw, Bool.false_eq_true, if_false, applyCold, Clocks.cold, State.out, Bank8.get_ofFn]
    exact ⟨_, rfl⟩
  obtain ⟨c, hc⟩ := hout
  rw [hc]
  cases hen : c.enable with
  | true => exact .inr (.inl rfl)
  | false => exact .inl rfl

/-! ### ALERT# and RDY (R56, R133, R152) -/

theorem alertCondition_iff (k : Clocks) : alertCondition k = true ↔
    (∃ x, (k.outs.get x).state = .dark)
    ∨ (∃ x, (k.src.osc.get x).state = .faulted ∨ (k.src.osc.get x).state = .quarantined ∨ (k.src.osc.get x).state = .lockedOut)
    ∨ k.src.rco.state = .faulted := by
  rw [alertCondition, Bool.or_eq_true, Bool.or_eq_true, Bank8.any_toList, BankOsc.any_toList, or_assoc]
  simp only [decide_eq_true_eq]
  refine or_congr Iff.rfl (or_congr (exists_congr fun x => ?_) Iff.rfl)
  cases (k.src.osc.get x).state <;> simp

theorem alertLow_applied {s : State} (h : s.startup.state = .live ∨ s.startup.state = .apply) :
    s.alertLow = alertCondition s.clk := by
  rcases h with h | h <;> rw [State.alertLow, h]

theorem rdy_iff (s : State) : s.rdy = true ↔ s.startup.state = .live ∧ s.link.windowCount < 4 := by
  rw [State.rdy, State.isLive, Bool.and_eq_true, decide_eq_true_eq, decide_eq_true_eq]
  rfl

/-- Settles O30: the pins by the start-up state, and by the output's state where the outputs drive them. -/
theorem pinsFollowTheState : Obligations.PinsFollowTheState := by
  intro s o
  refine ⟨fun h => ⟨outPin_powerup h o, ?_, ?_⟩, fun h => ⟨?_, fun hw => outPin_select_cold h hw o⟩, fun h hw => ?_,
    rdy_iff s, fun h => ?_, fun h => ?_, fun d n high => ⟨if_pos (Nat.le_refl 1), fun hd => ?_⟩⟩
  · rw [State.alertLow, h]
  · rw [State.rdy, State.isLive, h]; rfl
  · rw [State.alertLow, h]
  · exact ⟨endSelect s, rfl, selectDone_cold h hw o⟩
  · rw [alertLow_applied h]; exact alertCondition_iff s.clk
  · rw [outPin_driven h]
    exact ⟨fun u => drive_open, drive_acquire, drive_stopped⟩
  · rw [waveHigh, if_neg (by omega), decide_eq_true_eq]

end Sys2Proof.Machine
end

section
/-! PROOFS. OUTPUT SET (O40), and what an event's course keeps of an output. -/

namespace Sys2Proof.Machine

/-! ### An output after an event -/

section
variable (cause : Cause) (s0 s : State) (f : Env → Ev → Ev) (o : Fin 8)

theorem out_runEvent : (runEvent cause s0 s f).out o =
    (settle (envOf cause s0 s) (f (envOf cause s0 s) ⟨s.clk, [], []⟩)).clk.outs.get o := by
  rw [State.out, clk_runEvent]

theorem outCfg_runEvent : ((runEvent cause s0 s f).out o).cfg = ((f (envOf cause s0 s) ⟨s.clk, [], []⟩).clk.outs.get o).cfg := by
  rw [out_runEvent]
  exact (calm_settle _ _).outCfg o

theorem refused_runEvent :
    ((runEvent cause s0 s f).out o).refused = ((f (envOf cause s0 s) ⟨s.clk, [], []⟩).clk.outs.get o).refused := by
  rw [out_runEvent]
  exact (calm_settle _ _).refused o

/-- No event's course sets a pin (R74). -/
theorem pin_runEvent (h : ((f (envOf cause s0 s) ⟨s.clk, [], []⟩).clk.outs.get o).pin = none) :
    ((runEvent cause s0 s f).out o).pin = none := by
  rw [out_runEvent]
  exact pin_settleRounds 8 h

end

section
variable (cause : Cause) (s0 s : State) (o : Fin 8)

theorem outCfg_reevaluate : ((reevaluate cause s0 s).out o).cfg = (s.out o).cfg := outCfg_runEvent cause s0 s _ o
theorem refused_reevaluate : ((reevaluate cause s0 s).out o).refused = (s.out o).refused := refused_runEvent cause s0 s _ o
theorem pin_reevaluate (h : (s.out o).pin = none) : ((reevaluate cause s0 s).out o).pin = none := pin_runEvent cause s0 s _ o h

end

theorem out_putOut (s : State) (o x : Fin 8) (r : OutRec) : (s.putOut o r).out x = if x = o then r else s.out x :=
  get_putOut s o x r

/-! ### OUTPUT SET (R53, R57, R58) -/

@[simp] theorem cfg_reconfigured (r : OutRec) (c : OutConfig) : (r.reconfigured c).cfg = c := by
  unfold OutRec.reconfigured
  split
  · rfl
  · split <;> rfl

/-- The refused set stays with mode, source and chain (R53, R58). -/
theorem refused_reconfigured_same {r : OutRec} {c : OutConfig} (h : sameFeed r.cfg.mode c.mode = true) :
    (r.reconfigured c).refused = r.refused := by
  rw [OutRec.reconfigured, if_pos h]

/-- A change of mode, source or chain empties it and removes the pin. -/
theorem reconfigured_changed {r : OutRec} {c : OutConfig} (h : sameFeed r.cfg.mode c.mode = false) :
    (r.reconfigured c).refused = [] ∧ (r.reconfigured c).pin = none := by
  rw [OutRec.reconfigured, if_neg (by rw [h]; simp)]
  split <;> exact ⟨rfl, rfl⟩

/-- The state that an accepted OUTPUT SET leaves. -/
def outputSetDone (o : Fin 8) (c : OutConfig) (s : State) : State :=
  reevaluate (.outputSet o) s (s.putOut o ((s.out o).reconfigured c))

section
variable (o x : Fin 8) (c : OutConfig) (s : State)

theorem outCfg_outputSet : ((outputSetDone o c s).out x).cfg = if x = o then c else (s.out x).cfg := by
  rw [outputSetDone, outCfg_reevaluate, out_putOut]
  split
  · exact cfg_reconfigured ..
  · rfl

theorem refused_outputSet : ((outputSetDone o c s).out o).refused = ((s.out o).reconfigured c).refused := by
  rw [outputSetDone, refused_reevaluate, out_putOut, if_pos rfl]

theorem pin_outputSet (h : ((s.out o).reconfigured c).pin = none) : ((outputSetDone o c s).out o).pin = none :=
  pin_reevaluate _ _ _ _ (by rw [out_putOut, if_pos rfl]; exact h)

end

section
variable {r : OutputSetReq} {o : Fin 8} {c : OutConfig} (ho : eightOfCode r.output = some o) (s : State)
include ho

theorem performOutputSet_outOfRange (h : outConfigOfReq r = none) : performOutputSet r s = .refuse s .badValue := by
  unfold performOutputSet
  rw [ho, h]

variable (hc : outConfigOfReq r = some c)
include hc

theorem performOutputSet_tooFast (h : c.fits s.clk.src = false) : performOutputSet r s = .refuse s .badValue := by
  unfold performOutputSet
  rw [ho, hc]
  simp [h]

theorem performOutputSet_accepted (h : c.fits s.clk.src = true) :
    performOutputSet r s = .ok (outputSetDone o c s) [] := by
  unfold performOutputSet
  rw [ho, hc]
  simp [h, outputSetDone]

end

/-- Settles O40: the checks in their order, then the new record, whose configuration and refused set the event's course keeps. -/
theorem outputSetRule : Obligations.OutputSetRule := by
  intro s tag r ht
  have hexec : exec (.outputSet tag r) s = .next (takeFrame tag 0x20#8 (performOutputSet r) s) := rfl
  refine ⟨fun h => ?_, fun o ho => ⟨fun h => ?_, fun c hc => ⟨fun h => ?_, fun h => ?_⟩⟩⟩
  · exact refuses_of_refuse ht hexec (by unfold performOutputSet; rw [h])
  · exact refuses_of_refuse ht hexec (performOutputSet_outOfRange ho _ h)
  · exact refuses_of_refuse ht hexec (performOutputSet_tooFast ho _ hc h)
  · refine ⟨outputSetDone o c s.hunt, accepted_of_ok ht hexec (performOutputSet_accepted ho s.hunt hc h), ?_, fun x hx => ?_,
      outputsStand_reevaluate _ _ _, gateLaw_reevaluate _ _ _, fun hsame => ?_, fun hother => ?_⟩
    · rw [outCfg_outputSet, if_pos rfl]
    · rw [outCfg_outputSet, if_neg hx]; rfl
    · exact (refused_outputSet o c s.hunt).trans (refused_reconfigured_same hsame)
    · obtain ⟨href, hpin⟩ := reconfigured_changed hother
      exact ⟨(refused_outputSet o c s.hunt).trans href, pin_outputSet o c s.hunt hpin⟩

end Sys2Proof.Machine
end

section
/-! PROOFS. An output through the rounds of an event's course, and the target of an acquire while sources only stop (R46, R50, R51). -/

namespace Sys2Proof.Machine

/-! ### One output through the rounds -/

/-- What holds after an output's first evaluation, and is kept by evaluation and demand, holds to the end of an event's course. -/
theorem settle_keeps_of_first {e : Env} {o : Fin 8} {P : Sources → OutRec → Prop}
    (heval : ∀ c r, P c r → P c (evalOut e c o r).1)
    (hdemand : ∀ w : Ev, P w.clk.src (w.clk.outs.get o) → P (demandPass e w).clk.src (w.clk.outs.get o)) {v : Ev}
    (h : P v.clk.src (evalOut e v.clk.src o (v.clk.outs.get o)).1) : P (settle e v).clk.src ((settle e v).clk.outs.get o) := by
  have hround : ∀ w : Ev, P (outputsPass e w).clk.src ((outputsPass e w).clk.outs.get o) →
      P (demandPass e (outputsPass e w)).clk.src ((demandPass e (outputsPass e w)).clk.outs.get o) := fun w hw => by
    rw [outs_demandPass]
    exact hdemand _ hw
  have hpass : ∀ w : Ev, P w.clk.src (evalOut e w.clk.src o (w.clk.outs.get o)).1 →
      P (outputsPass e w).clk.src ((outputsPass e w).clk.outs.get o) := fun w hw => by
    obtain ⟨hsrc, hout⟩ := outputsPass_get e w o
    rwa [hsrc, hout]
  have hrounds : ∀ n (w : Ev), P w.clk.src (evalOut e w.clk.src o (w.clk.outs.get o)).1 →
      P (settleRounds e n w).clk.src ((settleRounds e n w).clk.outs.get o) := fun n => by
    induction n with
    | zero => exact hpass
    | succ n ih =>
      intro w hw
      unfold settleRounds
      dsimp only
      split
      · exact ih _ (heval _ _ (hround w (hpass w hw)))
      · exact hround w (hpass w hw)
  exact hrounds 8 v h

/-- What an output's evaluation and demand keep holds to the end of an event's course. -/
theorem settle_keeps {e : Env} {o : Fin 8} {P : Sources → OutRec → Prop} (heval : ∀ c r, P c r → P c (evalOut e c o r).1)
    (hdemand : ∀ w : Ev, P w.clk.src (w.clk.outs.get o) → P (demandPass e w).clk.src (w.clk.outs.get o)) {v : Ev}
    (h : P v.clk.src (v.clk.outs.get o)) : P (settle e v).clk.src ((settle e v).clk.outs.get o) :=
  settle_keeps_of_first heval hdemand (heval _ _ h)

/-! ### Sources that only stop -/

/-- From `c` to `c'` sources have stopped or started, and none has come to feed gates. -/
def Sources.Within (c' c : Sources) : Prop :=
  ∀ x, (c'.osc.get x).state = (c.osc.get x).state ∨ feeds c' (.osc x) = false

/-- Demand brings no source to feed gates (R4). -/
theorem within_demandPass (e : Env) (w : Ev) : (demandPass e w).clk.src.Within w.clk.src := fun x => by
  obtain ⟨-, -, hst, -⟩ := (calm_demandPass e w).osc x
  rcases hst with h | h | h
  · exact .inl h
  · exact .inr (feeds_osc h)
  · exact .inr (feeds_osc h)

section
variable {e : Env} {c c' : Sources} {o : Fin 8} {r : OutRec} {ch : ChainRec} (h : c'.Within c)
include h

theorem Sources.Within.feeds {s : Src} (hs : feeds c' s = true) : Machine.feeds c s = true := by
  cases s with
  | rco => rfl
  | osc x =>
    rcases h x with hx | hx
    · unfold Machine.feeds at hs ⊢
      dsimp only at hs ⊢
      rwa [← hx]
    · rw [hx] at hs; cases hs

/-- An eligible source feeds gates (R66). -/
theorem Sources.Within.eligible {s : Src} (hs : eligible e c' o r ch s = true) : Machine.eligible e c o r ch s = true := by
  cases s with
  | rco => exact hs
  | osc x =>
    rcases h x with hx | hx
    · unfold Machine.eligible at hs ⊢
      dsimp only at hs ⊢
      rwa [← hx]
    · exfalso
      unfold Machine.eligible at hs
      unfold Machine.feeds at hx
      dsimp only at hs hx
      cases hst : (c'.osc.get x).state <;> simp [hst] at hs hx

theorem Sources.Within.earlierEligible {j : Fin 4} (hs : earlierEligible e c' o r ch j = true) :
    Machine.earlierEligible e c o r ch j = true := by
  unfold Machine.earlierEligible at hs ⊢
  rw [List.any_eq_true] at hs ⊢
  obtain ⟨x, hx, hlt⟩ := hs
  rw [Bool.and_eq_true] at hlt
  exact ⟨x, hx, by rw [Bool.and_eq_true]; exact ⟨hlt.1, h.eligible hlt.2⟩⟩

/-- Who holds the output back among fewer eligible sources held it back before (R68 step 2). -/
theorem Sources.Within.holdBack {x : Fin 4 × Use} (hs : holdBack e c' o r ch = some x) : Machine.holdBack e c o r ch = some x := by
  unfold Machine.holdBack at hs ⊢
  split at hs
  · rename_i j ha
    split at hs
    · rename_i u hu
      split at hs
      · rename_i hc
        simp only [Bool.and_eq_true] at hc
        rw [if_pos (by simp only [Bool.and_eq_true]; exact ⟨⟨h.eligible hc.1.1, h.earlierEligible hc.1.2⟩, hc.2⟩)]
        exact hs
      · cases hs
    · cases hs
  · cases hs

/-- The first eligible entry stays the first while it is eligible. -/
theorem Sources.Within.find_eligible {i : Fin 4} {u : Use}
    (hf : (ch.numbered.find? fun x => Machine.eligible e c o r ch x.2.src) = some (i, u))
    (hu : Machine.eligible e c' o r ch u.src = true) :
    (ch.numbered.find? fun x => Machine.eligible e c' o r ch x.2.src) = some (i, u) := by
  rw [List.find?_eq_some_iff_append] at hf ⊢
  obtain ⟨-, as, bs, hl, has⟩ := hf
  refine ⟨hu, as, bs, hl, fun a ha => ?_⟩
  have hna := has a ha
  rw [Bool.not_eq_true'] at hna ⊢
  exact Bool.eq_false_iff.mpr fun hc => Bool.eq_false_iff.mp hna (h.eligible hc)

/-- None becomes eligible. -/
theorem Sources.Within.find_none (hf : (ch.numbered.find? fun x => Machine.eligible e c o r ch x.2.src) = none) :
    (ch.numbered.find? fun x => Machine.eligible e c' o r ch x.2.src) = none := by
  rw [List.find?_eq_none] at hf ⊢
  exact fun x hx hc => hf x hx (h.eligible hc)

end

/-- The anchor entry that holds the output back is the first eligible one, where no earlier one is (R68). -/
theorem find_of_not_earlier {e : Env} {c : Sources} {o : Fin 8} {r : OutRec} {ch : ChainRec} {j : Fin 4} {u : Use}
    (hj : ch.entry j = some u) (hu : eligible e c o r ch u.src = true) (hn : earlierEligible e c o r ch j = false) :
    (ch.numbered.find? fun x => eligible e c o r ch x.2.src) = some (j, u) := by
  obtain ⟨as, bs, hl⟩ := List.append_of_mem (numbered_of_entry hj)
  rw [List.find?_eq_some_iff_append]
  refine ⟨hu, as, bs, hl, fun a ha => ?_⟩
  have hrise := numbered_rising ch
  rw [hl, List.pairwise_append] at hrise
  obtain ⟨-, -, hlt⟩ := hrise
  have halt : a.1 < j := hlt a ha (j, u) (List.mem_cons_self ..)
  unfold earlierEligible at hn
  rw [List.any_eq_false] at hn
  have hna := hn a (by rw [hl]; exact List.mem_append_left _ ha)
  rw [Bool.not_eq_true']
  exact Bool.eq_false_iff.mpr fun hc => hna (by rw [Bool.and_eq_true]; exact ⟨decide_eq_true halt, hc⟩)

/-! ### Selection among fewer sources -/

/-- An entry that held the output back is the first eligible one once nothing is held back, if it is still eligible (R68 step 2). -/
theorem find_of_heldBack {e : Env} {c c' : Sources} {o : Fin 8} {r : OutRec} {ch : ChainRec} {j : Fin 4} {u : Use}
    (hb : holdBack e c o r ch = some (j, u))
    (hb' : holdBack e c' o r ch = none) (hu : eligible e c' o r ch u.src = true) :
    (ch.numbered.find? fun x => eligible e c' o r ch x.2.src) = some (j, u) := by
  unfold holdBack at hb hb'
  split at hb
  · rename_i i hi
    rw [hi] at hb'
    dsimp only at hb'
    split at hb
    · rename_i w hw
      rw [hw] at hb'
      split at hb
      · rename_i hc
        cases hb
        simp only [Bool.and_eq_true] at hc
        refine find_of_not_earlier hw hu (Bool.eq_false_iff.mpr fun hn => ?_)
        simp [hu, hn, of_decide_eq_true hc.2] at hb'
      · cases hb
    · cases hb
  · cases hb

/-- A last resort that is the anchor's source and not the anchor is that of an entry (R65). -/
theorem entry_of_lastResort {r : OutRec} {ch : ChainRec} {u : Use} (hu : lastResortUse r ch = some u)
    (hlast : anchor r ch ≠ some .lastResort) (ha : anchor r ch = anchorOf ch u.src) :
    ∃ i x, ch.entry i = some x ∧ x.src = u.src := by
  unfold lastResortUse at hu
  split at hu
  · rename_i husable
    obtain ⟨d, -, rfl⟩ := Option.map_eq_some_iff.mp hu
    rw [lastResortUsable, Bool.and_eq_true] at husable
    rw [ha] at hlast
    unfold anchorOf at hlast
    cases hi : ch.indexOf .rco with
    | none => simp [hi, husable.1] at hlast
    | some i => exact ⟨i, entry_of_indexOf hi⟩
  · cases hu

section
variable {e : Env} {c c' : Sources} {o : Fin 8} {r : OutRec} (h : c'.Within c)
include h

/-- A chain's USE stays its result while the source stays eligible, if the output's anchor is that source's place: the last resort then
goes before a source that has stopped and may start (R68 step 4). -/
theorem Sources.Within.chainSelect {ch : ChainRec} {u : Use} {p : Option Position}
    (hs : chainSelect e c o r ch = .use u p) (ha : anchor r ch = anchorOf ch u.src)
    (hu : Machine.eligible e c' o r ch u.src = true) : Machine.chainSelect e c' o r ch = .use u p := by
  unfold Machine.chainSelect at hs ⊢
  cases hb : Machine.holdBack e c o r ch with
  | some x =>
    obtain ⟨j, w⟩ := x
    rw [hb] at hs
    cases hs
    cases hb' : Machine.holdBack e c' o r ch with
    | some y =>
      rw [h.holdBack hb'] at hb
      cases hb
      rfl
    | none =>
      rw [find_of_heldBack hb hb' hu]
  | none =>
    have hb' : Machine.holdBack e c' o r ch = none := by
      cases hx : Machine.holdBack e c' o r ch with
      | none => rfl
      | some x => rw [h.holdBack hx] at hb; cases hb
    rw [hb] at hs
    rw [hb']
    dsimp only at hs ⊢
    cases hf : ch.numbered.find? fun x => Machine.eligible e c o r ch x.2.src with
    | some x =>
      obtain ⟨i, w⟩ := x
      rw [hf] at hs
      cases hs
      rw [h.find_eligible hf hu]
    | none =>
      rw [hf] at hs
      rw [h.find_none hf]
      dsimp only at hs ⊢
      cases hl : (if onLastResort r ch then lastResortUse r ch else none) with
      | some w =>
        rw [hl] at hs
        cases hs
        rfl
      | none =>
        rw [hl] at hs
        dsimp only at hs
        split at hs
        · cases hs
        · split at hs
          · rename_i w hw
            cases hs
            have hlast : onLastResort r ch = false := Bool.eq_false_iff.mpr fun ho => by rw [if_pos ho, hw] at hl; cases hl
            obtain ⟨i, x, hx, hsrc⟩ := entry_of_lastResort hw (of_decide_eq_false hlast) ha
            exact absurd (h.eligible (hsrc ▸ hu)) (List.find?_eq_none.mp hf _ (numbered_of_entry hx))
          · cases hs

end

/-! ### The target of an acquire -/

theorem targetUsable_fixed {e : Env} {c : Sources} {o : Fin 8} {r : OutRec} {t v : Use} (ht : r.target = some t)
    (hm : r.cfg.mode = .fixed v) : targetUsable e c o r = fixedUsable e c o r t.src := by
  simp only [targetUsable, ht, hm]

theorem targetUsable_chain {e : Env} {c : Sources} {o : Fin 8} {r : OutRec} {t : Use} {k : Fin 4} (ht : r.target = some t)
    (hm : r.cfg.mode = .chain k) :
    targetUsable e c o r = (eligible e c o r (e.chains.get k) t.src && !removedFromChain e o k t.src) := by
  simp only [targetUsable, ht, hm]

theorem targetUsable_some {e : Env} {c : Sources} {o : Fin 8} {r : OutRec} (h : targetUsable e c o r = true) :
    ∃ t, r.target = some t := by
  cases ht : r.target with
  | some t => exact ⟨t, rfl⟩
  | none => simp [targetUsable, ht] at h

theorem releaseHeld_eq (e : Env) (o : Fin 8) (r : OutRec) : ∃ v, releaseHeld e o r = { r with revert := v } := by
  unfold releaseHeld
  split
  · exact ⟨.due, rfl⟩
  · exact ⟨r.revert, rfl⟩

theorem pinnedUse_of_eligible {e : Env} {c c' : Sources} {o : Fin 8} {r : OutRec} {ch : ChainRec} {i : Fin 4} {u : Use}
    (hp : pinnedUse e c o r ch i = some u) (hu : eligible e c' o r ch u.src = true) : pinnedUse e c' o r ch i = some u := by
  unfold pinnedUse at hp ⊢
  split at hp
  · split at hp
    · cases hp
      exact if_pos hu
    · cases hp
  · cases hp

section
variable {e : Env} {c c' : Sources} {o : Fin 8} {r : OutRec} (h : c'.Within c)
include h

theorem Sources.Within.fixedUsable {s : Src} (hs : fixedUsable e c' o r s = true) : Machine.fixedUsable e c o r s = true := by
  unfold Machine.fixedUsable at hs ⊢
  simp only [Bool.and_eq_true] at hs ⊢
  exact ⟨⟨h.feeds hs.1.1, hs.1.2⟩, hs.2⟩

theorem Sources.Within.targetUsable (hu : targetUsable e c' o r = true) : Machine.targetUsable e c o r = true := by
  obtain ⟨t, ht⟩ := targetUsable_some hu
  cases hm : r.cfg.mode with
  | fixed v =>
    rw [targetUsable_fixed ht hm] at hu ⊢
    exact h.fixedUsable hu
  | chain k =>
    rw [targetUsable_chain ht hm, Bool.and_eq_true] at hu ⊢
    exact ⟨h.eligible hu.1, hu.2⟩

theorem Sources.Within.pinnedUse_none {ch : ChainRec} {i : Fin 4} (hp : Machine.pinnedUse e c o r ch i = none) :
    Machine.pinnedUse e c' o r ch i = none := by
  unfold Machine.pinnedUse at hp ⊢
  split at hp
  · split at hp
    · cases hp
    · rename_i hn
      exact if_neg fun hc => hn (h.eligible hc)
  · rfl

/-- Selection stays with the target of an acquire while that target is usable. -/
theorem Sources.Within.select_target (hst : r.state = .switching .acquire) {t u : Use} {p : Option Position}
    (ht : r.target = some t) (hs : (select e c o r).pick = .use u p) (hsrc : u.src = t.src)
    (hu : Machine.targetUsable e c' o r = true) : (select e c' o r).pick = .use u p := by
  cases hm : r.cfg.mode with
  | fixed v =>
    rw [targetUsable_fixed ht hm] at hu
    simp only [select, hm, fixedSelect] at hs ⊢
    split at hs
    · cases hs
      rw [hsrc, if_pos hu]
    · split at hs <;> cases hs
  | chain k =>
    rw [targetUsable_chain ht hm, Bool.and_eq_true, ← hsrc] at hu
    obtain ⟨hel, -⟩ := hu
    have hanchor : ∀ q : OutRec, q.state = r.state → q.target = r.target →
        anchor q (e.chains.get k) = anchorOf (e.chains.get k) u.src := fun q h1 h2 => by
      simp [anchor, h1, h2, hst, ht, hsrc]
    have heligible : ∀ q : OutRec, q.current = r.current → q.refused = r.refused →
        Machine.eligible e c' o q (e.chains.get k) u.src = true := fun q h1 h2 => (eligible_congr e c' o _ h1 h2 _).trans hel
    obtain ⟨v, hv⟩ := releaseHeld_eq e o r
    simp only [select, hm, hv] at hs ⊢
    cases hpin : r.pin with
    | none =>
      rw [hpin] at hs
      exact h.chainSelect hs (hanchor _ rfl rfl) (heligible _ rfl rfl)
    | some i =>
      rw [hpin] at hs
      dsimp only at hs ⊢
      cases hp : Machine.pinnedUse e c o { r with revert := v, pin := some i } (e.chains.get k) i with
      | some w =>
        rw [hp] at hs
        cases hs
        rw [pinnedUse_of_eligible hp (heligible _ rfl rfl)]
      | none =>
        rw [hp] at hs
        rw [h.pinnedUse_none hp]
        exact h.chainSelect hs (hanchor _ rfl rfl) (heligible _ rfl rfl)

end

/-- A closed gate, and no switch but an acquire of the target that selection gives as long as it is usable. -/
structure Acquires (e : Env) (o : Fin 8) (c : Sources) (r : OutRec) : Prop where
  gate : r.gateOpen = false
  current : r.current = none
  pending : r.pending = none
  pick : r.state = .switching .acquire → targetUsable e c o r = true →
    ∃ t u p, r.target = some t ∧ (select e c o r).pick = .use u p ∧ u.src = t.src

theorem acquires_of_state {e : Env} {o : Fin 8} {c : Sources} {r : OutRec} (hgate : r.gateOpen = false) (hcur : r.current = none)
    (hpend : r.pending = none) (hst : r.state ≠ .switching .acquire) : Acquires e o c r :=
  ⟨hgate, hcur, hpend, fun h => absurd h hst⟩

theorem Acquires.within {e : Env} {o : Fin 8} {c c' : Sources} {r : OutRec} (h : Acquires e o c r) (hc : c'.Within c) :
    Acquires e o c' r :=
  ⟨h.gate, h.current, h.pending, fun hst hu => by
    obtain ⟨t, u, p, ht, hs, hsrc⟩ := h.pick hst (hc.targetUsable hu)
    exact ⟨t, u, p, ht, hc.select_target hst ht hs hsrc hu, hsrc⟩⟩

section
variable {e : Env} {c : Sources} {o : Fin 8}

@[simp] theorem pending_afterSelect (r : OutRec) (pl : Option Place) : (afterSelect e c o r pl).pending = r.pending := by
  unfold afterSelect
  split <;> rfl

theorem target_select (r : OutRec) : (select e c o r).out.target = r.target := by
  obtain ⟨p, v, hout, -⟩ := select_out e c o r
  rw [hout]

theorem acquires_rested (r : OutRec) : Acquires e o c r.rested := by
  refine acquires_of_state (gateOpen_rested r) rfl rfl ?_
  rw [OutRec.rested]
  dsimp only
  split <;> exact fun h => by cases h

theorem acquires_selectClosed (was : OutRec) {r : OutRec} (why : OutReason) (again : Bool) (hcur : r.current = none) :
    Acquires e o c (selectClosed e c o was r why again).1 := by
  refine ⟨gateOpen_selectClosed .., current_selectClosed .., ?_, fun hst _ => ?_⟩
  · simp only [selectClosed, pending_afterSelect]
    cases (select e c o r).pick <;> rfl
  · have hagain := again_select (pl := (select e c o r).pick.place) (Env.Later.refl o r.cfg e) (acted_closed (c := c) hcur)
    simp only [selectClosed, state_afterSelect] at hst ⊢
    rw [hagain]
    cases hp : (select e c o r).pick with
    | use u p => exact ⟨u, u, p, by rw [target_afterSelect]; rfl, rfl, rfl⟩
    | wait u p => rw [hp] at hst; cases hst
    | dark => rw [hp] at hst; cases hst

/-- An acquire whose target selection gives again takes on the divider, and selection gives it once more. -/
theorem acquires_selectAcquire {r : OutRec} (h : Acquires e o c r) (hst : r.state = .switching .acquire)
    (hu : targetUsable e c o r = true) : Acquires e o c (selectAcquire e c o r).1 := by
  obtain ⟨t, u, p, ht, hs, hsrc⟩ := h.pick hst hu
  have htake : actAcquire e (select e c o r).out (select e c o r).pick =
      { (select e c o r).out with target := some u, pending := none } := by
    simp [actAcquire, hs, target_select, ht, hsrc]
  have hx : Acted e c o r { (select e c o r).out with target := some u, pending := none } :=
    ⟨by simp, by simp, by simp, rfl, rfl, fun k _ => .inl (by simp [anchor, hst, ht, hsrc])⟩
  have hagain := again_select (pl := (select e c o r).pick.place) (Env.Later.refl o r.cfg e) hx
  simp only [selectAcquire, htake]
  refine ⟨?_, ?_, ?_, fun _ _ => ⟨u, u, p, ?_, ?_, rfl⟩⟩
  · rw [gateOpen_afterSelect]; simp [OutRec.gateOpen, hst]
  · simp [h.current]
  · rw [pending_afterSelect]
  · rw [target_afterSelect]
  · rw [hagain]; exact hs

theorem acquires_evalOut {r : OutRec} (h : Acquires e o c r) : Acquires e o c (evalOut e c o r).1 := by
  have hclosed := fun was why again => acquires_selectClosed (e := e) (c := c) (o := o) was (r := r) why again h.current
  unfold evalOut
  dsimp only
  rw [gateLost_closed h.gate, if_neg (by simp)]
  cases hst : r.state with
  | off => dsimp only; split_ifs; exacts [h, hclosed _ _ _, acquires_rested r]
  | parked => dsimp only; split_ifs; exacts [hclosed _ _ _, h, acquires_rested r]
  | waiting => dsimp only; split_ifs; exacts [hclosed _ _ _, acquires_rested r]
  | dark => dsimp only; split_ifs; exacts [hclosed _ _ _, acquires_rested r]
  | running => exact absurd h.gate (by simp [OutRec.gateOpen, hst])
  | switching ph =>
    cases ph with
    | release => exact absurd h.gate (by simp [OutRec.gateOpen, hst])
    | acquire =>
      dsimp only
      split_ifs with _ hu
      · exact acquires_rested r
      · exact acquires_selectAcquire h hst hu
      · exact acquires_selectClosed _ _ _ rfl

/-- To the end of the event's course the gate stays closed and no other source is taken up. -/
theorem acquires_settle {v : Ev} (h : Acquires e o v.clk.src (v.clk.outs.get o)) :
    Acquires e o (settle e v).clk.src ((settle e v).clk.outs.get o) :=
  settle_keeps (fun _ _ => acquires_evalOut) (fun w hw => hw.within (within_demandPass e w)) h

end

end Sys2Proof.Machine
end

section
/-! PROOFS. The events of an output's own phases (O42): release end, acquire end and timeout, divider change. -/

namespace Sys2Proof.Machine

/-! ### An output's own event -/

/-- The state after an event of output `o` alone: `m` moves its record, and the event runs its course (R47, R49, R50). -/
def ownEvent (o : Fin 8) (m : Env → Sources → OutRec → Moved) (s : State) : State :=
  (runEvent .ordinary s s fun e v => v.putOut o (m e v.clk.src (v.clk.outs.get o))).endEvent

section
variable (s : State) (o : Fin 8) (m : Env → Sources → OutRec → Moved)

/-- The record that the output's own move leaves. -/
def ownMove : OutRec := (m (envOf .ordinary s s) s.clk.src (s.out o)).1

theorem out_ownEvent (x : Fin 8) : (ownEvent o m s).out x =
    (runEvent .ordinary s s fun e v => v.putOut o (m e v.clk.src (v.clk.outs.get o))).out x := by
  rw [ownEvent, State.out, State.clk_endEvent, State.out]

theorem get_ownMove : ((Ev.mk s.clk [] []).putOut o (m (envOf .ordinary s s) s.clk.src (s.out o))).clk.outs.get o = ownMove s o m := by
  simp [Ev.putOut, Bank8.get_set, ownMove]

theorem cfg_ownEvent : ((ownEvent o m s).out o).cfg = (ownMove s o m).cfg := by
  rw [out_ownEvent, outCfg_runEvent, ← get_ownMove]
  rfl

theorem refused_ownEvent : ((ownEvent o m s).out o).refused = (ownMove s o m).refused := by
  rw [out_ownEvent, refused_runEvent, ← get_ownMove]
  rfl

/-- The output stands as its wanted-ness has it (R44), which the event leaves. -/
theorem stands_ownEvent (hcfg : (ownMove s o m).cfg = (s.out o).cfg) :
    ((ownEvent o m s).out o).standsAs (s.wants o) = true := by
  have hstand := outputsStand_runEvent .ordinary s s (fun e v => v.putOut o (m e v.clk.src (v.clk.outs.get o))) o
  rw [← out_ownEvent] at hstand
  have hwants : (runEvent .ordinary s s fun e v => v.putOut o (m e v.clk.src (v.clk.outs.get o))).wants o = s.wants o := by
    have hc := cfg_ownEvent s o m
    rw [out_ownEvent, hcfg] at hc
    rw [State.wants, State.active, profiles_runEvent, stack_runEvent, claims_runEvent]
    change wanted _ _ o ((runEvent .ordinary s s _).out o).cfg = _
    rw [hc]
    rfl
  rwa [hwants] at hstand

/-- What the output's evaluation and demand keep, from its own move on, holds after the event. -/
theorem ownEvent_keeps {P : Sources → OutRec → Prop}
    (heval : ∀ c r, P c r → P c (evalOut (envOf .ordinary s s) c o r).1)
    (hdemand : ∀ w : Ev, P w.clk.src (w.clk.outs.get o) → P (demandPass (envOf .ordinary s s) w).clk.src (w.clk.outs.get o))
    (h : P s.clk.src (ownMove s o m)) : P (ownEvent o m s).clk.src ((ownEvent o m s).out o) := by
  rw [out_ownEvent, out_runEvent, ownEvent, State.clk_endEvent, clk_runEvent]
  exact settle_keeps heval hdemand (by rw [← get_ownMove] at h; exact h)

/-- A gate that the output's own move closes is closed after the event. -/
theorem closed_ownEvent (hgate : (ownMove s o m).gateOpen = false) (hcur : (ownMove s o m).current = none) :
    ((ownEvent o m s).out o).gateOpen = false ∧ ((ownEvent o m s).out o).current = none :=
  ownEvent_keeps s o m (P := fun _ r => r.gateOpen = false ∧ r.current = none)
    (fun c _ hr => closed_evalOut _ c o hr.1 hr.2) (fun _ hr => hr) ⟨hgate, hcur⟩

end

/-! ### Release end (R47, R48) -/

section
variable {s : State} {o : Fin 8} (why : OutReason)

theorem wants_envOf (cause : Cause) (s0 s : State) (o : Fin 8) :
    wanted (envOf cause s0 s).profile (envOf cause s0 s).claims o (s.out o).cfg = s.wants o := rfl

/-- The move of a release end. -/
abbrev releaseMove (o : Fin 8) (why : OutReason) (e : Env) (c : Sources) (r : OutRec) : Moved := endRelease e c o r why

theorem ownMove_release_wanted (h : s.wants o = true) : ownMove s o (releaseMove o why) =
    (selectClosed (envOf .ordinary s s) s.clk.src o (s.out o) (s.out o).shut why false).1 :=
  congrArg Prod.fst (if_pos h)

theorem ownMove_release_unwanted (h : s.wants o = false) : ownMove s o (releaseMove o why) = (s.out o).rested :=
  congrArg Prod.fst (if_neg (by rw [wants_envOf, h]; simp))

theorem closed_release : (ownMove s o (releaseMove o why)).gateOpen = false ∧ (ownMove s o (releaseMove o why)).current = none := by
  cases hw : s.wants o with
  | true =>
    rw [ownMove_release_wanted why hw]
    exact ⟨gateOpen_selectClosed .., current_selectClosed ..⟩
  | false =>
    rw [ownMove_release_unwanted why hw]
    exact ⟨gateOpen_rested _, rfl⟩

theorem cfg_release : (ownMove s o (releaseMove o why)).cfg = (s.out o).cfg := cfg_endRelease ..

theorem refused_release : (ownMove s o (releaseMove o why)).refused = (s.out o).refused := by
  cases hw : s.wants o with
  | true =>
    rw [ownMove_release_wanted why hw]
    simp [selectClosed, OutRec.shut]
  | false =>
    rw [ownMove_release_unwanted why hw]
    rfl

/-- An output that is not wanted comes to rest at release end, and stays there (R44). -/
theorem releaseEnd_rests (h : s.wants o = false) : (ownEvent o (releaseMove o why) s).out o = (s.out o).rested :=
  ownEvent_keeps s o _ (P := fun _ r => r = (s.out o).rested)
    (fun c _ hr => by
      rw [hr, again_rested (Env.Later.refl o (s.out o).cfg (envOf .ordinary s s)) (r := s.out o) (by rw [wants_envOf, h])])
    (fun _ hr => hr)
    (ownMove_release_unwanted why h)

/-- What an output wanted at release end then is (R44, R46, R48). -/
theorem releaseEnd_seeks (h : s.wants o = true) :
    ((ownEvent o (releaseMove o why) s).out o).state = .waiting
      ∨ ((ownEvent o (releaseMove o why) s).out o).state = .switching .acquire
      ∨ ((ownEvent o (releaseMove o why) s).out o).state = .dark := by
  obtain ⟨hgate, hcur⟩ := closed_release (s := s) (o := o) why
  obtain ⟨hclosed, -⟩ := closed_ownEvent s o _ hgate hcur
  have hstand := stands_ownEvent s o _ (cfg_release (s := s) why)
  have hcfg := (cfg_ownEvent s o _).trans (cfg_release (s := s) (o := o) why)
  have henable : ((ownEvent o (releaseMove o why) s).out o).cfg.enable = true := by
    rw [hcfg]
    exact ((wanted_iff ..).mp h).1
  generalize (ownEvent o (releaseMove o why) s).out o = r at *
  rw [h] at hstand
  cases hst : r.state with
  | off => simp [OutRec.standsAs, hst, henable] at hstand
  | parked => simp [OutRec.standsAs, hst] at hstand
  | waiting => exact .inl rfl
  | dark => exact .inr (.inr rfl)
  | running => simp [OutRec.gateOpen, hst] at hclosed
  | switching ph =>
    cases ph with
    | release => simp [OutRec.gateOpen, hst] at hclosed
    | acquire => exact .inr (.inl rfl)

end

/-! ### Acquire end (R49, R51) -/

theorem finishAcquire_opens {s : State} {o : Fin 8} {u : Use} (hst : (s.out o).state = .switching .acquire)
    (ht : (s.out o).target = some u) (hf : feeds s.clk.src u.src = true) :
    (finishAcquire o s).endEvent = ownEvent o (fun _ _ => openedGate) s := by
  unfold finishAcquire
  rw [if_pos (by simp [canOpen, hst, ht, hf])]
  rfl

theorem finishAcquire_opens_as {s : State} {o : Fin 8} {u : Use} (hst : (s.out o).state = .switching .acquire)
    (ht : (s.out o).target = some u) :
    ownEvent o (fun _ _ => openedGate) s = (runEvent .ordinary s s fun _ v => v.putOut o
      ({ s.out o with
          state := .running, current := some u, nextDiv := none, target := none, pending := none, phase := none },
        [.state (.switching .acquire) .running (some u) none .complete])).endEvent := by
  have hmoved : openedGate (s.out o) = ({ s.out o with
      state := .running, current := some u, nextDiv := none, target := none, pending := none, phase := none },
      [.state (.switching .acquire) .running (some u) none .complete]) := by
    simp [openedGate, openGate, stateNote, hst, ht]
  rw [← hmoved]
  rfl

/-- An output that runs from RCO, or that releases it. -/
structure OnRco (u : Use) (r : OutRec) : Prop where
  gate : r.gateOpen = true
  current : r.current = some u
  pending : r.pending = none

section
variable {e : Env} {c : Sources} {o : Fin 8}

theorem pending_select (r : OutRec) : (select e c o r).out.pending = r.pending := by
  obtain ⟨p, v, hout, -⟩ := select_out e c o r
  rw [hout]

theorem pending_actRunning {r : OutRec} (p : Pick) (h : r.pending = none) : (actRunning e r p).pending = none := by
  unfold actRunning
  split
  · split
    · exact h
    · rfl
  all_goals rfl

theorem gateOpen_iff {r : OutRec} : r.gateOpen = true ↔ r.state = .running ∨ r.state = .switching .release := by
  unfold OutRec.gateOpen
  split <;> simp_all

/-- RCO feeds gates always, so that the gate law takes no source away from it (R54). -/
theorem onRco_evalOut {u : Use} (hu : u.src = .rco) {r : OutRec} (h : OnRco u r) : OnRco u (evalOut e c o r).1 := by
  have hfed : gateLost c r = false := by simp [gateLost, h.current, hu, feeds]
  unfold evalOut
  dsimp only
  rw [hfed, if_neg (by simp)]
  rcases gateOpen_iff.mp h.gate with hst | hst
  · rw [hst]
    dsimp only
    split_ifs
    · refine ⟨gateOpen_iff.mpr ?_, ?_, ?_⟩ <;> simp only [selectRunning]
      · rw [state_afterSelect]
        exact state_actRunning e (by rw [state_select, hst]) _
      · rw [current_afterSelect, current_actRunning, current_select, h.current]
      · rw [pending_afterSelect]
        exact pending_actRunning _ (by rw [pending_select, h.pending])
    · exact ⟨rfl, h.current, rfl⟩
  · rw [hst]
    dsimp only
    split_ifs
    · exact ⟨h.gate, h.current, h.pending⟩
    · refine ⟨?_, ?_, ?_⟩ <;> simp only [selectRelease]
      · exact gateOpen_iff.mpr (.inr (by rw [state_afterSelect, state_select, hst]))
      · rw [current_afterSelect, current_select, h.current]
      · rw [pending_afterSelect, pending_select, h.pending]
    · refine ⟨?_, ?_, ?_⟩ <;> simp only [retargetRelease]
      · exact gateOpen_iff.mpr (.inr (by rw [state_afterSelect, state_select, hst]))
      · rw [current_afterSelect, current_select, h.current]
      · rw [pending_afterSelect, pending_select, h.pending]

end

theorem acquireEnd_onRco {s : State} {o : Fin 8} {u : Use} (ht : (s.out o).target = some u) (hu : u.src = .rco) :
    OnRco u ((ownEvent o (fun _ _ => openedGate) s).out o) :=
  ownEvent_keeps s o _ (P := fun _ r => OnRco u r) (fun _ _ => onRco_evalOut hu) (fun _ hr => hr) ⟨rfl, ht, rfl⟩

/-! ### Acquire timeout (R50, R53) -/

section
variable {s : State} {o : Fin 8}

theorem refused_timedOut (e : Env) (c : Sources) (r : OutRec) : (timedOut e c o r).1.refused = (refuseTarget r).refused := by
  unfold timedOut
  split
  · simp [selectClosed, OutRec.closed]
  · rfl

theorem mem_refuseTarget {r : OutRec} {u : Use} (ht : r.target = some u) : u.src ∈ (refuseTarget r).refused := by
  simp only [refuseTarget, ht]
  split
  · rename_i h
    exact List.contains_iff_mem.mp h
  · exact List.mem_append_right _ (List.mem_singleton.mpr rfl)

theorem refused_subset_refuseTarget (r : OutRec) {x : Src} (h : x ∈ r.refused) : x ∈ (refuseTarget r).refused := by
  unfold refuseTarget
  split
  · dsimp only
    split
    · exact h
    · exact List.mem_append_left _ h
  · exact h

theorem acquires_timedOut (e : Env) (c : Sources) (r : OutRec) : Acquires e o c (timedOut e c o r).1 := by
  unfold timedOut
  split
  · exact acquires_selectClosed _ _ _ rfl
  · exact acquires_rested _

theorem acquireTimeout_acquires : Acquires (envOf .ordinary s s) o (ownEvent o (timedOut · · o ·) s).clk.src
    ((ownEvent o (timedOut · · o ·) s).out o) :=
  ownEvent_keeps s o _ (fun _ _ => acquires_evalOut) (fun w hw => hw.within (within_demandPass _ w)) (acquires_timedOut ..)

end

/-! ### The obligation -/

section
variable {s : State} {o : Fin 8}

theorem releaseEvent_release (why : OutReason) (hst : (s.out o).state = .switching .release) :
    (finishRelease o why s).endEvent = ownEvent o (releaseMove o why) s := by
  unfold finishRelease
  rw [if_pos hst]
  rfl

theorem timeoutAcquire_acquire (hst : (s.out o).state = .switching .acquire) :
    (timeoutAcquire o s).endEvent = ownEvent o (timedOut · · o ·) s := by
  unfold timeoutAcquire
  rw [if_pos hst]
  rfl

end

/-- Both events that end a release do so, for their own reason. -/
theorem exec_releaseEvent {s : State} {o : Fin 8} {i : Instr} (hrun : s.startup.running = true)
    (hi : i = .releaseEnd o ∨ i = .releaseTimeout o) : ∃ why, exec i s = .next (finishRelease o why s).endEvent := by
  rcases hi with rfl | rfl
  · exact ⟨.complete, congrArg _ (whileRunning_eq hrun _)⟩
  · exact ⟨.forced, congrArg _ (whileRunning_eq hrun _)⟩

theorem exec_acquireEnd {s : State} (o : Fin 8) (hrun : s.startup.running = true) :
    exec (.acquireEnd o) s = .next (finishAcquire o s).endEvent := congrArg _ (whileRunning_eq hrun _)

theorem exec_acquireTimeout {s : State} (o : Fin 8) (hrun : s.startup.running = true) :
    exec (.acquireTimeout o) s = .next (timeoutAcquire o s).endEvent := congrArg _ (whileRunning_eq hrun _)

theorem exec_dividerChange {s : State} (o : Fin 8) (hrun : s.startup.running = true) :
    exec (.dividerChange o) s = .next (s.putOut o (takeDivider (s.out o))).endEvent := congrArg _ (whileRunning_eq hrun _)

theorem takeDivider_none {r : OutRec} (h : r.nextDiv = none) : takeDivider r = r := by
  unfold takeDivider
  split
  · simp_all
  · rfl

/-- Settles O42: each event is one move of the output's record and the course that follows. A closed gate stays closed through it
(`closed_evalOut`), an output on RCO keeps its source (`OnRco`), and an acquire that begins takes up no other source while sources only
stop (`Acquires`). -/
theorem outputEvents : Obligations.OutputEvents := by
  refine ⟨fun s o i hrun hi => ?_, fun s o hrun => ⟨fun u hst ht hf => ?_, fun u hst ht hu => ?_, fun hst => ⟨?_, ?_⟩,
    fun u hst ht => ?_, fun u d hst hcur hdiv => ?_, fun hdiv => ?_⟩⟩
  · obtain ⟨why, hexec⟩ := exec_releaseEvent hrun hi
    refine ⟨fun hst => ?_, fun hst => ⟨ownEvent o (releaseMove o why) s, ?_, ?_, ?_, ?_, ?_, releaseEnd_seeks why, fun hw => ?_⟩⟩
    · rw [hexec, finishRelease, if_neg hst]
    · rw [hexec, releaseEvent_release why hst]
    · exact (closed_ownEvent s o _ (closed_release why).1 (closed_release why).2).1
    · exact (closed_ownEvent s o _ (closed_release why).1 (closed_release why).2).2
    · exact (cfg_ownEvent s o _).trans (cfg_release why)
    · exact (refused_ownEvent s o _).trans (refused_release why)
    · rw [releaseEnd_rests why hw]
      exact ⟨rfl, rfl⟩
  · rw [exec_acquireEnd o hrun, finishAcquire_opens hst ht hf, finishAcquire_opens_as hst ht]
  · have hon := acquireEnd_onRco (s := s) ht hu
    refine ⟨_, ?_, hon.gate, hon.current, hon.pending⟩
    rw [exec_acquireEnd o hrun, finishAcquire_opens hst ht (by rw [hu]; rfl)]
  · rw [exec_acquireEnd o hrun, finishAcquire, if_neg (by simp [canOpen, hst])]
  · rw [exec_acquireTimeout o hrun, timeoutAcquire, if_neg hst]
  · have hacq := acquireTimeout_acquires (s := s) (o := o)
    have href : ((ownEvent o (timedOut · · o ·) s).out o).refused = (refuseTarget (s.out o)).refused :=
      (refused_ownEvent s o _).trans (refused_timedOut ..)
    refine ⟨ownEvent o (timedOut · · o ·) s, ?_, ?_, hacq.gate, hacq.pending, fun x hx => ?_⟩
    · rw [exec_acquireTimeout o hrun, timeoutAcquire_acquire hst]
    · rw [href]
      exact mem_refuseTarget ht
    · rw [href]
      exact refused_subset_refuseTarget _ hx
  · rw [exec_dividerChange o hrun]
    simp only [takeDivider, hst, hcur, hdiv]
  · rw [exec_dividerChange o hrun, takeDivider_none hdiv]

end Sys2Proof.Machine
end

section
/-! PROOFS. OUTPUT SELECT and OUTPUT QUERY (O41), and what becomes of a pin in an event (R59, R60, R74). -/

namespace Sys2Proof.Machine

/-! ### A pin in one evaluation -/

section
variable {e : Env} {c : Sources} {o : Fin 8} {r : OutRec}

/-- An eligible source is eligible also for a record that refuses the same and runs from no less (R66). -/
theorem eligible_mono {q : OutRec} {ch : ChainRec} {s : Src} (href : q.refused = r.refused)
    (hrun : q.runsFrom s = true → r.runsFrom s = true) (h : eligible e c o q ch s = true) : eligible e c o r ch s = true := by
  have hkept : permittedOrKept e o q s = true → permittedOrKept e o r s = true := fun hp => by
    unfold permittedOrKept at hp ⊢
    simp only [Bool.or_eq_true, Bool.and_eq_true] at hp ⊢
    exact hp.imp_right fun hk => ⟨⟨hk.1.1, hrun hk.1.2⟩, hk.2⟩
  unfold eligible at h ⊢
  simp only [Bool.and_eq_true, href] at h ⊢
  refine ⟨⟨?_, hkept h.1.2⟩, h.2⟩
  cases s with
  | rco => rfl
  | osc x =>
    have hst := h.1.1
    dsimp only at hst ⊢
    split at hst
    · rfl
    · simp only [Bool.and_eq_true] at hst ⊢
      exact ⟨hrun hst.1, hst.2⟩
    · cases hst

theorem feeds_of_eligible {ch : ChainRec} {s : Src} (h : eligible e c o r ch s = true) : feeds c s = true := by
  cases s with
  | rco => rfl
  | osc x =>
    unfold eligible at h
    unfold feeds
    dsimp only at h ⊢
    cases hst : (c.osc.get x).state <;> simp [hst] at h ⊢

theorem movedState_of_feeds {x : Osc} (h : feeds c (.osc x) = true) : movedState true (c.osc.get x).state = (c.osc.get x).state := by
  unfold feeds at h
  unfold movedState mustStop
  dsimp only at h
  cases hst : (c.osc.get x).state <;> simp [hst] at h ⊢

theorem permittedOrKept_of_eligible {ch : ChainRec} {s : Src} (h : eligible e c o r ch s = true) :
    permittedOrKept e o r s = true := by
  unfold eligible at h
  simp only [Bool.and_eq_true] at h
  exact h.1.2

/-- Step 1 of R68. -/
theorem select_pinned {k i : Fin 4} {v : Use} (hm : r.cfg.mode = .chain k) (hp : r.pin = some i)
    (hv : (e.chains.get k).entry i = some v) (hel : eligible e c o r (e.chains.get k) v.src = true) :
    select e c o r = ⟨releaseHeld e o r, false, .use v (some (.entry i))⟩ := by
  obtain ⟨w, hw⟩ := releaseHeld_eq e o r
  have hel' : eligible e c o { r with revert := w } (e.chains.get k) v.src = true := hel
  have hpu : pinnedUse e c o (releaseHeld e o r) (e.chains.get k) i = some v := by
    rw [hw, pinnedUse, hv]
    exact if_pos hel'
  have hpin : (releaseHeld e o r).pin = some i := by rw [hw]; exact hp
  unfold select
  rw [hm]
  dsimp only
  rw [hpin]
  dsimp only
  rw [hpu]

/-- A pin on an entry that is not eligible is lost (R74). -/
theorem select_pinLost {k i : Fin 4} {v : Use} (hm : r.cfg.mode = .chain k) (hp : r.pin = some i)
    (hv : (e.chains.get k).entry i = some v) (hel : eligible e c o r (e.chains.get k) v.src = false) :
    (select e c o r).out.pin = none := by
  obtain ⟨w, hw⟩ := releaseHeld_eq e o r
  have hel' : ¬ eligible e c o { r with revert := w } (e.chains.get k) v.src = true := fun h =>
    Bool.eq_false_iff.mp hel h
  have hpu : pinnedUse e c o (releaseHeld e o r) (e.chains.get k) i = none := by
    rw [hw, pinnedUse, hv]
    exact if_neg hel'
  have hpin : (releaseHeld e o r).pin = some i := by rw [hw]; exact hp
  unfold select
  rw [hm]
  dsimp only
  rw [hpin]
  dsimp only
  rw [hpu]

/-- Where no selection runs, the pin stands (R74). -/
theorem pin_evalOut_unwanted (h : wanted e.profile e.claims o r.cfg = false) : (evalOut e c o r).1.pin = r.pin := by
  unfold evalOut
  dsimp only
  rw [h]
  split
  · rfl
  · split
    · split <;> rfl
    · rw [if_neg (by simp)]; split <;> rfl
    · rfl
    · rfl
    · rfl
    · rfl
    · rfl

/-- A wanted output is evaluated by a selection, of its record or of that record with the gate closed (R46). -/
theorem pin_evalOut_wanted (h : wanted e.profile e.claims o r.cfg = true) :
    ∃ q, (q = r ∨ q = r.shut ∨ q = r.closed) ∧ (evalOut e c o r).1.pin = (select e c o q).out.pin := by
  have henable : r.cfg.enable = true := ((wanted_iff ..).mp h).1
  have hclosed : ∀ was q why again, (selectClosed e c o was q why again).1.pin = (select e c o q).out.pin :=
    fun was q why again => (pin_afterSelect _).trans (pin_actClosed _)
  unfold evalOut
  dsimp only
  rw [h]
  split
  · exact ⟨r.shut, .inr (.inl rfl), hclosed ..⟩
  · split
    · rw [henable]
      exact ⟨r, .inl rfl, hclosed ..⟩
    · exact ⟨r, .inl rfl, hclosed ..⟩
    · exact ⟨r, .inl rfl, hclosed ..⟩
    · exact ⟨r, .inl rfl, hclosed ..⟩
    · exact ⟨r, .inl rfl, (pin_afterSelect _).trans (pin_actRunning _)⟩
    · rw [if_neg (by simp)]
      split
      · exact ⟨r, .inl rfl, pin_afterSelect _⟩
      · exact ⟨r, .inl rfl, pin_afterSelect _⟩
    · rw [if_neg (by simp)]
      split
      · exact ⟨r, .inl rfl, (pin_afterSelect _).trans (pin_actAcquire _)⟩
      · exact ⟨r.closed, .inr (.inr rfl), hclosed ..⟩

/-- An evaluation leaves a pin or removes it (R74). -/
theorem pin_evalOut_or : (evalOut e c o r).1.pin = r.pin ∨ (evalOut e c o r).1.pin = none := by
  cases hw : wanted e.profile e.claims o r.cfg with
  | false => exact .inl (pin_evalOut_unwanted hw)
  | true =>
    obtain ⟨q, hq, hpin⟩ := pin_evalOut_wanted (c := c) hw
    have hqpin : q.pin = r.pin := by rcases hq with rfl | rfl | rfl <;> rfl
    obtain ⟨p, v, hout, hp⟩ := select_out e c o q
    rw [hpin, hout]
    exact hp.imp_left fun hp => hp.trans hqpin

/-- A wanted output loses a pin on an entry that is not eligible (R74). -/
theorem pin_evalOut_lost {k i : Fin 4} {v : Use} (h : wanted e.profile e.claims o r.cfg = true) (hm : r.cfg.mode = .chain k)
    (hp : r.pin = some i) (hv : (e.chains.get k).entry i = some v) (hel : eligible e c o r (e.chains.get k) v.src = false) :
    (evalOut e c o r).1.pin = none := by
  obtain ⟨q, hq, hpin⟩ := pin_evalOut_wanted (c := c) h
  rw [hpin]
  have hsame : q.cfg = r.cfg ∧ q.pin = r.pin ∧ q.refused = r.refused ∧ (q.runsFrom v.src = true → r.runsFrom v.src = true) := by
    rcases hq with rfl | rfl | rfl
    · exact ⟨rfl, rfl, rfl, id⟩
    · exact ⟨rfl, rfl, rfl, fun hc => nomatch hc⟩
    · exact ⟨rfl, rfl, rfl, fun hc => nomatch hc⟩
  obtain ⟨hcfg, hqpin, href, hrun⟩ := hsame
  exact select_pinLost (by rw [hcfg, hm]) (hqpin.trans hp) hv
    (Bool.eq_false_iff.mpr fun hc => Bool.eq_false_iff.mp hel (eligible_mono href hrun hc))

end

/-! ### A pin on an eligible entry -/

/-- The output has a pin on the entry `v`, which is eligible. -/
structure PinGood (e : Env) (o : Fin 8) (k i : Fin 4) (v : Use) (c : Sources) (r : OutRec) : Prop where
  mode : r.cfg.mode = .chain k
  wanted : wanted e.profile e.claims o r.cfg = true
  pin : r.pin = some i
  eligible : eligible e c o r (e.chains.get k) v.src = true

/-- The output runs from the pinned entry's source, or a switch of it goes there. -/
structure SeeksPin (e : Env) (o : Fin 8) (k i : Fin 4) (v : Use) (c : Sources) (r : OutRec)
    : Prop extends PinGood e o k i v c r where
  seeks : (r.state = .running ∧ ∃ u, r.current = some u ∧ u.src = v.src)
    ∨ ((r.state = .switching .release ∨ r.state = .switching .acquire) ∧ ∃ t, r.target = some t ∧ t.src = v.src)

section
variable {e : Env} {o : Fin 8} {k i : Fin 4} {v : Use} {c : Sources} {r : OutRec}

theorem PinGood.congr {q : OutRec} (h : PinGood e o k i v c r) (hcfg : q.cfg = r.cfg) (hpin : q.pin = r.pin)
    (hcur : q.current = r.current) (href : q.refused = r.refused) : PinGood e o k i v c q :=
  ⟨by rw [hcfg, h.mode], by rw [hcfg, h.wanted], hpin.trans h.pin, (eligible_congr e c o _ hcur href _).trans h.eligible⟩

theorem SeeksPin.afterSelect (h : SeeksPin e o k i v c r) (pl : Option Place) : SeeksPin e o k i v c (afterSelect e c o r pl) :=
  ⟨h.toPinGood.congr (cfg_afterSelect ..) (pin_afterSelect _) (current_afterSelect ..) (refused_afterSelect ..), by
    rw [state_afterSelect, current_afterSelect, target_afterSelect]
    exact h.seeks⟩

/-- Only a source other than the pinned one is lost (R54), and with it the pinned one stays eligible. -/
theorem PinGood.shut (h : PinGood e o k i v c r) (hlost : gateLost c r = true) : PinGood e o k i v c r.shut := by
  refine ⟨h.mode, h.wanted, h.pin, eligible_mono (q := r) rfl (fun hrun => ?_) h.eligible⟩
  exfalso
  unfold OutRec.runsFrom at hrun
  unfold gateLost at hlost
  split at hrun
  · rename_i u hu
    simp [hu, of_decide_eq_true hrun, feeds_of_eligible h.eligible] at hlost
  · cases hrun

variable (hv : (e.chains.get k).entry i = some v)
include hv

theorem PinGood.select (h : PinGood e o k i v c r) :
    select e c o r = ⟨releaseHeld e o r, false, .use v (some (.entry i))⟩ := select_pinned h.mode h.pin hv h.eligible

theorem PinGood.pick (h : PinGood e o k i v c r) : (Machine.select e c o r).pick = .use v (some (.entry i)) := by rw [h.select hv]

/-- Selection leaves the choice. -/
theorem PinGood.out (h : PinGood e o k i v c r) : PinGood e o k i v c (Machine.select e c o r).out := by
  refine h.congr (cfg_select ..) ?_ (current_select ..) (refused_select ..)
  rw [h.select hv]
  obtain ⟨w, hw⟩ := releaseHeld_eq e o r
  rw [hw]

/-- With the gate closed the pinned entry's source is acquired (R46). -/
theorem PinGood.selectClosed (h : PinGood e o k i v c r) (hcur : r.current = none) (was : OutRec) (why : OutReason) (again : Bool) :
    SeeksPin e o k i v c (selectClosed e c o was r why again).1 := by
  have hx : SeeksPin e o k i v c (actClosed e (Machine.select e c o r).out (Machine.select e c o r).pick) := by
    refine ⟨(h.out hv).congr (by simp) (by simp) (by simp [hcur]) (by simp), .inr ?_⟩
    rw [h.pick hv]
    exact ⟨.inr rfl, v, rfl, rfl⟩
  exact hx.afterSelect _

/-- A running output stays on the pinned entry's source or begins a release to it (R46, R52). -/
theorem PinGood.selectRunning (h : PinGood e o k i v c r) (hst : r.state = .running) {u : Use} (hcur : r.current = some u) :
    SeeksPin e o k i v c (selectRunning e c o r).1 := by
  have hx : SeeksPin e o k i v c (actRunning e (Machine.select e c o r).out (Machine.select e c o r).pick) := by
    rw [h.pick hv]
    by_cases hsrc : v.src = u.src
    · have hact : actRunning e (Machine.select e c o r).out (.use v (some (.entry i))) =
          { (Machine.select e c o r).out with nextDiv := if v.div = u.div then none else some v.div } := by
        simp [actRunning, hcur, hsrc]
      rw [hact]
      exact ⟨(h.out hv).congr rfl rfl rfl rfl, .inl ⟨by simp [hst], u, by simp [hcur], hsrc.symm⟩⟩
    · have hact : actRunning e (Machine.select e c o r).out (.use v (some (.entry i))) =
          beginRelease e (Machine.select e c o r).out (some v) := by
        simp [actRunning, hcur, hsrc]
      rw [hact]
      exact ⟨(h.out hv).congr rfl rfl rfl rfl, .inr ⟨.inl rfl, v, rfl, rfl⟩⟩
  exact hx.afterSelect _

/-- Selection in a switch to the pinned entry's source leaves it (R46). -/
theorem SeeksPin.out (h : SeeksPin e o k i v c r) : SeeksPin e o k i v c (Machine.select e c o r).out :=
  ⟨h.toPinGood.out hv, by rw [state_select, current_select, target_select]; exact h.seeks⟩

theorem SeeksPin.selectRelease (h : SeeksPin e o k i v c r) : SeeksPin e o k i v c (selectRelease e c o r).1 := by
  have hx := (h.out hv).afterSelect r.place
  exact ⟨hx.toPinGood.congr rfl rfl rfl rfl, hx.seeks⟩

theorem PinGood.retargetRelease (h : PinGood e o k i v c r) (hst : r.state = .switching .release) :
    SeeksPin e o k i v c (retargetRelease e c o r).1 := by
  have hx : SeeksPin e o k i v c { (Machine.select e c o r).out with target := pickTarget (Machine.select e c o r).pick } :=
    ⟨(h.out hv).congr rfl rfl rfl rfl, .inr ⟨.inl (by simp [hst]), v, by rw [h.pick hv]; rfl, rfl⟩⟩
  exact hx.afterSelect _

theorem SeeksPin.selectAcquire (h : SeeksPin e o k i v c r) {t : Use} (ht : r.target = some t) (hsrc : t.src = v.src)
    (hst : r.state = .switching .acquire) : SeeksPin e o k i v c (selectAcquire e c o r).1 := by
  have hact : actAcquire e (Machine.select e c o r).out (.use v (some (.entry i))) =
      { (Machine.select e c o r).out with target := some v, pending := none } := by
    simp [actAcquire, target_select, ht, hsrc]
  have hx : SeeksPin e o k i v c (actAcquire e (Machine.select e c o r).out (Machine.select e c o r).pick) := by
    rw [h.toPinGood.pick hv, hact]
    exact ⟨(h.toPinGood.out hv).congr rfl rfl rfl rfl, .inr ⟨.inr (by simp [hst]), v, rfl, rfl⟩⟩
  exact hx.afterSelect _

/-- An evaluation leaves the output on its way to the pinned entry's source. -/
theorem SeeksPin.evalOut (hkept : removedFromChain e o k v.src = false) (h : SeeksPin e o k i v c r) :
    SeeksPin e o k i v c (evalOut e c o r).1 := by
  unfold Machine.evalOut
  dsimp only
  rw [h.wanted]
  by_cases hlost : gateLost c r = true
  · rw [if_pos hlost]
    exact (h.toPinGood.shut hlost).selectClosed hv rfl ..
  · rw [if_neg hlost]
    rcases h.seeks with ⟨hst, u, hcur, -⟩ | ⟨hst | hst, t, ht, hsrc⟩
    · rw [hst]
      exact h.toPinGood.selectRunning hv hst hcur
    · rw [hst]
      dsimp only
      split_ifs
      · rename_i hc; cases hc
      · exact h.selectRelease hv
      · exact h.toPinGood.retargetRelease hv hst
    · have hu : targetUsable e c o r = true := by
        rw [targetUsable_chain ht h.mode, hsrc, h.eligible, hkept]
        rfl
      rw [hst]
      dsimp only
      rw [hu]
      exact h.selectAcquire hv ht hsrc hst

omit hv in
/-- The output demands the pinned entry's source, so that demand does not stop it (R3, R4). -/
theorem SeeksPin.demandPass {w : Ev} (h : SeeksPin e o k i v w.clk.src (w.clk.outs.get o)) :
    SeeksPin e o k i v (demandPass e w).clk.src (w.clk.outs.get o) := by
  refine ⟨⟨h.mode, h.wanted, h.pin, ?_⟩, h.seeks⟩
  have hused : usedBy e o (w.clk.outs.get o) v.src = true := by
    unfold usedBy OutRec.uses OutRec.runsFrom
    rw [permittedOrKept_of_eligible h.eligible]
    rcases h.seeks with ⟨hst, u, hcur, hsrc⟩ | ⟨hst | hst, t, ht, hsrc⟩
    · simp [hst, hcur, hsrc]
    · simp [hst, ht, hsrc]
    · simp [hst, ht, hsrc]
  have hfeeds := feeds_of_eligible h.eligible
  have hel := h.eligible
  cases hs : v.src with
  | rco => rw [hs] at hel; exact hel
  | osc x =>
    rw [hs] at hused hfeeds hel
    have hdemand : demanded e w.clk x = true := by
      have hany : usedByOutput e w.clk.outs (.osc x) = true := List.any_eq_true.mpr ⟨o, mem_eight o, hused⟩
      simp [demanded, demandedDirectly, hany]
    have hstate : ((Machine.demandPass e w).osc x).state = (w.osc x).state := by
      rw [osc_demandPass, hdemand]
      exact movedState_of_feeds hfeeds
    unfold Machine.eligible at hel ⊢
    dsimp only at hel ⊢
    rw [show ((Machine.demandPass e w).clk.src.osc.get x).state = (w.clk.src.osc.get x).state from hstate]
    exact hel

end

/-! ### The event of OUTPUT SELECT -/

/-- What OUTPUT SELECT's event sees. -/
def selectEnv (o : Fin 8) (s : State) : Env := { envOf .ordinary s s with cause := .outputSelect o }

/-- The state that an accepted OUTPUT SELECT leaves. -/
def selectDone (o : Fin 8) (entry : Option (Fin 4)) (s : State) : State :=
  reevaluate (.outputSelect o) s (s.putOut o ((s.out o).pinned entry))

/-- Sources and outputs with the pin set, before the event's course. -/
def pinSet (o : Fin 8) (entry : Option (Fin 4)) (s : State) : Ev := ⟨(s.putOut o ((s.out o).pinned entry)).clk, [], []⟩

section
variable (o : Fin 8) (entry : Option (Fin 4)) (s : State)

theorem clk_selectDone : (selectDone o entry s).clk = (settle (selectEnv o s) (pinSet o entry s)).clk := by
  have henv : envOf (.outputSelect o) s (s.putOut o ((s.out o).pinned entry)) = selectEnv o s := rfl
  rw [selectDone, reevaluate, clk_runEvent, henv, pinSet]

theorem out_selectDone (x : Fin 8) :
    (selectDone o entry s).out x = (settle (selectEnv o s) (pinSet o entry s)).clk.outs.get x := by
  rw [State.out, clk_selectDone]

theorem get_pinSet (x : Fin 8) :
    (pinSet o entry s).clk.outs.get x = if x = o then (s.out o).pinned entry else s.out x := get_putOut ..

theorem cfg_pinned (r : OutRec) : (r.pinned entry).cfg = r.cfg := by cases entry <;> rfl

theorem outCfg_selectDone (x : Fin 8) : ((selectDone o entry s).out x).cfg = (s.out x).cfg := by
  rw [selectDone, outCfg_reevaluate, out_putOut]
  split
  · rename_i hx
    rw [cfg_pinned, hx]
  · rfl

/-- What holds once the output has been evaluated with its new pin, and is kept by evaluation and demand, holds after the event. -/
theorem selectDone_keeps {P : Sources → OutRec → Prop}
    (heval : ∀ c r, P c r → P c (evalOut (selectEnv o s) c o r).1)
    (hdemand : ∀ w : Ev, P w.clk.src (w.clk.outs.get o) → P (demandPass (selectEnv o s) w).clk.src (w.clk.outs.get o))
    (h : P s.clk.src (evalOut (selectEnv o s) s.clk.src o ((s.out o).pinned entry)).1) :
    P (selectDone o entry s).clk.src ((selectDone o entry s).out o) := by
  rw [out_selectDone, clk_selectDone]
  refine settle_keeps_of_first heval hdemand ?_
  rw [get_pinSet, if_pos rfl]
  exact h

theorem pin_selectDone_auto : ((selectDone o none s).out o).pin = none :=
  pin_reevaluate _ _ _ _ (by rw [out_putOut, if_pos rfl]; rfl)

variable {s} (i : Fin 4)

/-- The event leaves the pin or removes it (R74). -/
theorem pin_selectDone_or : ((selectDone o (some i) s).out o).pin = some i ∨ ((selectDone o (some i) s).out o).pin = none :=
  selectDone_keeps o (some i) s (P := fun _ r => r.pin = some i ∨ r.pin = none)
    (fun _ _ hr => hr.elim (fun hp => pin_evalOut_or.imp_left fun hq => hq.trans hp) fun hp => .inr (pin_evalOut hp))
    (fun _ hr => hr) pin_evalOut_or

/-- It stands where the output is not wanted: no selection runs. -/
theorem pin_selectDone_unwanted (hw : s.wants o = false) : ((selectDone o (some i) s).out o).pin = some i :=
  (selectDone_keeps o (some i) s
    (P := fun _ r => wanted (selectEnv o s).profile (selectEnv o s).claims o r.cfg = false ∧ r.pin = some i)
    (fun _ _ hr => ⟨by rw [cfg_evalOut]; exact hr.1, (pin_evalOut_unwanted hr.1).trans hr.2⟩) (fun _ hr => hr)
    ⟨by rw [cfg_evalOut]; exact hw, pin_evalOut_unwanted hw⟩).2

/-- A wanted output loses it at once on an entry that is not eligible. -/
theorem pin_selectDone_lost {k : Fin 4} {v : Use} (hw : s.wants o = true) (hm : (s.out o).cfg.mode = .chain k)
    (hv : (s.chains.get k).entry i = some v)
    (hel : eligible (envOf .ordinary s s) s.clk.src o (s.out o) (s.chains.get k) v.src = false) :
    ((selectDone o (some i) s).out o).pin = none :=
  selectDone_keeps o (some i) s (P := fun _ r => r.pin = none) (fun _ _ hr => pin_evalOut hr) (fun _ hr => hr)
    (pin_evalOut_lost (e := selectEnv o s) (r := (s.out o).pinned (some i)) hw hm rfl hv hel)

end

/-! ### OUTPUT SELECT at rest -/

/-- What demand sees of an output (R3). -/
structure SameUse (q r : OutRec) : Prop where
  cfg : q.cfg = r.cfg
  state : q.state = r.state
  current : q.current = r.current
  target : q.target = r.target
  refused : q.refused = r.refused

section
variable {e : Env} {c : Sources} {o : Fin 8} {q r : OutRec} (h : SameUse q r)
include h

theorem SameUse.usedBy (s : Src) : usedBy e o q s = usedBy e o r s := by
  unfold Machine.usedBy OutRec.uses permittedOrKept OutRec.runsFrom
  rw [h.state, h.current, h.target]

theorem SameUse.standbyEntry : standbyEntry e c q = standbyEntry e c r := by
  unfold Machine.standbyEntry standbyCandidate anchor
  rw [h.cfg, h.state, h.current, h.target, h.refused]

theorem SameUse.afterSelect (pl : Option Place) : SameUse (afterSelect e c o q pl) r :=
  ⟨(cfg_afterSelect ..).trans h.cfg, (state_afterSelect ..).trans h.state, (current_afterSelect ..).trans h.current,
    (target_afterSelect _).trans h.target, (refused_afterSelect ..).trans h.refused⟩

end

theorem sameUse_select {e : Env} {c : Sources} {o : Fin 8} (r : OutRec) : SameUse (select e c o r).out r :=
  ⟨cfg_select .., state_select .., current_select .., target_select _, refused_select ..⟩

/-- A cause that gives no FAILOVER reason of its own (R75). -/
def Cause.plain (x : Cause) : Prop := x.isRestart = false ∧ ∀ k, x ≠ .chainSet k

theorem eventReason_plain {e : Env} (he : e.cause.plain) (c : Sources) (o : Fin 8) (k : Fin 4) (old : Place) :
    eventReason e c o k old = none := by
  unfold eventReason
  rw [if_neg (by simp [he.2 k]), if_neg (by rw [he.1]; simp)]

theorem standingReason_cause {e : Env} {x : Cause} (he : e.cause.plain) (hx : x.plain) (c : Sources) (o : Fin 8) (r : OutRec)
    (k : Fin 4) (old : Place) : standingReason { e with cause := x } c o r k old = standingReason e c o r k old := by
  unfold standingReason
  rw [eventReason_plain he, eventReason_plain (e := { e with cause := x }) hx]

theorem nextAwaits_cause {e : Env} {x : Cause} (he : e.cause.plain) (hx : x.plain) (c : Sources) (o : Fin 8) (r : OutRec)
    (sel : Selected) : nextAwaits { e with cause := x } c o r sel = nextAwaits e c o r sel := by
  unfold nextAwaits
  simp only [standingReason_cause he hx]
  rfl

/-- The record that an evaluation leaves does not tell such causes apart. -/
theorem evalOut_cause {e : Env} {x : Cause} (he : e.cause.plain) (hx : x.plain) (c : Sources) (o : Fin 8) (r : OutRec) :
    (evalOut { e with cause := x } c o r).1 = (evalOut e c o r).1 := by
  have hrelease : (selectRelease { e with cause := x } c o r).1 = (selectRelease e c o r).1 := by
    have hs : select { e with cause := x } c o r = select e c o r := rfl
    simp only [selectRelease, nextAwaits_cause he hx, hs]
    rfl
  unfold evalOut
  dsimp only
  split
  · split <;> rfl
  · cases r.state with
    | off => dsimp only; split_ifs <;> rfl
    | parked => dsimp only; split_ifs <;> rfl
    | waiting => dsimp only; split_ifs <;> rfl
    | dark => dsimp only; split_ifs <;> rfl
    | running => dsimp only; split_ifs <;> rfl
    | switching ph =>
      cases ph with
      | release => dsimp only; split_ifs; exacts [rfl, hrelease, rfl]
      | acquire =>
        have hu : targetUsable { e with cause := x } c o r = targetUsable e c o r := rfl
        dsimp only
        rw [hu]
        split_ifs <;> rfl

/-- A course whose first round stops no source leaves the outputs as that round did. -/
theorem settle_of_still {e : Env} {v : Ev} (h : someStop e (outputsPass e v) = false) :
    settle e v = demandPass e (outputsPass e v) := by
  unfold settle settleRounds
  dsimp only
  rw [if_neg (by rw [h]; simp)]

/-- An output that takes a pin without a change that demand sees is left so by the rest of the event. -/
theorem out_selectDone_still {s : State} {o : Fin 8} {entry : Option (Fin 4)} (hrest : atRest s)
    (hsame : SameUse (evalOut (selectEnv o s) s.clk.src o ((s.out o).pinned entry)).1 (s.out o)) :
    (selectDone o entry s).out o = (evalOut (selectEnv o s) s.clk.src o ((s.out o).pinned entry)).1 := by
  set q := (evalOut (selectEnv o s) s.clk.src o ((s.out o).pinned entry)).1 with hq
  obtain ⟨hfixed, hdemand, -⟩ := hrest
  have hsrc : (outputsPass (selectEnv o s) (pinSet o entry s)).clk.src = s.clk.src := (outputsPass_get _ _ o).1
  have hget : ∀ x, (outputsPass (selectEnv o s) (pinSet o entry s)).clk.outs.get x = (s.putOut o q).clk.outs.get x := fun x => by
    rw [(outputsPass_get _ _ x).2, get_pinSet, get_putOut]
    split
    · rename_i hx
      rw [hx]
      rfl
    · have hplain := evalOut_cause (e := envOf .ordinary s s) (x := .outputSelect o) ⟨rfl, fun k hk => nomatch hk⟩
        ⟨rfl, fun k hk => nomatch hk⟩ s.clk.src x (s.out x)
      exact hplain.trans (congrArg Prod.fst (hfixed x))
  have houts : (outputsPass (selectEnv o s) (pinSet o entry s)).clk.outs = (s.putOut o q).clk.outs := Bank8.ext_get hget
  have hsees : ∀ x, demanded (selectEnv o s) (outputsPass (selectEnv o s) (pinSet o entry s)).clk x =
      demanded (envOf .ordinary s s) s.clk x := fun x => by
    have hclk : demanded (selectEnv o s) (outputsPass (selectEnv o s) (pinSet o entry s)).clk x =
        demanded (selectEnv o s) (s.putOut o q).clk x := by
      unfold demanded demandedDirectly usedAsStandby
      rw [hsrc, houts]
      rfl
    rw [hclk, demanded_putOut (fun x => hsame.usedBy x) hsame.standbyEntry]
    rfl
  have hstill : someStop (selectEnv o s) (outputsPass (selectEnv o s) (pinSet o entry s)) = false := by
    unfold someStop
    rw [List.any_eq_false]
    intro x _
    rw [demands, BankOsc.get_ofFn, hsees, Ev.osc, hsrc, (hdemand x).1]
    simp
  rw [out_selectDone, settle_of_still hstill, outs_demandPass, hget, get_putOut, if_pos rfl]

section
variable {s : State} {o : Fin 8} {k i : Fin 4} {v : Use}

/-- A chain keeps its entries in an event that does not write it (R50). -/
theorem removed_selectEnv (hm : (s.out o).cfg.mode = .chain k) (x : Src) : removedFromChain (selectEnv o s) o k x = false := by
  have hbefore : (selectEnv o s).chainBefore.get o = some (k, s.chains.get k) := by
    rw [selectEnv, envOf, Bank8.get_map]
    change (match (s.out o).cfg.mode with | .fixed _ => none | .chain k => some (k, s.chains.get k)) = _
    rw [hm]
  have hchains : (selectEnv o s).chains = s.chains := rfl
  unfold removedFromChain
  rw [hbefore, hchains]
  cases hx : anchorOf (s.chains.get k) x <;> simp [hx]

theorem evalOut_seeking {e : Env} {c : Sources} {r : OutRec} (hst : r.state = .waiting ∨ r.state = .dark)
    (hg : gateLost c r = false) (hw : wanted e.profile e.claims o r.cfg = true) :
    evalOut e c o r = selectClosed e c o r r .select false := by
  rcases hst with hst | hst <;> simp [evalOut, hst, hg, hw]

theorem evalOut_release {e : Env} {c : Sources} {r : OutRec} (hst : r.state = .switching .release)
    (hg : gateLost c r = false) (hw : wanted e.profile e.claims o r.cfg = true) (hbefore : e.wantedBefore.get o = true) :
    evalOut e c o r = selectRelease e c o r := by
  simp [evalOut, hst, hg, hw, hbefore]

theorem evalOut_acquire {e : Env} {c : Sources} {r : OutRec} (hst : r.state = .switching .acquire)
    (hw : wanted e.profile e.claims o r.cfg = true) :
    evalOut e c o r = if targetUsable e c o r then selectAcquire e c o r else selectClosed e c o r r.closed .abandoned true := by
  simp [evalOut, hst, gateLost, OutRec.gateOpen, hw]

/-- An acquire at rest has a usable target: one that ends as another begins would post a notice (R50, R55). -/
theorem targetUsable_of_rests {e : Env} {c : Sources} {r : OutRec} (hst : r.state = .switching .acquire)
    (hw : wanted e.profile e.claims o r.cfg = true) (hfix : evalOut e c o r = (r, [])) : targetUsable e c o r = true := by
  by_contra hu
  rw [evalOut_acquire hst hw, if_neg hu] at hfix
  obtain ⟨hrec, hnotes⟩ := Prod.mk.inj hfix
  change afterSelect e c o (actClosed e (select e c o r.closed).out (select e c o r.closed).pick)
    (select e c o r.closed).pick.place = r at hrec
  rw [hrec] at hnotes
  simp [stateNote, hst] at hnotes

section
variable {e : Env} {c : Sources} {r : OutRec} (hgood : PinGood e o k i v c r) (hv : (e.chains.get k).entry i = some v)
include hgood hv

/-- A release to another target goes on with its pin: the pin is taken up at its end (R46, R48). -/
theorem selectRelease_pinned : SameUse (selectRelease e c o r).1 r ∧ (selectRelease e c o r).1.pin = some i := by
  have hsame := (sameUse_select (e := e) (c := c) (o := o) r).afterSelect (e := e) (c := c) (o := o) r.place
  exact ⟨⟨hsame.cfg, hsame.state, hsame.current, hsame.target, hsame.refused⟩, (pin_afterSelect _).trans (hgood.out hv).pin⟩

/-- So does an acquire of another target, with the pinned entry pending (R51). -/
theorem selectAcquire_pinned {t : Use} (ht : r.target = some t) (hne : ¬ v.src = t.src) :
    SameUse (selectAcquire e c o r).1 r ∧ (selectAcquire e c o r).1.pin = some i := by
  have hact : actAcquire e (select e c o r).out (.use v (some (.entry i))) = { (select e c o r).out with pending := some v } := by
    simp [actAcquire, target_select, ht, hne]
  have hout := sameUse_select (e := e) (c := c) (o := o) r
  have hsame : SameUse { (select e c o r).out with pending := some v } r :=
    ⟨hout.cfg, hout.state, hout.current, hout.target, hout.refused⟩
  simp only [selectAcquire, hgood.pick hv, hact]
  exact ⟨hsame.afterSelect _, (pin_afterSelect _).trans (hgood.out hv).pin⟩

end

theorem SameUse.of_pinned {q r : OutRec} (h : SameUse q (r.pinned (some i))) : SameUse q r :=
  ⟨h.cfg, h.state, h.current, h.target, h.refused⟩

variable (hrest : atRest s) (hw : s.wants o = true) (hm : (s.out o).cfg.mode = .chain k)
  (hv : (s.chains.get k).entry i = some v)
  (hel : eligible (envOf .ordinary s s) s.clk.src o (s.out o) (s.chains.get k) v.src = true)
include hrest hw hm hv hel

/-- Evaluated with its new pin, an output at rest moves towards the pinned entry's source, or goes on with the switch it is in. -/
theorem evalOut_pinSet : SeeksPin (selectEnv o s) o k i v s.clk.src
      (evalOut (selectEnv o s) s.clk.src o ((s.out o).pinned (some i))).1
    ∨ (SameUse (evalOut (selectEnv o s) s.clk.src o ((s.out o).pinned (some i))).1 (s.out o)
      ∧ (evalOut (selectEnv o s) s.clk.src o ((s.out o).pinned (some i))).1.pin = some i) := by
  set r := s.out o with hr
  have hfix : evalOut (envOf .ordinary s s) s.clk.src o r = (r, []) := hrest.1 o
  have hrec : (evalOut (envOf .ordinary s s) s.clk.src o r).1 = r := congrArg Prod.fst hfix
  have hlost : gateLost s.clk.src r = false := gateLost_of_fixed hrec
  have hwant : wanted (envOf .ordinary s s).profile (envOf .ordinary s s).claims o r.cfg = true := hw
  have hgood : PinGood (selectEnv o s) o k i v s.clk.src (r.pinned (some i)) := ⟨hm, hw, rfl, hel⟩
  have hclosed : r.state = .waiting ∨ r.state = .dark → SeeksPin (selectEnv o s) o k i v s.clk.src
      (evalOut (selectEnv o s) s.clk.src o (r.pinned (some i))).1 := fun hst => by
    have hcur : r.current = none := by
      rw [evalOut_seeking hst hlost hwant] at hrec
      rw [← hrec]
      exact current_selectClosed ..
    rw [evalOut_seeking (r := r.pinned (some i)) hst hlost hgood.wanted]
    exact hgood.selectClosed hv hcur ..
  have hseeks : SeeksPin (selectEnv o s) o k i v s.clk.src (r.pinned (some i)) → SeeksPin (selectEnv o s) o k i v s.clk.src
      (evalOut (selectEnv o s) s.clk.src o (r.pinned (some i))).1 := fun h => h.evalOut hv (removed_selectEnv hm _)
  have hstand : r.standsAs true = true := by
    have hev := stands_evalOut (envOf .ordinary s s) s.clk.src o r
    rwa [hwant, hrec] at hev
  cases hst : r.state with
  | off =>
    have henable : r.cfg.enable = true := ((wanted_iff ..).mp hwant).1
    simp [OutRec.standsAs, hst, henable] at hstand
  | parked => simp [OutRec.standsAs, hst] at hstand
  | waiting => exact .inl (hclosed (.inl hst))
  | dark => exact .inl (hclosed (.inr hst))
  | running =>
    left
    obtain ⟨u, hcur, -⟩ := gateFed_of_not_lost hlost (by simp [OutRec.gateOpen, hst])
    rw [evalOut_running (r := r.pinned (some i)) hst hlost hgood.wanted]
    exact hgood.selectRunning hv hst hcur
  | switching ph =>
    by_cases htarget : ∃ t, r.target = some t ∧ t.src = v.src
    · refine .inl (hseeks ⟨hgood, .inr ⟨?_, htarget⟩⟩)
      cases ph
      · exact .inl hst
      · exact .inr hst
    · right
      cases ph with
      | release =>
        rw [evalOut_release (r := r.pinned (some i)) hst hlost hgood.wanted ((Bank8.get_ofFn ..).trans hw)]
        exact (selectRelease_pinned hgood hv).imp_left SameUse.of_pinned
      | acquire =>
        have hrests : targetUsable (envOf .ordinary s s) s.clk.src o r = true := targetUsable_of_rests hst hwant hfix
        have hu : targetUsable (selectEnv o s) s.clk.src o (r.pinned (some i)) = true := hrests
        obtain ⟨t, ht⟩ := targetUsable_some hu
        rw [evalOut_acquire (r := r.pinned (some i)) hst hgood.wanted, if_pos hu]
        exact (selectAcquire_pinned hgood hv ht fun h => htarget ⟨t, ht, h.symm⟩).imp_left SameUse.of_pinned

/-- A pin on an eligible entry stands at rest (R59, R74). -/
theorem pin_selectDone_eligible : ((selectDone o (some i) s).out o).pin = some i := by
  rcases evalOut_pinSet hrest hw hm hv hel with hseeks | ⟨hsame, hpin⟩
  · exact (selectDone_keeps o (some i) s (fun _ _ h => h.evalOut hv (removed_selectEnv hm _)) (fun _ h => h.demandPass) hseeks).pin
  · rw [out_selectDone_still hrest hsame]
    exact hpin

end

/-! ### OUTPUT QUERY and the answer of OUTPUT SELECT (R59, R60) -/

theorem entryOfCode_auto : entryOfCode 0xFF#8 = some none := rfl

theorem entryOfCode_entry {b : Byte} {i : Fin 4} (h : b.toNat = i.val) : entryOfCode b = some (some i) := by
  have hlt : b.toNat < 4 := h ▸ i.isLt
  have hne : b ≠ 0xFF#8 := fun hb => by rw [hb] at hlt; exact absurd hlt (by decide)
  rw [entryOfCode, if_neg hne, chainOfCode, dif_pos hlt]
  exact congrArg (some ∘ some) (Fin.ext h)

theorem entryOfCode_outOfRange {b : Byte} (hne : b ≠ 0xFF#8) (h : 4 ≤ b.toNat) : entryOfCode b = none := by
  rw [entryOfCode, if_neg hne, chainOfCode, dif_neg (Nat.not_lt.mpr h)]
  rfl

theorem b1_entryCode {b : Byte} {i : Fin 4} (h : b.toNat = i.val) : b1 (entryCode (some i)) = [b] := by
  rw [b1, entryCode, ← h, BitVec.ofNat_toNat, BitVec.setWidth_eq]

theorem b1_entryCode_none : b1 (entryCode none) = [0xFF#8] := rfl

section
variable {output b : Byte} {o : Fin 8} (ho : eightOfCode output = some o) (s : State)
include ho

theorem performOutputQuery_still (h : (s.out o).phase = none) :
    performOutputQuery output s = .ok s (outConfigBytes o (s.out o).cfg ++ outRuntimeBytes s o 0) := by
  unfold performOutputQuery
  rw [ho]
  dsimp only
  rw [h]

theorem performOutputQuery_switching {p : PhaseClock} (h : (s.out o).phase = some p) :
    performOutputQuery output s = .ok s.drawFree.2 (outConfigBytes o (s.out o).cfg
      ++ outRuntimeBytes s o (phaseMicros s.tick p (Config.freeMicros s.freeCount))) := by
  unfold performOutputQuery
  rw [ho]
  dsimp only
  rw [h]

theorem performOutputSelect_fixed {u : Use} (hm : (s.out o).cfg.mode = .fixed u) :
    performOutputSelect output b s = .refuse s .conflict := by
  unfold performOutputSelect
  rw [ho]
  dsimp only
  rw [hm]

variable {k : Fin 4} (hm : (s.out o).cfg.mode = .chain k)
include hm

theorem performOutputSelect_outOfRange (hb : entryOfCode b = none) : performOutputSelect output b s = .refuse s .badValue := by
  unfold performOutputSelect
  rw [ho]
  dsimp only
  rw [hm]
  dsimp only
  rw [hb]

theorem performOutputSelect_inRange {entry : Option (Fin 4)} (hb : entryOfCode b = some entry) :
    performOutputSelect output b s = selectOutput o entry s := by
  unfold performOutputSelect
  rw [ho]
  dsimp only
  rw [hm]
  dsimp only
  rw [hb]

theorem performOutputSelect_absent {i : Fin 4} (hb : entryOfCode b = some (some i)) (hi : (s.chains.get k).entry i = none) :
    performOutputSelect output b s = .refuse s .noSuch := by
  rw [performOutputSelect_inRange ho s hm hb, selectOutput, hm]
  simp [hi]

theorem performOutputSelect_present {i : Fin 4} (hb : entryOfCode b = some (some i)) (hi : (s.chains.get k).entry i ≠ none) :
    performOutputSelect output b s =
      .ok (selectDone o (some i) s) (b1 (entryCode ((selectDone o (some i) s).out o).pin)) := by
  rw [performOutputSelect_inRange ho s hm hb, selectOutput, hm]
  dsimp only
  rw [if_neg (by simpa using hi), selectDone]

theorem performOutputSelect_auto : performOutputSelect output 0xFF#8 s =
    .ok (selectDone o none s) (b1 (entryCode ((selectDone o none s).out o).pin)) := by
  rw [performOutputSelect_inRange ho s hm entryOfCode_auto, selectOutput, hm]
  dsimp only
  rw [if_neg (by simp), selectDone]

end

section
variable {s : State} {tag output b : Byte} {o : Fin 8} {k i : Fin 4} (ht : s.takes) (ho : eightOfCode output = some o)
  (hm : (s.out o).cfg.mode = .chain k)
include ht ho hm

theorem exec_outputSelect_auto : exec (.outputSelect tag output 0xFF#8) s =
    .next (afterReply (selectDone o none s.hunt) tag 0x22#8 .ok [0xFF#8]) := by
  have hp := performOutputSelect_auto ho s.hunt hm
  rw [pin_selectDone_auto] at hp
  exact accepted_of_ok ht rfl hp

variable (hb : b.toNat = i.val) (hi : (s.chains.get k).entry i ≠ none)
include hb hi

theorem exec_outputSelect_pinned (hpin : ((selectDone o (some i) s.hunt).out o).pin = some i) :
    exec (.outputSelect tag output b) s = .next (afterReply (selectDone o (some i) s.hunt) tag 0x22#8 .ok [b]) := by
  have hp := performOutputSelect_present ho s.hunt hm (entryOfCode_entry hb) hi
  rw [hpin, b1_entryCode hb] at hp
  exact accepted_of_ok ht rfl hp

theorem exec_outputSelect_lost (hpin : ((selectDone o (some i) s.hunt).out o).pin = none) :
    exec (.outputSelect tag output b) s = .next (afterReply (selectDone o (some i) s.hunt) tag 0x22#8 .ok [0xFF#8]) := by
  have hp := performOutputSelect_present ho s.hunt hm (entryOfCode_entry hb) hi
  rw [hpin, b1_entryCode_none] at hp
  exact accepted_of_ok ht rfl hp

end

theorem phaseMicros_le (now : Tick) (p : PhaseClock) (x : Nat) : phaseMicros now p x ≤ 65535 := Nat.min_le_left ..

/-- Settles O41: the checks in their order; then the answer gives the pin that the event has left, which is the one set unless a wanted
output finds its entry not eligible (`pin_selectDone_unwanted`, `pin_selectDone_eligible`, `pin_selectDone_lost`). -/
theorem outputSelectAndQuery : Obligations.OutputSelectAndQuery := by
  intro s tag output ht
  refine ⟨fun h => ⟨?_, fun e => ?_⟩, fun o ho => ⟨fun hphase => ?_, fun hphase => ?_, fun e u hm => ?_, fun k hm =>
    ⟨fun e hne hb => ?_, fun e i hb hi => ?_, ?_, fun e i hb hi => ?_, fun e i v hb hv => ⟨fun hstands => ?_, fun hw hel => ?_⟩⟩⟩⟩
  · exact refuses_of_refuse ht rfl (by unfold performOutputQuery; rw [h])
  · exact refuses_of_refuse ht rfl (by unfold performOutputSelect; rw [h])
  · exact accepted_of_ok ht rfl (performOutputQuery_still ho s.hunt hphase)
  · obtain ⟨p, hp⟩ := Option.ne_none_iff_exists'.mp hphase
    exact ⟨_, phaseMicros_le s.tick p _, accepted_of_ok ht rfl (performOutputQuery_switching ho s.hunt hp)⟩
  · exact refuses_of_refuse ht rfl (performOutputSelect_fixed ho s.hunt hm)
  · exact refuses_of_refuse ht rfl (performOutputSelect_outOfRange ho s.hunt hm (entryOfCode_outOfRange hne hb))
  · exact refuses_of_refuse ht rfl (performOutputSelect_absent ho s.hunt hm (entryOfCode_entry hb) hi)
  · exact ⟨_, exec_outputSelect_auto ht ho hm, pin_selectDone_auto o s.hunt, outCfg_selectDone o none s.hunt⟩
  · refine ⟨selectDone o (some i) s.hunt, ?_, outCfg_selectDone o (some i) s.hunt⟩
    rcases pin_selectDone_or (s := s.hunt) o i with hpin | hpin
    · exact .inl ⟨exec_outputSelect_pinned ht ho hm hb hi hpin, hpin⟩
    · exact .inr ⟨exec_outputSelect_lost ht ho hm hb hi hpin, hpin⟩
  · have hpin : ((selectDone o (some i) s.hunt).out o).pin = some i := by
      rcases hstands with hw | ⟨hrest, hel⟩
      · exact pin_selectDone_unwanted (s := s.hunt) o i hw
      · cases hw : s.wants o with
        | false => exact pin_selectDone_unwanted (s := s.hunt) o i hw
        | true => exact pin_selectDone_eligible (s := s.hunt) hrest hw hm hv hel
    exact ⟨_, exec_outputSelect_pinned ht ho hm hb (by rw [hv]; simp) hpin, hpin⟩
  · have hpin := pin_selectDone_lost (s := s.hunt) o i hw hm hv hel
    exact ⟨_, exec_outputSelect_lost ht ho hm hb (by rw [hv]; simp) hpin, hpin⟩

end Sys2Proof.Machine
end

section
/-! PROOFS. What a chain gives (O27): an inversion of chain selection into the steps of R68, and the pin before it. -/

namespace Sys2Proof.Machine

/-! ### The first entry of a kind -/

/-- Entry `i` is the first entry whose source satisfies `p`, and `u` is its use. -/
structure FirstEntry (ch : ChainRec) (p : Src → Bool) (i : Fin 4) (u : Use) : Prop where
  entry : ch.entry i = some u
  holds : p u.src = true
  earlier : ∀ j v, j < i → ch.entry j = some v → p v.src = false

/-- No entry's source satisfies `p`. -/
def NoEntry (ch : ChainRec) (p : Src → Bool) : Prop := ∀ j v, ch.entry j = some v → p v.src = false

section
variable {ch : ChainRec} {p : Src → Bool}

theorem firstEntry_of_find {i : Fin 4} {u : Use} (h : (ch.numbered.find? fun x => p x.2.src) = some (i, u)) :
    FirstEntry ch p i u := by
  obtain ⟨hp, as, bs, hl, has⟩ := List.find?_eq_some_iff_append.mp h
  have hrise := numbered_rising ch
  rw [hl, List.pairwise_append] at hrise
  obtain ⟨-, htail, -⟩ := hrise
  refine ⟨mem_numbered (List.mem_of_find?_eq_some h), hp, fun j v hj hv => ?_⟩
  have hmem := numbered_of_entry hv
  rw [hl, List.mem_append, List.mem_cons] at hmem
  rcases hmem with hbefore | heq | hafter
  · simpa using has _ hbefore
  · cases heq
    exact absurd hj (lt_irrefl i)
  · exact absurd hj (lt_asymm ((List.pairwise_cons.mp htail).1 _ hafter))

theorem noEntry_of_find (h : (ch.numbered.find? fun x => p x.2.src) = none) : NoEntry ch p :=
  fun _ _ hv => Bool.eq_false_iff.mpr (List.find?_eq_none.mp h _ (numbered_of_entry hv))

end

/-! ### The last resort (R66) -/

section
variable {r : OutRec} {ch : ChainRec}

theorem onLastResort_iff : onLastResort r ch = true ↔ anchor r ch = some .lastResort := decide_eq_true_iff

theorem lastResortUse_some {u : Use} (h : lastResortUse r ch = some u) :
    u.src = .rco ∧ ch.lastResort = some u.div ∧ lastResortUsable r ch = true := by
  unfold lastResortUse at h
  split at h
  · rename_i husable
    obtain ⟨d, hd, rfl⟩ := Option.map_eq_some_iff.mp h
    exact ⟨rfl, hd, husable⟩
  · cases h

theorem lastResortUse_none (h : lastResortUse r ch = none) : lastResortUsable r ch = false := by
  cases husable : lastResortUsable r ch with
  | false => rfl
  | true =>
    rw [lastResortUse, if_pos husable, Option.map_eq_none_iff] at h
    simp [lastResortUsable, h] at husable

end

/-! ### Chain selection step by step (R68, R71) -/

section
variable (e : Env) (c : Sources) (o : Fin 8) (r : OutRec) (ch : ChainRec)

/-- What each of the steps 2 to 7 of R68 gives, with what holds where it is the step that decides. -/
inductive ChainResult : Pick → Prop where
  | heldBack {i : Fin 4} {u : Use} (hanchor : anchor r ch = some (.entry i)) (hentry : ch.entry i = some u)
      (hel : eligible e c o r ch u.src = true) (hdue : r.revert ≠ .due) : ChainResult (.use u (some (.entry i)))
  | firstEligible {i : Fin 4} {u : Use} (hfirst : FirstEntry ch (eligible e c o r ch) i u) :
      ChainResult (.use u (some (.entry i)))
  | staysOnLastResort {u : Use} (hnone : NoEntry ch (eligible e c o r ch)) (hanchor : anchor r ch = some .lastResort)
      (hlast : lastResortUse r ch = some u) : ChainResult (.use u (some .lastResort))
  | firstStartable {i : Fin 4} {u : Use} (hnone : NoEntry ch (eligible e c o r ch))
      (hleft : anchor r ch = some .lastResort → lastResortUse r ch = none)
      (hfirst : FirstEntry ch (startable e c r) i u) : ChainResult (.wait u (some (.entry i)))
  | toLastResort {u : Use} (hnone : NoEntry ch (eligible e c o r ch)) (hstart : NoEntry ch (startable e c r))
      (hlast : lastResortUse r ch = some u) : ChainResult (.use u (some .lastResort))
  | nothing (hnone : NoEntry ch (eligible e c o r ch)) (hstart : NoEntry ch (startable e c r))
      (hlast : lastResortUse r ch = none) : ChainResult .dark

variable {e c o r ch}

theorem holdBack_some {i : Fin 4} {u : Use} (h : holdBack e c o r ch = some (i, u)) :
    anchor r ch = some (.entry i) ∧ ch.entry i = some u ∧ eligible e c o r ch u.src = true ∧ r.revert ≠ .due := by
  unfold holdBack at h
  split at h
  · rename_i j hj
    split at h
    · rename_i w hw
      split at h
      · rename_i hc
        cases h
        simp only [Bool.and_eq_true, decide_eq_true_eq] at hc
        exact ⟨hj, hw, hc.1.1, hc.2⟩
      · cases h
    · cases h
  · cases h

theorem holdBack_anchor {i : Fin 4} {u : Use} (ha : anchor r ch = some (.entry i)) (hu : ch.entry i = some u) :
    holdBack e c o r ch =
      if eligible e c o r ch u.src && earlierEligible e c o r ch i && decide (r.revert ≠ .due) then some (i, u) else none := by
  simp only [holdBack, ha, hu]

variable (e c o r ch)

/-- Every result of a chain is one of these. -/
theorem chainSelect_result : ChainResult e c o r ch (chainSelect e c o r ch) := by
  unfold chainSelect
  split
  · rename_i i u hb
    obtain ⟨ha, hu, hel, hdue⟩ := holdBack_some hb
    exact .heldBack ha hu hel hdue
  split
  · rename_i i u hf
    exact .firstEligible (firstEntry_of_find hf)
  rename_i hf
  have hnone : NoEntry ch (eligible e c o r ch) := noEntry_of_find hf
  split
  · rename_i u hl
    obtain ⟨hon, hl⟩ := Option.ite_none_right_eq_some.mp hl
    exact .staysOnLastResort hnone (onLastResort_iff.mp hon) hl
  rename_i hl
  split
  · rename_i i u hs
    exact .firstStartable hnone (fun ha => by rwa [if_pos (onLastResort_iff.mpr ha)] at hl) (firstEntry_of_find hs)
  rename_i hs
  have hstart : NoEntry ch (startable e c r) := noEntry_of_find hs
  split
  · rename_i u hu
    exact .toLastResort hnone hstart hu
  · rename_i hu
    exact .nothing hnone hstart hu

variable {e c o r ch}

theorem chainResult_of_eq {p : Pick} (h : chainSelect e c o r ch = p) : ChainResult e c o r ch p :=
  h ▸ chainSelect_result e c o r ch

theorem ChainResult.use_entry {u : Use} {i : Fin 4} (h : ChainResult e c o r ch (.use u (some (.entry i)))) :
    (anchor r ch = some (.entry i) ∧ ch.entry i = some u ∧ eligible e c o r ch u.src = true ∧ r.revert ≠ .due)
    ∨ FirstEntry ch (eligible e c o r ch) i u := by
  cases h with
  | heldBack ha hu hel hdue => exact .inl ⟨ha, hu, hel, hdue⟩
  | firstEligible hf => exact .inr hf

theorem ChainResult.wait_entry {u : Use} {i : Fin 4} (h : ChainResult e c o r ch (.wait u (some (.entry i)))) :
    NoEntry ch (eligible e c o r ch) ∧ FirstEntry ch (startable e c r) i u
    ∧ (anchor r ch = some .lastResort → lastResortUse r ch = none) := by
  cases h with
  | firstStartable hnone hleft hf => exact ⟨hnone, hf, hleft⟩

theorem ChainResult.use_lastResort {u : Use} (h : ChainResult e c o r ch (.use u (some .lastResort))) :
    lastResortUse r ch = some u ∧ NoEntry ch (eligible e c o r ch)
    ∧ (anchor r ch = some .lastResort ∨ NoEntry ch (startable e c r)) := by
  cases h with
  | staysOnLastResort hnone ha hl => exact ⟨hl, hnone, .inl ha⟩
  | toLastResort hnone hs hl => exact ⟨hl, hnone, .inr hs⟩

theorem ChainResult.dark (h : ChainResult e c o r ch .dark) :
    lastResortUse r ch = none ∧ NoEntry ch (eligible e c o r ch) ∧ NoEntry ch (startable e c r) := by
  cases h with
  | nothing hnone hs hl => exact ⟨hl, hnone, hs⟩

theorem ChainResult.form {p : Pick} (h : ChainResult e c o r ch p) :
    p = .dark ∨ ∃ u, p = .use u (some .lastResort) ∨ ∃ i, p = .use u (some (.entry i)) ∨ p = .wait u (some (.entry i)) := by
  cases h with
  | heldBack | firstEligible => exact .inr ⟨_, .inr ⟨_, .inl rfl⟩⟩
  | staysOnLastResort | toLastResort => exact .inr ⟨_, .inl rfl⟩
  | firstStartable => exact .inr ⟨_, .inr ⟨_, .inr rfl⟩⟩
  | nothing => exact .inl rfl

/-- An eligible anchor is used while no revert is due: it is held on to where an earlier entry is eligible, and is else the first
eligible one (R68 steps 2 and 3). -/
theorem chainSelect_anchor {i : Fin 4} {u : Use} (ha : anchor r ch = some (.entry i)) (hu : ch.entry i = some u)
    (hel : eligible e c o r ch u.src = true) (hdue : r.revert ≠ .due) :
    chainSelect e c o r ch = .use u (some (.entry i)) := by
  have hb := holdBack_anchor (e := e) (c := c) (o := o) ha hu
  unfold chainSelect
  cases hearly : earlierEligible e c o r ch i with
  | true => rw [hb, if_pos (by simp [hel, hearly, hdue])]
  | false => rw [hb, if_neg (by simp [hearly]), find_of_not_earlier hu hel hearly]

end

/-! ### The pin (R68 step 1, R74) -/

/-- A pin on an entry that is absent or not eligible is removed, and the chain decides for the record without it. -/
theorem select_unpinned {e : Env} {c : Sources} {o : Fin 8} {r : OutRec} {k i : Fin 4} (hm : r.cfg.mode = .chain k)
    (hp : r.pin = some i)
    (hel : ∀ u, (e.chains.get k).entry i = some u → eligible e c o r (e.chains.get k) u.src = false) :
    select e c o r = ⟨{ releaseHeld e o r with pin := none }, true,
      chainSelect e c o { releaseHeld e o r with pin := none } (e.chains.get k)⟩ := by
  obtain ⟨w, hw⟩ := releaseHeld_eq e o r
  have hpu : pinnedUse e c o (releaseHeld e o r) (e.chains.get k) i = none := by
    unfold pinnedUse
    split
    · rename_i u hu
      have hel' : eligible e c o (releaseHeld e o r) (e.chains.get k) u.src = false := by rw [hw]; exact hel u hu
      exact if_neg (by rw [hel']; simp)
    · rfl
  have hpin : (releaseHeld e o r).pin = some i := by rw [hw]; exact hp
  simp only [select, hm, hpin, hpu]

/-- Settles O27: each form of result is traced back to the steps of R68 that give it (`ChainResult`); an eligible pin goes before them
(`select_pinned`), any other is removed (`select_unpinned`). -/
theorem chainSelectionOrder : Obligations.ChainSelectionOrder := by
  refine ⟨fun e c o r ch => ⟨fun u i h => ?_, fun u i h => ?_, fun u h => ?_, fun h => ?_, ?_, fun u i => chainSelect_anchor⟩,
    fun e c o r k i hm hp => ⟨fun u hu hel => ?_, fun hel => ?_⟩⟩
  · rcases (chainResult_of_eq h).use_entry with ⟨ha, hu, hel, hdue⟩ | hf
    · exact ⟨hu, hel, .inr ⟨ha, hdue⟩⟩
    · exact ⟨hf.entry, hf.holds, .inl hf.earlier⟩
  · obtain ⟨hnone, hf, hleft⟩ := (chainResult_of_eq h).wait_entry
    refine ⟨hf.entry, hf.holds, hnone, hf.earlier, fun ⟨ha, husable⟩ => ?_⟩
    rw [lastResortUse_none (hleft ha)] at husable
    cases husable
  · obtain ⟨hl, hnone, hwhy⟩ := (chainResult_of_eq h).use_lastResort
    obtain ⟨hsrc, hdiv, husable⟩ := lastResortUse_some hl
    exact ⟨hsrc, hdiv, husable, hnone, hwhy⟩
  · obtain ⟨hl, hnone, hstart⟩ := (chainResult_of_eq h).dark
    exact ⟨lastResortUse_none hl, fun j v hv => ⟨hnone j v hv, hstart j v hv⟩⟩
  · exact (chainSelect_result e c o r ch).form
  · obtain ⟨w, hw⟩ := releaseHeld_eq e o r
    rw [select_pinned hm hp hu hel]
    exact ⟨rfl, by rw [hw]; exact hp, rfl⟩
  · rw [select_unpinned hm hp hel]
    exact ⟨rfl, rfl, rfl⟩

end Sys2Proof.Machine
end

section
/-! PROOFS. CHAIN SET, CHAIN QUERY and the revert timer (O43). -/

namespace Sys2Proof.Machine

/-! ### Pins within a chain (R74, R76) -/

/-- The output's pin, if it has one, is on an entry that the chain has. -/
def PinFits (ch : ChainRec) (r : OutRec) : Prop := ∀ i, r.pin = some i → (ch.entry i).isSome = true

section
variable {e : Env} {c : Sources} {o : Fin 8} {r : OutRec}

theorem pinFits_of_none {ch : ChainRec} (h : r.pin = none) : PinFits ch r := fun _ hi => by rw [h] at hi; cases hi

theorem PinFits.congr {ch : ChainRec} {q : OutRec} (h : PinFits ch r) (hp : q.pin = r.pin) : PinFits ch q :=
  fun i hi => h i (hp.symm.trans hi)

/-- An evaluation sets no pin. -/
theorem PinFits.evalOut {ch : ChainRec} (h : PinFits ch r) : PinFits ch (evalOut e c o r).1 :=
  pin_evalOut_or.elim h.congr pinFits_of_none

/-- A wanted output loses a pin beyond its chain's last entry in its first evaluation. -/
theorem pinFits_evalOut_wanted {k : Fin 4} (hw : wanted e.profile e.claims o r.cfg = true) (hm : r.cfg.mode = .chain k) :
    PinFits (e.chains.get k) (evalOut e c o r).1 := by
  by_cases hfit : PinFits (e.chains.get k) r
  · exact hfit.evalOut
  obtain ⟨i, hi⟩ := not_forall.mp hfit
  obtain ⟨hp, hbeyond⟩ := Classical.not_imp.mp hi
  have habsent : (e.chains.get k).entry i = none := by simpa using hbeyond
  obtain ⟨q, hq, hpin⟩ := pin_evalOut_wanted (c := c) hw
  obtain ⟨hqcfg, hqpin⟩ : q.cfg = r.cfg ∧ q.pin = r.pin := by rcases hq with rfl | rfl | rfl <;> exact ⟨rfl, rfl⟩
  refine pinFits_of_none ?_
  rw [hpin, select_unpinned (by rw [hqcfg, hm]) (hqpin.trans hp) fun u hu => by rw [habsent] at hu; cases hu]

/-- CHAIN SET leaves a pin beyond the last entry only to a selection that will find it lost. -/
theorem pinFits_dropPin_or (e : Env) (o : Fin 8) (k : Fin 4) (r : OutRec) :
    PinFits (e.chains.get k) (dropPin e o k r).1 ∨ wanted e.profile e.claims o r.cfg = true := by
  unfold dropPin
  split
  · rename_i hp
    exact .inl (pinFits_of_none hp)
  · rename_i i hp
    split
    · rename_i hkeep
      simp only [selects, Bool.or_eq_true, Bool.and_eq_true] at hkeep
      refine hkeep.imp (fun hentry j hj => ?_) fun hsel => hsel.1.1.1
      rw [hp] at hj
      cases hj
      exact hentry
    · exact .inl (pinFits_of_none rfl)

end

/-! ### CHAIN SET (R76) -/

/-- The state that an accepted CHAIN SET leaves. -/
def chainSetDone (k : Fin 4) (c : ChainRec) (s : State) : State :=
  runEvent (.chainSet k) s { s with chains := s.chains.set k c } fun e v => chainReplacedAll e k v

theorem get_chainReplaced_foldl (e : Env) (k : Fin 4) (l : List (Fin 8)) (hl : l.Nodup) (v : Ev) (x : Fin 8) :
    (l.foldl (fun v o => v.putOut o (chainReplaced e k o (v.clk.outs.get o))) v).clk.outs.get x =
      if x ∈ l then (chainReplaced e k x (v.clk.outs.get x)).1 else v.clk.outs.get x := by
  induction l generalizing v with
  | nil => simp
  | cons o os ih =>
    obtain ⟨ho, hos⟩ := List.nodup_cons.mp hl
    rw [List.foldl_cons, ih hos, Ev.get_putOut]
    by_cases hx : x = o
    · subst hx; simp [ho]
    · simp [hx]

theorem get_chainReplacedAll (e : Env) (k : Fin 4) (v : Ev) (x : Fin 8) :
    (chainReplacedAll e k v).clk.outs.get x = (chainReplaced e k x (v.clk.outs.get x)).1 :=
  (get_chainReplaced_foldl e k eight (by decide) v x).trans (if_pos (mem_eight x))

section
variable (k : Fin 4) (c : ChainRec) (s : State)

theorem chains_chainSetDone (x : Fin 4) : (chainSetDone k c s).chains.get x = if x = k then c else s.chains.get x := by
  rw [chainSetDone, chains_runEvent, Bank4.get_set]

/-- An output of the chain is left without a pin beyond the new last entry: it is dropped before the event's course, or lost in the
output's first evaluation. -/
theorem pinFits_chainSetDone {o : Fin 8} (hm : (s.out o).cfg.mode = .chain k) : PinFits c ((chainSetDone k c s).out o) := by
  set e := envOf (.chainSet k) s { s with chains := s.chains.set k c } with he
  have hchain : e.chains.get k = c := (Bank4.get_set ..).trans (if_pos rfl)
  rw [chainSetDone, out_runEvent, ← he]
  refine settle_keeps_of_first (P := fun _ r => PinFits c r) (fun _ _ h => h.evalOut) (fun _ h => h) ?_
  have hget : (chainReplacedAll e k ⟨s.clk, [], []⟩).clk.outs.get o = (dropPin e o k { s.out o with revert := .none }).1 := by
    rw [get_chainReplacedAll]
    exact congrArg Prod.fst (if_pos hm)
  rw [hget]
  have hcfg := cfg_dropPin e o k { s.out o with revert := .none }
  rcases pinFits_dropPin_or e o k { s.out o with revert := .none } with hfit | hw
  · rw [hchain] at hfit
    exact hfit.evalOut
  · rw [← hchain]
    exact pinFits_evalOut_wanted (by rw [hcfg]; exact hw) (by rw [hcfg]; exact hm)

end

theorem withinLimit_iff {c : Sources} {u : Use} : withinLimit c u = true ↔ nominal c u.src ≤ 200000000 * u.div :=
  decide_eq_true_iff

section
variable {r : ChainSetReq} {k : Fin 4} (hk : chainOfCode r.chain = some k) (s : State)
include hk

theorem performChainSet_outOfRange (h : r.entries = [] ∨ 4 < r.entries.length ∨ chainOfReq r = none) :
    performChainSet r s = .refuse s .badValue := by
  unfold performChainSet
  rw [hk]
  dsimp only
  rcases h with hempty | hlong | hrange
  · rw [if_pos (by simp [inRange, hempty])]
  · rw [if_pos (by simp [inRange, hlong])]
  · split
    · rfl
    · rw [hrange]

variable {c : ChainRec} (hc : chainOfReq r = some c) (hne : r.entries ≠ []) (hlen : r.entries.length ≤ 4)
include hc hne hlen

theorem performChainSet_checked : performChainSet r s =
    if !distinctSources c.entries then .refuse s .badValue
    else if !(c.entries.all (withinLimit s.clk.src)) then .refuse s .badValue
    else .ok (chainSetDone k c s) [] := by
  have hrange : inRange 1 4 r.entries.length = true := by
    simp [inRange, hlen, Nat.one_le_iff_ne_zero, hne]
  unfold performChainSet
  rw [hk]
  dsimp only
  rw [if_neg (by rw [hrange]; simp), hc]
  rfl

theorem performChainSet_unfit (h : distinctSources c.entries = false ∨ ∃ u ∈ c.entries, 200000000 * u.div < nominal s.clk.src u.src) :
    performChainSet r s = .refuse s .badValue := by
  rw [performChainSet_checked hk s hc hne hlen]
  rcases h with hdouble | ⟨u, hu, hfast⟩
  · rw [if_pos (by simp [hdouble])]
  · have hlimit : c.entries.all (withinLimit s.clk.src) = false :=
      List.all_eq_false.mpr ⟨u, hu, fun h => Nat.not_le.mpr hfast (withinLimit_iff.mp h)⟩
    rw [hlimit]
    split <;> rfl

theorem performChainSet_accepted (hdistinct : distinctSources c.entries = true)
    (hlimit : ∀ u ∈ c.entries, nominal s.clk.src u.src ≤ 200000000 * u.div) :
    performChainSet r s = .ok (chainSetDone k c s) [] := by
  have hall : c.entries.all (withinLimit s.clk.src) = true :=
    List.all_eq_true.mpr fun u hu => withinLimit_iff.mpr (hlimit u hu)
  rw [performChainSet_checked hk s hc hne hlen, hdistinct, hall]
  rfl

end

/-! ### CHAIN QUERY (R77) -/

theorem performChainQuery_ok {chain : Byte} {k : Fin 4} (hk : chainOfCode chain = some k) (s : State) :
    performChainQuery chain s = .ok s (chainBytes k (s.chains.get k) ++ b1 (outputsOf s k).length
      ++ (outputsOf s k).flatMap (standingBytes (envOf .ordinary s s) s k)) := by
  unfold performChainQuery
  rw [hk]

/-! ### The revert timer (R71) -/

theorem exec_revertTimerExpiry {s : State} (o : Fin 8) (hrun : s.startup.running = true) :
    exec (.revertTimerExpiry o) s = .next (expireRevert o s).endEvent := congrArg _ (whileRunning_eq hrun _)

theorem expireRevert_idle {s : State} {o : Fin 8} (h : ∀ u, (s.out o).revert ≠ .timing u) : expireRevert o s = s := by
  unfold expireRevert
  split
  · rename_i t ht
    exact absurd ht (h t)
  · rfl

theorem expireRevert_timing {s : State} {o : Fin 8} {due : Tick} (h : (s.out o).revert = .timing due) : expireRevert o s =
    if !reached s.tick due then s
    else if held s.claims o then s.putOut o { s.out o with revert := .held }
    else reevaluate .ordinary s (s.putOut o { s.out o with revert := .due }) := by
  unfold expireRevert
  rw [h]

/-- Settles O43: the checks of CHAIN SET in their order, then the chain replaced and every pin of its outputs within it
(`pinFits_chainSetDone`); CHAIN QUERY reads the state alone; the expiry by whether the timer is due and the output held. -/
theorem chainRequestsAndRevertTimer : Obligations.ChainRequestsAndRevertTimer := by
  refine ⟨fun s tag ht => ⟨fun chain h => ?_, fun chain k hk => ?_, fun r => ⟨fun h => ?_, fun k hk => ⟨fun h => ?_,
    fun c hc hne hlen => ⟨fun h => ?_, fun hdistinct hlimit => ?_⟩⟩⟩⟩,
    fun s o due hrun => ⟨fun ht => ⟨fun hr => ?_, fun hr hh => ?_, fun hr hh => ?_⟩, fun h => ?_⟩⟩
  · exact refuses_of_refuse ht rfl (by unfold performChainQuery; rw [h])
  · exact accepted_of_ok ht rfl (performChainQuery_ok hk s.hunt)
  · exact refuses_of_refuse ht rfl (by unfold performChainSet; rw [h])
  · exact refuses_of_refuse ht rfl (performChainSet_outOfRange hk s.hunt h)
  · exact refuses_of_refuse ht rfl (performChainSet_unfit hk s.hunt hc hne hlen h)
  · refine ⟨chainSetDone k c s.hunt, accepted_of_ok ht rfl (performChainSet_accepted hk s.hunt hc hne hlen hdistinct hlimit), ?_,
      fun x hx => ?_, fun o i hm hp => pinFits_chainSetDone k c s.hunt hm i hp⟩
    · rw [chains_chainSetDone, if_pos rfl]
    · rw [chains_chainSetDone, if_neg hx]
      rfl
  · rw [exec_revertTimerExpiry o hrun, expireRevert_timing ht, hr]
    rfl
  · rw [exec_revertTimerExpiry o hrun, expireRevert_timing ht, hr, hh]
    rfl
  · rw [exec_revertTimerExpiry o hrun, expireRevert_timing ht, hr, hh]
    rfl
  · rw [exec_revertTimerExpiry o hrun, expireRevert_idle h]

end Sys2Proof.Machine
end

section
/-! SUPPORT. The claim table as its keys: how they fit the maps of the lines (`Fits`) under each operation on the table, and how many
records such a table holds (R81, R82, R92, R95, R98). -/

namespace Sys2Proof.Machine

/-! ### The lines' maps -/

theorem mappedTotal_eq (ls : Bank8 LineRec) : mappedTotal ls = (eight.map fun l => (ls.get l).set.map.length).sum := rfl

/-- Mapped pairs are counted by the lines' settings alone (R82). -/
theorem mappedTotal_congr {ls ms : Bank8 LineRec} (h : ∀ l, (ms.get l).set = (ls.get l).set) : mappedTotal ms = mappedTotal ls := by
  simp only [mappedTotal_eq, h]

/-- A line's record rewritten with its settings. -/
theorem set_setLine {ls : Bank8 LineRec} {l : Fin 8} {r : LineRec} (h : r.set = (ls.get l).set) (x : Fin 8) :
    ((ls.set l r).get x).set = (ls.get x).set := by
  rw [Bank8.get_set]
  split
  · rename_i hx; subst hx; exact h
  · rfl

/-! ### Records that fit the maps -/

theorem mem_keys {cs : List Claim} {k : Claimant × Fin 8} : k ∈ cs.map Claim.key ↔ ∃ c ∈ cs, c.claimant = k.1 ∧ c.output = k.2 := by
  simp only [List.mem_map, Claim.key, Prod.ext_iff]

/-- Every record of the line is of an output in the map (R95). -/
def Mapped (l : Fin 8) (ps : List MapPair) (cs : List Claim) : Prop :=
  ∀ c ∈ cs, c.claimant = .line l → ∃ p ∈ ps, p.output = c.output

section
variable {l : Fin 8} {ps : List MapPair} {cs : List Claim}

theorem mapped_iff_keys : Mapped l ps cs ↔ ∀ o, (Claimant.line l, o) ∈ cs.map Claim.key → ∃ p ∈ ps, p.output = o := by
  constructor
  · intro h o ho
    obtain ⟨c, hc, hl, rfl⟩ := mem_keys.mp ho
    exact h c hc hl
  · exact fun h c hc hl => h c.output (mem_keys.mpr ⟨c, hc, hl, rfl⟩)

theorem Mapped.filter (h : Mapped l ps cs) (f : Claim → Bool) : Mapped l ps (cs.filter f) := fun c hc =>
  h c (List.mem_filter.mp hc).1

/-- It is the keys that tell. -/
theorem Mapped.of_keys {ds : List Claim} (h : Mapped l ps cs) (hk : ds.map Claim.key = cs.map Claim.key) : Mapped l ps ds := by
  rw [mapped_iff_keys, hk]
  exact mapped_iff_keys.mp h

/-- A line's pairs added (R92): another line's records stay, its own are new for mapped outputs only. -/
theorem Mapped.addPairs {x : Fin 8} (h : Mapped x ps cs) (l : Fin 8) (t : Tick) {qs : List MapPair} (hq : x = l → qs ⊆ ps) :
    Mapped x ps (addPairs l t qs cs) := by
  refine mapped_iff_keys.mpr fun o ho => ?_
  rcases (mem_keys_addPairs ..).mp ho with hold | ⟨q, hqs, hk⟩
  · exact mapped_iff_keys.mp h o hold
  · obtain ⟨hxl, rfl⟩ : x = l ∧ o = q.output := by simpa using hk
    exact ⟨q, hq hxl hqs, rfl⟩

theorem mapped_trimPairs : Mapped l ps (trimPairs l ps cs) := fun _ hc => (mem_trimPairs.mp hc).2

theorem ne_of_mem_dropClaimant {cl : Claimant} {c : Claim} (h : c ∈ dropClaimant cs cl) : c.claimant ≠ cl :=
  of_decide_eq_true (List.mem_filter.mp h).2

theorem mapped_dropLine : Mapped l ps (dropClaimant cs (.line l)) := fun _ hc hl => absurd hl (ne_of_mem_dropClaimant hc)

end

/-- No key comes twice, and but for the lines of `but` every line's records fit its map (R81, R95). -/
structure Fits (but : List (Fin 8)) (ls : Bank8 LineRec) (cs : List Claim) : Prop where
  nodup : (cs.map Claim.key).Nodup
  mapped : ∀ l, l ∉ but → Mapped l (ls.get l).set.map cs

section
variable {but : List (Fin 8)} {ls : Bank8 LineRec} {cs : List Claim}

theorem fits_nil : Fits but ls [] := ⟨List.nodup_nil, fun _ _ _ h => nomatch h⟩

theorem Fits.congr {ms : Bank8 LineRec} (h : Fits but ls cs) (hset : ∀ l, l ∉ but → (ms.get l).set = (ls.get l).set) :
    Fits but ms cs :=
  ⟨h.nodup, fun l hl => by rw [hset l hl]; exact h.mapped l hl⟩

theorem Fits.weaken {more : List (Fin 8)} (h : Fits but ls cs) (hsub : but ⊆ more) : Fits more ls cs :=
  ⟨h.nodup, fun l hl => h.mapped l fun hb => hl (hsub hb)⟩

/-- Records that go leave the others fitting. -/
theorem Fits.filter (h : Fits but ls cs) (f : Claim → Bool) : Fits but ls (cs.filter f) :=
  ⟨nodup_filter_claims h.nodup f, fun l hl => (h.mapped l hl).filter f⟩

/-- A claim of a soft claimant, new or refreshed (R85). -/
theorem Fits.putSoft (h : Fits but ls cs) {n : Claim} {m : Byte} (hn : n.claimant = .soft m) : Fits but ls (putClaim cs n) where
  nodup := nodup_putClaim h.nodup n
  mapped l hl := by
    refine mapped_iff_keys.mpr fun o ho => mapped_iff_keys.mp (h.mapped l hl) o ?_
    refine (mem_keys_putClaim.mp ho).resolve_right fun hk => ?_
    have hline : Claimant.line l = n.claimant := congrArg Prod.fst hk
    rw [hn] at hline
    cases hline

/-- A line's own pairs (R92). -/
theorem Fits.addPairs (h : Fits but ls cs) (l : Fin 8) (t : Tick) : Fits but ls (addPairs l t (ls.get l).set.map cs) where
  nodup := nodup_addPairs l t _ h.nodup
  mapped x hx := (h.mapped x hx).addPairs l t fun hxl => by rw [hxl]; exact List.Subset.refl _

theorem Fits.relevelPairs (h : Fits but ls cs) (l : Fin 8) (ps : List MapPair) : Fits but ls (relevelPairs l ps cs) where
  nodup := by rw [keys_relevelPairs]; exact h.nodup
  mapped x hx := (h.mapped x hx).of_keys (keys_relevelPairs l ps cs)

/-- A line's records removed, or all but the mapped ones, make one more line fit. -/
theorem Fits.filter_fixing {l : Fin 8} (h : Fits (l :: but) ls cs) {f : Claim → Bool}
    (hf : Mapped l (ls.get l).set.map (cs.filter f)) : Fits but ls (cs.filter f) where
  nodup := nodup_filter_claims h.nodup f
  mapped x hx := by
    by_cases hxl : x = l
    · rw [hxl]; exact hf
    · exact (h.mapped x fun hmem => (List.mem_cons.mp hmem).elim hxl hx).filter f

/-- Trimming makes a line's records fit its map (R95). -/
theorem Fits.trimPairs {l : Fin 8} (h : Fits (l :: but) ls cs) : Fits but ls (trimPairs l (ls.get l).set.map cs) :=
  h.filter_fixing mapped_trimPairs

/-- So does dropping them (R93). -/
theorem Fits.dropLine {l : Fin 8} (h : Fits (l :: but) ls cs) : Fits but ls (dropClaimant cs (.line l)) :=
  h.filter_fixing mapped_dropLine

end

theorem claimsOk_iff {s : State} : claimsOk s ↔ Fits [] s.lines s.claims
    ∧ softCount s.claims ≤ Config.claimRoom - mappedTotal s.lines ∧ mappedTotal s.lines ≤ Config.mappedRoom ∧ s.image.mapsFit := by
  constructor
  · rintro ⟨hnodup, hmapped, hroom⟩
    exact ⟨⟨hnodup, fun l _ c hc => hmapped c hc l⟩, hroom⟩
  · rintro ⟨⟨hnodup, hmapped⟩, hroom⟩
    exact ⟨hnodup, fun c hc l => hmapped l List.not_mem_nil c hc, hroom⟩

/-! ### How many records (R82) -/

/-- The keys the lines' records may have. -/
def mappedKeys (ls : Bank8 LineRec) : List (Claimant × Fin 8) :=
  eight.flatMap fun l => (ls.get l).set.map.map fun p => (.line l, p.output)

theorem length_mappedKeys (ls : Bank8 LineRec) : (mappedKeys ls).length = mappedTotal ls := by
  simp only [mappedKeys, mappedTotal_eq, List.length_flatMap, List.length_map]

/-- The lines hold at most one record for each mapped pair. -/
theorem Fits.lineRecords_le {ls : Bank8 LineRec} {cs : List Claim} (h : Fits [] ls cs) :
    (cs.filter fun c => !isSoft c).length ≤ mappedTotal ls := by
  have hsub : (cs.filter fun c => !isSoft c).map Claim.key ⊆ mappedKeys ls := by
    intro k hk
    obtain ⟨c, hc, rfl⟩ := List.mem_map.mp hk
    obtain ⟨hmem, hline⟩ := List.mem_filter.mp hc
    cases hcl : c.claimant with
    | soft n => simp [isSoft, hcl] at hline
    | line l =>
      obtain ⟨p, hp, ho⟩ := h.mapped l List.not_mem_nil c hmem hcl
      exact List.mem_flatMap.mpr ⟨l, mem_eight l, List.mem_map.mpr ⟨p, hp, by rw [Claim.key, hcl, ho]⟩⟩
  calc (cs.filter fun c => !isSoft c).length
      = ((cs.filter fun c => !isSoft c).map Claim.key).length := (List.length_map ..).symm
    _ ≤ (mappedKeys ls).length := ((nodup_filter_claims h.nodup _).subperm hsub).length_le
    _ = mappedTotal ls := length_mappedKeys ls

/-- R82: soft records fill at most the room that the mapped pairs leave, the lines' records at most the mapped pairs. -/
theorem length_le_of_claimsOk {s : State} (h : claimsOk s) : s.claims.length ≤ 32 := by
  obtain ⟨hfit, hsoft, hmap, -⟩ := claimsOk_iff.mp h
  have hlines := hfit.lineRecords_le
  have hsplit : s.claims.length = softCount s.claims + (s.claims.filter fun c => !isSoft c).length := by
    rw [List.length_eq_length_filter_add isSoft]; rfl
  simp only [Config.claimRoom, Config.mappedRoom] at hsoft hmap
  omega

end Sys2Proof.Machine
end

section
/-! PROOFS. Every step keeps the claim table within its room (O17): the image store's maps first, then the changes of table and lines,
then what leaves table, lines and images alone. -/

namespace Sys2Proof.Machine

/-! ### The maps in the image store (R82, R139, R141) -/

theorem ImageStore.mapsFit_iff {m : ImageStore} : m.mapsFit ↔ (∀ b, slotMapsFit (m.contents.get b))
    ∧ ∀ v, m.save = some v → configMapped v.buffer ≤ Config.mappedRoom := by
  simp only [Bool.forall_bool, and_assoc]
  exact Iff.rfl

/-- One slot's contents replaced. -/
theorem slotMapsFit_set {c : Bank2 SlotContents} (h : ∀ b, slotMapsFit (c.get b)) {x : SlotContents} (hx : slotMapsFit x)
    (a b : Bool) :
    slotMapsFit ((c.set a x).get b) := by
  rw [Bank2.get_set]
  split
  · exact hx
  · exact h b

theorem slotMapsFit_erasing (c : SlotContents) : slotMapsFit (erasing c) := by
  cases c <;> trivial

theorem slotMapsFit_cutContents {c : SlotContents} (h : slotMapsFit c) (e : Bool) : slotMapsFit (cutContents e c) := by
  unfold cutContents
  split
  · trivial
  · exact h

/-- The lines the host has set map what the table has room for, so the image that is saved does (R139). -/
theorem configMapped_liveConfig (s : State) : configMapped (liveConfig s) = mappedTotal s.lines := rfl

section
variable {m : ImageStore} (h : m.mapsFit)
include h

theorem mapsFit_beginSave (p : Fin 6) {c : BoardConfig} (hc : configMapped c ≤ Config.mappedRoom) : (beginSave m p c).mapsFit := by
  obtain ⟨hslots, -⟩ := ImageStore.mapsFit_iff.mp h
  refine ImageStore.mapsFit_iff.mpr ⟨slotMapsFit_set hslots (slotMapsFit_erasing _) _, fun v hv => ?_⟩
  cases hv
  exact hc

theorem mapsFit_endErase : (endErase m).mapsFit := by
  obtain ⟨hslots, hsave⟩ := ImageStore.mapsFit_iff.mp h
  unfold endErase
  split
  · rename_i b g p c hs
    refine ImageStore.mapsFit_iff.mpr ⟨slotMapsFit_set hslots (x := .unfinished) trivial b, fun v hv => ?_⟩
    cases hv
    exact hsave ⟨.erase, b, g, p, c⟩ hs
  · exact h

theorem mapsFit_endWrite : (endWrite m).mapsFit := by
  obtain ⟨hslots, hsave⟩ := ImageStore.mapsFit_iff.mp h
  unfold endWrite
  split
  · rename_i b g p c hs
    have hbuf := hsave _ hs
    refine ImageStore.mapsFit_iff.mpr ⟨slotMapsFit_set hslots (x := .written (writtenImage ⟨.write, b, g, p, c⟩)) hbuf b, fun v hv => ?_⟩
    cases hv
    exact hbuf
  · exact h

theorem mapsFit_saveSucceeded {v : Save} (hv : m.save = some v) : (saveSucceeded m v).mapsFit := by
  obtain ⟨hslots, hsave⟩ := ImageStore.mapsFit_iff.mp h
  have hslot : slotMapsFit (.written { writtenImage v with format := Config.formatCode }) := hsave v hv
  exact ImageStore.mapsFit_iff.mpr ⟨slotMapsFit_set hslots hslot v.slot, fun _ hs => nomatch hs⟩

theorem mapsFit_saveFailed (v : Save) : (saveFailed m v).mapsFit :=
  ImageStore.mapsFit_iff.mpr ⟨(ImageStore.mapsFit_iff.mp h).1, fun _ hs => nomatch hs⟩

theorem mapsFit_abandonSave : (abandonSave m).mapsFit := by
  unfold abandonSave
  split
  · exact ImageStore.mapsFit_iff.mpr ⟨(ImageStore.mapsFit_iff.mp h).1, fun _ hs => nomatch hs⟩
  · exact h

/-- What APPLY hands on is an image's configuration or the built-in default, which maps nothing (R136, R140). -/
theorem configMapped_chosenConfig (c : Chosen) : configMapped (chosenConfig m c).1 ≤ Config.mappedRoom := by
  cases c with
  | builtIn => exact Nat.zero_le _
  | slot b g =>
    have hslot := (ImageStore.mapsFit_iff.mp h).1 b
    unfold chosenConfig
    dsimp only
    split
    · rename_i i hi; rw [hi] at hslot; exact hslot
    · exact Nat.zero_le _

end

theorem mapsFit_cutSave {s : State} (h : s.image.mapsFit) : (cutSave s).image.mapsFit := by
  obtain ⟨hslots, hsave⟩ := ImageStore.mapsFit_iff.mp h
  unfold cutSave
  split
  · exact h
  · exact ImageStore.mapsFit_iff.mpr ⟨slotMapsFit_set hslots (slotMapsFit_cutContents (hslots _) _) _, hsave⟩

/-! ### Table and lines changed -/

/-- A new table that fits the lines, with no more soft records than before. -/
theorem claimsOk_of_fits {s t : State} (h : claimsOk s) (hl : ∀ l, (t.lines.get l).set = (s.lines.get l).set)
    (hi : t.image = s.image) (hf : Fits [] s.lines t.claims) (hc : softCount t.claims ≤ softCount s.claims) : claimsOk t := by
  obtain ⟨-, hsoft, hmap, himg⟩ := claimsOk_iff.mp h
  rw [← mappedTotal_congr hl] at hsoft hmap
  exact claimsOk_iff.mpr ⟨hf.congr fun l _ => hl l, hc.trans hsoft, hmap, hi ▸ himg⟩

section
variable {s : State} (h : claimsOk s)
include h

/-- Records removed. -/
theorem claimsOk_filter {t : State} (f : Claim → Bool) (hl : ∀ l, (t.lines.get l).set = (s.lines.get l).set)
    (hi : t.image = s.image) (hc : t.claims = s.claims.filter f) : claimsOk t := by
  refine claimsOk_of_fits h hl hi ?_ ?_
  · rw [hc]; exact (claimsOk_iff.mp h).1.filter f
  · rw [hc]; exact softCount_filter_le f _

theorem claimsOk_reevaluate (cause : Cause) (s0 : State) : claimsOk (reevaluate cause s0 s) := by
  rw [reevaluate_eq]
  exact h

/-- A CLAIM has found its record or soft room (R84). -/
theorem claimsOk_putSoft {n : Claim} {m : Byte} (hn : n.claimant = .soft m)
    (hroom : hasClaim s.claims n.claimant n.output = true ∨ softRoom s = true) :
    claimsOk { s with claims := putClaim s.claims n } := by
  obtain ⟨hfit, hsoft, hmap, himg⟩ := claimsOk_iff.mp h
  refine claimsOk_iff.mpr ⟨hfit.putSoft hn, ?_, hmap, himg⟩
  change softCount (putClaim s.claims n) ≤ _
  rw [softCount_putClaim]
  split
  · exact hsoft
  · rename_i hnew
    have hfree : softCount s.claims < Config.claimRoom - mappedTotal s.lines := of_decide_eq_true (hroom.resolve_left hnew)
    split
    · exact hfree
    · exact hsoft

/-- A line's record rewritten with its settings. -/
theorem claimsOk_putLine {l : Fin 8} {r : LineRec} (hr : r.set = (s.line l).set) : claimsOk (s.putLine l r) :=
  claimsOk_of_fits h (set_setLine hr) rfl (claimsOk_iff.mp h).1 (Nat.le_refl _)

/-- Its records dropped with it. -/
theorem claimsOk_dropLine {l : Fin 8} {r : LineRec} (hr : r.set = (s.line l).set) :
    claimsOk { (s.putLine l r) with claims := dropClaimant s.claims (.line l) } :=
  claimsOk_filter h _ (set_setLine hr) rfl rfl

theorem claimsOk_lineOn (l : Fin 8) : claimsOk (lineOn l s) :=
  claimsOk_of_fits h (set_setLine rfl) rfl ((claimsOk_iff.mp h).1.addPairs l s.tick) (softCount_addPairs ..).le

theorem claimsOk_lineOff (l : Fin 8) : claimsOk (lineOff l s) := by
  unfold lineOff
  dsimp only
  split
  · exact claimsOk_dropLine h rfl
  · exact claimsOk_putLine h rfl

end

/-- The table of R95 in the line's new settings: the records but for the line's fitted before. -/
theorem claimsOk_remapLine {l : Fin 8} {s : State} (hf : Fits [l] s.lines s.claims)
    (hsoft : softCount s.claims ≤ Config.claimRoom - mappedTotal s.lines) (hmap : mappedTotal s.lines ≤ Config.mappedRoom)
    (himg : s.image.mapsFit) (was : Bool) : claimsOk (remapLine l was s) := by
  have hedited : ∀ cs, Fits [] s.lines cs → softCount cs ≤ softCount s.claims → claimsOk { s with claims := cs } :=
    fun cs hcs hc => claimsOk_iff.mpr ⟨hcs, hc.trans hsoft, hmap, himg⟩
  have hadded := hedited _ (hf.addPairs l s.tick).trimPairs ((softCount_filter_le _ _).trans (softCount_addPairs ..).le)
  have hkept := hedited _ (hf.trimPairs.relevelPairs l (s.line l).set.map)
    ((softCount_relevelPairs ..).trans_le (softCount_filter_le _ _))
  unfold remapLine
  dsimp only
  split
  · exact hadded
  · exact claimsOk_lineOff hadded l
  · exact hkept
  · exact claimsOk_lineOn hkept l

/-! ### Table, lines and images left alone -/

/-- Claim table, lines and image store are the same. -/
structure SameTable (s t : State) : Prop where
  claims : t.claims = s.claims
  lines : t.lines = s.lines
  image : t.image = s.image

theorem SameTable.refl (s : State) : SameTable s s := ⟨rfl, rfl, rfl⟩

theorem SameTable.trans {s t u : State} (h : SameTable s t) (g : SameTable t u) : SameTable s u :=
  ⟨g.claims.trans h.claims, g.lines.trans h.lines, g.image.trans h.image⟩

theorem SameTable.claimsOk {s t : State} (h : SameTable s t) (hs : claimsOk s) : Machine.claimsOk t := by
  unfold Machine.claimsOk
  rw [h.claims, h.lines, h.image]
  exact hs

/-- An event's course moves sources and outputs alone. -/
theorem SameTable.runEvent {s s0 s' : State} {cause : Cause} {f : Env → Ev → Ev} (hc : s'.claims = s.claims)
    (hl : s'.lines = s.lines) (hi : s'.image = s.image) : SameTable s (runEvent cause s0 s' f) :=
  ⟨(claims_runEvent ..).trans hc, (lines_runEvent ..).trans hl, (image_runEvent ..).trans hi⟩

theorem SameTable.reevaluate {s s0 s' : State} {cause : Cause} (hc : s'.claims = s.claims)
    (hl : s'.lines = s.lines) (hi : s'.image = s.image) : SameTable s (reevaluate cause s0 s') := .runEvent hc hl hi

/-- An event that the state may not give. -/
theorem SameTable.ite {s t : State} {p : Prop} [Decidable p] (h : SameTable s t) : SameTable s (if p then t else s) := by
  split
  · exact h
  · exact .refl s

theorem sameTable_endEvent (s : State) : SameTable s s.endEvent := ⟨State.claims_endEvent s, State.lines_endEvent s, State.image_endEvent s⟩

theorem sameTable_testSettled (s : State) : SameTable s s.testSettled :=
  ⟨State.claims_testSettled s, State.lines_testSettled s, State.image_testSettled s⟩

theorem sameTable_post (s : State) (p : Posting) : SameTable s (s.post p) := ⟨rfl, rfl, rfl⟩

end Sys2Proof.Machine
end

section
/-! PROOFS. Every step keeps the claim table within its room (O17), request by request and event by event. -/

namespace Sys2Proof.Machine

/-! ### Requests -/

section
variable (s : State)

theorem sameTable_sourceSet (r : SourceSetReq) : SameTable s (performSourceSet r s).state := by
  unfold performSourceSet
  split
  · exact .refl s
  · exact .refl s
  · split
    · exact .refl s
    · dsimp only
      split
      · exact .refl s
      · split
        · exact .refl s
        · rw [Done.state_ok]; exact .runEvent rfl rfl rfl

theorem sameTable_sourceKeep (x f : Byte) : SameTable s (performSourceKeep x f s).state := by
  unfold performSourceKeep
  split
  · exact .refl s
  · exact .refl s
  · split
    · exact .refl s
    · exact .reevaluate rfl rfl rfl

theorem sameTable_clearSource (o : Osc) : SameTable s (clearSource o s) := by
  unfold clearSource
  dsimp only
  split
  · exact .runEvent rfl rfl rfl
  · exact .runEvent rfl rfl rfl
  · exact ⟨rfl, rfl, rfl⟩

theorem sameTable_clearRco : SameTable s (clearRco s) := .ite (.runEvent rfl rfl rfl)

theorem sameTable_sourceClear (x : Byte) : SameTable s (performSourceClear x s).state := by
  unfold performSourceClear
  split
  · exact .refl s
  · exact sameTable_clearRco s
  · exact sameTable_clearSource s _

theorem sameTable_monitorSet (r : MonitorSetReq) : SameTable s (performMonitorSet r s).state := by
  unfold performMonitorSet
  dsimp only
  split
  · exact .refl s
  · exact ⟨rfl, rfl, rfl⟩

theorem sameTable_outputSet (r : OutputSetReq) : SameTable s (performOutputSet r s).state := by
  unfold performOutputSet
  split
  · exact .refl s
  · split
    · exact .refl s
    · split
      · exact .refl s
      · exact .reevaluate rfl rfl rfl

theorem sameTable_selectOutput (o : Fin 8) (entry : Option (Fin 4)) : SameTable s (selectOutput o entry s).state := by
  unfold selectOutput
  split
  · exact .refl s
  · dsimp only
    cases entry with
    | none => exact .reevaluate rfl rfl rfl
    | some i =>
      dsimp only
      split
      · exact .refl s
      · exact .reevaluate rfl rfl rfl

theorem sameTable_outputSelect (x i : Byte) : SameTable s (performOutputSelect x i s).state := by
  unfold performOutputSelect
  split
  · exact .refl s
  · split
    · exact .refl s
    · split
      · exact .refl s
      · exact sameTable_selectOutput s _ _

theorem sameTable_outputQuery (x : Byte) : SameTable s (performOutputQuery x s).state := by
  unfold performOutputQuery
  split
  · exact .refl s
  · split
    · exact .refl s
    · exact ⟨rfl, rfl, rfl⟩

theorem sameTable_chainSet (r : ChainSetReq) : SameTable s (performChainSet r s).state := by
  unfold performChainSet
  split
  · exact .refl s
  · split
    · exact .refl s
    · split
      · exact .refl s
      · split
        · exact .refl s
        · split
          · exact .refl s
          · dsimp only; rw [Done.state_ok]; exact .runEvent rfl rfl rfl

theorem sameTable_changeStack (c : TransitionCause) (k : Stack) : SameTable s (changeStack c k s) := by
  unfold changeStack
  split
  · exact ⟨rfl, rfl, rfl⟩
  · exact .reevaluate rfl rfl rfl

theorem sameTable_wakeEvent (c : WakeCause) : SameTable s (wakeEvent c s) :=
  (sameTable_post s _).trans (sameTable_changeStack _ _ _)

theorem sameTable_offerWake (c : WakeCause) : SameTable s (offerWake c s) := .ite (sameTable_wakeEvent s c)

theorem sameTable_profileSet (r : ProfileSetReq) : SameTable s (performProfileSet r s).state := by
  unfold performProfileSet
  split
  · exact .refl s
  · split
    · exact .refl s
    · dsimp only
      rw [Done.state_ok]
      split
      · exact .reevaluate rfl rfl rfl
      · exact ⟨rfl, rfl, rfl⟩

theorem sameTable_profileEnter (x : Byte) : SameTable s (performProfileEnter x s).state := by
  unfold performProfileEnter
  split
  · exact .refl s
  · exact sameTable_changeStack s _ _

theorem sameTable_resumeProfile (c : TransitionCause) : SameTable s (resumeProfile c s).state := by
  unfold resumeProfile
  split
  · exact .refl s
  · exact sameTable_changeStack s _ _

theorem sameTable_resumeTarget (x : Byte) : SameTable s (performResumeTarget x s).state := by
  unfold performResumeTarget
  split
  · exact .refl s
  · split
    · exact .refl s
    · exact ⟨rfl, rfl, rfl⟩

theorem sameTable_actionAdd (r : ActionAddReq) : SameTable s (performActionAdd r s).state := by
  unfold performActionAdd
  split
  · exact .refl s
  · split
    · exact .refl s
    · split
      · exact .refl s
      · exact ⟨rfl, rfl, rfl⟩

theorem sameTable_actionCancel (n : Byte) : SameTable s (performActionCancel n s).state := by
  unfold performActionCancel
  split
  · exact .refl s
  · split
    · exact .refl s
    · exact ⟨rfl, rfl, rfl⟩

theorem sameTable_noticeAck (n : Half) : SameTable s (performNoticeAck n s).state := by
  unfold performNoticeAck
  split
  · exact .refl s
  · split
    · exact .refl s
    · exact ⟨rfl, rfl, rfl⟩

theorem sameTable_noticeFilter (f : Half) : SameTable s (performNoticeFilter f s).state := by
  unfold performNoticeFilter
  split
  · exact .refl s
  · exact ⟨rfl, rfl, rfl⟩

/-- A request that only answers. -/
theorem SameTable.answer {p : State → Done} (h : (p s).state = s) : SameTable s (p s).state := by
  rw [h]; exact .refl s

end

theorem claimsOk_setClaims {s : State} {cs : List Claim} (h : claimsOk { s with claims := cs }) : claimsOk (setClaims s cs) :=
  claimsOk_reevaluate h _ _

section
variable {s : State} (h : claimsOk s)
include h

theorem claimsOk_claim (r : ClaimReq) : claimsOk (performClaim r s).state := by
  unfold performClaim
  split
  · exact h
  · exact h
  · split
    · exact h
    · split
      · exact h
      · dsimp only
        split
        · exact h
        · rename_i hroom
          refine claimsOk_setClaims (claimsOk_putSoft h rfl ?_)
          simpa [claimRecord, or_iff_not_imp_left] using hroom

theorem claimsOk_releaseOne (n : Byte) (o : Fin 8) : claimsOk (releaseOne n o s).state := by
  unfold releaseOne
  split
  · exact claimsOk_setClaims (claimsOk_filter h _ (fun _ => rfl) rfl rfl)
  · exact h

theorem claimsOk_releaseEvery (n : Byte) : claimsOk (releaseEvery n s).state :=
  claimsOk_setClaims (claimsOk_filter h _ (fun _ => rfl) rfl rfl)

theorem claimsOk_release (c : Half) (x : Byte) : claimsOk (performRelease c x s).state := by
  unfold performRelease
  split
  · exact h
  · exact h
  · split
    · exact h
    · exact claimsOk_releaseOne h _ _

theorem claimsOk_releaseAll (c : Half) : claimsOk (performReleaseAll c s).state := by
  unfold performReleaseAll
  split
  · exact h
  · exact h
  · exact claimsOk_releaseEvery h _

/-- LINE MAP SET has checked the mapped pairs and the soft room under the new map (R94). -/
theorem claimsOk_lineMapSet (r : LineMapReq) : claimsOk (performLineMapSet r s).state := by
  obtain ⟨hfit, -, -, himg⟩ := claimsOk_iff.mp h
  unfold performLineMapSet
  split
  · exact h
  · rename_i l _
    split
    · exact h
    · rename_i g _
      dsimp only
      split
      · exact h
      · rename_i hmap
        split
        · exact h
        · rename_i hsoft
          have hnew : Fits [l] (s.putLine l { s.line l with set := g }).lines s.claims :=
            (hfit.weaken (List.nil_subset _)).congr fun x hx => by
              rw [State.lines_putLine, Bank8.get_set, if_neg fun hxl => hx (List.mem_singleton.mpr hxl)]
          exact claimsOk_reevaluate (claimsOk_remapLine (s := s.putLine l _) hnew (Nat.le_of_not_lt hsoft)
            (Nat.le_of_not_lt hmap) himg _) _ _

theorem claimsOk_imageSave (x : Byte) : claimsOk (performImageSave x s).state := by
  obtain ⟨hfit, hsoft, hmap, himg⟩ := claimsOk_iff.mp h
  unfold performImageSave
  split
  · exact h
  · split
    · exact h
    · split
      · exact h
      · exact claimsOk_iff.mpr ⟨hfit, hsoft, hmap, mapsFit_beginSave himg _ ((configMapped_liveConfig s).trans_le hmap)⟩

theorem claimsOk_request (r : Request) : claimsOk (performRequest r s).state := by
  cases r with
  | identify => exact h
  | echo b => exact (SameTable.answer (p := performEcho b) s (by unfold performEcho; split <;> rfl)).claimsOk h
  | restart => exact h
  | sourceSet r => exact (sameTable_sourceSet s r).claimsOk h
  | sourceQuery x => exact (SameTable.answer (p := performSourceQuery x) s (by unfold performSourceQuery; split <;> rfl)).claimsOk h
  | sourceKeep x f => exact (sameTable_sourceKeep s x f).claimsOk h
  | sourceClear x => exact (sameTable_sourceClear s x).claimsOk h
  | monitorSet r => exact (sameTable_monitorSet s r).claimsOk h
  | monitorQuery => exact h
  | outputSet r => exact (sameTable_outputSet s r).claimsOk h
  | outputQuery x => exact (sameTable_outputQuery s x).claimsOk h
  | outputSelect x i => exact (sameTable_outputSelect s x i).claimsOk h
  | chainSet r => exact (sameTable_chainSet s r).claimsOk h
  | chainQuery x => exact (SameTable.answer (p := performChainQuery x) s (by unfold performChainQuery; split <;> rfl)).claimsOk h
  | claim r => exact claimsOk_claim h r
  | release c x => exact claimsOk_release h c x
  | releaseAll c => exact claimsOk_releaseAll h c
  | claimList f => exact (SameTable.answer (p := performClaimList f) s (by unfold performClaimList; split <;> rfl)).claimsOk h
  | lineMapSet r => exact claimsOk_lineMapSet h r
  | lineQuery x => exact (SameTable.answer (p := performLineQuery x) s (by unfold performLineQuery; split <;> rfl)).claimsOk h
  | profileSet r => exact (sameTable_profileSet s r).claimsOk h
  | profileQuery x =>
    exact (SameTable.answer (p := performProfileQuery x) s (by unfold performProfileQuery; split <;> rfl)).claimsOk h
  | profileEnter x => exact (sameTable_profileEnter s x).claimsOk h
  | resume => exact (sameTable_resumeProfile s _).claimsOk h
  | resumeTarget x => exact (sameTable_resumeTarget s x).claimsOk h
  | stackQuery => exact h
  | timeQuery => exact h
  | actionAdd r => exact (sameTable_actionAdd s r).claimsOk h
  | actionCancel n => exact (sameTable_actionCancel s n).claimsOk h
  | actionList f => exact (SameTable.answer (p := performActionList f) s (by unfold performActionList; split <;> rfl)).claimsOk h
  | noticeAck n => exact (sameTable_noticeAck s n).claimsOk h
  | noticeResend => exact h
  | noticeFilter f => exact (sameTable_noticeFilter s f).claimsOk h
  | imageSave x => exact claimsOk_imageSave h x
  | imageInfo => exact h

end

/-! ### Events of the running part -/

section
variable (s : State)

theorem sameTable_settleAction (a : Action) : SameTable s (settleAction a s) := by
  unfold settleAction
  split
  · exact sameTable_testSettled s
  · exact sameTable_testSettled s
  · exact .refl s

theorem sameTable_expireRevert (o : Fin 8) : SameTable s (expireRevert o s) := by
  unfold expireRevert
  split
  · split
    · exact .refl s
    · split
      · exact ⟨rfl, rfl, rfl⟩
      · exact .reevaluate rfl rfl rfl
  · exact .refl s

end

section
variable {s : State} (h : claimsOk s)
include h

theorem claimsOk_expireLease (n : Byte) (o : Fin 8) : claimsOk (expireLease n o s) := by
  unfold expireLease
  split
  · split
    · have hdrop : claimsOk { s with claims := dropClaim s.claims (.soft n) o } := claimsOk_filter h _ (fun _ => rfl) rfl rfl
      refine claimsOk_reevaluate ?_ _ _
      exact SameTable.claimsOk ⟨rfl, rfl, rfl⟩ hdrop
    · exact h
  · exact h

theorem claimsOk_activateLine (l : Fin 8) : claimsOk (activateLine l s) := by
  unfold activateLine
  split
  · exact h
  · dsimp only
    have hon := claimsOk_lineOn (claimsOk_putLine h (l := l) (r := { s.line l with pinHigh := (s.line l).set.activeHigh }) rfl) l
    generalize lineOn l _ = s' at hon ⊢
    exact (sameTable_offerWake _ _).claimsOk ((sameTable_testSettled _).claimsOk (claimsOk_reevaluate hon _ s))

theorem claimsOk_deactivateLine (l : Fin 8) : claimsOk (deactivateLine l s) := by
  unfold deactivateLine
  split
  · have hpin := claimsOk_putLine h (l := l) (r := { s.line l with pinHigh := !(s.line l).set.activeHigh }) rfl
    exact claimsOk_reevaluate (claimsOk_lineOff hpin l) _ _
  · exact h

theorem claimsOk_expireHold (l : Fin 8) : claimsOk (expireHold l s) := by
  unfold expireHold
  split
  · exact claimsOk_reevaluate (claimsOk_dropLine h (r := { s.line l with hold := none }) rfl) _ _
  · exact h

theorem claimsOk_performAction (a : Action) : claimsOk (performAction a s).state := by
  unfold performAction
  split
  · exact (sameTable_changeStack s _ _).claimsOk h
  · exact (sameTable_wakeEvent s _).claimsOk h
  · exact (sameTable_resumeProfile s _).claimsOk h
  · exact claimsOk_releaseEvery h _
  · exact claimsOk_releaseOne h _ _
  · exact (sameTable_selectOutput s _ _).claimsOk h
  · exact h

theorem claimsOk_fireHead : claimsOk (fireHead s) := by
  unfold fireHead
  split
  · exact h
  · rename_i a rest _
    split
    · have hrest : claimsOk { s with actions := rest } := h
      exact (sameTable_settleAction _ a).claimsOk (claimsOk_performAction hrest a)
    · exact h

/-- The image store changed alone. -/
theorem claimsOk_image {m : ImageStore} (hm : m.mapsFit) : claimsOk { s with image := m } := by
  obtain ⟨hfit, hsoft, hmap, -⟩ := claimsOk_iff.mp h
  exact claimsOk_iff.mpr ⟨hfit, hsoft, hmap, hm⟩

theorem claimsOk_endCheck (good : Bool) : claimsOk (endCheck good s) := by
  obtain ⟨-, -, -, himg⟩ := claimsOk_iff.mp h
  unfold endCheck
  split
  · rename_i v hv
    split
    · cases good with
      | true => exact claimsOk_image h (mapsFit_saveSucceeded himg hv)
      | false => exact claimsOk_image h (mapsFit_saveFailed himg v)
    · exact h
  · exact h

theorem claimsOk_restartTakesEffect : claimsOk (restartTakesEffect s) := by
  obtain ⟨hfit, hsoft, hmap, himg⟩ := claimsOk_iff.mp h
  refine claimsOk_iff.mpr ?_
  unfold restartTakesEffect
  simp only [State.claims_cutSave, State.lines_cutSave]
  exact ⟨hfit, hsoft, hmap, mapsFit_abandonSave (mapsFit_cutSave himg)⟩

theorem claimsOk_endFrame : claimsOk (endFrame s) := by
  unfold endFrame
  split
  · exact h
  · have hsent : claimsOk { s with link := { s.link with onLtx := none } } := h
    dsimp only
    split
    · exact claimsOk_restartTakesEffect hsent
    · exact hsent

/-- Every event of the running part; a character received is a step of its own. -/
theorem claimsOk_event {i : Instr} {f : State → State} (hf : eventBody i = some f)
    (hc : ∀ c b, i ≠ .characterReceived c b) : claimsOk (f s) := by
  obtain ⟨-, -, -, himg⟩ := claimsOk_iff.mp h
  cases i <;> cases hf
  case characterReceived c b => exact absurd rfl (hc c b)
  case gap => exact SameTable.claimsOk (.ite ⟨rfl, rfl, rfl⟩) h
  case linkBreak => exact h
  case frameSent => exact claimsOk_endFrame h
  case startDetection o => exact SameTable.claimsOk (.ite (.runEvent rfl rfl rfl)) h
  case startTimerExpiry o => exact SameTable.claimsOk (.ite (.runEvent rfl rfl rfl)) h
  case lockDetection => exact SameTable.claimsOk (.ite (.runEvent rfl rfl rfl)) h
  case lockTimerExpiry => exact SameTable.claimsOk (.ite (.runEvent rfl rfl rfl)) h
  case quarantineExpiry o => exact SameTable.claimsOk (.ite (.runEvent rfl rfl rfl)) h
  case rehabilitationExpiry o => exact SameTable.claimsOk (.ite ⟨rfl, rfl, rfl⟩) h
  case surveyCompletion => exact (SameTable.runEvent rfl rfl rfl).claimsOk h
  case releaseEnd o => exact SameTable.claimsOk (.ite (.runEvent rfl rfl rfl)) h
  case releaseTimeout o => exact SameTable.claimsOk (.ite (.runEvent rfl rfl rfl)) h
  case acquireEnd o => exact SameTable.claimsOk (.ite (.runEvent rfl rfl rfl)) h
  case acquireTimeout o => exact SameTable.claimsOk (.ite (.runEvent rfl rfl rfl)) h
  case dividerChange o => exact h
  case revertTimerExpiry o => exact (sameTable_expireRevert s o).claimsOk h
  case leaseExpiry n o => exact claimsOk_expireLease h n o
  case lineActivation l => exact claimsOk_activateLine h l
  case lineDeactivation l => exact claimsOk_deactivateLine h l
  case holdExpiry l => exact claimsOk_expireHold h l
  case wakePinEdge => exact (sameTable_offerWake s _).claimsOk h
  case tick => exact h
  case actionFiring => exact claimsOk_fireHead h
  case eraseComplete => exact claimsOk_image h (mapsFit_endErase himg)
  case writeComplete => exact claimsOk_image h (mapsFit_endWrite himg)
  case checkComplete good => exact claimsOk_endCheck h good

end

/-! ### Start-up events -/

/-- An empty table fits any lines that map at most 16 pairs. -/
theorem claimsOk_empty {s : State} (hc : s.claims = []) (hmap : mappedTotal s.lines ≤ Config.mappedRoom) (himg : s.image.mapsFit) :
    claimsOk s := by
  refine claimsOk_iff.mpr ⟨?_, ?_, hmap, himg⟩
  · rw [hc]; exact fits_nil
  · rw [hc]; exact Nat.zero_le _

/-- A configuration's lines map what it maps. -/
theorem mappedTotal_of_set {ls : Bank8 LineRec} {c : BoardConfig} (h : ∀ l, (ls.get l).set = c.lines.get l) :
    mappedTotal ls = configMapped c := by
  rw [mappedTotal_eq]
  simp only [h]
  rfl

/-- A warm restart makes one more line's records fit its new map (step 4 of R98). -/
theorem Fits.lineRestarted {but : List (Fin 8)} {ls : Bank8 LineRec} {cs : List Claim} {l : Fin 8} (h : Fits (l :: but) ls cs)
    (t : Tick) : Fits but ls (lineRestarted t ls cs l) := by
  unfold Machine.lineRestarted
  dsimp only
  split
  · exact (h.addPairs l t).trimPairs
  · exact h.dropLine

theorem Fits.linesRestarted {ks : List (Fin 8)} {ls : Bank8 LineRec} {cs : List Claim} (h : Fits ks ls cs) (t : Tick) :
    Fits [] ls (ks.foldl (Machine.lineRestarted t ls) cs) := by
  induction ks generalizing cs with
  | nil => exact h
  | cons k ks ih => exact ih (h.lineRestarted t)

/-- Soft records do not outlive a warm restart (R98). -/
theorem softCount_warmReady (s : State) : softCount (warmReady s).claims = 0 := by
  refine List.length_eq_zero_iff.mpr (List.filter_eq_nil_iff.mpr fun c hc hs => ?_)
  obtain ⟨l, hl, -⟩ := claims_warmReady hc
  rw [isSoft, hl] at hs
  cases hs

theorem set_warmReady (s : State) (l : Fin 8) :
    ((warmReady s).lines.get l).set = (chosenConfig s.image s.chosen).1.lines.get l :=
  congrArg LineRec.set (Bank8.get_mapIdx ..)

/-- The keys that a warm restart keeps fit no line yet (R98). -/
theorem fits_claimsKept {s : State} (h : claimsOk s) (ls : Bank8 LineRec) : Fits eight ls (claimsKept s) where
  nodup := nodup_filter_claims (claimsOk_iff.mp h).1.nodup _
  mapped l hl := absurd (mem_eight l) hl

theorem claimsOk_warmReady {s : State} (h : claimsOk s) : claimsOk (warmReady s) := by
  obtain ⟨-, -, -, himg⟩ := claimsOk_iff.mp h
  refine claimsOk_iff.mpr ⟨(fits_claimsKept h _).linesRestarted s.tick, ?_, ?_, himg⟩
  · rw [softCount_warmReady]; exact Nat.zero_le _
  · rw [mappedTotal_of_set (set_warmReady s)]; exact configMapped_chosenConfig himg _

/-- A line read at LIVE is rewritten with its settings, and adds its own pairs if it is active (R97). -/
theorem claimsOk_readLine {s : State} (h : claimsOk s) (pins : Byte) (l : Fin 8) : claimsOk (readLine pins s l) := by
  have hread := claimsOk_putLine h (l := l) (r := { s.line l with pinHigh := pins.getLsbD l.val, active := false, hold := none }) rfl
  unfold readLine
  dsimp only
  split
  · exact claimsOk_lineOn hread l
  · exact hread

theorem claimsOk_readLines {s : State} (h : claimsOk s) (pins : Byte) (ls : List (Fin 8)) :
    claimsOk (ls.foldl (readLine pins) s) := by
  induction ls generalizing s with
  | nil => exact h
  | cons l ls ih => exact ih (claimsOk_readLine h pins l)

theorem claimsOk_coldReady {s : State} (h : claimsOk s) (pins : Byte) : claimsOk (coldReady pins s) := by
  have hlive : claimsOk ({ enterLive (coldCause s.startup) s with tick := 0#32 }.post
    (startedPosting (enterLive (coldCause s.startup) s).startup.record)) := h
  exact claimsOk_readLines hlive pins eight

theorem claimsOk_endSelect {s : State} (h : claimsOk s) : claimsOk (endSelect s) := by
  obtain ⟨hfit, hsoft, hmap, himg⟩ := claimsOk_iff.mp h
  unfold endSelect
  split
  · dsimp only
    split
    · exact claimsOk_image h himg
    · refine claimsOk_empty rfl ?_ himg
      exact (mappedTotal_of_set fun l => congrArg LineRec.set (Bank8.get_ofFn ..)).trans_le
        (configMapped_chosenConfig (m := { s.image with records := _ }) himg _)
  · exact h

theorem claimsOk_coldStart {s : State} (h : claimsOk s) (supply : Bool) : claimsOk (coldStart supply s) := by
  obtain ⟨-, -, -, himg⟩ := claimsOk_iff.mp h
  obtain ⟨hslots, -⟩ := ImageStore.mapsFit_iff.mp (mapsFit_cutSave himg)
  exact claimsOk_empty rfl (Nat.zero_le _) (ImageStore.mapsFit_iff.mpr ⟨hslots, fun _ hs => nomatch hs⟩)

theorem claimsOk_start {i : Instr} {f : State → State} {s : State} (h : claimsOk s) (hf : startBody i = some f) : claimsOk (f s) := by
  cases i <;> cases hf
  case coldStart supply => exact claimsOk_coldStart h supply
  case resetRelease => unfold releaseReset; split <;> exact h
  case powerupEnd b1 b0 => unfold endPowerup; split <;> exact h
  case selectDone => exact claimsOk_endSelect h
  case live pins =>
    unfold reachLive
    split
    · refine (sameTable_endEvent _).claimsOk ?_
      split
      · rw [liveWarm_eq]
        exact (SameTable.runEvent rfl rfl rfl).claimsOk (claimsOk_warmReady h)
      · rw [liveCold_eq]
        exact claimsOk_reevaluate (claimsOk_coldReady h pins) _ _
    · exact h

/-! ### Every step -/

/-- Settles O17: an operation on the table leaves keys that fit the lines' maps (`Fits`), LINE MAP SET and the restarts bring in maps
that have been counted, and all else leaves table, lines and images alone (`SameTable`). -/
theorem stepKeepsClaimTable : Obligations.StepKeepsClaimTable :=
  ⟨fun _ _ h hs => step_keeps (P := claimsOk) (fun _ _ h => h) (fun _ _ h => h) (fun s h => (sameTable_endEvent s).claimsOk h)
      (fun r _ _ h => claimsOk_request h r) (fun _ _ _ hf hc _ h => claimsOk_event h hf hc) (fun _ _ _ hf h => claimsOk_start h hf) h hs,
    fun _ => length_le_of_claimsOk⟩

end Sys2Proof.Machine
end

section
/-! PROOFS. CLAIM (O44); RELEASE, RELEASE ALL, CLAIM LIST and the end of a lease (O45). -/

namespace Sys2Proof.Machine

/-! ### The record of a claimant and output -/

theorem sameClaim_eq (cl : Claimant) (o : Fin 8) : sameClaim cl o = fun c => decide (c.claimant = cl ∧ c.output = o) :=
  funext fun _ => (Bool.decide_and _ _).symm

section
variable {cs : List Claim} {cl : Claimant} {o : Fin 8}

theorem hasClaim_of_mem (h : ∃ c ∈ cs, c.claimant = cl ∧ c.output = o) : hasClaim cs cl o = true :=
  hasClaim_iff.mpr (mem_keys.mpr h)

theorem hasClaim_of_not_mem (h : ∀ c ∈ cs, ¬ (c.claimant = cl ∧ c.output = o)) : hasClaim cs cl o = false := by
  rw [Bool.eq_false_iff, Ne, hasClaim_iff, mem_keys]
  rintro ⟨c, hc, hk⟩
  exact h c hc hk

theorem dropClaim_eq : dropClaim cs cl o = cs.filter fun c => decide (¬ (c.claimant = cl ∧ c.output = o)) := by
  simp only [dropClaim, sameClaim_eq, decide_not]

/-- A new claim is the table's last record (R85). -/
theorem putClaim_new {n : Claim} (h : hasClaim cs n.claimant n.output = false) : putClaim cs n = cs ++ [n] := by
  rw [putClaim, h]
  rfl

/-- An existing one is refreshed in its place, and keeps its created tick (R85). -/
theorem putClaim_refreshed {n : Claim} (h : hasClaim cs n.claimant n.output = true) : putClaim cs n =
    cs.map fun c => if c.claimant = n.claimant ∧ c.output = n.output then { n with created := c.created } else c := by
  rw [putClaim, if_pos h]
  simp only [sameClaim_eq, decide_eq_true_eq]

end

/-! ### CLAIM (R84, R85) -/

theorem claimantOfCode_line (l : Fin 8) : claimantOfCode (0x0100#16 + BitVec.ofNat 16 l.val) = .line := by
  revert l
  decide

section
variable {r : ClaimReq} {n : Byte} (hn : claimantOfCode r.claimant = .soft n) (s : State)
include hn

theorem performClaim_noSuch (h : eightOfCode r.output = none) : performClaim r s = .refuse s .noSuch := by
  unfold performClaim
  rw [hn]
  dsimp only
  rw [h]

variable {o : Fin 8} (ho : eightOfCode r.output = some o)
include ho

theorem performClaim_badTerms (h : claimTerms r = none) : performClaim r s = .refuse s .badValue := by
  unfold performClaim
  rw [hn]
  dsimp only
  rw [ho]
  dsimp only
  rw [h]

variable {t : ClaimTerms} (ht : claimTerms r = some t)
include ht

theorem performClaim_checked : performClaim r s =
    if !hasClaim s.claims (.soft n) o && !softRoom s then .refuse s .full
    else .ok (setClaims s (putClaim s.claims (claimRecord s n o t)))
      [flag (!hasClaim s.claims (.soft n) o), flag ((setClaims s (putClaim s.claims (claimRecord s n o t))).wants o)] := by
  unfold performClaim
  rw [hn]
  dsimp only
  rw [ho]
  dsimp only
  rw [ht]

theorem performClaim_full (hnew : hasClaim s.claims (.soft n) o = false)
    (hroom : Config.claimRoom - mappedTotal s.lines ≤ softCount s.claims) : performClaim r s = .refuse s .full := by
  have hfull : softRoom s = false := decide_eq_false (Nat.not_lt.mpr hroom)
  rw [performClaim_checked hn s ho ht, hnew, hfull]
  rfl

theorem performClaim_new (hnew : hasClaim s.claims (.soft n) o = false)
    (hroom : softCount s.claims < Config.claimRoom - mappedTotal s.lines) : performClaim r s =
      .ok (setClaims s (s.claims ++ [claimRecord s n o t])) [1#8, flag ((setClaims s (s.claims ++ [claimRecord s n o t])).wants o)] := by
  have hfree : softRoom s = true := decide_eq_true hroom
  have hput : putClaim s.claims (claimRecord s n o t) = s.claims ++ [claimRecord s n o t] := putClaim_new hnew
  rw [performClaim_checked hn s ho ht, hput, hnew, hfree]
  rfl

theorem performClaim_refresh (hold : hasClaim s.claims (.soft n) o = true) : performClaim r s =
    .ok (setClaims s (putClaim s.claims (claimRecord s n o t)))
      [0#8, flag ((setClaims s (putClaim s.claims (claimRecord s n o t))).wants o)] := by
  rw [performClaim_checked hn s ho ht, hold]
  rfl

end

/-- Settles O44: the checks in their order; a new record goes to the table's end, a known one is rewritten in its place. -/
theorem claimRequestRule : Obligations.ClaimRequestRule := by
  intro s tag r ht
  refine ⟨fun ⟨l, hl⟩ => ?_, fun h => ?_, fun n hn => ⟨fun h => ?_, fun o ho => ⟨fun h => ?_, fun t hterms =>
    ⟨fun hnew => ⟨fun hfull => ?_, fun hroom => ?_⟩, fun hold => ?_⟩⟩⟩⟩
  · exact refuses_of_refuse ht rfl (by unfold performClaim; rw [hl, claimantOfCode_line])
  · exact refuses_of_refuse ht rfl (by unfold performClaim; rw [h])
  · exact refuses_of_refuse ht rfl (performClaim_noSuch hn s.hunt h)
  · exact refuses_of_refuse ht rfl (performClaim_badTerms hn s.hunt ho h)
  · exact refuses_of_refuse ht rfl (performClaim_full hn s.hunt ho hterms (hasClaim_of_not_mem hnew) hfull)
  · exact accepted_of_ok ht rfl (performClaim_new hn s.hunt ho hterms (hasClaim_of_not_mem hnew) hroom)
  · have hhas : hasClaim s.hunt.claims (.soft n) o = true := hasClaim_of_mem hold
    have hdone := accepted_of_ok (i := .claim tag r) ht rfl (performClaim_refresh hn s.hunt ho hterms hhas)
    rw [putClaim_refreshed (n := claimRecord s.hunt n o t) hhas] at hdone
    exact hdone

/-! ### RELEASE, RELEASE ALL and CLAIM LIST (R88, R89, R90) -/

section
variable {cl : Half} {n : Byte} (hn : claimantOfCode cl = .soft n) (s : State)
include hn

theorem performReleaseAll_soft : performReleaseAll cl s = releaseEvery n s := by
  unfold performReleaseAll
  rw [hn]

theorem performRelease_noSuch {ob : Byte} (h : eightOfCode ob = none) : performRelease cl ob s = .refuse s .noSuch := by
  unfold performRelease
  rw [hn]
  dsimp only
  rw [h]

theorem performRelease_soft {ob : Byte} {o : Fin 8} (ho : eightOfCode ob = some o) : performRelease cl ob s = releaseOne n o s := by
  unfold performRelease
  rw [hn]
  dsimp only
  rw [ho]

end

theorem releaseOne_absent {n : Byte} {o : Fin 8} {s : State} (h : hasClaim s.claims (.soft n) o = false) :
    releaseOne n o s = .refuse s .noClaim := by
  rw [releaseOne, h]
  rfl

theorem releaseOne_held {n : Byte} {o : Fin 8} {s : State} (h : hasClaim s.claims (.soft n) o = true) : releaseOne n o s =
    .ok (setClaims s (dropClaim s.claims (.soft n) o)) [flag ((setClaims s (dropClaim s.claims (.soft n) o)).wants o)] := by
  rw [releaseOne, if_pos h]

/-! ### The end of a lease (R86, R87) -/

theorem exec_leaseExpiry {s : State} (n : Byte) (o : Fin 8) (hrun : s.startup.running = true) :
    exec (.leaseExpiry n o) s = .next (expireLease n o s).endEvent := congrArg _ (whileRunning_eq hrun _)

section
variable {s : State} {n : Byte} {o : Fin 8}

/-- No lease of the claimant's on the output is due. -/
theorem expireLease_idle (h : ∀ c, s.claims.find? (sameClaim (.soft n) o) = some c → leaseDue s c = false) : expireLease n o s = s := by
  unfold expireLease
  split
  · rename_i c hc
    rw [if_neg (by rw [h c hc]; simp)]
  · rfl

theorem leaseDue_of_lease {c : Claim} {due : Tick} (h : c.lease = some due) : leaseDue s c = reached s.tick due := by
  rw [leaseDue, h]

/-- A due lease removes its record after CLAIM EXPIRED is posted. -/
theorem expireLease_due {c : Claim} (hc : s.claims.find? (sameClaim (.soft n) o) = some c) (hdue : leaseDue s c = true) :
    expireLease n o s = reevaluate .ordinary s
      { s.post (expiredPosting n c) with claims := dropClaim s.claims (.soft n) o } := by
  unfold expireLease
  rw [hc]
  exact if_pos hdue

/-- The notice names the output that the record is on. -/
theorem expiredPosting_of_find {c : Claim} (hc : s.claims.find? (sameClaim (.soft n) o) = some c) : expiredPosting n c =
    ⟨.claimExpired, n, [BitVec.ofNat 8 o.val, BitVec.ofNat 8 (levelCode c.level), flag c.tag.isSome] ++ b2 (c.tag.getD 0#16)⟩ := by
  have hkey := sameClaim_iff.mp (List.find?_some hc)
  obtain ⟨-, rfl⟩ := Prod.ext_iff.mp hkey
  rfl

end

/-- Settles O45: the claimant's class, the output and the record decide a release; the record found decides what an expiry does. -/
theorem releaseListAndLeaseRule : Obligations.ReleaseListAndLeaseRule := by
  refine ⟨fun s tag ht => ⟨fun cl h => ⟨?_, fun o => ?_⟩, fun cl h => ⟨?_, fun o => ?_⟩, fun cl n hn => ⟨?_, fun ob h => ?_,
      fun ob o ho => ⟨fun habsent => ?_, fun hheld => ?_⟩⟩, fun first => ⟨fun h => ?_, fun h => ?_⟩⟩,
    fun s n o hrun => ⟨fun c hc due hdue => ⟨fun hr => ?_, fun hr => ?_⟩, fun hnone => ?_⟩⟩
  · exact refuses_of_refuse ht rfl (by unfold performReleaseAll; rw [h])
  · exact refuses_of_refuse ht rfl (by unfold performRelease; rw [h])
  · exact refuses_of_refuse ht rfl (by unfold performReleaseAll; rw [h])
  · exact refuses_of_refuse ht rfl (by unfold performRelease; rw [h])
  · exact accepted_of_ok ht rfl (performReleaseAll_soft hn s.hunt)
  · exact refuses_of_refuse ht rfl (performRelease_noSuch hn s.hunt h)
  · refine refuses_of_refuse ht rfl ((performRelease_soft hn s.hunt ho).trans ?_)
    exact releaseOne_absent (hasClaim_of_not_mem habsent)
  · have hhas : hasClaim s.hunt.claims (.soft n) o = true := hasClaim_of_mem hheld
    have hdone := accepted_of_ok (i := .release tag cl ob) ht rfl ((performRelease_soft hn s.hunt ho).trans (releaseOne_held hhas))
    rw [dropClaim_eq] at hdone
    exact hdone
  · exact refuses_of_refuse ht rfl (if_pos h)
  · exact accepted_of_ok ht rfl (if_neg (Nat.not_lt.mpr h))
  · rw [← sameClaim_eq] at hc
    rw [exec_leaseExpiry n o hrun, expireLease_due hc ((leaseDue_of_lease hdue).trans hr), expiredPosting_of_find hc, dropClaim_eq]
  · rw [← sameClaim_eq] at hc
    rw [exec_leaseExpiry n o hrun, expireLease_idle fun x hx => ?_]
    rw [hc] at hx
    cases hx
    exact (leaseDue_of_lease hdue).trans hr
  · rw [exec_leaseExpiry n o hrun, expireLease_idle fun c hc => ?_]
    obtain ⟨hcl, ho⟩ := Prod.ext_iff.mp (sameClaim_iff.mp (List.find?_some hc))
    rw [leaseDue, hnone c (List.mem_of_find?_eq_some hc) hcl ho]

end Sys2Proof.Machine
end

section
/-! SUPPORT. A line's records under the operations on the table: those of every other claimant stay (R92, R93, R95), and pairs added stand
at their levels (R92). -/

namespace Sys2Proof

theorem Bank8.set_set {α : Type} (b : Bank8 α) (i : Fin 8) (v w : α) : (b.set i v).set i w = b.set i w :=
  Bank8.ext_get fun x => by simp only [Bank8.get_set]; split <;> rfl

end Sys2Proof

namespace Sys2Proof.Machine

/-! ### Every other claimant's records -/

section
variable {l : Fin 8} {cs : List Claim}

/-- A rewriting that leaves whether a record is told, and every record told, leaves the records told. -/
theorem filter_map_fixed {P : Claim → Bool} {f : Claim → Claim} (hP : ∀ c, P (f c) = P c) (hf : ∀ c, P c = true → f c = c)
    (cs : List Claim) : (cs.map f).filter P = cs.filter P := by
  have hcomp : P ∘ f = P := funext hP
  rw [List.filter_map, hcomp]
  exact (List.map_congr_left fun c hc => hf c (List.mem_filter.mp hc).2).trans (List.map_id _)

theorem dropClaimant_putClaim (n : Claim) : dropClaimant (putClaim cs n) n.claimant = dropClaimant cs n.claimant := by
  unfold putClaim dropClaimant
  split
  · refine filter_map_fixed (fun c => ?_) (fun c hc => ?_) cs
    · rw [show Claim.claimant _ = c.claimant from congrArg Prod.fst key_ite]
    · rw [if_neg fun hsame => of_decide_eq_true hc (congrArg Prod.fst (sameClaim_iff.mp hsame))]
  · simp [List.filter_append]

theorem addPairs_cons (l : Fin 8) (t : Tick) (p : MapPair) (ps : List MapPair) (cs : List Claim) :
    addPairs l t (p :: ps) cs = addPairs l t ps (putClaim cs ⟨.line l, p.output, p.level, none, none, t⟩) := rfl

/-- Adding a line's pairs touches no other claimant's records (R92). -/
theorem dropClaimant_addPairs (l : Fin 8) (t : Tick) (ps : List MapPair) (cs : List Claim) :
    dropClaimant (addPairs l t ps cs) (.line l) = dropClaimant cs (.line l) := by
  induction ps generalizing cs with
  | nil => rfl
  | cons p ps ih =>
    rw [addPairs_cons, ih]
    exact dropClaimant_putClaim ⟨.line l, p.output, p.level, none, none, t⟩

theorem dropClaimant_trimPairs (ps : List MapPair) : dropClaimant (trimPairs l ps cs) (.line l) = dropClaimant cs (.line l) := by
  unfold dropClaimant trimPairs
  rw [List.filter_filter]
  refine List.filter_congr fun c _ => ?_
  by_cases hc : c.claimant = .line l <;> simp [hc]

theorem dropClaimant_relevelPairs (ps : List MapPair) :
    dropClaimant (relevelPairs l ps cs) (.line l) = dropClaimant cs (.line l) := by
  unfold dropClaimant relevelPairs
  refine filter_map_fixed (fun c => ?_) (fun c hc => if_neg (of_decide_eq_true hc)) cs
  split
  · split <;> rfl
  · rfl

theorem dropClaimant_dropClaimant (cl : Claimant) : dropClaimant (dropClaimant cs cl) cl = dropClaimant cs cl := by
  unfold dropClaimant
  rw [List.filter_filter]
  simp only [Bool.and_self]

end

/-! ### Levels -/

/-- Each pair has its record in the table, at the pair's level (R92). -/
def AtLevels (l : Fin 8) (ps : List MapPair) (cs : List Claim) : Prop :=
  ∀ p ∈ ps, ∃ c ∈ cs, c.claimant = .line l ∧ c.output = p.output ∧ c.level = p.level

section
variable {l : Fin 8} {ps : List MapPair} {cs : List Claim}

theorem mem_putClaim_of_ne {c n : Claim} (hc : c ∈ cs) (hk : c.key ≠ n.key) : c ∈ putClaim cs n := by
  unfold putClaim
  split
  · exact List.mem_map.mpr ⟨c, hc, if_neg fun h => hk (sameClaim_iff.mp h)⟩
  · exact List.mem_append_left _ hc

/-- The record placed has its terms. -/
theorem exists_mem_putClaim (n : Claim) :
    ∃ c ∈ putClaim cs n, c.claimant = n.claimant ∧ c.output = n.output ∧ c.level = n.level := by
  unfold putClaim
  split
  · rename_i hhas
    obtain ⟨c, hc, hsame⟩ := List.any_eq_true.mp hhas
    exact ⟨{ n with created := c.created }, List.mem_map.mpr ⟨c, hc, if_pos hsame⟩, rfl, rfl, rfl⟩
  · exact ⟨n, List.mem_append_right _ (List.mem_singleton_self n), rfl, rfl, rfl⟩

/-- A record of no added pair stays. -/
theorem mem_addPairs_of_ne {c : Claim} (t : Tick) (hc : c ∈ cs) (hk : ∀ p ∈ ps, c.key ≠ (.line l, p.output)) :
    c ∈ addPairs l t ps cs := by
  induction ps generalizing cs with
  | nil => exact hc
  | cons p ps ih =>
    rw [addPairs_cons]
    exact ih (mem_putClaim_of_ne hc (hk p List.mem_cons_self)) fun q hq => hk q (List.mem_cons_of_mem _ hq)

theorem atLevels_addPairs (t : Tick) (hn : (ps.map MapPair.output).Nodup) : AtLevels l ps (addPairs l t ps cs) := by
  induction ps generalizing cs with
  | nil => exact nofun
  | cons p ps ih =>
    obtain ⟨hp, hps⟩ := List.nodup_cons.mp hn
    intro q hq
    rw [addPairs_cons]
    rcases List.mem_cons.mp hq with rfl | hq
    · obtain ⟨c, hc, hcl, ho, hv⟩ := exists_mem_putClaim (cs := cs) ⟨.line l, q.output, q.level, none, none, t⟩
      refine ⟨c, mem_addPairs_of_ne t hc fun p' hp' hk => hp ?_, hcl, ho, hv⟩
      have hout : c.output = p'.output := congrArg Prod.snd hk
      exact List.mem_map.mpr ⟨p', hp', hout.symm.trans ho⟩
    · exact ih hps q hq

/-- Trimming keeps the records of mapped outputs. -/
theorem AtLevels.trimPairs (h : AtLevels l ps cs) : AtLevels l ps (trimPairs l ps cs) := fun p hp => by
  obtain ⟨c, hc, hcl, ho, hv⟩ := h p hp
  exact ⟨c, mem_trimPairs.mpr ⟨hc, fun _ => ⟨p, hp, ho.symm⟩⟩, hcl, ho, hv⟩

end

end Sys2Proof.Machine
end

section
/-! PROOFS. LINE MAP SET and LINE QUERY (O46); the edges of a line and the end of its hold (O47). -/

namespace Sys2Proof.Machine

/-! ### A line's record and its claims -/

section
variable (l : Fin 8) (s : State)

theorem line_lineOn (x : Fin 8) :
    (lineOn l s).lines.get x = if x = l then { s.line l with active := true, hold := none } else s.lines.get x :=
  Bank8.get_set ..

theorem lineOff_noHold (h : (s.line l).set.holdTime = 0) : lineOff l s =
    { (s.putLine l { s.line l with active := false }) with claims := dropClaimant s.claims (.line l) } := if_pos h

theorem lineOff_hold (h : (s.line l).set.holdTime ≠ 0) : lineOff l s =
    s.putLine l { s.line l with active := false, hold := some (dueIn s.tick (s.line l).set.holdTime) } := if_neg h

/-- A deactivation leaves the settings and the pin, and every other line. -/
theorem line_lineOff (x : Fin 8) : ∃ hold, (lineOff l s).lines.get x =
    if x = l then { s.line l with active := false, hold := hold } else s.lines.get x := by
  by_cases h : (s.line l).set.holdTime = 0
  · exact ⟨_, by rw [lineOff_noHold l s h]; exact Bank8.get_set ..⟩
  · exact ⟨_, by rw [lineOff_hold l s h]; exact Bank8.get_set ..⟩

theorem claims_lineOff : (lineOff l s).claims =
    if (s.line l).set.holdTime = 0 then dropClaimant s.claims (.line l) else s.claims := by
  split
  · rename_i h; rw [lineOff_noHold l s h]
  · rename_i h; rw [lineOff_hold l s h]; rfl

end

/-! ### The rows of R95 -/

section
variable {l : Fin 8} {s : State}

theorem remapLine_stays (h : (s.line l).atActive = true) : remapLine l true s =
    { s with claims := trimPairs l (s.line l).set.map (addPairs l s.tick (s.line l).set.map s.claims) } := by
  simp only [remapLine, h]

theorem remapLine_goes (h : (s.line l).atActive = false) : remapLine l true s =
    lineOff l { s with claims := trimPairs l (s.line l).set.map (addPairs l s.tick (s.line l).set.map s.claims) } := by
  simp only [remapLine, h]

theorem remapLine_idle (h : (s.line l).atActive = false) : remapLine l false s =
    { s with claims := relevelPairs l (s.line l).set.map (trimPairs l (s.line l).set.map s.claims) } := by
  simp only [remapLine, h]

theorem remapLine_comes (h : (s.line l).atActive = true) : remapLine l false s =
    lineOn l { s with claims := relevelPairs l (s.line l).set.map (trimPairs l (s.line l).set.map s.claims) } := by
  simp only [remapLine, h]

/-- The line is as active as its pin has it under its active level, with its settings and its pin; the other lines are as before. -/
theorem line_remapLine (x : Fin 8) : ∃ hold, (remapLine l (s.line l).active s).lines.get x =
    if x = l then { s.line l with active := (s.line l).atActive, hold := hold } else s.lines.get x := by
  have hsame : (s.line l).active = (s.line l).atActive → ∃ hold, s.lines.get x =
      if x = l then { s.line l with active := (s.line l).atActive, hold := hold } else s.lines.get x := fun ha => by
    refine ⟨(s.line l).hold, ?_⟩
    rw [← ha]
    split
    · rename_i hx; subst hx; rfl
    · rfl
  cases hact : (s.line l).active <;> cases hpin : (s.line l).atActive
  · rw [remapLine_idle hpin, ← hpin]
    exact hsame (hact.trans hpin.symm)
  · exact ⟨none, by rw [remapLine_comes hpin]; exact line_lineOn ..⟩
  · rw [remapLine_goes hpin]
    exact line_lineOff ..
  · rw [remapLine_stays hpin, ← hpin]
    exact hsame (hact.trans hpin.symm)

/-- Every other claimant's records stay. -/
theorem dropClaimant_remapLine (was : Bool) :
    dropClaimant (remapLine l was s).claims (.line l) = dropClaimant s.claims (.line l) := by
  have hadded : dropClaimant (trimPairs l (s.line l).set.map (addPairs l s.tick (s.line l).set.map s.claims)) (.line l) =
      dropClaimant s.claims (.line l) := (dropClaimant_trimPairs _).trans (dropClaimant_addPairs ..)
  have hkept : dropClaimant (relevelPairs l (s.line l).set.map (trimPairs l (s.line l).set.map s.claims)) (.line l) =
      dropClaimant s.claims (.line l) := (dropClaimant_relevelPairs _).trans (dropClaimant_trimPairs _)
  cases was <;> cases hpin : (s.line l).atActive
  · rw [remapLine_idle hpin]
    exact hkept
  · rw [remapLine_comes hpin]
    exact (dropClaimant_addPairs ..).trans hkept
  · rw [remapLine_goes hpin, claims_lineOff]
    split
    · exact (dropClaimant_dropClaimant _).trans hadded
    · exact hadded
  · rw [remapLine_stays hpin]
    exact hadded

/-- The line's records are of mapped outputs. -/
theorem mapped_remapLine (was : Bool) : Mapped l (s.line l).set.map (remapLine l was s).claims := by
  have hkept : Mapped l (s.line l).set.map (relevelPairs l (s.line l).set.map (trimPairs l (s.line l).set.map s.claims)) :=
    mapped_trimPairs.of_keys (keys_relevelPairs ..)
  cases was <;> cases hpin : (s.line l).atActive
  · rw [remapLine_idle hpin]
    exact hkept
  · rw [remapLine_comes hpin]
    exact hkept.addPairs l s.tick fun _ => List.Subset.refl _
  · rw [remapLine_goes hpin, claims_lineOff]
    split
    · exact mapped_dropLine
    · exact mapped_trimPairs
  · rw [remapLine_stays hpin]
    exact mapped_trimPairs

/-- A line at its active level has a record for each pair, at the pair's level. -/
theorem atLevels_remapLine (was : Bool) (hpin : (s.line l).atActive = true)
    (hn : ((s.line l).set.map.map MapPair.output).Nodup) : AtLevels l (s.line l).set.map (remapLine l was s).claims := by
  cases was
  · rw [remapLine_comes hpin]
    exact atLevels_addPairs s.tick hn
  · rw [remapLine_stays hpin]
    exact (atLevels_addPairs s.tick hn).trimPairs

/-- A line that goes inactive without a hold time has no record left (R93). -/
theorem no_records_of_goes (hpin : (s.line l).atActive = false) (hhold : (s.line l).set.holdTime = 0) :
    ∀ c ∈ (remapLine l true s).claims, c.claimant ≠ .line l := by
  rw [remapLine_goes hpin, claims_lineOff, if_pos (by exact hhold)]
  exact fun _ hc => ne_of_mem_dropClaimant hc

/-- A line that becomes active ends its hold (R92). -/
theorem hold_of_comes (hpin : (s.line l).atActive = true) : ((remapLine l false s).lines.get l).hold = none := by
  rw [remapLine_comes hpin, line_lineOn, if_pos rfl]

end

/-! ### LINE MAP SET and LINE QUERY (R94, R95, R96) -/

theorem nodup_of_distinctOutputs {ps : List MapPair} (h : distinctOutputs ps = true) : (ps.map MapPair.output).Nodup := by
  induction ps with
  | nil => exact List.nodup_nil
  | cons p ps ih =>
    obtain ⟨hp, hps⟩ := Bool.and_eq_true_iff.mp h
    refine List.nodup_cons.mpr ⟨fun hmem => ?_, ih hps⟩
    obtain ⟨q, hq, hqp⟩ := List.mem_map.mp hmem
    exact of_decide_eq_true (List.all_eq_true.mp hp q hq) hqp

/-- An accepted map has no output twice (check 2 of R94). -/
theorem nodup_of_lineOfReq {r : LineMapReq} {g : LineSettings} (h : lineOfReq r = some g) : (g.map.map MapPair.output).Nodup := by
  unfold lineOfReq at h
  split at h
  · split at h
    · rename_i hchecks
      cases h
      simp only [Bool.and_eq_true] at hchecks
      obtain ⟨⟨-, hdistinct⟩, -⟩ := hchecks
      exact nodup_of_distinctOutputs hdistinct
    · cases h
  · cases h

/-- The state with a line's new settings. -/
def withSettings (l : Fin 8) (g : LineSettings) (s : State) : State := s.putLine l { s.line l with set := g }

/-- The state that an accepted LINE MAP SET leaves. -/
def lineMapDone (l : Fin 8) (g : LineSettings) (s : State) : State :=
  reevaluate .ordinary s (remapLine l (s.line l).active (withSettings l g s))

theorem line_withSettings (l : Fin 8) (g : LineSettings) (s : State) : (withSettings l g s).line l = { s.line l with set := g } :=
  (Bank8.get_set ..).trans (if_pos rfl)

section
variable {r : LineMapReq} {l : Fin 8} (hl : eightOfCode r.line = some l) (s : State)
include hl

theorem performLineMapSet_badValue (h : lineOfReq r = none) : performLineMapSet r s = .refuse s .badValue := by
  unfold performLineMapSet
  rw [hl]
  dsimp only
  rw [h]

variable {g : LineSettings} (hg : lineOfReq r = some g)
include hg

theorem performLineMapSet_checked : performLineMapSet r s =
    if mappedTotal (withSettings l g s).lines > Config.mappedRoom then .refuse s .full
    else if softCount s.claims > Config.claimRoom - mappedTotal (withSettings l g s).lines then .refuse s .full
    else .ok (lineMapDone l g s) [] := by
  unfold performLineMapSet
  rw [hl]
  dsimp only
  rw [hg]
  rfl

theorem performLineMapSet_full (h : Config.mappedRoom < mappedTotal (withSettings l g s).lines
    ∨ Config.claimRoom - mappedTotal (withSettings l g s).lines < softCount s.claims) :
    performLineMapSet r s = .refuse s .full := by
  rw [performLineMapSet_checked hl s hg]
  split
  · rfl
  · rename_i hmap
    exact if_pos (h.resolve_left hmap)

theorem performLineMapSet_accepted (hmap : mappedTotal (withSettings l g s).lines ≤ Config.mappedRoom)
    (hsoft : softCount s.claims ≤ Config.claimRoom - mappedTotal (withSettings l g s).lines) :
    performLineMapSet r s = .ok (lineMapDone l g s) [] := by
  rw [performLineMapSet_checked hl s hg, if_neg (Nat.not_lt.mpr hmap), if_neg (Nat.not_lt.mpr hsoft)]

end

/-- Every line after an accepted LINE MAP SET. -/
theorem line_lineMapDone (l : Fin 8) (g : LineSettings) (s : State) (x : Fin 8) : ∃ hold, (lineMapDone l g s).lines.get x =
    if x = l then ⟨g, (s.line l).pinHigh, decide ((s.line l).pinHigh = g.activeHigh), hold⟩ else s.lines.get x := by
  obtain ⟨hold, h⟩ := line_remapLine (l := l) (s := withSettings l g s) x
  refine ⟨hold, ?_⟩
  rw [line_withSettings] at h
  rw [lineMapDone, lines_reevaluate, h]
  split
  · rfl
  · rename_i hx
    exact (Bank8.get_set ..).trans (if_neg hx)

theorem performLineQuery_ok {b : Byte} {l : Fin 8} (h : eightOfCode b = some l) (s : State) :
    performLineQuery b s = .ok s (lineBytes s l) := by
  unfold performLineQuery
  rw [h]

/-- Settles O46: the checks in their order, then the rows of R95 by the line's activity before and its pin under the new active level. -/
theorem lineRequests : Obligations.LineRequests := by
  intro s tag ht
  refine ⟨fun b h => ?_, fun b l h => ?_, fun r => ⟨fun h => ?_, fun l hl => ⟨fun h => ?_,
    fun g hg => ⟨fun h => ?_, fun hmap hsoft => ?_⟩⟩⟩⟩
  · exact refuses_of_refuse ht rfl (by unfold performLineQuery; rw [h])
  · exact accepted_of_ok ht rfl (performLineQuery_ok h s.hunt)
  · exact refuses_of_refuse ht rfl (by unfold performLineMapSet; rw [h])
  · exact refuses_of_refuse ht rfl (performLineMapSet_badValue hl s.hunt h)
  · exact refuses_of_refuse ht rfl (performLineMapSet_full hl s.hunt hg h)
  · have hset : (withSettings l g s.hunt).line l = { s.line l with set := g } := line_withSettings l g s.hunt
    have hclaims : (lineMapDone l g s.hunt).claims = (remapLine l (s.line l).active (withSettings l g s.hunt)).claims :=
      claims_reevaluate ..
    have hlines : (lineMapDone l g s.hunt).lines = (remapLine l (s.line l).active (withSettings l g s.hunt)).lines :=
      lines_reevaluate ..
    have hpin : ((withSettings l g s.hunt).line l).atActive = decide ((s.lines.get l).pinHigh = g.activeHigh) := by
      rw [hset]; rfl
    have hmapped := mapped_remapLine (l := l) (s := withSettings l g s.hunt) (s.line l).active
    have hlevels := atLevels_remapLine (l := l) (s := withSettings l g s.hunt) (s.line l).active
    rw [hset, ← hclaims] at hmapped
    rw [hpin, hset, ← hclaims] at hlevels
    obtain ⟨hold, hline⟩ := line_lineMapDone l g s.hunt l
    rw [if_pos rfl] at hline
    refine ⟨lineMapDone l g s.hunt, accepted_of_ok ht rfl (performLineMapSet_accepted hl s.hunt hg hmap hsoft), by rw [hline],
      by rw [hline]; rfl, ?_, fun x hx => ?_, ?_, hmapped, fun _ hp => hlevels hp (nodup_of_lineOfReq hg), fun ha hp => ⟨?_, ?_⟩,
      fun ha hp hhold => ?_⟩
    · rw [hline]
      split
      · rename_i hsame; exact hsame.symm
      · rfl
    · obtain ⟨_, hother⟩ := line_lineMapDone l g s.hunt x
      rw [hother, if_neg hx]
      rfl
    · rw [hclaims]
      exact dropClaimant_remapLine _
    · rw [hlines, show (s.line l).active = false from ha]
      exact hold_of_comes (hpin.trans hp)
    · exact hlevels hp (nodup_of_lineOfReq hg)
    · rw [hclaims, show (s.line l).active = true from ha]
      exact no_records_of_goes (hpin.trans hp) (by rw [hset]; exact hhold)

/-! ### Edges and the end of the hold (R91, R92, R93) -/

section
variable {s : State} {l : Fin 8}

theorem lineOn_putLine (r : LineRec) : lineOn l (s.putLine l r) = { s with
    lines := s.lines.set l { r with active := true, hold := none }, claims := addPairs l s.tick r.set.map s.claims } := by
  simp only [lineOn, State.putLine, State.line, Bank8.get_set, if_true, Bank8.set_set]

theorem lineOff_putLine_noHold {r : LineRec} (h : r.set.holdTime = 0) : lineOff l (s.putLine l r) = { s with
    lines := s.lines.set l { r with active := false }, claims := dropClaimant s.claims (.line l) } := by
  have hline : (s.putLine l r).line l = r := (Bank8.get_set ..).trans (if_pos rfl)
  rw [lineOff_noHold _ _ (by rw [hline]; exact h), hline]
  simp only [State.putLine, Bank8.set_set]

theorem lineOff_putLine_hold {r : LineRec} (h : r.set.holdTime ≠ 0) : lineOff l (s.putLine l r) = { s with
    lines := s.lines.set l { r with active := false, hold := some (dueIn s.tick r.set.holdTime) } } := by
  have hline : (s.putLine l r).line l = r := (Bank8.get_set ..).trans (if_pos rfl)
  rw [lineOff_hold _ _ (by rw [hline]; exact h), hline]
  simp only [State.putLine, Bank8.set_set]

theorem activateLine_active (h : (s.line l).active = true) : activateLine l s = s := if_pos h

theorem activateLine_inactive (h : (s.line l).active = false) : activateLine l s =
    offerWake (.line l) (reevaluate .ordinary s
      (lineOn l (s.putLine l { s.line l with pinHigh := (s.line l).set.activeHigh }))).testSettled :=
  if_neg (by rw [h]; simp)

theorem deactivateLine_inactive (h : (s.line l).active = false) : deactivateLine l s = s := if_neg (by rw [h]; simp)

theorem deactivateLine_active (h : (s.line l).active = true) : deactivateLine l s =
    reevaluate .ordinary s (lineOff l (s.putLine l { s.line l with pinHigh := !(s.line l).set.activeHigh })) := if_pos h

theorem expireHold_due {due : Tick} (h : (s.line l).hold = some due) (hr : reached s.tick due = true) : expireHold l s =
    reevaluate .ordinary s
      { (s.putLine l { s.line l with hold := none }) with claims := dropClaimant s.claims (.line l) } :=
  if_pos (by rw [holdDue, h]; exact hr)

theorem expireHold_idle (h : ∀ due, (s.line l).hold = some due → reached s.tick due = false) : expireHold l s = s := by
  have hnot : holdDue s l = false := by
    unfold holdDue
    split
    · rename_i due hd; exact h due hd
    · rfl
  exact if_neg (by rw [hnot]; simp)

end

section
variable {s : State} (l : Fin 8) (hrun : s.startup.running = true)
include hrun

theorem exec_lineActivation : exec (.lineActivation l) s = .next (activateLine l s).endEvent := congrArg _ (whileRunning_eq hrun _)

theorem exec_lineDeactivation : exec (.lineDeactivation l) s = .next (deactivateLine l s).endEvent :=
  congrArg _ (whileRunning_eq hrun _)

theorem exec_holdExpiry : exec (.holdExpiry l) s = .next (expireHold l s).endEvent := congrArg _ (whileRunning_eq hrun _)

end

/-- Settles O47: an edge acts by whether the line is active, a deactivation by its hold time, the hold's end by whether it is due;
pairs are added one by one, each in a record of its own. -/
theorem lineEvents : Obligations.LineEvents := by
  refine ⟨fun s l hrun => ⟨fun ha => ?_, fun ha => ?_, fun ha => ?_, fun ha hh => ?_, fun ha hh => ?_,
      fun due hd hr => ?_, fun h => ?_⟩,
    fun l t ps cs hn => ⟨atLevels_addPairs t hn, dropClaimant_addPairs l t ps cs⟩⟩
  · rw [exec_lineActivation l hrun, activateLine_inactive ha, lineOn_putLine]
    rfl
  · rw [exec_lineActivation l hrun, activateLine_active ha]
  · rw [exec_lineDeactivation l hrun, deactivateLine_inactive ha]
  · rw [exec_lineDeactivation l hrun, deactivateLine_active ha,
      lineOff_putLine_noHold (r := { s.line l with pinHigh := !(s.line l).set.activeHigh }) hh]
    rfl
  · rw [exec_lineDeactivation l hrun, deactivateLine_active ha,
      lineOff_putLine_hold (r := { s.line l with pinHigh := !(s.line l).set.activeHigh }) hh]
    rfl
  · rw [exec_holdExpiry l hrun, expireHold_due hd hr]
    rfl
  · rw [exec_holdExpiry l hrun, expireHold_idle h]

end Sys2Proof.Machine
end

section
/-! PROOFS. Every step keeps the profile stack and the action list within their room (O18). -/

namespace Sys2Proof.Machine

/-! ### The depth of the stack (R102, R104, R107) -/

theorem Stack.depth_push (k : Stack) (p : Fin 6) : (k.push p).depth = k.depth + 1 := by
  simp [Stack.push, Stack.depth]

theorem Stack.depth_pop {k k' : Stack} (h : k.pop = some k') : k'.depth = k.depth - 1 := by
  unfold Stack.pop at h
  split at h
  · cases h
  · rename_i hlast
    obtain ⟨lower, hk⟩ := List.getLast?_eq_some_iff.mp hlast
    cases h
    simp [Stack.depth, hk]

/-- A push is made only with room for it (R104). -/
theorem depth_of_pushed {s : State} (h : wakeResult s = .pushed) : s.stack.depth < Config.stackRoom := by
  unfold wakeResult at h
  split at h
  · cases h
  · split at h
    · cases h
    · split at h
      · cases h
      · rename_i hroom
        exact Nat.lt_of_not_le hroom

theorem depth_wakeStack {s : State} (h : s.stack.depth ≤ Config.stackRoom) : (wakeStack s).depth ≤ Config.stackRoom := by
  unfold wakeStack
  split
  · rename_i hpushed _
    rw [Stack.depth_push]
    exact depth_of_pushed hpushed
  · exact h

/-! ### Effects that keep stack and action list within their room -/

/-- From `s` to `t` the stack stays within its room, and the action list one that R124 allows. -/
structure KeepsRoom (s t : State) : Prop where
  stack : s.stack.depth ≤ Config.stackRoom → t.stack.depth ≤ Config.stackRoom
  actions : actionsOk s.actions → actionsOk t.actions

/-- An effect outside stack and action list. -/
theorem KeepsRoom.quiet {s t : State} (hk : t.stack = s.stack) (ha : t.actions = s.actions) : KeepsRoom s t :=
  ⟨fun h => hk ▸ h, fun h => ha ▸ h⟩

theorem KeepsRoom.refl (s : State) : KeepsRoom s s := .quiet rfl rfl

theorem KeepsRoom.trans {s t u : State} (h : KeepsRoom s t) (g : KeepsRoom t u) : KeepsRoom s u :=
  ⟨g.stack ∘ h.stack, g.actions ∘ h.actions⟩

/-- An event's course moves sources and outputs alone. -/
theorem KeepsRoom.runEvent {s s0 s' : State} {cause : Cause} {f : Env → Ev → Ev} (hk : s'.stack = s.stack)
    (ha : s'.actions = s.actions) : KeepsRoom s (runEvent cause s0 s' f) :=
  .quiet ((stack_runEvent ..).trans hk) ((actions_runEvent ..).trans ha)

theorem KeepsRoom.reevaluate {s s0 s' : State} {cause : Cause} (hk : s'.stack = s.stack)
    (ha : s'.actions = s.actions) : KeepsRoom s (reevaluate cause s0 s') := .runEvent hk ha

/-- An event that the state may not give. -/
theorem KeepsRoom.ite {s t : State} {p : Prop} [Decidable p] (h : KeepsRoom s t) : KeepsRoom s (if p then t else s) := by
  split
  · exact h
  · exact .refl s

/-- A check that may refuse the request. -/
theorem KeepsRoom.unless {s : State} {st : Status} {d : Done} {p : Prop} [Decidable p] (h : KeepsRoom s d.state) :
    KeepsRoom s (if p then Done.refuse s st else d).state := by
  split
  · exact .refl s
  · exact h

/-- A request that only answers. -/
theorem KeepsRoom.answer {p : State → Done} {s : State} (h : (p s).state = s) : KeepsRoom s (p s).state := by
  rw [h]; exact .refl s

theorem keepsRoom_endEvent (s : State) : KeepsRoom s s.endEvent := .quiet (State.stack_endEvent s) (State.actions_endEvent s)

/-! ### Operations on the stack -/

@[simp] theorem stack_beginTransition (c : TransitionCause) (s0 s : State) : (beginTransition c s0 s).stack = s.stack :=
  stack_reevaluate ..

@[simp] theorem actions_beginTransition (c : TransitionCause) (s0 s : State) : (beginTransition c s0 s).actions = s.actions :=
  actions_reevaluate ..

@[simp] theorem stack_changeStack (c : TransitionCause) (k : Stack) (s : State) : (changeStack c k s).stack = k := by
  unfold changeStack; split <;> simp

@[simp] theorem actions_changeStack (c : TransitionCause) (k : Stack) (s : State) : (changeStack c k s).actions = s.actions := by
  unfold changeStack; split <;> simp

@[simp] theorem actions_wakeEvent (c : WakeCause) (s : State) : (wakeEvent c s).actions = s.actions :=
  actions_changeStack ..

section
variable (s : State)

/-- The stack changed for one that fits. -/
theorem keepsRoom_changeStack (c : TransitionCause) {k : Stack} (hk : s.stack.depth ≤ Config.stackRoom → k.depth ≤ Config.stackRoom) :
    KeepsRoom s (changeStack c k s) where
  stack h := by rw [stack_changeStack]; exact hk h
  actions h := by rw [actions_changeStack]; exact h

theorem keepsRoom_wakeEvent (c : WakeCause) : KeepsRoom s (wakeEvent c s) := by
  refine KeepsRoom.trans (t := s.post (wakePosting c s)) (.quiet rfl rfl) ?_
  exact keepsRoom_changeStack _ .wake (depth_wakeStack (s := s))

theorem keepsRoom_offerWake (c : WakeCause) : KeepsRoom s (offerWake c s) := .ite (keepsRoom_wakeEvent s c)

theorem keepsRoom_enterProfile (c : TransitionCause) (p : Fin 6) : KeepsRoom s (enterProfile c p s).state :=
  keepsRoom_changeStack s c id

theorem keepsRoom_resumeProfile (c : TransitionCause) : KeepsRoom s (resumeProfile c s).state := by
  unfold resumeProfile
  split
  · exact .refl s
  · rename_i hpop
    exact keepsRoom_changeStack s c fun h => (Stack.depth_pop hpop).trans_le ((Nat.sub_le _ _).trans h)

/-! ### Requests -/

theorem keepsRoom_sourceSet (r : SourceSetReq) : KeepsRoom s (performSourceSet r s).state := by
  unfold performSourceSet
  split
  · exact .refl s
  · exact .refl s
  · refine .unless (.unless (.unless ?_))
    rw [Done.state_ok]
    exact .runEvent rfl rfl

theorem keepsRoom_sourceKeep (x f : Byte) : KeepsRoom s (performSourceKeep x f s).state := by
  unfold performSourceKeep
  split
  · exact .refl s
  · exact .refl s
  · split
    · exact .refl s
    · exact .reevaluate rfl rfl

theorem keepsRoom_sourceClear (x : Byte) : KeepsRoom s (performSourceClear x s).state := by
  unfold performSourceClear
  split
  · exact .refl s
  · exact .ite (.runEvent rfl rfl)
  · rw [Done.state_ok]
    unfold clearSource
    dsimp only
    split
    · exact .runEvent rfl rfl
    · exact .runEvent rfl rfl
    · exact .quiet rfl rfl

theorem keepsRoom_monitorSet (r : MonitorSetReq) : KeepsRoom s (performMonitorSet r s).state := .unless (.quiet rfl rfl)

theorem keepsRoom_outputSet (r : OutputSetReq) : KeepsRoom s (performOutputSet r s).state := by
  unfold performOutputSet
  split
  · exact .refl s
  · split
    · exact .refl s
    · exact .unless (.reevaluate rfl rfl)

theorem keepsRoom_selectOutput (o : Fin 8) (entry : Option (Fin 4)) : KeepsRoom s (selectOutput o entry s).state := by
  unfold selectOutput
  split
  · exact .refl s
  · exact .unless (.reevaluate rfl rfl)

theorem keepsRoom_outputSelect (x i : Byte) : KeepsRoom s (performOutputSelect x i s).state := by
  unfold performOutputSelect
  split
  · exact .refl s
  · split
    · exact .refl s
    · split
      · exact .refl s
      · exact keepsRoom_selectOutput s _ _

theorem keepsRoom_outputQuery (x : Byte) : KeepsRoom s (performOutputQuery x s).state := by
  unfold performOutputQuery
  split
  · exact .refl s
  · split
    · exact .refl s
    · exact .quiet rfl rfl

theorem keepsRoom_chainSet (r : ChainSetReq) : KeepsRoom s (performChainSet r s).state := by
  unfold performChainSet
  split
  · exact .refl s
  · split
    · exact .refl s
    · split
      · exact .refl s
      · refine .unless (.unless ?_)
        rw [Done.state_ok]
        exact .runEvent rfl rfl

theorem keepsRoom_claim (r : ClaimReq) : KeepsRoom s (performClaim r s).state := by
  unfold performClaim
  split
  · exact .refl s
  · exact .refl s
  · split
    · exact .refl s
    · split
      · exact .refl s
      · exact .unless (.reevaluate rfl rfl)

theorem keepsRoom_releaseOne (n : Byte) (o : Fin 8) : KeepsRoom s (releaseOne n o s).state := by
  unfold releaseOne
  split
  · exact .reevaluate rfl rfl
  · exact .refl s

theorem keepsRoom_releaseEvery (n : Byte) : KeepsRoom s (releaseEvery n s).state := .reevaluate rfl rfl

theorem keepsRoom_release (c : Half) (x : Byte) : KeepsRoom s (performRelease c x s).state := by
  unfold performRelease
  split
  · exact .refl s
  · exact .refl s
  · split
    · exact .refl s
    · exact keepsRoom_releaseOne s _ _

theorem keepsRoom_releaseAll (c : Half) : KeepsRoom s (performReleaseAll c s).state := by
  unfold performReleaseAll
  split
  · exact .refl s
  · exact .refl s
  · exact keepsRoom_releaseEvery s _

theorem keepsRoom_lineOff (l : Fin 8) : KeepsRoom s (lineOff l s) := by
  unfold lineOff
  dsimp only
  split <;> exact .quiet rfl rfl

theorem keepsRoom_remapLine (l : Fin 8) (was : Bool) : KeepsRoom s (remapLine l was s) := by
  unfold remapLine
  dsimp only
  split
  · exact .quiet rfl rfl
  · refine KeepsRoom.trans ?_ (keepsRoom_lineOff _ l)
    exact .quiet rfl rfl
  · exact .quiet rfl rfl
  · exact .quiet rfl rfl

theorem keepsRoom_lineMapSet (r : LineMapReq) : KeepsRoom s (performLineMapSet r s).state := by
  unfold performLineMapSet
  split
  · exact .refl s
  · split
    · exact .refl s
    · refine .unless (.unless ?_)
      refine KeepsRoom.trans (KeepsRoom.trans ?_ (keepsRoom_remapLine _ _ _)) (.reevaluate rfl rfl)
      exact .quiet rfl rfl

theorem keepsRoom_profileSet (r : ProfileSetReq) : KeepsRoom s (performProfileSet r s).state := by
  unfold performProfileSet
  split
  · exact .refl s
  · split
    · exact .refl s
    · dsimp only
      rw [Done.state_ok]
      split
      · exact .reevaluate rfl rfl
      · exact .quiet rfl rfl

theorem keepsRoom_profileEnter (x : Byte) : KeepsRoom s (performProfileEnter x s).state := by
  unfold performProfileEnter
  split
  · exact .refl s
  · exact keepsRoom_enterProfile s _ _

/-- The entry below the top is replaced: the depth stays (R108). -/
theorem keepsRoom_resumeTarget (x : Byte) : KeepsRoom s (performResumeTarget x s).state := by
  unfold performResumeTarget
  split
  · exact .refl s
  · split
    · exact .refl s
    · rename_i p _ hne
      rw [List.isEmpty_iff, ← List.length_eq_zero_iff] at hne
      refine ⟨fun h => ?_, id⟩
      have hdepth : ({ s.stack with below := s.stack.below.dropLast ++ [p] } : Stack).depth = s.stack.depth := by
        simp only [Stack.depth, List.length_append, List.length_dropLast, List.length_singleton]
        omega
      exact hdepth.trans_le h

/-- ACTION ADD has checked number and room (R125). -/
theorem keepsRoom_actionAdd (r : ActionAddReq) : KeepsRoom s (performActionAdd r s).state := by
  unfold performActionAdd
  split
  · exact .refl s
  · split
    · exact .refl s
    · split
      · exact .refl s
      · rename_i hnew hroom
        rw [hasAction_iff] at hnew
        exact ⟨id, fun h => actionsOk_insertAction h _ hnew (Nat.lt_of_not_le hroom)⟩

theorem keepsRoom_actionCancel (n : Byte) : KeepsRoom s (performActionCancel n s).state := by
  unfold performActionCancel
  split
  · exact .refl s
  · split
    · exact .refl s
    · exact ⟨id, fun h => actionsOk_filter h _⟩

theorem keepsRoom_noticeAck (n : Half) : KeepsRoom s (performNoticeAck n s).state := by
  unfold performNoticeAck
  split
  · exact .refl s
  · split
    · exact .refl s
    · exact .quiet rfl rfl

theorem keepsRoom_imageSave (x : Byte) : KeepsRoom s (performImageSave x s).state := by
  unfold performImageSave
  split
  · exact .refl s
  · exact .unless (.unless (.quiet rfl rfl))

theorem keepsRoom_request (r : Request) : KeepsRoom s (performRequest r s).state := by
  cases r with
  | identify => exact .refl s
  | echo b => exact .answer (p := performEcho b) (by unfold performEcho; split <;> rfl)
  | restart => exact .quiet rfl rfl
  | sourceSet r => exact keepsRoom_sourceSet s r
  | sourceQuery x => exact .answer (p := performSourceQuery x) (by unfold performSourceQuery; split <;> rfl)
  | sourceKeep x f => exact keepsRoom_sourceKeep s x f
  | sourceClear x => exact keepsRoom_sourceClear s x
  | monitorSet r => exact keepsRoom_monitorSet s r
  | monitorQuery => exact .refl s
  | outputSet r => exact keepsRoom_outputSet s r
  | outputQuery x => exact keepsRoom_outputQuery s x
  | outputSelect x i => exact keepsRoom_outputSelect s x i
  | chainSet r => exact keepsRoom_chainSet s r
  | chainQuery x => exact .answer (p := performChainQuery x) (by unfold performChainQuery; split <;> rfl)
  | claim r => exact keepsRoom_claim s r
  | release c x => exact keepsRoom_release s c x
  | releaseAll c => exact keepsRoom_releaseAll s c
  | claimList f => exact .unless (.refl s)
  | lineMapSet r => exact keepsRoom_lineMapSet s r
  | lineQuery x => exact .answer (p := performLineQuery x) (by unfold performLineQuery; split <;> rfl)
  | profileSet r => exact keepsRoom_profileSet s r
  | profileQuery x => exact .answer (p := performProfileQuery x) (by unfold performProfileQuery; split <;> rfl)
  | profileEnter x => exact keepsRoom_profileEnter s x
  | resume => exact keepsRoom_resumeProfile s _
  | resumeTarget x => exact keepsRoom_resumeTarget s x
  | stackQuery => exact .refl s
  | timeQuery => exact .refl s
  | actionAdd r => exact keepsRoom_actionAdd s r
  | actionCancel n => exact keepsRoom_actionCancel s n
  | actionList f => exact .unless (.refl s)
  | noticeAck n => exact keepsRoom_noticeAck s n
  | noticeResend => exact .quiet rfl rfl
  | noticeFilter f => exact .unless (.quiet rfl rfl)
  | imageSave x => exact keepsRoom_imageSave s x
  | imageInfo => exact .refl s

/-! ### Firing an action (R127, R129) -/

@[simp] theorem actions_releaseOne (n : Byte) (o : Fin 8) : (releaseOne n o s).state.actions = s.actions := by
  unfold releaseOne
  split
  · exact actions_reevaluate ..
  · rfl

@[simp] theorem actions_releaseEvery (n : Byte) : (releaseEvery n s).state.actions = s.actions := actions_reevaluate ..

@[simp] theorem actions_selectOutput (o : Fin 8) (entry : Option (Fin 4)) : (selectOutput o entry s).state.actions = s.actions := by
  unfold selectOutput
  split
  · rfl
  · split_ifs
    · rfl
    · exact actions_reevaluate ..

@[simp] theorem actions_resumeProfile (c : TransitionCause) : (resumeProfile c s).state.actions = s.actions := by
  unfold resumeProfile
  split
  · rfl
  · exact actions_changeStack ..

/-- A performance leaves the list that the action has left. -/
@[simp] theorem actions_performAction (a : Action) : (performAction a s).state.actions = s.actions := by
  unfold performAction
  split
  · exact actions_changeStack ..
  · exact actions_wakeEvent ..
  · exact actions_resumeProfile s _
  · exact actions_releaseEvery s _
  · exact actions_releaseOne s _ _
  · exact actions_selectOutput s _ _
  · rfl

@[simp] theorem actions_settleAction (a : Action) : (settleAction a s).actions = s.actions := by
  unfold settleAction; split <;> simp

theorem keepsRoom_performAction (a : Action) : KeepsRoom s (performAction a s).state := by
  unfold performAction
  split
  · exact keepsRoom_enterProfile s _ _
  · exact keepsRoom_wakeEvent s _
  · exact keepsRoom_resumeProfile s _
  · exact keepsRoom_releaseEvery s _
  · exact keepsRoom_releaseOne s _ _
  · exact keepsRoom_selectOutput s _ _
  · exact .refl s

theorem keepsRoom_settleAction (a : Action) : KeepsRoom s (settleAction a s) := by
  unfold settleAction
  split
  · exact .quiet (State.stack_testSettled s) (State.actions_testSettled s)
  · exact .quiet (State.stack_testSettled s) (State.actions_testSettled s)
  · exact .refl s

/-- A periodic action comes back under its own number, into the place that it has left (R129). -/
theorem actionsOk_reinsert {a : Action} {rest : List Action} (h : actionsOk (a :: rest)) (now : Tick) :
    actionsOk (reinsert now a rest) := by
  obtain ⟨hroom, hnodup⟩ := h
  obtain ⟨hnew, hrest⟩ := List.nodup_cons.mp hnodup
  unfold reinsert
  split
  · rename_i b hb
    obtain ⟨_, -, rfl⟩ := Option.map_eq_some_iff.mp hb
    exact actionsOk_insertAction ⟨(Nat.le_succ _).trans hroom, hrest⟩ now hnew hroom
  · exact ⟨(Nat.le_succ _).trans hroom, hrest⟩

theorem keepsRoom_fireHead : KeepsRoom s (fireHead s) := by
  unfold fireHead
  split
  · exact .refl s
  · rename_i a rest hlist
    refine .ite ⟨fun h => ?_, fun h => ?_⟩
    · exact (keepsRoom_settleAction _ a).stack ((keepsRoom_performAction { s with actions := rest } a).stack h)
    · rw [hlist] at h
      change actionsOk (reinsert s.tick a (settleAction a (performAction a { s with actions := rest }).state).actions)
      rw [actions_settleAction, actions_performAction]
      exact actionsOk_reinsert h s.tick

/-! ### Events of the running part -/

theorem keepsRoom_expireRevert (o : Fin 8) : KeepsRoom s (expireRevert o s) := by
  unfold expireRevert
  split
  · split
    · exact .refl s
    · split
      · exact .quiet rfl rfl
      · exact .reevaluate rfl rfl
  · exact .refl s

theorem keepsRoom_expireLease (n : Byte) (o : Fin 8) : KeepsRoom s (expireLease n o s) := by
  unfold expireLease
  split
  · exact .ite (.reevaluate rfl rfl)
  · exact .refl s

theorem keepsRoom_activateLine (l : Fin 8) : KeepsRoom s (activateLine l s) := by
  unfold activateLine
  split
  · exact .refl s
  · dsimp only
    refine KeepsRoom.trans (.quiet ?_ ?_) (keepsRoom_offerWake _ _)
    · rw [State.stack_testSettled, stack_reevaluate]; rfl
    · rw [State.actions_testSettled, actions_reevaluate]; rfl

theorem keepsRoom_deactivateLine (l : Fin 8) : KeepsRoom s (deactivateLine l s) := by
  refine .ite (KeepsRoom.trans (KeepsRoom.trans ?_ (keepsRoom_lineOff _ l)) (.reevaluate rfl rfl))
  exact .quiet rfl rfl

theorem keepsRoom_expireHold (l : Fin 8) : KeepsRoom s (expireHold l s) := .ite (.reevaluate rfl rfl)

theorem keepsRoom_endCheck (good : Bool) : KeepsRoom s (endCheck good s) := by
  unfold endCheck
  split
  · exact .ite (.quiet rfl rfl)
  · exact .refl s

theorem actionsOk_nil : actionsOk [] := ⟨Nat.zero_le _, List.nodup_nil⟩

/-- A warm restart empties the action list and leaves the stack until LIVE (R146). -/
theorem keepsRoom_endFrame : KeepsRoom s (endFrame s) := by
  unfold endFrame
  split
  · exact .refl s
  · dsimp only
    split
    · unfold restartTakesEffect
      exact ⟨fun h => by rw [State.stack_cutSave]; exact h, fun _ => actionsOk_nil⟩
    · exact .quiet rfl rfl

/-- Every event of the running part; a character received is a step of its own. -/
theorem keepsRoom_event {i : Instr} {f : State → State} (hf : eventBody i = some f)
    (hc : ∀ c b, i ≠ .characterReceived c b) : KeepsRoom s (f s) := by
  cases i <;> cases hf
  case characterReceived c b => exact absurd rfl (hc c b)
  case gap => exact .ite (.quiet rfl rfl)
  case linkBreak => exact .quiet rfl rfl
  case frameSent => exact keepsRoom_endFrame s
  case startDetection o => exact .ite (.runEvent rfl rfl)
  case startTimerExpiry o => exact .ite (.runEvent rfl rfl)
  case lockDetection => exact .ite (.runEvent rfl rfl)
  case lockTimerExpiry => exact .ite (.runEvent rfl rfl)
  case quarantineExpiry o => exact .ite (.runEvent rfl rfl)
  case rehabilitationExpiry o => exact .ite (.quiet rfl rfl)
  case surveyCompletion => exact .runEvent rfl rfl
  case releaseEnd o => exact .ite (.runEvent rfl rfl)
  case releaseTimeout o => exact .ite (.runEvent rfl rfl)
  case acquireEnd o => exact .ite (.runEvent rfl rfl)
  case acquireTimeout o => exact .ite (.runEvent rfl rfl)
  case dividerChange o => exact .quiet rfl rfl
  case revertTimerExpiry o => exact keepsRoom_expireRevert s o
  case leaseExpiry n o => exact keepsRoom_expireLease s n o
  case lineActivation l => exact keepsRoom_activateLine s l
  case lineDeactivation l => exact keepsRoom_deactivateLine s l
  case holdExpiry l => exact keepsRoom_expireHold s l
  case wakePinEdge => exact keepsRoom_offerWake s _
  case tick => exact .quiet rfl rfl
  case actionFiring => exact keepsRoom_fireHead s
  case eraseComplete => exact .quiet rfl rfl
  case writeComplete => exact .quiet rfl rfl
  case checkComplete good => exact keepsRoom_endCheck s good

/-! ### Start-up events -/

/-- A stack of one entry, as cold start and APPLY leave it (R102, R118). -/
theorem depth_single (p : Fin 6) : (⟨[], p⟩ : Stack).depth ≤ Config.stackRoom := Nat.le_add_left 1 5

theorem keepsRoom_endSelect : KeepsRoom s (endSelect s) := by
  refine .ite ?_
  dsimp only
  split
  · exact .quiet rfl rfl
  · exact ⟨fun _ => depth_single _, id⟩

theorem keepsRoom_reachLive (pins : Byte) : KeepsRoom s (reachLive pins s) := by
  refine .ite (KeepsRoom.trans ?_ (keepsRoom_endEvent _))
  split
  · rw [liveWarm_eq]
    exact ⟨fun _ => by rw [stack_runEvent]; exact depth_single _, fun h => by rw [actions_runEvent]; exact h⟩
  · rw [liveCold_eq, coldReady_eq]
    exact .reevaluate rfl rfl

theorem keepsRoom_start {i : Instr} {f : State → State} (hf : startBody i = some f) : KeepsRoom s (f s) := by
  cases i <;> cases hf
  case coldStart supply => exact ⟨fun _ => depth_single 0, fun _ => actionsOk_nil⟩
  case resetRelease => exact .ite (.quiet rfl rfl)
  case powerupEnd b1 b0 => exact .ite (.quiet rfl rfl)
  case selectDone => exact keepsRoom_endSelect s
  case live pins => exact keepsRoom_reachLive s pins

end

/-! ### Every step -/

/-- What keeping the room keeps, every step keeps. -/
theorem step_keepsRoom {P : State → Prop} (hP : ∀ {s t}, KeepsRoom s t → P s → P t) {s t : State} (h : P s)
    (hs : step s = .next t) : P t :=
  step_keeps (P := P) (fun _ _ => hP (.quiet rfl rfl)) (fun _ _ => hP (.quiet rfl rfl)) (fun s => hP (keepsRoom_endEvent s))
    (fun r s _ => hP (keepsRoom_request s r)) (fun _ _ s hf hc _ => hP (keepsRoom_event s hf hc))
    (fun _ _ s hf => hP (keepsRoom_start s hf)) h hs

/-- Settles O18: a push and an insertion are made only with room for them, a periodic action comes back into its own place, and all
else leaves stack and list or makes them no longer (`KeepsRoom`). -/
theorem stepKeepsStackAndActions : Obligations.StepKeepsStackAndActions :=
  ⟨fun _ _ => step_keepsRoom (P := fun s => actionsOk s.actions) KeepsRoom.actions,
    fun _ t hdepth hs => ⟨Nat.le_add_left .., step_keepsRoom (P := fun s => s.stack.depth ≤ Config.stackRoom)
      KeepsRoom.stack hdepth hs, Stack.getLast_entries t.stack⟩⟩

end Sys2Proof.Machine
end

section
/-! PROOFS. The end of an event: what the transmitter begins, and the settling test (O9). -/

namespace Sys2Proof.Machine

/-! ### The transmitter (R155, R156, R165) -/

/-- The oldest unsent record is taken and marked sent. -/
theorem takeUnsent_append {pre post : List NoticeRec} {r : NoticeRec} (hpre : ∀ x ∈ pre, x.sent = true) (hr : r.sent = false) :
    takeUnsent (pre ++ r :: post) = some (r, pre ++ { r with sent := true } :: post) := by
  induction pre with
  | nil => rw [List.nil_append, takeUnsent, hr]; rfl
  | cons q qs ih =>
    obtain ⟨hq, hqs⟩ := List.forall_mem_cons.mp hpre
    rw [List.cons_append, takeUnsent, if_pos hq, ih hqs]
    rfl

theorem takeUnsent_eq_none {l : List NoticeRec} (h : ∀ x ∈ l, x.sent = true) : takeUnsent l = none := by
  induction l with
  | nil => rfl
  | cons q qs ih =>
    obtain ⟨hq, hqs⟩ := List.forall_mem_cons.mp h
    rw [takeUnsent, if_pos hq, ih hqs]
    rfl

theorem noticesWait_eq (s : State) : s.noticesWait = decide (s.notices.records ≠ []) := by
  unfold State.noticesWait
  cases s.notices.records <;> rfl

theorem State.transmit_notLive {s : State} (h : s.isLive = false) : s.transmit = s := if_pos (by rw [h]; rfl)

section
variable {s : State} (hlive : s.isLive = true) (hltx : s.link.onLtx = none) (hq : s.link.queued = [])
include hlive hltx hq

theorem State.transmit_notice {r : NoticeRec} {l : List NoticeRec} (h : takeUnsent s.notices.records = some (r, l)) :
    s.transmit = { s with
      link := { s.link with onLtx := some ⟨frameBytes 0#8 0x7E#8 r.body, false, false⟩ }
      notices := { s.notices with records := l } } := by
  rw [State.transmit, hlive, hltx]
  simp only [hq, h]
  rfl

theorem State.transmit_nothing (h : takeUnsent s.notices.records = none) : s.transmit = s := by
  rw [State.transmit, hlive, hltx]
  simp only [hq, h]
  exact ite_self s

end

/-! ### The settling test (R114) -/

theorem not_moving {r : OutRec} (h : r.cfg.enable = true → r.state = .running ∨ r.state = .parked ∨ r.state = .dark) :
    r.moving = false := by
  unfold OutRec.moving
  cases hen : r.cfg.enable with
  | false => rfl
  | true => rcases h hen with hs | hs | hs <;> rw [hs] <;> rfl

theorem moving_of_unsettled {r : OutRec} (hen : r.cfg.enable = true) (h : r.state = .waiting ∨ ∃ p, r.state = .switching p) :
    r.moving = true := by
  unfold OutRec.moving
  rcases h with hs | ⟨p, hs⟩ <;> rw [hen, hs] <;> rfl

theorem testSettled_idle {s : State} (h : s.settling = none) : s.testSettled = s := by
  rw [State.testSettled, h]

section
variable {s : State} {g : Settling} (hg : s.settling = some g)
include hg

theorem testSettled_settled (h : ∀ o, (s.out o).moving = false) :
    s.testSettled = { s.post (settledPosting s g) with settling := none } := by
  have hstill : ¬ s.clk.outs.toList.any OutRec.moving = true := by
    rw [Bank8.any_toList]
    rintro ⟨o, ho⟩
    exact Bool.false_ne_true ((h o).symm.trans ho)
  rw [State.testSettled, hg]
  exact if_neg hstill

theorem testSettled_unsettled {o : Fin 8} (h : (s.out o).moving = true) : s.testSettled = s := by
  rw [State.testSettled, hg]
  exact if_pos ((Bank8.any_toList ..).mpr ⟨o, h⟩)

end

/-- Settles O9: a reply goes before a notice, and a notice is the oldest unsent one (`takeUnsent_append`); the settling test asks
whether some output is moving. -/
theorem endOfEventRules : Obligations.EndOfEventRules := by
  refine ⟨fun s => ⟨fun h => ?_, fun hlive hltx => ⟨fun r rs hq => ?_, fun hq pre r post hrec hpre hr => ?_, fun hq hsent => ?_⟩⟩,
    fun s => ⟨testSettled_idle, fun g hg => ⟨fun h => ?_, fun o hen h => ?_⟩⟩⟩
  · rcases h with h | h
    · exact State.transmit_notLive h
    · exact State.transmit_busy (Option.isSome_iff_ne_none.mpr h)
  · rw [State.transmit_reply hlive hltx hq, noticesWait_eq]
    rfl
  · exact State.transmit_notice hlive hltx hq (by rw [hrec]; exact takeUnsent_append hpre hr)
  · exact State.transmit_nothing hlive hltx hq (takeUnsent_eq_none hsent)
  · exact testSettled_settled hg fun o => not_moving (h o)
  · exact testSettled_unsettled hg (moving_of_unsettled hen h)

end Sys2Proof.Machine
end

section
/-! PROOFS. PROFILE ENTER, STACK QUERY and PROFILE SET (O48); RESUME (O49), RESUME TARGET (O50) and PROFILE QUERY (O51). -/

namespace Sys2Proof.Machine

/-! ### The stack changed (R106, R107) -/

/-- The active profile stays: no transition begins. -/
theorem changeStack_same {c : TransitionCause} {k : Stack} {s : State} (h : k.top = s.stack.top) :
    changeStack c k s = { s with stack := k } := if_pos h

/-- Another profile becomes active: a transition begins. -/
theorem changeStack_other {c : TransitionCause} {k : Stack} {s : State} (h : k.top ≠ s.stack.top) :
    changeStack c k s = beginTransition c s { s with stack := k } := if_neg h

theorem Stack.pop_of_bottom {k : Stack} (h : k.below = []) : k.pop = none := by
  rw [Stack.pop, h]
  rfl

theorem Stack.pop_of_below {k : Stack} {lower : List (Fin 6)} {p : Fin 6} (h : k.below = lower ++ [p]) :
    k.pop = some ⟨lower, p⟩ := by
  obtain ⟨_, top⟩ := k
  cases h
  exact Stack.pop_append lower p top

/-! ### PROFILE ENTER, STACK QUERY and PROFILE SET (R106, R109, R110) -/

theorem performProfileEnter_valid {b : Byte} {p : Fin 6} (h : profileOfCode b = some p) (s : State) :
    performProfileEnter b s = .ok (changeStack .request (s.stack.replaceTop p) s) [] := by
  rw [performProfileEnter, h]
  rfl

section
variable {r : ProfileSetReq} {p : Fin 6} (hp : profileOfCode r.profile = some p) (s : State)
include hp

theorem performProfileSet_badValue (h : profileOfReq r = none) : performProfileSet r s = .refuse s .badValue := by
  unfold performProfileSet
  rw [hp]
  dsimp only
  rw [h]

variable {q : ProfileRec} (hq : profileOfReq r = some q)
include hq

theorem performProfileSet_valid : performProfileSet r s =
    .ok (if p = s.stack.top then beginTransition .request s { s with profiles := s.profiles.set p q }
      else { s with profiles := s.profiles.set p q }) [] := by
  unfold performProfileSet
  rw [hp]
  dsimp only
  rw [hq]

theorem performProfileSet_active (h : p = s.stack.top) : performProfileSet r s =
    .ok (beginTransition .request s { s with profiles := s.profiles.set p q }) [] := by
  rw [performProfileSet_valid hp s hq, if_pos h]

theorem performProfileSet_other (h : p ≠ s.stack.top) : performProfileSet r s =
    .ok { s with profiles := s.profiles.set p q } [] := by
  rw [performProfileSet_valid hp s hq, if_neg h]

end

/-- Settles O48: the checks in their order; a transition begins where the active profile is another one or has another record. -/
theorem profileRequests : Obligations.ProfileRequests := by
  intro s tag ht
  refine ⟨fun b h => ?_, fun b p hp => ⟨fun hsame => ?_, fun hother => ?_⟩, ?_,
    fun r => ⟨fun h => ?_, fun p hp => ⟨fun h => ?_, fun q hq => ⟨fun hother => ?_, fun hsame => ?_⟩⟩⟩⟩
  · exact refuses_of_refuse ht rfl (by rw [performProfileEnter, h])
  · exact accepted_of_ok ht rfl ((performProfileEnter_valid hp s.hunt).trans (by rw [changeStack_same hsame]; rfl))
  · exact accepted_of_ok ht rfl ((performProfileEnter_valid hp s.hunt).trans (by rw [changeStack_other hother]; rfl))
  · exact accepted_of_ok ht rfl rfl
  · exact refuses_of_refuse ht rfl (by unfold performProfileSet; rw [h])
  · exact refuses_of_refuse ht rfl (performProfileSet_badValue hp s.hunt h)
  · exact accepted_of_ok ht rfl (performProfileSet_other hp s.hunt hq hother)
  · exact accepted_of_ok ht rfl (performProfileSet_active hp s.hunt hq hsame)

/-! ### RESUME and RESUME TARGET (R107, R108) -/

theorem resumeProfile_bottom {s : State} (c : TransitionCause) (h : s.stack.below = []) :
    resumeProfile c s = .refuse s .stackBottom := by
  rw [resumeProfile, Stack.pop_of_bottom h]

theorem resumeProfile_below {s : State} (c : TransitionCause) {lower : List (Fin 6)} {p : Fin 6}
    (h : s.stack.below = lower ++ [p]) : resumeProfile c s =
      .ok (changeStack c ⟨lower, p⟩ s) [BitVec.ofNat 8 (s.stack.depth - 1), BitVec.ofNat 8 p.val] := by
  have hpop := Stack.pop_of_below h
  rw [resumeProfile, hpop, ← Stack.depth_pop hpop]
  rfl

/-- Settles O49: RESUME needs an entry below the top, and makes it the top. -/
theorem resumePopsTheStack : Obligations.ResumePopsTheStack := by
  refine fun s tag ht => ⟨fun h => ?_, fun lower p h => ⟨fun hsame => ?_, fun hother => ?_⟩⟩
  · exact refuses_of_refuse ht rfl (resumeProfile_bottom (s := s.hunt) .resume h)
  · exact accepted_of_ok ht rfl ((resumeProfile_below (s := s.hunt) .resume h).trans (by rw [changeStack_same hsame]; rfl))
  · exact accepted_of_ok ht rfl ((resumeProfile_below (s := s.hunt) .resume h).trans (by rw [changeStack_other hother]; rfl))

section
variable {b : Byte} {p : Fin 6} (hp : profileOfCode b = some p) {s : State}
include hp

theorem performResumeTarget_bottom (h : s.stack.below = []) : performResumeTarget b s = .refuse s .stackBottom := by
  rw [performResumeTarget, hp]
  dsimp only
  rw [h]
  rfl

theorem performResumeTarget_below {lower : List (Fin 6)} {old : Fin 6} (h : s.stack.below = lower ++ [old]) :
    performResumeTarget b s = .ok { s with stack := ⟨lower ++ [p], s.stack.top⟩ } [] := by
  rw [performResumeTarget, hp]
  dsimp only
  rw [h, List.dropLast_concat, if_neg (by simp)]

end

/-- Settles O50: the entry below the top is the one that the next pop exposes. -/
theorem resumeTargetEditsTheEntryBelow : Obligations.ResumeTargetEditsTheEntryBelow := by
  refine fun s tag b ht => ⟨fun h => ?_, fun p hp => ⟨fun h => ?_, fun lower old h => ⟨?_, Stack.pop_append .., rfl⟩⟩⟩
  · exact refuses_of_refuse ht rfl (by rw [performResumeTarget, h])
  · exact refuses_of_refuse ht rfl (performResumeTarget_bottom hp (s := s.hunt) h)
  · exact accepted_of_ok ht rfl (performResumeTarget_below hp (s := s.hunt) h)

/-! ### PROFILE QUERY (R112) -/

/-- The positions are the numbers of the entries that are the profile. -/
theorem positionsOf_eq (k : Stack) (p : Fin 6) : positionsOf k p =
    (((List.range k.depth).zip k.entries).filter fun x => decide (x.2 = p)).map Prod.fst := by
  unfold positionsOf
  rw [← List.filterMap_eq_map, ← List.filterMap_eq_filter, List.filterMap_filterMap]
  refine List.filterMap_congr fun x _ => ?_
  by_cases h : x.2 = p <;> simp [Option.guard, h]

theorem length_entries (k : Stack) : k.entries.length = k.depth := by simp [Stack.entries, Stack.depth]

theorem pairwise_positionsOf (k : Stack) (p : Fin 6) : (positionsOf k p).Pairwise (· < ·) := by
  have hnumbers : ((List.range k.depth).zip k.entries).map Prod.fst = List.range k.depth :=
    List.map_fst_zip (by rw [List.length_range, length_entries])
  rw [positionsOf_eq]
  refine List.Pairwise.sublist (List.filter_sublist.map _) ?_
  rw [hnumbers]
  exact List.pairwise_lt_range

theorem mem_positionsOf {k : Stack} {p : Fin 6} {n : Nat} : n ∈ positionsOf k p ↔ k.entries[n]? = some p := by
  rw [positionsOf_eq, List.mem_map]
  constructor
  · rintro ⟨⟨m, q⟩, hx, rfl⟩
    obtain ⟨hmem, hq⟩ := List.mem_filter.mp hx
    obtain ⟨i, hi⟩ := List.mem_iff_getElem?.mp hmem
    obtain ⟨hnumber, hentry⟩ := List.getElem?_zip_eq_some.mp hi
    obtain ⟨_, rfl⟩ := List.getElem?_eq_some_iff.mp hnumber
    rw [List.getElem_range, hentry, of_decide_eq_true hq]
  · intro h
    have hn : n < k.depth := by rw [← length_entries]; exact (List.getElem?_eq_some_iff.mp h).1
    refine ⟨(n, p), List.mem_filter.mpr ⟨List.mem_iff_getElem?.mpr ⟨n, ?_⟩, decide_eq_true rfl⟩, rfl⟩
    exact List.getElem?_zip_eq_some.mpr ⟨List.getElem?_range hn, h⟩

theorem positionsOf_absent {k : Stack} {p : Fin 6} (h : p ∉ k.entries) : positionsOf k p = [] :=
  List.eq_nil_iff_forall_not_mem.mpr fun _ hn => h (List.mem_of_getElem? (mem_positionsOf.mp hn))

/-- Settles O51: the positions of the reply are `positionsOf`. -/
theorem profileQueryRule : Obligations.ProfileQueryRule := by
  refine fun s tag b ht => ⟨fun h => ?_, fun p hp => ⟨positionsOf s.stack p, ?_, pairwise_positionsOf .., fun _ => mem_positionsOf,
    positionsOf_absent⟩⟩
  · exact refuses_of_refuse ht rfl (by rw [performProfileQuery, h])
  · exact accepted_of_ok ht rfl (by rw [performProfileQuery, hp]; rfl)

end Sys2Proof.Machine
end

section
/-! PROOFS. Wake events and transitions (O52). -/

namespace Sys2Proof.Machine

/-! ### The tests of a wake event (R104) -/

section
variable {s : State}

theorem wakeResult_none (h : s.active.wakeProfile = none) : wakeResult s = .none := by
  rw [wakeResult, h]

theorem wakeResult_same (h : s.active.wakeProfile = some s.stack.top) : wakeResult s = .same := by
  rw [wakeResult, h]
  exact if_pos rfl

variable {w : Fin 6} (hw : s.active.wakeProfile = some w) (hother : w ≠ s.stack.top)
include hw hother

theorem wakeResult_full (h : Config.stackRoom ≤ s.stack.depth) : wakeResult s = .stackFull := by
  rw [wakeResult, hw]
  exact (if_neg hother).trans (if_pos h)

theorem wakeResult_pushed (h : s.stack.depth < Config.stackRoom) : wakeResult s = .pushed := by
  rw [wakeResult, hw]
  exact (if_neg hother).trans (if_neg (Nat.not_le.mpr h))

end

/-! ### What each result does (R104) -/

section
variable {s : State} (c : WakeCause)

/-- Without a push the event is its notice. -/
theorem wakeEvent_of_not_pushed (h : wakeResult s ≠ .pushed) : wakeEvent c s = s.post (wakePosting c s) := by
  have hstack : wakeStack s = s.stack := by
    unfold wakeStack
    split
    · rename_i hpushed _
      exact absurd hpushed h
    · rfl
  rw [wakeEvent, hstack]
  exact changeStack_same rfl

theorem wakeEvent_of_pushed (h : wakeResult s = .pushed) {w : Fin 6} (hw : s.active.wakeProfile = some w)
    (hother : w ≠ s.stack.top) : wakeEvent c s = beginTransition .wake (s.post (wakePosting c s))
      { s.post (wakePosting c s) with stack := ⟨s.stack.below ++ [s.stack.top], w⟩ } := by
  have hstack : wakeStack s = s.stack.push w := by rw [wakeStack, h, hw]
  rw [wakeEvent, hstack]
  exact changeStack_other hother

end

theorem exec_wakePinEdge {s : State} (hrun : s.startup.running = true) :
    exec .wakePinEdge s = .next (offerWake .pin s).endEvent := congrArg _ (whileRunning_eq hrun _)

/-- The WAKE pin's bit of the wake mask (R103). -/
theorem accepts_pin (p : ProfileRec) : accepts p .pin = p.wakeMask.getLsbD 8 := rfl

/-! ### Transitions (R113, R114, R115) -/

/-- The settling record of a transition. -/
theorem settling_beginTransition (c : TransitionCause) (s0 s : State) :
    (beginTransition c s0 s).settling = some (nextSettling s.settling s.stack.top s.tick) := settling_reevaluate ..

theorem profiles_beginTransition (c : TransitionCause) (s0 s : State) : (beginTransition c s0 s).profiles = s.profiles :=
  profiles_reevaluate ..

theorem claims_beginTransition (c : TransitionCause) (s0 s : State) : (beginTransition c s0 s).claims = s.claims :=
  claims_reevaluate ..

/-- Settles O52: the four results exclude each other, only a push changes the stack, and a transition ends in an evaluation. -/
theorem wakeAndTransitionRule : Obligations.WakeAndTransitionRule := by
  refine ⟨fun s c => ⟨fun h => ?_, fun h => ?_, fun w hw hother => ⟨fun hfull => ?_, fun hroom => ?_⟩,
      fun hrun => ⟨fun hmask => ?_, fun hmask => ?_⟩⟩,
    fun cause s0 s => ⟨fun h => ?_, fun g hg => ?_, outputsStand_reevaluate _ _ _, gateLaw_reevaluate _ _ _,
      stack_beginTransition .., profiles_beginTransition .., claims_beginTransition ..⟩⟩
  · have hres := wakeResult_none h
    exact ⟨hres, wakeEvent_of_not_pushed c (by rw [hres]; decide)⟩
  · have hres := wakeResult_same h
    exact ⟨hres, wakeEvent_of_not_pushed c (by rw [hres]; decide)⟩
  · have hres := wakeResult_full hw hother hfull
    exact ⟨hres, wakeEvent_of_not_pushed c (by rw [hres]; decide)⟩
  · have hres := wakeResult_pushed hw hother hroom
    exact ⟨hres, wakeEvent_of_pushed c hres hw hother⟩
  · rw [exec_wakePinEdge hrun, offerWake, accepts_pin, if_pos hmask]
  · rw [exec_wakePinEdge hrun, offerWake, accepts_pin, if_neg (Bool.eq_false_iff.mp hmask)]
  · rw [settling_beginTransition, h]
    rfl
  · rw [settling_beginTransition, hg]
    rfl

end Sys2Proof.Machine
end

section
/-! PROOFS. The advance of the timebase, TIME QUERY, and the firing of the action list's head (O55). -/

namespace Sys2Proof.Machine

/-! ### The timebase (R120) -/

theorem whileRunning_idle {s : State} (h : s.startup.running = false) (f : State → State) : whileRunning f s = s :=
  if_neg (Bool.eq_false_iff.mp h)

/-! ### The head of the list (R127, R129) -/

theorem exec_actionFiring {s : State} (hrun : s.startup.running = true) :
    exec .actionFiring s = .next (fireHead s).endEvent := congrArg _ (whileRunning_eq hrun _)

theorem fireHead_empty {s : State} (h : s.actions = []) : fireHead s = s := by
  rw [fireHead, h]

section
variable {s : State} {a : Action} {rest : List Action} (h : s.actions = a :: rest)
include h

theorem fireHead_early (hr : reached s.tick a.due = false) : fireHead s = s := by
  rw [fireHead, h]
  exact if_neg (Bool.eq_false_iff.mp hr)

theorem fireHead_due (hr : reached s.tick a.due = true) : fireHead s = fireAction a rest s := by
  rw [fireHead, h]
  exact if_pos hr

end

/-- What the performance and the settling test behind it leave, with the list still without the action. -/
def performed (a : Action) (rest : List Action) (s : State) : State :=
  settleAction a (performAction a { s with actions := rest }).state

theorem actions_performed (a : Action) (rest : List Action) (s : State) : (performed a rest s).actions = rest :=
  (actions_settleAction _ a).trans (actions_performAction _ a)

theorem fireAction_eq (a : Action) (rest : List Action) (s : State) : fireAction a rest s =
    { performed a rest s with actions := reinsert s.tick a rest }.post
      (donePosting s.tick a (performAction a { s with actions := rest }).status) := by
  change State.post { performed a rest s with actions := reinsert s.tick a (performed a rest s).actions } _ = _
  rw [actions_performed]

theorem fireAction_once {a : Action} (h : a.period = none) (rest : List Action) (s : State) : fireAction a rest s =
    (performed a rest s).post (donePosting s.tick a (performAction a { s with actions := rest }).status) := by
  have hnext : nextOccurrence s.tick a = none := by rw [nextOccurrence, h]; rfl
  have hlist : reinsert s.tick a rest = (performed a rest s).actions := by rw [reinsert, hnext, actions_performed]
  rw [fireAction_eq, hlist]

theorem fireAction_periodic {a b : Action} {s : State} (h : nextOccurrence s.tick a = some b) (rest : List Action) :
    fireAction a rest s = { performed a rest s with actions := insertAction s.tick b rest }.post
      (donePosting s.tick a (performAction a { s with actions := rest }).status) := by
  have hlist : reinsert s.tick a rest = insertAction s.tick b rest := by rw [reinsert, h]
  rw [fireAction_eq, hlist]

/-! ### What each kind performs (R128) -/

theorem Done.of_ok {d : Done} {t : State} {l : List Byte} (h : d = .ok t l) : d.status = .ok ∧ d.state = t := by
  rw [h]
  exact ⟨rfl, rfl⟩

theorem Done.of_refuse {d : Done} {s : State} {st : Status} (h : d = .refuse s st) : d.state = s ∧ d.status = st := by
  rw [h]
  exact ⟨rfl, rfl⟩

section
variable {a : Action} (s : State)

/-- ENTER: PROFILE ENTER's effect, with its transition's cause (R117). -/
theorem performAction_enter {p : Fin 6} (h : a.kind = .enter p) : performAction a s =
    .ok (if p = s.stack.top then s else beginTransition .action s { s with stack := { s.stack with top := p } }) [] := by
  rw [performAction, h]
  change Done.ok (changeStack .action (s.stack.replaceTop p) s) [] = _
  split
  · rename_i hsame
    subst hsame
    exact congrArg (Done.ok · []) (changeStack_same rfl)
  · rename_i hother
    exact congrArg (Done.ok · []) (changeStack_other hother)

theorem performAction_wake (h : a.kind = .wake) : performAction a s =
    ⟨wakeEvent (.action a.number) s, if wakeResult s = .stackFull then .full else .ok, []⟩ := by
  rw [performAction, h]

theorem performAction_resume (h : a.kind = .resume) : performAction a s = resumeProfile .action s := by
  rw [performAction, h]

theorem performAction_releaseOne {n : Byte} {o : Fin 8} (h : a.kind = .release n (some o)) :
    performAction a s = releaseOne n o s := by
  rw [performAction, h]

theorem performAction_releaseEvery {n : Byte} (h : a.kind = .release n none) : performAction a s = releaseEvery n s := by
  rw [performAction, h]

theorem performAction_select {o : Fin 8} {i : Option (Fin 4)} (h : a.kind = .select o i) :
    performAction a s = selectOutput o i s := by
  rw [performAction, h]

theorem performAction_remind {v : Half} (h : a.kind = .remind v) : performAction a s = .ok s [] := by
  rw [performAction, h]

end

/-! ### SELECT's checks (R59) -/

section
variable {s : State} {o : Fin 8}

theorem selectOutput_fixed {u : Use} (h : (s.out o).cfg.mode = .fixed u) (i : Option (Fin 4)) :
    selectOutput o i s = .refuse s .conflict := by
  rw [selectOutput, h]

variable {k : Fin 4} (hm : (s.out o).cfg.mode = .chain k)
include hm

theorem selectOutput_absent {j : Fin 4} (h : (s.chains.get k).entry j = none) : selectOutput o (some j) s = .refuse s .noSuch := by
  rw [selectOutput, hm]
  dsimp only
  rw [if_pos (by rw [h]; rfl)]

theorem selectOutput_present {i : Option (Fin 4)} (h : ∀ j, i = some j → (s.chains.get k).entry j ≠ none) :
    selectOutput o i s = .ok (selectDone o i s) (b1 (entryCode ((selectDone o i s).out o).pin)) := by
  rw [selectOutput, hm]
  dsimp only
  refine if_neg ?_
  cases i with
  | none => simp
  | some j => simpa using h j rfl

end

/-! ### TIME QUERY (R123) -/

theorem timeBytes_eq (s : State) : timeBytes s =
    b4 s.tick ++ b4 s.clk.mon.surveyNumber ++ b1 (rcoStateCode s.clk.src.rco.state) ++ b1 s.actions.length
      ++ (match s.actions with
        | [] => [0#8, 0#8, 0#8, 0#8, 0#8]
        | a :: _ => 1#8 :: b4 a.due) := by
  unfold timeBytes
  rw [List.append_assoc]
  cases s.actions <;> rfl

/-- Settles O55: the head fires when it is reached, and what it performs is the effect of the like request or event. -/
theorem tickAndActionFiring : Obligations.TickAndActionFiring := by
  refine ⟨fun s hrun => ⟨fun h => ?_, fun a rest h => ⟨fun hr => ?_, fun hr => ⟨actions_performed a rest s, rfl, fun hp => ?_,
      fun b hb => ?_, fun v hv => (Done.of_ok (performAction_remind _ hv)).symm⟩⟩⟩,
    fun s a => ⟨fun p h => Done.of_ok (performAction_enter s h), fun h => ?_, fun h => ⟨fun hb => ?_, fun lower p hb => ?_⟩,
      fun n o h => ⟨fun hc => ?_, fun hc => ?_⟩, fun n h => Done.of_ok (performAction_releaseEvery s h),
      fun o i h => ⟨fun u hm => ?_, fun k hm => ⟨fun j hi hj => ?_, fun hi => ?_⟩⟩,
      fun v h => (Done.of_ok (performAction_remind s h)).symm⟩,
    fun s tag => ⟨fun hrun => congrArg _ (whileRunning_eq hrun _), fun hrun => congrArg _ (whileRunning_idle hrun _),
      fun ht => accepted_of_ok ht rfl (congrArg (Done.ok s.hunt) (timeBytes_eq s.hunt))⟩⟩
  · rw [exec_actionFiring hrun, fireHead_empty h]
  · rw [exec_actionFiring hrun, fireHead_early h hr]
  · rw [exec_actionFiring hrun, fireHead_due h hr, fireAction_once hp]
    rfl
  · rw [exec_actionFiring hrun, fireHead_due h hr, fireAction_periodic hb]
    rfl
  · rw [performAction_wake s h]
    exact ⟨rfl, rfl⟩
  · exact Done.of_refuse ((performAction_resume s h).trans (resumeProfile_bottom _ hb))
  · exact Done.of_ok ((performAction_resume s h).trans (resumeProfile_below _ hb))
  · exact Done.of_refuse ((performAction_releaseOne s h).trans (releaseOne_absent (hasClaim_of_not_mem hc)))
  · rw [← dropClaim_eq]
    exact Done.of_ok ((performAction_releaseOne s h).trans (releaseOne_held (hasClaim_of_mem hc)))
  · exact Done.of_refuse ((performAction_select s h).trans (selectOutput_fixed hm i))
  · subst hi
    exact Done.of_refuse ((performAction_select s h).trans (selectOutput_absent hm hj))
  · exact Done.of_ok ((performAction_select s h).trans (selectOutput_present hm hi))

end Sys2Proof.Machine
end

section
/-! SUPPORT. When a due tick is reached, across the wrap of the timebase (R121). -/

namespace Sys2Proof.Machine

/-- Reaching a due tick is a matter of the ticks since the start alone. -/
theorem reached_shift (t n u : Tick) : reached (t + n) (t + u) = reached n u := by
  have hsub : t + n - (t + u) = n - u := by
    rw [← BitVec.sub_sub, BitVec.add_comm t n, BitVec.add_sub_cancel]
  rw [reached, reached, hsub]

/-- Counts below half of the timebase reach one another in their order. -/
theorem reached_ofNat {d k : Nat} (hd : d < 2 ^ 31) (hk : k < 2 ^ 31) :
    reached (BitVec.ofNat 32 k) (BitVec.ofNat 32 d) = true ↔ d ≤ k := by
  rw [reached, decide_eq_true_iff, BitVec.toNat_sub, BitVec.toNat_ofNat, BitVec.toNat_ofNat]
  omega

/-- Settles O25: the start tick cancels, and what is left compares two counts below half of the timebase. -/
theorem timersReachTheirDueTick : Obligations.TimersReachTheirDueTick := by
  intro t d k hd hk
  rw [dueIn, reached_shift, reached_ofNat hd hk]

end Sys2Proof.Machine
end

section
/-! SUPPORT. The place of an action in the list and the next due tick of a periodic one (R124, R129). -/

namespace Sys2Proof.Machine

/-! ### The place (R124) -/

theorem dueBefore_iff {u v : Tick} : dueBefore u v = true ↔ 1 ≤ (v - u).toNat ∧ (v - u).toNat < 2 ^ 31 := by
  rw [dueBefore, Bool.and_eq_true, decide_eq_true_iff, decide_eq_true_iff]

theorem staysAhead_iff {now u : Tick} {x : Action} : staysAhead now u x = true ↔
    reached now x.due = true ∨ (reached now u = false ∧ ¬ dueBefore u x.due = true) := by
  rw [staysAhead, Bool.or_eq_true, Bool.and_eq_true, Bool.not_eq_true', Bool.not_eq_true', Bool.not_eq_true]

/-- An action does not stay ahead: it lies ahead itself, and the new one is reached or due before it. -/
theorem not_staysAhead_iff {now u : Tick} {x : Action} : ¬ staysAhead now u x = true ↔
    reached now x.due = false ∧ (reached now u = true ∨ dueBefore u x.due = true) := by
  rw [staysAhead_iff, not_or, not_and_or, not_not, Bool.not_eq_true, Bool.not_eq_false]

/-- The new action goes in front of the first one that does not stay ahead of it. -/
theorem insertAction_eq (now : Tick) (a : Action) (l : List Action) : insertAction now a l =
    l.takeWhile (staysAhead now a.due) ++ a :: l.dropWhile (staysAhead now a.due) := by
  induction l with
  | nil => rfl
  | cons x xs ih =>
    rw [insertAction, List.takeWhile_cons, List.dropWhile_cons]
    split
    · rw [ih, List.cons_append]
    · rw [List.nil_append]

theorem not_staysAhead_of_head?_dropWhile {now u : Tick} {l : List Action} {x : Action}
    (h : (l.dropWhile (staysAhead now u)).head? = some x) : ¬ staysAhead now u x = true := by
  have hfirst := List.head?_dropWhile_not (staysAhead now u) l
  rw [h] at hfirst
  exact Bool.eq_false_iff.mp hfirst

/-! ### The next due tick (R129) -/

theorem nextOccurrence_periodic {now : Tick} {a : Action} {p : Nat} (h : a.period = some p) :
    nextOccurrence now a = some { a with due := dueIn a.due (additions now a.due p * p) } := by
  rw [nextOccurrence, h]
  rfl

/-- Moved on by `d` ticks, a due tick lies ahead by what `d` exceeds the ticks elapsed since it. -/
theorem dueIn_sub (now due : Tick) (d : Nat) : dueIn due d - now = BitVec.ofNat 32 d - (now - due) := by
  rw [dueIn]
  bv_omega

/-- The sum of the additions exceeds the elapsed ticks by 1 to one period. -/
theorem additions_mul_bounds (now due : Tick) {p : Nat} (hp : 0 < p) :
    (now - due).toNat + 1 ≤ additions now due p * p ∧ additions now due p * p ≤ (now - due).toNat + p := by
  have hdiv := Nat.div_add_mod' (now - due).toNat p
  have hmod := Nat.mod_lt (now - due).toNat hp
  rw [additions, Nat.succ_mul]
  omega

/-- A due tick that lies ahead by 1 to half of the timebase is not reached. -/
theorem reached_eq_false_of_ahead {now u : Tick} (h : 1 ≤ (u - now).toNat) (h' : (u - now).toNat ≤ 2 ^ 31) :
    reached now u = false := by
  have hflip : (now - u).toNat = 2 ^ 32 - (u - now).toNat := by bv_omega
  rw [reached, hflip, decide_eq_false_iff_not]
  omega

section
variable {now due : Tick} {p : Nat} (hp : 0 < p) (hp' : p ≤ 2 ^ 31) (hr : reached now due = true)
include hp hp' hr

/-- A due tick moved on by the additions lies ahead by what their sum exceeds the elapsed ticks, with no wrap. -/
theorem toNat_dueIn_additions_sub : (dueIn due (additions now due p * p) - now).toNat =
    additions now due p * p - (now - due).toNat := by
  have helapsed : (now - due).toNat < 2 ^ 31 := of_decide_eq_true hr
  obtain ⟨hmore, hless⟩ := additions_mul_bounds now due hp
  rw [dueIn_sub, BitVec.toNat_sub, BitVec.toNat_ofNat]
  omega

theorem dueIn_additions_ahead : 1 ≤ (dueIn due (additions now due p * p) - now).toNat
    ∧ (dueIn due (additions now due p * p) - now).toNat ≤ p := by
  obtain ⟨hmore, hless⟩ := additions_mul_bounds now due hp
  rw [toNat_dueIn_additions_sub hp hp' hr]
  omega

end

/-- Settles O54: the list is cut where the first action does not stay ahead; the additions are the fewest that reach past
the tick count. -/
theorem actionOrderAndPeriod : Obligations.ActionOrderAndPeriod := by
  refine ⟨fun now a l => ⟨l.takeWhile (staysAhead now a.due), l.dropWhile (staysAhead now a.due),
      List.takeWhile_append_dropWhile.symm, insertAction_eq now a l, fun x hx => ?_, fun x hx => ?_⟩,
    fun now a p hperiod hmin hmax hr => ?_⟩
  · rw [← dueBefore_iff]
    exact staysAhead_iff.mp (List.mem_takeWhile_imp hx)
  · rw [← dueBefore_iff]
    exact not_staysAhead_iff.mp (not_staysAhead_of_head?_dropWhile hx)
  · obtain ⟨hahead, hwithin⟩ := dueIn_additions_ahead (p := p) (by omega) (by omega) hr
    exact ⟨_, additions now a.due p, nextOccurrence_periodic hperiod, Nat.le_add_left .., rfl,
      reached_eq_false_of_ahead hahead (hwithin.trans (by omega)), hahead, hwithin, rfl, rfl, rfl, rfl⟩

end Sys2Proof.Machine
end

section
/-! SUPPORT. ACTION ADD, ACTION CANCEL and ACTION LIST: their checks in order and their answers (R125, R126, R130, R131). -/

namespace Sys2Proof.Machine

/-! ### ACTION ADD (R125, R126) -/

section
variable {r : ActionAddReq} {s : State}

theorem performActionAdd_badValue (h : actionOfReq s.tick r = none) : performActionAdd r s = .refuse s .badValue := by
  rw [performActionAdd, h]

variable {a : Action} (ha : actionOfReq s.tick r = some a)
include ha

theorem performActionAdd_duplicate (h : ∃ x ∈ s.actions, x.number = a.number) :
    performActionAdd r s = .refuse s .duplicate := by
  rw [performActionAdd, ha]
  exact if_pos (hasAction_iff.mpr (List.mem_map.mpr h))

variable (hnew : ∀ x ∈ s.actions, x.number ≠ a.number)
include hnew

/-- With a new number, what is left to check is the room. -/
theorem performActionAdd_new : performActionAdd r s = if 16 ≤ s.actions.length then .refuse s .full
    else .ok { s with actions := insertAction s.tick a s.actions } (b4 a.due ++ b1 (s.actions.length + 1)) := by
  have hfree : ¬ hasAction s.actions a.number = true := fun h => by
    obtain ⟨x, hx, hnumber⟩ := List.mem_map.mp (hasAction_iff.mp h)
    exact hnew x hx hnumber
  rw [performActionAdd, ha, ← length_insertAction s.tick a s.actions]
  exact if_neg hfree

theorem performActionAdd_full (hfull : 16 ≤ s.actions.length) : performActionAdd r s = .refuse s .full := by
  rw [performActionAdd_new ha hnew, if_pos hfull]

theorem performActionAdd_accepted (hroom : s.actions.length < 16) : performActionAdd r s =
    .ok { s with actions := insertAction s.tick a s.actions } (b4 a.due ++ b1 (s.actions.length + 1)) := by
  rw [performActionAdd_new ha hnew, if_neg (Nat.not_le.mpr hroom)]

end

/-! ### ACTION CANCEL (R130) -/

section
variable {n : Byte} {s : State}

theorem performActionCancel_zero (h : n = 0#8) : performActionCancel n s = .refuse s .badValue :=
  if_pos (congrArg BitVec.toNat h)

variable (hn : n ≠ 0#8)
include hn

theorem performActionCancel_noSuch (h : ∀ x ∈ s.actions, x.number ≠ n) : performActionCancel n s = .refuse s .noSuch := by
  have hnone : (s.actions.find? fun a => decide (a.number = n)) = none :=
    List.find?_eq_none.mpr fun x hx => by rw [decide_eq_true_iff]; exact h x hx
  have hnumber : n.toNat ≠ 0 := BitVec.toNat_ne_iff_ne.mpr hn
  rw [performActionCancel, if_neg hnumber, hnone]

theorem performActionCancel_removed {a : Action} (h : (s.actions.find? fun x => decide (x.number = n)) = some a) :
    performActionCancel n s = .ok { s with actions := s.actions.filter fun x => decide (x.number ≠ n) } (b4 a.due) := by
  have hnumber : n.toNat ≠ 0 := BitVec.toNat_ne_iff_ne.mpr hn
  rw [performActionCancel, if_neg hnumber, h]

end

/-! ### ACTION LIST (R131) -/

theorem performActionList_outOfRange {first : Byte} (h : 15 < first.toNat) (s : State) :
    performActionList first s = .refuse s .badValue := if_pos h

theorem performActionList_listed {first : Byte} (h : first.toNat ≤ 15) (s : State) : performActionList first s =
    .ok s (b4 s.tick ++ [BitVec.ofNat 8 s.actions.length, first, BitVec.ofNat 8 ((s.actions.drop first.toNat).take 8).length]
      ++ ((s.actions.drop first.toNat).take 8).flatMap actionBytes) := if_neg (Nat.not_lt.mpr h)

/-- Settles O53: the checks in their order; an accepted ACTION ADD and ACTION CANCEL change the list alone. -/
theorem actionRequests : Obligations.ActionRequests := by
  refine fun s tag ht => ⟨fun r => ⟨fun h => ?_, fun a ha => ⟨fun hold => ?_, fun hnew => ⟨fun hfull => ?_, fun hroom => ?_⟩⟩⟩,
    fun n => ⟨fun h => ?_, fun hn h => ?_, fun hn a h => ?_⟩, fun first => ⟨fun h => ?_, fun h => ?_⟩⟩
  · exact refuses_of_refuse ht rfl (performActionAdd_badValue (s := s.hunt) h)
  · exact refuses_of_refuse ht rfl (performActionAdd_duplicate (s := s.hunt) ha hold)
  · exact refuses_of_refuse ht rfl (performActionAdd_full (s := s.hunt) ha hnew hfull)
  · exact accepted_of_ok ht rfl (performActionAdd_accepted (s := s.hunt) ha hnew hroom)
  · exact refuses_of_refuse ht rfl (performActionCancel_zero h)
  · exact refuses_of_refuse ht rfl (performActionCancel_noSuch (s := s.hunt) hn h)
  · exact accepted_of_ok ht rfl (performActionCancel_removed (s := s.hunt) hn h)
  · exact refuses_of_refuse ht rfl (performActionList_outOfRange h s.hunt)
  · exact accepted_of_ok ht rfl (performActionList_listed h s.hunt)

end Sys2Proof.Machine
end

section
/-! PROOFS. The newest valid slot, the slot that SELECT chooses and the generation that a save takes (O28). -/

namespace Sys2Proof.Machine

/-! ### The newest valid slot (R138) -/

section
variable {r : Bank2 SlotRecord} {g h : Word} {p q : Fin 6} {x y : SlotReason}

theorem newestValid_second (ha : r.a = .valid g p) (hb : r.b = .valid h q) (hlt : g.toNat < h.toNat) :
    newestValid r = some (true, h) := by
  rw [newestValid, ha, hb]
  exact if_pos hlt

theorem newestValid_first (ha : r.a = .valid g p) (hb : r.b = .valid h q) (hle : h.toNat ≤ g.toNat) :
    newestValid r = some (false, g) := by
  rw [newestValid, ha, hb]
  exact if_neg (Nat.not_lt.mpr hle)

theorem newestValid_onlyFirst (ha : r.a = .valid g p) (hb : r.b = .invalid y) : newestValid r = some (false, g) := by
  rw [newestValid, ha, hb]

theorem newestValid_onlySecond (ha : r.a = .invalid x) (hb : r.b = .valid h q) : newestValid r = some (true, h) := by
  rw [newestValid, ha, hb]

theorem newestValid_neither (ha : r.a = .invalid x) (hb : r.b = .invalid y) : newestValid r = none := by
  rw [newestValid, ha, hb]

end

/-- The newest valid slot is valid, and no valid slot has a higher generation. -/
theorem newestValid_spec {r : Bank2 SlotRecord} {b : Bool} {g : Word} (hnew : newestValid r = some (b, g)) :
    (∃ p, r.get b = .valid g p) ∧ ∀ b' g' p', r.get b' = .valid g' p' → g'.toNat ≤ g.toNat := by
  rw [Bool.forall_bool]
  change _ ∧ (∀ g' p', r.a = .valid g' p' → _) ∧ ∀ g' p', r.b = .valid g' p' → _
  cases ha : r.a with
  | valid ga p =>
    cases hb : r.b with
    | valid gb q =>
      by_cases hlt : ga.toNat < gb.toNat
      · cases (newestValid_second ha hb hlt).symm.trans hnew
        exact ⟨⟨q, hb⟩, fun _ _ h => by cases h; exact hlt.le, fun _ _ h => by cases h; exact le_rfl⟩
      · have hle := Nat.le_of_not_lt hlt
        cases (newestValid_first ha hb hle).symm.trans hnew
        exact ⟨⟨p, ha⟩, fun _ _ h => by cases h; exact le_rfl, fun _ _ h => by cases h; exact hle⟩
    | invalid y =>
      cases (newestValid_onlyFirst ha hb).symm.trans hnew
      exact ⟨⟨p, ha⟩, fun _ _ h => by cases h; exact le_rfl, nofun⟩
  | invalid x =>
    cases hb : r.b with
    | valid gb q =>
      cases (newestValid_onlySecond ha hb).symm.trans hnew
      exact ⟨⟨q, hb⟩, nofun, fun _ _ h => by cases h; exact le_rfl⟩
    | invalid y => cases (newestValid_neither ha hb).symm.trans hnew

/-- With a valid slot there is a newest one. -/
theorem newestValid_ne_none {r : Bank2 SlotRecord} {b : Bool} {g : Word} {p : Fin 6} (h : r.get b = .valid g p) :
    newestValid r ≠ none := by
  intro hnone
  unfold newestValid at hnone
  split at hnone
  · split at hnone <;> cases hnone
  · cases hnone
  · cases hnone
  · rename_i x y ha hb
    cases b with
    | false => cases ha.symm.trans h
    | true => cases hb.symm.trans h

theorem chooseSlot_of_newest {r : Bank2 SlotRecord} {b : Bool} {g : Word} (h : newestValid r = some (b, g)) :
    chooseSlot r = .slot b g := by
  rw [chooseSlot, h]

theorem chooseSlot_of_none {r : Bank2 SlotRecord} (h : newestValid r = none) : chooseSlot r = .builtIn := by
  rw [chooseSlot, h]

theorem newestValid_of_chosen {r : Bank2 SlotRecord} {b : Bool} {g : Word} (h : chooseSlot r = .slot b g) :
    newestValid r = some (b, g) := by
  cases hnew : newestValid r with
  | none => cases (chooseSlot_of_none hnew).symm.trans h
  | some x =>
    obtain ⟨c, e⟩ := x
    cases (chooseSlot_of_newest hnew).symm.trans h
    rfl

/-! ### The generation that a save takes (R141) -/

/-- The generations are used up where a slot is valid with the last one. -/
theorem generationsUsedUp_iff {r : Bank2 SlotRecord} :
    generationsUsedUp r = true ↔ ∃ b p, r.get b = .valid 0xFFFFFFFF#32 p := by
  have hlast : ∀ x : SlotRecord, (match x with
      | .valid g _ => decide (g = 0xFFFFFFFF#32)
      | .invalid _ => false) = true ↔ ∃ p, x = .valid 0xFFFFFFFF#32 p := by
    intro x
    cases x <;> simp
  rw [Bool.exists_bool, generationsUsedUp, Bool.or_eq_true]
  exact or_congr (hlast _) (hlast _)

theorem saveTarget_of_newest {r : Bank2 SlotRecord} {b : Bool} {g : Word} (h : newestValid r = some (b, g)) :
    saveTarget r = (!b, g + 1#32) := by
  rw [saveTarget, h]

theorem saveTarget_of_none {r : Bank2 SlotRecord} (h : newestValid r = none) : saveTarget r = (false, 1#32) := by
  rw [saveTarget, h]

/-- The generation of a save is above every valid one. -/
theorem generation_lt_saveTarget {r : Bank2 SlotRecord} (hleft : generationsUsedUp r = false) {b : Bool} {g : Word} {p : Fin 6}
    (h : r.get b = .valid g p) : g.toNat < (saveTarget r).2.toNat := by
  obtain ⟨⟨c, n⟩, hnew⟩ := Option.ne_none_iff_exists'.mp (newestValid_ne_none h)
  obtain ⟨⟨q, hc⟩, hmax⟩ := newestValid_spec hnew
  have hlast : n ≠ 0xFFFFFFFF#32 := by
    rintro rfl
    exact Bool.false_ne_true (hleft.symm.trans (generationsUsedUp_iff.mpr ⟨c, q, hc⟩))
  have hnext : (n + 1#32).toNat = n.toNat + 1 := by bv_omega
  rw [saveTarget_of_newest hnew, hnext]
  exact Nat.lt_succ_of_le (hmax b g p h)

/-! ### The end of SELECT (R135, R136) -/

/-- The state with both slots judged, the newest valid one chosen, and APPLY entered. -/
def selected (s : State) : State :=
  { s with
    image := { s.image with records := judgedSlots s.startup.abandoned s.image }
    startup := { s.startup with
      state := .apply, chosen := some (chooseSlot (judgedSlots s.startup.abandoned s.image)), abandoned := none } }

section
variable {s : State} (h : s.startup.state = .select)
include h

theorem endSelect_warm (hw : s.startup.warm = true) : endSelect s = selected s := (if_pos h).trans (if_pos hw)

/-- After a cold start the chosen configuration is handed on with it. -/
theorem endSelect_cold (hw : s.startup.warm = false) :
    let c := chosenConfig (selected s).image (selected s).chosen
    endSelect s = applyCold c.1 c.2 (selected s) := (if_pos h).trans (if_neg (Bool.eq_false_iff.mp hw))

theorem image_endSelect : (endSelect s).image = (selected s).image := by
  cases hw : s.startup.warm with
  | true => rw [endSelect_warm h hw]
  | false => rw [endSelect_cold h hw]; rfl

theorem startup_endSelect : (endSelect s).startup = (selected s).startup := by
  cases hw : s.startup.warm with
  | true => rw [endSelect_warm h hw]
  | false => rw [endSelect_cold h hw]; rfl

end

/-- Settles O28: the chosen slot is the newest valid one (`newestValid_spec`), whose generation a save exceeds by one. -/
theorem newestValidSlotIsChosen : Obligations.NewestValidSlotIsChosen := by
  refine ⟨fun g h p q x y => ⟨fun hlt => ?_, fun hlt => ?_, ?_, ?_, ?_, ?_⟩, fun r b g hb => ?_,
    fun r hleft b g p hb => generation_lt_saveTarget hleft hb, fun s hs => ⟨endSelect s, rfl, ?_⟩⟩
  · exact chooseSlot_of_newest (newestValid_first rfl rfl hlt.le)
  · exact chooseSlot_of_newest (newestValid_second rfl rfl hlt)
  · exact chooseSlot_of_newest (newestValid_first rfl rfl le_rfl)
  · exact chooseSlot_of_newest (newestValid_onlyFirst rfl rfl)
  · exact chooseSlot_of_newest (newestValid_onlySecond rfl rfl)
  · exact chooseSlot_of_none (newestValid_neither rfl rfl)
  · exact newestValid_spec (newestValid_of_chosen hb)
  · rw [image_endSelect hs, startup_endSelect hs]
    rfl

end Sys2Proof.Machine
end

section
/-! PROOFS. IMAGE SAVE, IMAGE INFO and the phases of a save (O57). -/

namespace Sys2Proof.Machine

/-! ### IMAGE SAVE (R141) -/

section
variable {code : Byte} {s : State}

theorem performImageSave_noSuch (h : profileOfCode code = none) : performImageSave code s = .refuse s .noSuch := by
  rw [performImageSave, h]

variable {p : Fin 6} (hp : profileOfCode code = some p)
include hp

theorem performImageSave_busy (h : s.image.save ≠ none) : performImageSave code s = .refuse s .busy := by
  rw [performImageSave, hp]
  exact if_pos (Option.isSome_iff_ne_none.mpr h)

variable (hidle : s.image.save = none)
include hidle

theorem performImageSave_usedUp (h : generationsUsedUp s.image.records = true) :
    performImageSave code s = .refuse s .notPermitted := by
  rw [performImageSave, hp, hidle]
  exact if_pos h

theorem performImageSave_accepted (h : generationsUsedUp s.image.records = false) : performImageSave code s =
    ⟨{ s with image := beginSave s.image p (liveConfig s) }, .accepted,
      b1 (slotCode (saveTarget s.image.records).1) ++ b4 (saveTarget s.image.records).2⟩ := by
  rw [performImageSave, hp, hidle]
  exact if_neg (Bool.eq_false_iff.mp h)

end

theorem erasing_eq (c : SlotContents) : erasing c = if c = .erased then .erased else .unfinished := by
  cases c <;> rfl

/-! ### The phases of a save (R142) -/

section
variable {m : ImageStore} {v : Save} (hv : m.save = some v)
include hv

theorem endErase_ended (hp : v.phase = .erase) :
    endErase m = { m with contents := m.contents.set v.slot .unfinished, save := some { v with phase := .write } } := by
  obtain ⟨phase, b, g, p, c⟩ := v
  cases hp
  rw [endErase, hv]

theorem endErase_other (hp : v.phase ≠ .erase) : endErase m = m := by
  unfold endErase
  split
  · rename_i b g p c hs
    cases hv.symm.trans hs
    exact absurd rfl hp
  · rfl

theorem endWrite_ended (hp : v.phase = .write) : endWrite m = { m with
    contents := m.contents.set v.slot (.written (writtenImage v)), save := some { v with phase := .check } } := by
  obtain ⟨phase, b, g, p, c⟩ := v
  cases hp
  rw [endWrite, hv]

theorem endWrite_other (hp : v.phase ≠ .write) : endWrite m = m := by
  unfold endWrite
  split
  · rename_i b g p c hs
    cases hv.symm.trans hs
    exact absurd rfl hp
  · rfl

end

section
variable {s : State} {v : Save} (hv : s.image.save = some v) (good : Bool)
include hv

theorem endCheck_ended (hp : v.phase = .check) : endCheck good s =
    { s with image := if good then saveSucceeded s.image v else saveFailed s.image v }.post (savePosting good v) := by
  rw [endCheck, hv]
  exact if_pos hp

theorem endCheck_other (hp : v.phase ≠ .check) : endCheck good s = s := by
  rw [endCheck, hv]
  exact if_neg hp

end

/-- The subject of a save's notice is its slot (R173). -/
theorem slotCode_byte (b : Bool) : BitVec.ofNat 8 (slotCode b) = if b then 1#8 else 0#8 := by cases b <;> rfl

/-- An event of the running part by what it does before the end of the event. -/
theorem exec_running {i : Instr} {f : State → State} {s t : State} (hrun : s.startup.running = true)
    (hi : exec i s = .next (whileRunning f s)) (ht : f s = t) : exec i s = .next t.endEvent := by
  rw [hi, whileRunning_eq hrun, ht]

/-- A phase end that leaves the image store leaves the state. -/
theorem image_same {s : State} {m : ImageStore} (h : m = s.image) : ({ s with image := m } : State) = s := by
  rw [h]

/-- Settles O57: the checks of IMAGE SAVE in their order, and each phase's end with the running phase and with another. -/
theorem imageRequestsAndPhases : Obligations.ImageRequestsAndPhases := by
  refine ⟨fun s tag ht => ⟨?_, fun b h => ?_, fun b p hp => ⟨fun h => ?_, fun hidle h => ?_, fun hidle h => ⟨?_, fun x g hnew => ?_,
      fun hnone => ?_⟩⟩⟩,
    fun s v hrun hv => ⟨fun hp => ?_, fun hp => ?_, fun hp => ?_, fun hp => ?_, fun hp => ?_, fun hp => ?_, fun hp good => ?_⟩⟩
  · exact accepted_of_ok ht rfl rfl
  · exact refuses_of_refuse ht rfl (performImageSave_noSuch h)
  · exact refuses_of_refuse ht rfl (performImageSave_busy (s := s.hunt) hp h)
  · exact refuses_of_refuse ht rfl (performImageSave_usedUp (s := s.hunt) hp hidle (generationsUsedUp_iff.mpr h))
  · have hleft : generationsUsedUp s.image.records = false := Bool.eq_false_iff.mpr fun hlast =>
      have ⟨x, q, hx⟩ := generationsUsedUp_iff.mp hlast
      h x q hx
    change Host.Outcome.next (takeFrame tag 0x50#8 (performImageSave b) s) = _
    rw [takeFrame_answered ht, performImageSave_accepted (s := s.hunt) hp hidle hleft, ← erasing_eq]
    rfl
  · exact saveTarget_of_newest hnew
  · exact saveTarget_of_none hnone
  · exact exec_running hrun rfl (congrArg (fun m => { s with image := m }) (endErase_ended hv hp))
  · exact exec_running hrun rfl (image_same (endErase_other hv hp))
  · exact exec_running hrun rfl (congrArg (fun m => { s with image := m }) (endWrite_ended hv hp))
  · exact exec_running hrun rfl (image_same (endWrite_other hv hp))
  · refine exec_running hrun rfl ((endCheck_ended hv true hp).trans ?_)
    rw [← slotCode_byte]
    rfl
  · refine exec_running hrun rfl ((endCheck_ended hv false hp).trans ?_)
    rw [← slotCode_byte]
    rfl
  · exact exec_running hrun rfl (endCheck_other hv good hp)

end Sys2Proof.Machine
end

section
/-! PROOFS. Cold start, the end of POWERUP and SELECT (O58). -/

namespace Sys2Proof.Machine

/-! ### What a save that is cut off leaves (R143) -/

theorem cutSave_idle {s : State} (h : s.image.save = none) : cutSave s = s := by
  rw [cutSave, h]

/-- A slot that is cut off stays, or reads as erased where it was unfinished (log 23). -/
theorem cutContents_cases (readsErased : Bool) (c : SlotContents) :
    cutContents readsErased c = c ∨ (c = .unfinished ∧ cutContents readsErased c = .erased) := by
  unfold cutContents
  split
  · rename_i h
    rw [Bool.and_eq_true, decide_eq_true_iff] at h
    exact .inr ⟨h.1, rfl⟩
  · exact .inl rfl

section
variable {s : State} {v : Save} (hv : s.image.save = some v)
include hv

theorem contents_cutSave (b : Bool) : (cutSave s).image.contents.get b =
    if b = v.slot then cutContents (Config.freeReadsErased s.freeCount) (s.image.contents.get v.slot)
    else s.image.contents.get b := by
  rw [cutSave, hv]
  exact Bank2.get_set ..

theorem contents_cutSave_target : (cutSave s).image.contents.get v.slot = s.image.contents.get v.slot
    ∨ (s.image.contents.get v.slot = .unfinished ∧ (cutSave s).image.contents.get v.slot = .erased) := by
  rw [contents_cutSave hv, if_pos rfl]
  exact cutContents_cases _ _

theorem contents_cutSave_other : (cutSave s).image.contents.get (!v.slot) = s.image.contents.get (!v.slot) := by
  rw [contents_cutSave hv, if_neg (Bool.not_ne_self v.slot)]

end

/-! ### Cold start (R134) -/

/-- The clocks of a cold start, source by source and output by output (R20, R61). -/
theorem osc_cold (c : BoardConfig) (f : OutConfig → OutState) (o : Osc) :
    (Clocks.cold c f).src.osc.get o = .cold (c.osc.get o) := BankOsc.get_ofFn ..

theorem out_cold (c : BoardConfig) (f : OutConfig → OutState) (o : Fin 8) :
    (Clocks.cold c f).outs.get o = .cold (c.outs.get o) (f (c.outs.get o)) := Bank8.get_ofFn ..

/-- APPLY of a cold start leaves every source, output and line cold in the configuration (R20, R61, R97). -/
theorem cold_applyCold (c : BoardConfig) (p : Fin 6) (s : State) :
    (∀ o, (applyCold c p s).osc o = .cold (c.osc.get o))
    ∧ (∀ o, (applyCold c p s).out o = .cold (c.outs.get o) (if (c.outs.get o).enable then .parked else .off))
    ∧ ∀ l, (applyCold c p s).line l = .cold (c.lines.get l) :=
  ⟨osc_cold c _, out_cold c _, fun _ => Bank8.get_ofFn ..⟩

theorem gateOpen_cold (c : OutConfig) {st : OutState} (h : st = .off ∨ st = .parked) :
    (OutRec.cold c st).gateOpen = false := by
  rcases h with rfl | rfl <;> rfl

/-! ### The end of POWERUP (R134) -/

theorem endPowerup_released {s : State} (hs : s.startup.state = .powerup) (hr : s.startup.released = true) (b1 b0 : Bool) :
    endPowerup b1 b0 s = { s with
      link := { s.link with rate := BitVec.ofBool b1 ++ BitVec.ofBool b0 }
      startup := { s.startup with state := .select, warm := false } } :=
  if_pos (by rw [hs, hr]; rfl)

theorem endPowerup_early {s : State} (h : s.startup.state ≠ .powerup ∨ s.startup.released = false) (b1 b0 : Bool) :
    endPowerup b1 b0 s = s := by
  refine if_neg fun hend => ?_
  rw [Bool.and_eq_true, decide_eq_true_iff] at hend
  exact h.elim (fun hs => hs hend.1) fun hr => Bool.false_ne_true (hr.symm.trans hend.2)

/-! ### Slots judged (R137) -/

section
variable {i : StoredImage}

theorem judgeImage_format (h : i.format ≠ Config.formatCode ∨ i.generation = 0#32) : judgeImage i = .invalid .format := if_pos h

variable (hf : i.format = Config.formatCode) (hg : i.generation ≠ 0#32)
include hf hg

theorem judgeImage_crc (h : i.crc ≠ imageCrc i.format i.generation i.startProfile i.body) : judgeImage i = .invalid .crc :=
  (if_neg (not_or.mpr ⟨not_not.mpr hf, hg⟩)).trans (if_pos h)

theorem judgeImage_valid (h : i.crc = imageCrc i.format i.generation i.startProfile i.body) :
    judgeImage i = .valid i.generation i.startProfile :=
  (if_neg (not_or.mpr ⟨not_not.mpr hf, hg⟩)).trans (if_neg (not_not.mpr h))

end

theorem get_judgedSlots (a : Option Bool) (m : ImageStore) (b : Bool) :
    (judgedSlots a m).get b = judgeSlot (decide (a = some b)) (m.contents.get b) := by
  cases b <;> rfl

section
variable {a : Option Bool} {m : ImageStore} {b : Bool}

theorem judgedSlots_abandoned (h : a = some b) : (judgedSlots a m).get b = .invalid .abandoned := by
  rw [get_judgedSlots, h, decide_eq_true rfl]
  rfl

variable (h : a ≠ some b)
include h

theorem judgedSlots_erased (hc : m.contents.get b = .erased) : (judgedSlots a m).get b = .invalid .erased := by
  rw [get_judgedSlots, decide_eq_false h, hc]
  rfl

theorem judgedSlots_unfinished (hc : m.contents.get b = .unfinished) : (judgedSlots a m).get b = .invalid .format := by
  rw [get_judgedSlots, decide_eq_false h, hc]
  rfl

theorem judgedSlots_written {i : StoredImage} (hc : m.contents.get b = .written i) : (judgedSlots a m).get b = judgeImage i := by
  rw [get_judgedSlots, decide_eq_false h, hc]
  rfl

end

/-- SELECT leaves the records of the slots as it has judged them. -/
theorem record_endSelect {s : State} (hs : s.startup.state = .select) (b : Bool) :
    (endSelect s).image.records.get b = (judgedSlots s.startup.abandoned s.image).get b := by
  rw [image_endSelect hs]
  rfl

/-- Settles O58: a cold start writes cold records and keeps the slots but for a save's own (`contents_cutSave`); SELECT judges each slot
by its contents (`get_judgedSlots`). -/
theorem startUpEvents : Obligations.StartUpEvents := by
  refine fun s => ⟨fun supply => ⟨coldStart supply s, rfl, rfl, rfl, rfl, rfl, rfl, rfl, rfl, rfl, rfl, rfl, rfl, rfl,
      fun h => ?_, fun v hv => ⟨contents_cutSave_other hv, contents_cutSave_target hv⟩, rfl, rfl, fun o => ?_, fun o => ?_, rfl⟩,
    fun h => ?_, fun h => ?_, fun b1 b0 hs hr => ?_, fun b1 b0 h => ?_,
    fun hs => ⟨endSelect s, rfl, ?_, ?_, fun b => ⟨fun ha => ?_, fun ha => ⟨fun hc => ?_, fun hc => ?_, fun i hc => ⟨fun hf => ?_,
      fun hf hg => ⟨fun h => ?_, fun h => ?_⟩⟩⟩⟩, fun hw => ?_, fun hw => ?_⟩,
    fun h => ?_, fun pins h => ?_⟩
  · change (cutSave s).image.contents = _
    rw [cutSave_idle h]
  · exact ⟨congrArg OscRec.state (osc_cold ..), congrArg OscRec.timer (osc_cold ..)⟩
  · exact congrArg OutRec.gateOpen (out_cold ..)
  · exact congrArg Host.Outcome.next (if_pos h)
  · exact congrArg Host.Outcome.next (if_neg h)
  · exact congrArg Host.Outcome.next (endPowerup_released hs hr b1 b0)
  · exact congrArg Host.Outcome.next (endPowerup_early h b1 b0)
  · rw [startup_endSelect hs]; rfl
  · rw [image_endSelect hs]; rfl
  · exact (record_endSelect hs b).trans (judgedSlots_abandoned ha)
  · exact (record_endSelect hs b).trans (judgedSlots_erased ha hc)
  · exact (record_endSelect hs b).trans (judgedSlots_unfinished ha hc)
  · exact (record_endSelect hs b).trans ((judgedSlots_written ha hc).trans (judgeImage_format hf))
  · exact (record_endSelect hs b).trans ((judgedSlots_written ha hc).trans (judgeImage_crc hf hg h))
  · exact (record_endSelect hs b).trans ((judgedSlots_written ha hc).trans (judgeImage_valid hf hg h))
  · rw [endSelect_cold hs hw]
    obtain ⟨hosc, hout, hline⟩ := cold_applyCold (chosenConfig (selected s).image (selected s).chosen).1
      (chosenConfig (selected s).image (selected s).chosen).2 (selected s)
    refine ⟨fun o => ?_, fun o => ?_, rfl, fun l => ?_, rfl, rfl, rfl, rfl, rfl⟩
    · rw [hosc]; exact ⟨rfl, rfl, rfl⟩
    · rw [hout]; exact ⟨rfl, gateOpen_cold _ ((ite_eq_or_eq ..).symm)⟩
    · rw [hline]; rfl
  · rw [endSelect_warm hs hw]
    exact ⟨rfl, rfl, rfl, rfl⟩
  · exact congrArg Host.Outcome.next (if_neg h)
  · exact congrArg Host.Outcome.next (if_neg h)

end Sys2Proof.Machine
end

section
/-! SUPPORT. Commands that leave the start-up controller and the image store alone (`SameStore`), request by request, and what events do of it. -/

namespace Sys2Proof.Machine

/-- Start-up controller and image store are the same. -/
structure SameStore (s t : State) : Prop where
  startup : t.startup = s.startup
  image : t.image = s.image

theorem SameStore.refl (s : State) : SameStore s s := ⟨rfl, rfl⟩

theorem SameStore.trans {s t u : State} (h : SameStore s t) (g : SameStore t u) : SameStore s u :=
  ⟨g.startup.trans h.startup, g.image.trans h.image⟩

/-- An event's course moves sources and outputs alone. -/
theorem SameStore.runEvent {s s0 s' : State} {cause : Cause} {f : Env → Ev → Ev} (hu : s'.startup = s.startup)
    (hi : s'.image = s.image) : SameStore s (runEvent cause s0 s' f) :=
  ⟨(startup_runEvent ..).trans hu, (image_runEvent ..).trans hi⟩

theorem SameStore.reevaluate {s s0 s' : State} {cause : Cause} (hu : s'.startup = s.startup)
    (hi : s'.image = s.image) : SameStore s (reevaluate cause s0 s') := .runEvent hu hi

/-- An event that the state may not give. -/
theorem SameStore.ite {s t : State} {p : Prop} [Decidable p] (h : SameStore s t) : SameStore s (if p then t else s) := by
  split
  · exact h
  · exact .refl s

/-- A check that may refuse the request. -/
theorem SameStore.unless {s : State} {st : Status} {d : Done} {p : Prop} [Decidable p] (h : SameStore s d.state) :
    SameStore s (if p then Done.refuse s st else d).state := by
  split
  · exact .refl s
  · exact h

/-- A request that only answers. -/
theorem SameStore.answer {p : State → Done} {s : State} (h : (p s).state = s) : SameStore s (p s).state := by
  rw [h]; exact .refl s

theorem sameStore_endEvent (s : State) : SameStore s s.endEvent := ⟨State.startup_endEvent s, State.image_endEvent s⟩

theorem sameStore_testSettled (s : State) : SameStore s s.testSettled := ⟨State.startup_testSettled s, State.image_testSettled s⟩

section
variable (s : State)

/-! ### Requests on sources, monitor, outputs and chains -/

theorem sameStore_sourceSet (r : SourceSetReq) : SameStore s (performSourceSet r s).state := by
  unfold performSourceSet
  split
  · exact .refl s
  · exact .refl s
  · refine .unless (.unless (.unless ?_))
    rw [Done.state_ok]
    exact .runEvent rfl rfl

theorem sameStore_sourceKeep (x f : Byte) : SameStore s (performSourceKeep x f s).state := by
  unfold performSourceKeep
  split
  · exact .refl s
  · exact .refl s
  · split
    · exact .refl s
    · exact .reevaluate rfl rfl

theorem sameStore_clearSource (o : Osc) : SameStore s (clearSource o s) := by
  unfold clearSource
  dsimp only
  split
  · exact .runEvent rfl rfl
  · exact .runEvent rfl rfl
  · exact ⟨rfl, rfl⟩

theorem sameStore_sourceClear (x : Byte) : SameStore s (performSourceClear x s).state := by
  unfold performSourceClear
  split
  · exact .refl s
  · exact .ite (.runEvent rfl rfl)
  · exact sameStore_clearSource s _

theorem sameStore_outputSet (r : OutputSetReq) : SameStore s (performOutputSet r s).state := by
  unfold performOutputSet
  split
  · exact .refl s
  · split
    · exact .refl s
    · exact .unless (.reevaluate rfl rfl)

theorem sameStore_selectOutput (o : Fin 8) (entry : Option (Fin 4)) : SameStore s (selectOutput o entry s).state := by
  unfold selectOutput
  split
  · exact .refl s
  · exact .unless (.reevaluate rfl rfl)

theorem sameStore_outputSelect (x i : Byte) : SameStore s (performOutputSelect x i s).state := by
  unfold performOutputSelect
  split
  · exact .refl s
  · split
    · exact .refl s
    · split
      · exact .refl s
      · exact sameStore_selectOutput s _ _

theorem sameStore_outputQuery (x : Byte) : SameStore s (performOutputQuery x s).state := by
  unfold performOutputQuery
  split
  · exact .refl s
  · split
    · exact .refl s
    · exact ⟨rfl, rfl⟩

theorem sameStore_chainSet (r : ChainSetReq) : SameStore s (performChainSet r s).state := by
  unfold performChainSet
  split
  · exact .refl s
  · split
    · exact .refl s
    · split
      · exact .refl s
      · refine .unless (.unless ?_)
        rw [Done.state_ok]
        exact .runEvent rfl rfl

/-! ### Requests on claims and lines -/

theorem sameStore_claim (r : ClaimReq) : SameStore s (performClaim r s).state := by
  unfold performClaim
  split
  · exact .refl s
  · exact .refl s
  · split
    · exact .refl s
    · split
      · exact .refl s
      · exact .unless (.reevaluate rfl rfl)

theorem sameStore_releaseOne (n : Byte) (o : Fin 8) : SameStore s (releaseOne n o s).state := by
  unfold releaseOne
  split
  · exact .reevaluate rfl rfl
  · exact .refl s

theorem sameStore_releaseEvery (n : Byte) : SameStore s (releaseEvery n s).state := .reevaluate rfl rfl

theorem sameStore_release (c : Half) (x : Byte) : SameStore s (performRelease c x s).state := by
  unfold performRelease
  split
  · exact .refl s
  · exact .refl s
  · split
    · exact .refl s
    · exact sameStore_releaseOne s _ _

theorem sameStore_releaseAll (c : Half) : SameStore s (performReleaseAll c s).state := by
  unfold performReleaseAll
  split
  · exact .refl s
  · exact .refl s
  · exact sameStore_releaseEvery s _

theorem sameStore_lineOff (l : Fin 8) : SameStore s (lineOff l s) := by
  unfold lineOff
  dsimp only
  split <;> exact ⟨rfl, rfl⟩

theorem sameStore_remapLine (l : Fin 8) (was : Bool) : SameStore s (remapLine l was s) := by
  unfold remapLine
  dsimp only
  split
  · exact ⟨rfl, rfl⟩
  · refine SameStore.trans ?_ (sameStore_lineOff _ l)
    exact ⟨rfl, rfl⟩
  · exact ⟨rfl, rfl⟩
  · exact ⟨rfl, rfl⟩

theorem sameStore_lineMapSet (r : LineMapReq) : SameStore s (performLineMapSet r s).state := by
  unfold performLineMapSet
  split
  · exact .refl s
  · split
    · exact .refl s
    · refine .unless (.unless ?_)
      refine SameStore.trans (SameStore.trans ?_ (sameStore_remapLine _ _ _)) (.reevaluate rfl rfl)
      exact ⟨rfl, rfl⟩

/-! ### Requests on profiles, actions and notices -/

theorem sameStore_changeStack (c : TransitionCause) (k : Stack) : SameStore s (changeStack c k s) := by
  unfold changeStack
  split
  · exact ⟨rfl, rfl⟩
  · exact .reevaluate rfl rfl

theorem sameStore_wakeEvent (c : WakeCause) : SameStore s (wakeEvent c s) := by
  refine SameStore.trans (t := s.post (wakePosting c s)) ?_ (sameStore_changeStack _ _ _)
  exact ⟨rfl, rfl⟩

theorem sameStore_offerWake (c : WakeCause) : SameStore s (offerWake c s) := .ite (sameStore_wakeEvent s c)

theorem sameStore_profileSet (r : ProfileSetReq) : SameStore s (performProfileSet r s).state := by
  unfold performProfileSet
  split
  · exact .refl s
  · split
    · exact .refl s
    · dsimp only
      rw [Done.state_ok]
      split
      · exact .reevaluate rfl rfl
      · exact ⟨rfl, rfl⟩

theorem sameStore_profileEnter (x : Byte) : SameStore s (performProfileEnter x s).state := by
  unfold performProfileEnter
  split
  · exact .refl s
  · exact sameStore_changeStack s _ _

theorem sameStore_resumeProfile (c : TransitionCause) : SameStore s (resumeProfile c s).state := by
  unfold resumeProfile
  split
  · exact .refl s
  · exact sameStore_changeStack s _ _

theorem sameStore_resumeTarget (x : Byte) : SameStore s (performResumeTarget x s).state := by
  unfold performResumeTarget
  split
  · exact .refl s
  · exact .unless ⟨rfl, rfl⟩

theorem sameStore_actionAdd (r : ActionAddReq) : SameStore s (performActionAdd r s).state := by
  unfold performActionAdd
  split
  · exact .refl s
  · exact .unless (.unless ⟨rfl, rfl⟩)

theorem sameStore_actionCancel (n : Byte) : SameStore s (performActionCancel n s).state := by
  refine .unless ?_
  split
  · exact .refl s
  · exact ⟨rfl, rfl⟩

theorem sameStore_noticeAck (n : Half) : SameStore s (performNoticeAck n s).state := by
  unfold performNoticeAck
  split
  · exact .refl s
  · split
    · exact .refl s
    · exact ⟨rfl, rfl⟩

/-- Every request but IMAGE SAVE. -/
theorem sameStore_request {r : Request} (h : ∀ x, r ≠ .imageSave x) : SameStore s (performRequest r s).state := by
  cases r with
  | identify => exact .refl s
  | echo b => exact .answer (p := performEcho b) (by unfold performEcho; split <;> rfl)
  | restart => exact ⟨rfl, rfl⟩
  | sourceSet r => exact sameStore_sourceSet s r
  | sourceQuery x => exact .answer (p := performSourceQuery x) (by unfold performSourceQuery; split <;> rfl)
  | sourceKeep x f => exact sameStore_sourceKeep s x f
  | sourceClear x => exact sameStore_sourceClear s x
  | monitorSet r => exact .unless ⟨rfl, rfl⟩
  | monitorQuery => exact .refl s
  | outputSet r => exact sameStore_outputSet s r
  | outputQuery x => exact sameStore_outputQuery s x
  | outputSelect x i => exact sameStore_outputSelect s x i
  | chainSet r => exact sameStore_chainSet s r
  | chainQuery x => exact .answer (p := performChainQuery x) (by unfold performChainQuery; split <;> rfl)
  | claim r => exact sameStore_claim s r
  | release c x => exact sameStore_release s c x
  | releaseAll c => exact sameStore_releaseAll s c
  | claimList f => exact .unless (.refl s)
  | lineMapSet r => exact sameStore_lineMapSet s r
  | lineQuery x => exact .answer (p := performLineQuery x) (by unfold performLineQuery; split <;> rfl)
  | profileSet r => exact sameStore_profileSet s r
  | profileQuery x => exact .answer (p := performProfileQuery x) (by unfold performProfileQuery; split <;> rfl)
  | profileEnter x => exact sameStore_profileEnter s x
  | resume => exact sameStore_resumeProfile s _
  | resumeTarget x => exact sameStore_resumeTarget s x
  | stackQuery => exact .refl s
  | timeQuery => exact .refl s
  | actionAdd r => exact sameStore_actionAdd s r
  | actionCancel n => exact sameStore_actionCancel s n
  | actionList f => exact .unless (.refl s)
  | noticeAck n => exact sameStore_noticeAck s n
  | noticeResend => exact ⟨rfl, rfl⟩
  | noticeFilter f => exact .unless ⟨rfl, rfl⟩
  | imageSave x => exact absurd rfl (h x)
  | imageInfo => exact .refl s

/-! ### Events of the running part -/

theorem sameStore_performAction (a : Action) : SameStore s (performAction a s).state := by
  unfold performAction
  split
  · exact sameStore_changeStack s _ _
  · exact sameStore_wakeEvent s _
  · exact sameStore_resumeProfile s _
  · exact sameStore_releaseEvery s _
  · exact sameStore_releaseOne s _ _
  · exact sameStore_selectOutput s _ _
  · exact .refl s

theorem sameStore_settleAction (a : Action) : SameStore s (settleAction a s) := by
  unfold settleAction
  split
  · exact sameStore_testSettled s
  · exact sameStore_testSettled s
  · exact .refl s

theorem sameStore_fireHead : SameStore s (fireHead s) := by
  unfold fireHead
  split
  · exact .refl s
  · rename_i a rest _
    have hdone : SameStore { s with actions := rest } (performed a rest s) :=
      (sameStore_performAction { s with actions := rest } a).trans (sameStore_settleAction _ a)
    exact .ite ⟨hdone.startup, hdone.image⟩

theorem sameStore_expireRevert (o : Fin 8) : SameStore s (expireRevert o s) := by
  unfold expireRevert
  split
  · split
    · exact .refl s
    · split
      · exact ⟨rfl, rfl⟩
      · exact .reevaluate rfl rfl
  · exact .refl s

theorem sameStore_expireLease (n : Byte) (o : Fin 8) : SameStore s (expireLease n o s) := by
  unfold expireLease
  split
  · exact .ite (.reevaluate rfl rfl)
  · exact .refl s

theorem sameStore_activateLine (l : Fin 8) : SameStore s (activateLine l s) := by
  unfold activateLine
  split
  · exact .refl s
  · refine SameStore.trans (SameStore.trans ?_ (sameStore_testSettled _)) (sameStore_offerWake _ _)
    exact .reevaluate rfl rfl

theorem sameStore_deactivateLine (l : Fin 8) : SameStore s (deactivateLine l s) := by
  refine .ite (SameStore.trans (SameStore.trans ?_ (sameStore_lineOff _ l)) (.reevaluate rfl rfl))
  exact ⟨rfl, rfl⟩

end

end Sys2Proof.Machine
end

section
/-! PROOFS. Every step keeps the save in flight one that R141 and R142 allow (O19). -/

namespace Sys2Proof.Machine

theorem SameStore.saveOk {s t : State} (h : SameStore s t) (hs : saveOk s) : Machine.saveOk t := by
  unfold Machine.saveOk
  rw [h.startup, h.image]
  exact hs

/-- With no save in flight there is nothing to keep. -/
theorem saveOk_idle {s : State} (h : s.image.save = none) : saveOk s := fun _ hv => nomatch h.symm.trans hv

/-- Outside LIVE no save is in flight. -/
theorem idle_of_not_live {s : State} (h : saveOk s) (hl : s.startup.state ≠ .live) : s.image.save = none :=
  Option.eq_none_iff_forall_ne_some.mpr fun v hv => hl (h v hv).1

/-! ### IMAGE SAVE (R141) -/

/-- With the target INVALID, the slots that stay valid are the other one, below the generation that a save takes. -/
theorem newest_below_target {r : Bank2 SlotRecord} (hleft : generationsUsedUp r = false) {b : Bool} {g : Word} {x : SlotReason}
    (h : newestValid (r.set (saveTarget r).1 (.invalid x)) = some (b, g)) :
    b ≠ (saveTarget r).1 ∧ g.toNat < (saveTarget r).2.toNat := by
  obtain ⟨⟨p, hp⟩, -⟩ := newestValid_spec h
  rw [Bank2.get_set] at hp
  split at hp
  · cases hp
  · rename_i hb
    exact ⟨hb, generation_lt_saveTarget hleft hp⟩

theorem saveOk_imageSave {s : State} (hl : s.isLive = true) (h : saveOk s) (x : Byte) : saveOk (performImageSave x s).state := by
  unfold performImageSave
  split
  · exact h
  · split
    · exact h
    · split
      · exact h
      · rename_i hleft
        intro v hv
        cases hv
        exact ⟨of_decide_eq_true hl, (Bank2.get_set ..).trans (if_pos rfl),
          fun b g hnew => newest_below_target (Bool.eq_false_iff.mpr hleft) hnew⟩

theorem saveOk_request {s : State} (hl : s.isLive = true) (h : saveOk s) (r : Request) : saveOk (performRequest r s).state := by
  by_cases hr : ∃ x, r = .imageSave x
  · obtain ⟨x, rfl⟩ := hr
    exact saveOk_imageSave hl h x
  · exact (sameStore_request s fun x hx => hr ⟨x, hx⟩).saveOk h

/-! ### What ends a save, and what starts none -/

/-- A warm restart leaves no save in flight (R143). -/
theorem save_abandonSave (m : ImageStore) : (abandonSave m).save = none := by
  unfold abandonSave
  split
  · rfl
  · rename_i hv
    exact hv

theorem image_reachLive (pins : Byte) (s : State) : (reachLive pins s).image = s.image := by
  unfold reachLive
  split
  · rw [State.image_endEvent]
    split
    · rw [liveWarm_eq, image_runEvent]
      rfl
    · rw [liveCold_eq, image_reevaluate, coldReady_eq]
  · rfl

/-! ### Events of the running part (R142, R143) -/

section
variable {s : State} (h : saveOk s)
include h

/-- The save in flight moves on to its next phase. -/
theorem saveOk_nextPhase {v : Save} (hv : s.image.save = some v) (c : Bank2 SlotContents) (p : SavePhase) :
    saveOk { s with image := { s.image with contents := c, save := some { v with phase := p } } } := by
  intro w hw
  cases hw
  exact h v hv

theorem saveOk_endErase : saveOk { s with image := endErase s.image } := by
  unfold endErase
  split
  · rename_i hv
    exact saveOk_nextPhase h hv _ .write
  · exact h

theorem saveOk_endWrite : saveOk { s with image := endWrite s.image } := by
  unfold endWrite
  split
  · rename_i hv
    exact saveOk_nextPhase h hv _ .check
  · exact h

/-- A CHECK that ends leaves no save, whatever its outcome. -/
theorem saveOk_endCheck (good : Bool) : saveOk (endCheck good s) := by
  unfold endCheck
  split
  · split
    · exact saveOk_idle (by cases good <;> rfl)
    · exact h
  · exact h

theorem saveOk_endFrame : saveOk (endFrame s) := by
  unfold endFrame
  split
  · exact h
  · dsimp only
    split
    · exact saveOk_idle (save_abandonSave _)
    · exact h

/-- Every event of the running part; a character received is a step of its own. -/
theorem saveOk_event {i : Instr} {f : State → State} (hf : eventBody i = some f)
    (hc : ∀ c b, i ≠ .characterReceived c b) : saveOk (f s) := by
  cases i <;> cases hf
  case characterReceived c b => exact absurd rfl (hc c b)
  case gap => exact SameStore.saveOk (.ite ⟨rfl, rfl⟩) h
  case linkBreak => exact h
  case frameSent => exact saveOk_endFrame h
  case startDetection o => exact SameStore.saveOk (.ite (.runEvent rfl rfl)) h
  case startTimerExpiry o => exact SameStore.saveOk (.ite (.runEvent rfl rfl)) h
  case lockDetection => exact SameStore.saveOk (.ite (.runEvent rfl rfl)) h
  case lockTimerExpiry => exact SameStore.saveOk (.ite (.runEvent rfl rfl)) h
  case quarantineExpiry o => exact SameStore.saveOk (.ite (.runEvent rfl rfl)) h
  case rehabilitationExpiry o => exact SameStore.saveOk (.ite ⟨rfl, rfl⟩) h
  case surveyCompletion => exact (SameStore.runEvent rfl rfl).saveOk h
  case releaseEnd o => exact SameStore.saveOk (.ite (.runEvent rfl rfl)) h
  case releaseTimeout o => exact SameStore.saveOk (.ite (.runEvent rfl rfl)) h
  case acquireEnd o => exact SameStore.saveOk (.ite (.runEvent rfl rfl)) h
  case acquireTimeout o => exact SameStore.saveOk (.ite (.runEvent rfl rfl)) h
  case dividerChange o => exact h
  case revertTimerExpiry o => exact (sameStore_expireRevert s o).saveOk h
  case leaseExpiry n o => exact (sameStore_expireLease s n o).saveOk h
  case lineActivation l => exact (sameStore_activateLine s l).saveOk h
  case lineDeactivation l => exact (sameStore_deactivateLine s l).saveOk h
  case holdExpiry l => exact SameStore.saveOk (.ite (.reevaluate rfl rfl)) h
  case wakePinEdge => exact (sameStore_offerWake s _).saveOk h
  case tick => exact h
  case actionFiring => exact (sameStore_fireHead s).saveOk h
  case eraseComplete => exact saveOk_endErase h
  case writeComplete => exact saveOk_endWrite h
  case checkComplete good => exact saveOk_endCheck h good

/-! ### Start-up events (R134, R135) -/

/-- A start-up event in its state outside LIVE, where no save is in flight, begins none. -/
theorem saveOk_outside {t : State} {st : StartState} (hs : s.startup.state = st) (hst : st ≠ .live)
    (hi : t.image.save = s.image.save) : saveOk t :=
  saveOk_idle (hi.trans (idle_of_not_live h (by rw [hs]; exact hst)))

theorem saveOk_start {i : Instr} {f : State → State} (hf : startBody i = some f) : saveOk (f s) := by
  cases i <;> cases hf
  case coldStart supply => exact saveOk_idle rfl
  case resetRelease =>
    unfold releaseReset
    split
    · rename_i hs; exact saveOk_outside h hs (by decide) rfl
    · exact h
  case powerupEnd b1 b0 =>
    unfold endPowerup
    split
    · rename_i hs
      rw [Bool.and_eq_true, decide_eq_true_iff] at hs
      exact saveOk_outside h hs.1 (by decide) rfl
    · exact h
  case selectDone =>
    by_cases hs : s.startup.state = .select
    · exact saveOk_outside h hs (by decide) (by rw [image_endSelect hs]; rfl)
    · rw [show endSelect s = s from if_neg hs]
      exact h
  case live pins =>
    by_cases hs : s.startup.state = .apply
    · exact saveOk_outside h hs (by decide) (by rw [image_reachLive])
    · rw [show reachLive pins s = s from if_neg hs]
      exact h

end

/-- Settles O19: IMAGE SAVE begins a save as R141 has it (`newest_below_target`), a phase that ends moves the save on or ends it, the
restarts end it, and all else leaves image store and start-up controller alone (`SameStore`). -/
theorem stepKeepsSave : Obligations.StepKeepsSave := fun _ _ h hs =>
  step_keeps (P := saveOk) (fun _ _ h => h) (fun _ _ h => h) (fun s h => (sameStore_endEvent s).saveOk h)
    (fun r _ hl h => saveOk_request hl h r) (fun _ _ _ hf hc _ h => saveOk_event h hf hc)
    (fun _ _ _ hf h => saveOk_start h hf) h hs

end Sys2Proof.Machine
end

section
/-! PROOFS. IDENTIFY, RESTART and a frame of no request kind (O31). -/

namespace Sys2Proof.Machine

/-- The request kinds by their numbers. -/
theorem toNat_ne_of_not_request {kind : Byte} {n : Nat} (h : kind ∉ requestKinds) (hn : BitVec.ofNat 8 n ∈ requestKinds) :
    kind.toNat ≠ n := by
  rintro rfl
  rw [BitVec.ofNat_toNat, BitVec.setWidth_eq] at hn
  exact h hn

/-- Only the request kinds name a request (section 11.3). -/
theorem parseRequest_unknownKind {kind : Byte} (h : kind ∉ requestKinds) (body : List Byte) :
    parseRequest kind body = .unknownKind := by
  unfold parseRequest
  split
  case h_36 => rfl
  all_goals
    rename_i hkind
    exact absurd hkind (toNat_ne_of_not_request h (by decide))

theorem performFrame_unknownKind {kind : Byte} (h : kind ∉ requestKinds) (body : List Byte) (s : State) :
    performFrame kind body s = .refuse s .unknownKind := by
  rw [performFrame, parseRequest_unknownKind h]

/-- Settles O31: IDENTIFY and RESTART are always accepted, and no kind outside `requestKinds` is parsed. -/
theorem linkRequests : Obligations.LinkRequests := by
  refine fun s tag ht => ⟨?_, ?_, fun kind hk => ?_⟩
  · exact accepted_of_ok ht rfl rfl
  · exact accepted_of_ok ht rfl rfl
  · exact refuses_of_refuse ht rfl (performFrame_unknownKind hk [] s.hunt)

end Sys2Proof.Machine
end

section
/-! SUPPORT. An event that has ended is at its end: the settling test and the transmitter find nothing more to do. -/

namespace Sys2Proof.Machine

/-- After the settling test nothing is settling, or some output still moves. -/
theorem testSettled_tested (s : State) :
    s.testSettled.settling = none ∨ s.testSettled.clk.outs.toList.any OutRec.moving = true := by
  rw [State.clk_testSettled]
  unfold State.testSettled
  split
  · rename_i h
    exact .inl h
  · split
    · rename_i h
      exact .inr h
    · exact .inl rfl

theorem testSettled_of_tested {s : State} (h : s.settling = none ∨ s.clk.outs.toList.any OutRec.moving = true) :
    s.testSettled = s := by
  unfold State.testSettled
  split
  · rfl
  · rename_i g hg
    rcases h with h | h
    · cases hg.symm.trans h
    · exact if_pos h

/-- The transmitter begins at most one frame. -/
theorem State.transmit_transmit (s : State) : s.transmit.transmit = s.transmit := by
  by_cases hlive : s.isLive = true
  · cases hltx : s.link.onLtx with
    | some f => rw [State.transmit_busy (s := s) (by rw [hltx]; rfl), State.transmit_busy (by rw [hltx]; rfl)]
    | none =>
      cases hq : s.link.queued with
      | cons r rs =>
        rw [State.transmit_reply hlive hltx hq]
        exact State.transmit_busy rfl
      | nil =>
        cases hn : takeUnsent s.notices.records with
        | none => rw [State.transmit_nothing hlive hltx hq hn, State.transmit_nothing hlive hltx hq hn]
        | some x =>
          rw [State.transmit_notice hlive hltx hq hn]
          exact State.transmit_busy rfl
  · have hstop := State.transmit_notLive (Bool.eq_false_iff.mpr hlive)
    rw [hstop, hstop]

theorem State.endEvent_endEvent (s : State) : s.endEvent.endEvent = s.endEvent := by
  have htested : s.testSettled.transmit.testSettled = s.testSettled.transmit :=
    testSettled_of_tested (by rw [State.settling_transmit, State.clk_transmit]; exact testSettled_tested s)
  unfold State.endEvent
  rw [htested, State.transmit_transmit]

/-- Outside LIVE the end of an event leaves the link. -/
theorem State.link_endEvent_notLive {s : State} (h : s.isLive = false) : s.endEvent.link = s.link := by
  have hstop : s.testSettled.isLive = false := by rw [State.isLive, State.startup_testSettled]; exact h
  rw [State.endEvent, State.transmit_notLive hstop, State.link_testSettled]

end Sys2Proof.Machine
end

section
/-! PROOFS. The receiver character by character, gap and link break, and the end of a frame on LTX (O33). -/

namespace Sys2Proof.Machine

/-! ### A character received (R149, R150) -/

section
variable {s : State} (c : Byte)

theorem receiveChar_sync (h : s.link.rx = .hunting) : receiveChar 0xA5#8 s = s.setRx ⟨.header, [], 3, true⟩ := by
  rw [receiveChar, h]
  rfl

theorem receiveChar_noise (h : s.link.rx = .hunting) (hc : c ≠ 0xA5#8) : receiveChar c s = s := by
  rw [receiveChar, h]
  exact if_neg hc

theorem receiveChar_tooLong (h : s.link.rx = ⟨.header, [], 3, true⟩) (hc : 120 < c.toNat) :
    receiveChar c s = abandonFrame s := by
  rw [receiveChar, h]
  exact if_pos hc

theorem receiveChar_length (h : s.link.rx = ⟨.header, [], 3, true⟩) (hc : c.toNat ≤ 120) :
    receiveChar c s = s.setRx ⟨.header, [c], 2, true⟩ := by
  rw [receiveChar, h]
  exact if_neg (Nat.not_lt.mpr hc)

theorem receiveChar_tag {l : Byte} (h : s.link.rx = ⟨.header, [l], 2, true⟩) :
    receiveChar c s = s.setRx ⟨.header, [l, c], 1, true⟩ := by
  rw [receiveChar, h]
  rfl

/-- After the kind a frame goes on with its body, or with its CRC if it has none. -/
theorem receiveChar_kind {l g : Byte} (h : s.link.rx = ⟨.header, [l, g], 1, true⟩) : receiveChar c s =
    s.setRx (if l = 0#8 then ⟨.check, [l, g, c], 2, true⟩ else ⟨.body, [l, g, c], l.toNat, true⟩) := by
  rw [receiveChar, h]
  rfl

theorem receiveChar_body {bs : List Byte} {n : Nat} (h : s.link.rx = ⟨.body, bs, n + 2, true⟩) :
    receiveChar c s = s.setRx ⟨.body, bs ++ [c], n + 1, true⟩ := by
  rw [receiveChar, h]
  exact if_neg (by simp)

theorem receiveChar_bodyEnd {bs : List Byte} (h : s.link.rx = ⟨.body, bs, 1, true⟩) :
    receiveChar c s = s.setRx ⟨.check, bs ++ [c], 2, true⟩ := by
  rw [receiveChar, h]
  rfl

theorem receiveChar_crcHigh {bs : List Byte} (h : s.link.rx = ⟨.check, bs, 2, true⟩) :
    receiveChar c s = s.setRx ⟨.check, bs ++ [c], 1, true⟩ := by
  rw [receiveChar, h]
  rfl

theorem receiveChar_crcLow {bs : List Byte} (h : s.link.rx = ⟨.check, bs, 1, true⟩) :
    receiveChar c s = completeFrame (bs ++ [c]) s := by
  rw [receiveChar, h]
  rfl

theorem receiveBad_hunting (h : s.link.rx.state = .hunt) : receiveBad s = s := if_pos h

theorem receiveBad_inFrame (h : s.link.rx.state ≠ .hunt) : receiveBad s = abandonFrame s := if_neg h

end

/-- A complete frame by the CRC of its bytes (R151). -/
theorem completeFrame_eq (l tag kind : Byte) (body : List Byte) (hi lo : Byte) (s : State) :
    completeFrame ((l :: tag :: kind :: body) ++ [hi, lo]) s =
      if crc16 (l :: tag :: kind :: body) = half hi lo then takeFrame tag kind (performFrame kind body) s
      else (abandonFrame s).endEvent := by
  have hlen : ((l :: tag :: kind :: body) ++ [hi, lo]).length - 2 = (l :: tag :: kind :: body).length := by
    rw [List.length_append]
    exact Nat.add_sub_cancel ..
  unfold completeFrame
  dsimp only
  rw [hlen, List.take_left, List.drop_left]

/-- The frame of a CRC mismatch is abandoned. -/
theorem receiveChar_mismatch {s : State} {c l tag kind hi : Byte} {body : List Byte}
    (h : s.link.rx = ⟨.check, l :: tag :: kind :: (body ++ [hi]), 1, true⟩) (hcrc : crc16 (l :: tag :: kind :: body) ≠ hi ++ c) :
    receiveChar c s = (abandonFrame s).endEvent := by
  have hbytes : l :: tag :: kind :: (body ++ [hi]) ++ [c] = (l :: tag :: kind :: body) ++ [hi, c] := by simp
  rw [receiveChar_crcLow c h, hbytes, completeFrame_eq]
  exact if_neg hcrc

/-! ### Gap and end of a frame on LTX (R145, R146, R150) -/

/-- Inside a frame the gap timer runs. -/
theorem gap_of_wf {r : Rx} (h : r.wf) (hs : r.state ≠ .hunt) : r.gap = true := by
  obtain ⟨st, bytes, expected, gap⟩ := r
  cases st with
  | hunt => exact absurd rfl hs
  | header =>
    obtain ⟨-, -, hgap, -⟩ := h
    exact hgap
  | body =>
    obtain ⟨-, hgap, -⟩ := h
    exact hgap
  | check =>
    obtain ⟨-, -, hgap, -⟩ := h
    exact hgap

theorem expireGap_inFrame {s : State} (h : s.link.rx.wf) (hs : s.link.rx.state ≠ .hunt) : expireGap s = abandonFrame s :=
  if_pos (by rw [gap_of_wf h hs, decide_eq_true hs]; rfl)

theorem expireGap_hunting {s : State} (hs : s.link.rx.state = .hunt) : expireGap s = s :=
  if_neg (by rw [hs]; exact Bool.false_ne_true)

theorem endFrame_idle {s : State} (h : s.link.onLtx = none) : endFrame s = s := by
  rw [endFrame, h]

theorem endFrame_sent {s : State} {f : TxFrame} (h : s.link.onLtx = some f) (hf : f.restart = false) :
    endFrame s = { s with link := { s.link with onLtx := none } } := by
  rw [endFrame, h]
  exact if_neg (Bool.eq_false_iff.mp hf)

theorem endFrame_restart {s : State} {f : TxFrame} (h : s.link.onLtx = some f) (hf : f.restart = true) :
    endFrame s = restartTakesEffect { s with link := { s.link with onLtx := none } } := by
  rw [endFrame, h]
  exact if_pos hf

/-- A save in flight is abandoned. -/
theorem abandonSave_saving {m : ImageStore} {v : Save} (h : m.save = some v) : abandonSave m = { m with
    records := m.records.set v.slot (.invalid .abandoned), save := none, lastSave := some ⟨.abandoned, v.slot, v.generation⟩ } := by
  rw [abandonSave, h]

theorem abandoned_restartTakesEffect {s : State} {v : Save} (h : s.image.save = some v) :
    (restartTakesEffect s).image.records.get v.slot = .invalid .abandoned
    ∧ (restartTakesEffect s).image.lastSave = some ⟨.abandoned, v.slot, v.generation⟩
    ∧ (restartTakesEffect s).startup.abandoned = some v.slot := by
  change (abandonSave (cutSave s).image).records.get v.slot = _ ∧ (abandonSave (cutSave s).image).lastSave = _
    ∧ s.image.save.map Save.slot = _
  rw [abandonSave_saving ((State.save_cutSave s).trans h), h]
  exact ⟨(Bank2.get_set ..).trans (if_pos rfl), rfl, rfl⟩

/-- The end of the event of a warm restart: in SELECT the link is left as the restart leaves it (R146). -/
theorem link_restarted (s : State) : (restartTakesEffect s).endEvent.link = (restartTakesEffect s).link :=
  State.link_endEvent_notLive rfl

/-- Settles O33: the receiver's clauses are `receiveChar` in each of its states; the restart is `restartTakesEffect`, which the end of
the event leaves as it is. -/
theorem linkEvents : Obligations.LinkEvents := by
  refine ⟨fun s c hrun => ⟨fun h => ⟨fun hc => ?_, fun hc => ?_, ?_⟩, fun h => ?_, fun h => ⟨fun hc => ?_, fun hc => ?_⟩,
      fun l h => ?_, fun l g h => ⟨fun hl => ?_, fun hl => ?_⟩, fun bs n h => ?_, fun bs h => ?_, fun bs h => ?_,
      fun l tag kind body hi h hcrc => ?_⟩,
    fun s hrun => ⟨fun hwf hs => ?_, fun hs => ?_, ?_, fun h => ?_, fun f h hf => ?_, fun f h hf => ?_⟩⟩
  · subst hc; exact exec_running hrun rfl (receiveChar_sync h)
  · exact exec_running hrun rfl (receiveChar_noise c h hc)
  · exact exec_running hrun rfl (receiveBad_hunting (by rw [h]; rfl))
  · exact exec_running hrun rfl (receiveBad_inFrame h)
  · exact exec_running hrun rfl (receiveChar_tooLong c h hc)
  · exact exec_running hrun rfl (receiveChar_length c h hc)
  · exact exec_running hrun rfl (receiveChar_tag c h)
  · exact exec_running hrun rfl ((receiveChar_kind c h).trans (by rw [if_pos hl]; rfl))
  · exact exec_running hrun rfl ((receiveChar_kind c h).trans (by rw [if_neg hl]; rfl))
  · exact exec_running hrun rfl (receiveChar_body c h)
  · exact exec_running hrun rfl (receiveChar_bodyEnd c h)
  · exact exec_running hrun rfl (receiveChar_crcHigh c h)
  · rw [exec_running hrun rfl (receiveChar_mismatch h hcrc), State.endEvent_endEvent]
    rfl
  · exact exec_running hrun rfl (expireGap_inFrame hwf hs)
  · exact exec_running hrun rfl (expireGap_hunting hs)
  · exact exec_running hrun rfl rfl
  · exact exec_running hrun rfl (endFrame_idle h)
  · exact exec_running hrun rfl (endFrame_sent h hf)
  · refine ⟨_, exec_running hrun rfl (endFrame_restart h hf), ?_⟩
    rw [link_restarted, State.startup_endEvent, State.actions_endEvent, State.image_endEvent, State.clk_endEvent,
      State.claims_endEvent, State.tick_endEvent]
    exact ⟨rfl, rfl, rfl, rfl, rfl, rfl, rfl, save_abandonSave _, fun v hv => abandoned_restartTakesEffect hv, State.clk_cutSave _,
      State.claims_cutSave _, State.tick_cutSave _, rfl⟩

end Sys2Proof.Machine
end

section
/-! SUPPORT. Request by request: a request is refused without effect, or accepted, and then leaves the link, but that a RESTART has been
taken. -/

namespace Sys2Proof.Machine

/-! ### What the operations on stack and lines leave of the link -/

section
variable (s : State)

@[simp] theorem link_changeStack (c : TransitionCause) (k : Stack) : (changeStack c k s).link = s.link := by
  unfold changeStack
  split
  · rfl
  · exact link_reevaluate ..

@[simp] theorem link_wakeEvent (c : WakeCause) : (wakeEvent c s).link = s.link := link_changeStack ..

@[simp] theorem link_offerWake (c : WakeCause) : (offerWake c s).link = s.link := by
  unfold offerWake
  split
  · exact link_wakeEvent s c
  · rfl

@[simp] theorem link_lineOff (l : Fin 8) : (lineOff l s).link = s.link := by
  unfold lineOff
  dsimp only
  split <;> rfl

@[simp] theorem link_remapLine (l : Fin 8) (was : Bool) : (remapLine l was s).link = s.link := by
  unfold remapLine
  dsimp only
  split
  · rfl
  · exact link_lineOff ..
  · rfl
  · rfl

@[simp] theorem link_clearSource (o : Osc) : (clearSource o s).link = s.link := by
  unfold clearSource
  dsimp only
  split
  · exact link_runEvent ..
  · exact link_runEvent ..
  · rfl

@[simp] theorem link_clearRco : (clearRco s).link = s.link := by
  unfold clearRco
  split
  · exact link_runEvent ..
  · rfl

end

/-! ### Refused or accepted (R153) -/

/-- A performed request is a refusal, which changes nothing and carries no result fields, or it is accepted and leaves the link. -/
inductive Done.Judged (s : State) : Done → Prop where
  | refused (st : Status) : Judged s (.refuse s st)
  | accepted {d : Done} (hst : d.status = .ok ∨ d.status = .accepted) (hl : d.state.link = s.link) : Judged s d

theorem Done.Judged.ok {s t : State} {l : List Byte} (h : t.link = s.link) : Done.Judged s (.ok t l) := .accepted (.inl rfl) h

/-- A request that only answers. -/
theorem Done.Judged.answer {s : State} {l : List Byte} : Done.Judged s (.ok s l) := .ok rfl

/-- A check that may refuse the request. -/
theorem Done.Judged.unless {s : State} {st : Status} {d : Done} {p : Prop} [Decidable p] (h : Done.Judged s d) :
    Done.Judged s (if p then .refuse s st else d) := by
  split
  · exact .refused st
  · exact h

/-- What is neither OK nor ACCEPTED is a refusal. -/
theorem Done.Judged.of_not_accepted {s : State} {d : Done} (h : Done.Judged s d) (hok : d.status ≠ .ok)
    (hacc : d.status ≠ .accepted) : d.state = s ∧ d.result = [] := by
  cases h with
  | refused st => exact ⟨rfl, rfl⟩
  | accepted hst hl => exact absurd hst (not_or.mpr ⟨hok, hacc⟩)

theorem Done.Judged.link {s : State} {d : Done} (h : Done.Judged s d) : d.state.link = s.link := by
  cases h with
  | refused st => rfl
  | accepted hst hl => exact hl

section
variable (s : State)

/-! ### Requests on sources, monitor, outputs and chains -/

theorem judged_sourceSet (r : SourceSetReq) : (performSourceSet r s).Judged s := by
  unfold performSourceSet
  split
  · exact .refused _
  · exact .refused _
  · exact .unless (.unless (.unless (.ok (link_runEvent ..))))

theorem judged_sourceQuery (x : Byte) : (performSourceQuery x s).Judged s := by
  unfold performSourceQuery
  split
  · exact .refused _
  · exact .answer

theorem judged_sourceKeep (x f : Byte) : (performSourceKeep x f s).Judged s := by
  unfold performSourceKeep
  split
  · exact .refused _
  · exact .refused _
  · split
    · exact .refused _
    · exact .ok (link_reevaluate ..)

theorem judged_sourceClear (x : Byte) : (performSourceClear x s).Judged s := by
  unfold performSourceClear
  split
  · exact .refused _
  · exact .ok (link_clearRco s)
  · exact .ok (link_clearSource s _)

theorem judged_outputSet (r : OutputSetReq) : (performOutputSet r s).Judged s := by
  unfold performOutputSet
  split
  · exact .refused _
  · split
    · exact .refused _
    · exact .unless (.ok (link_reevaluate ..))

theorem judged_outputQuery (x : Byte) : (performOutputQuery x s).Judged s := by
  unfold performOutputQuery
  split
  · exact .refused _
  · split
    · exact .answer
    · exact .ok rfl

theorem judged_selectOutput (o : Fin 8) (entry : Option (Fin 4)) : (selectOutput o entry s).Judged s := by
  unfold selectOutput
  split
  · exact .refused _
  · exact .unless (.ok (link_reevaluate ..))

theorem judged_outputSelect (x i : Byte) : (performOutputSelect x i s).Judged s := by
  unfold performOutputSelect
  split
  · exact .refused _
  · split
    · exact .refused _
    · split
      · exact .refused _
      · exact judged_selectOutput s _ _

theorem judged_chainSet (r : ChainSetReq) : (performChainSet r s).Judged s := by
  unfold performChainSet
  split
  · exact .refused _
  · refine .unless ?_
    split
    · exact .refused _
    · exact .unless (.unless (.ok (link_runEvent ..)))

theorem judged_chainQuery (x : Byte) : (performChainQuery x s).Judged s := by
  unfold performChainQuery
  split
  · exact .refused _
  · exact .answer

/-! ### Requests on claims and lines -/

theorem judged_claim (r : ClaimReq) : (performClaim r s).Judged s := by
  unfold performClaim
  split
  · exact .refused _
  · exact .refused _
  · split
    · exact .refused _
    · split
      · exact .refused _
      · exact .unless (.ok (link_reevaluate ..))

theorem judged_releaseOne (n : Byte) (o : Fin 8) : (releaseOne n o s).Judged s := by
  unfold releaseOne
  split
  · exact .ok (link_reevaluate ..)
  · exact .refused _

theorem judged_releaseEvery (n : Byte) : (releaseEvery n s).Judged s := .ok (link_reevaluate ..)

theorem judged_release (c : Half) (x : Byte) : (performRelease c x s).Judged s := by
  unfold performRelease
  split
  · exact .refused _
  · exact .refused _
  · split
    · exact .refused _
    · exact judged_releaseOne s _ _

theorem judged_releaseAll (c : Half) : (performReleaseAll c s).Judged s := by
  unfold performReleaseAll
  split
  · exact .refused _
  · exact .refused _
  · exact judged_releaseEvery s _

theorem judged_lineMapSet (r : LineMapReq) : (performLineMapSet r s).Judged s := by
  unfold performLineMapSet
  split
  · exact .refused _
  · split
    · exact .refused _
    · exact .unless (.unless (.ok ((link_reevaluate ..).trans (link_remapLine ..))))

theorem judged_lineQuery (x : Byte) : (performLineQuery x s).Judged s := by
  unfold performLineQuery
  split
  · exact .refused _
  · exact .answer

/-! ### Requests on profiles, actions, notices and images -/

theorem judged_profileSet (r : ProfileSetReq) : (performProfileSet r s).Judged s := by
  unfold performProfileSet
  split
  · exact .refused _
  · split
    · exact .refused _
    · refine .ok ?_
      split
      · exact link_reevaluate ..
      · rfl

theorem judged_profileQuery (x : Byte) : (performProfileQuery x s).Judged s := by
  unfold performProfileQuery
  split
  · exact .refused _
  · exact .answer

theorem judged_profileEnter (x : Byte) : (performProfileEnter x s).Judged s := by
  unfold performProfileEnter
  split
  · exact .refused _
  · exact .ok (link_changeStack ..)

theorem judged_resumeProfile (c : TransitionCause) : (resumeProfile c s).Judged s := by
  unfold resumeProfile
  split
  · exact .refused _
  · exact .ok (link_changeStack ..)

theorem judged_resumeTarget (x : Byte) : (performResumeTarget x s).Judged s := by
  unfold performResumeTarget
  split
  · exact .refused _
  · exact .unless (.ok rfl)

theorem judged_actionAdd (r : ActionAddReq) : (performActionAdd r s).Judged s := by
  unfold performActionAdd
  split
  · exact .refused _
  · exact .unless (.unless (.ok rfl))

theorem judged_actionCancel (n : Byte) : (performActionCancel n s).Judged s := by
  refine .unless ?_
  split
  · exact .refused _
  · exact .ok rfl

theorem judged_noticeAck (n : Half) : (performNoticeAck n s).Judged s := by
  refine .unless ?_
  split
  · exact .refused _
  · exact .ok rfl

theorem judged_imageSave (x : Byte) : (performImageSave x s).Judged s := by
  unfold performImageSave
  split
  · exact .refused _
  · exact .unless (.unless (.accepted (.inr rfl) rfl))

theorem judged_echo (b : List Byte) : (performEcho b s).Judged s := by
  unfold performEcho
  split
  · exact .answer
  · exact .refused _

/-- Every request but RESTART. -/
theorem judged_request {r : Request} (h : r ≠ .restart) : (performRequest r s).Judged s := by
  cases r with
  | identify => exact .answer
  | echo b => exact judged_echo s b
  | restart => exact absurd rfl h
  | sourceSet r => exact judged_sourceSet s r
  | sourceQuery x => exact judged_sourceQuery s x
  | sourceKeep x f => exact judged_sourceKeep s x f
  | sourceClear x => exact judged_sourceClear s x
  | monitorSet r => exact .unless (.ok rfl)
  | monitorQuery => exact .answer
  | outputSet r => exact judged_outputSet s r
  | outputQuery x => exact judged_outputQuery s x
  | outputSelect x i => exact judged_outputSelect s x i
  | chainSet r => exact judged_chainSet s r
  | chainQuery x => exact judged_chainQuery s x
  | claim r => exact judged_claim s r
  | release c x => exact judged_release s c x
  | releaseAll c => exact judged_releaseAll s c
  | claimList f => exact .unless .answer
  | lineMapSet r => exact judged_lineMapSet s r
  | lineQuery x => exact judged_lineQuery s x
  | profileSet r => exact judged_profileSet s r
  | profileQuery x => exact judged_profileQuery s x
  | profileEnter x => exact judged_profileEnter s x
  | resume => exact judged_resumeProfile s _
  | resumeTarget x => exact judged_resumeTarget s x
  | stackQuery => exact .answer
  | timeQuery => exact .answer
  | actionAdd r => exact judged_actionAdd s r
  | actionCancel n => exact judged_actionCancel s n
  | actionList f => exact .unless .answer
  | noticeAck n => exact judged_noticeAck s n
  | noticeResend => exact .ok rfl
  | noticeFilter f => exact .unless (.ok rfl)
  | imageSave x => exact judged_imageSave s x
  | imageInfo => exact .answer

/-- A request leaves the link, but that a RESTART has been taken (R145). -/
theorem link_request (r : Request) : (performRequest r s).state.link =
    { s.link with restartTaken := (performRequest r s).state.link.restartTaken } := by
  by_cases h : r = .restart
  · rw [h]
    rfl
  · rw [(judged_request s h).link]

theorem link_performFrame (kind : Byte) (body : List Byte) : (performFrame kind body s).state.link =
    { s.link with restartTaken := (performFrame kind body s).state.link.restartTaken } := by
  rcases performFrame_forms kind body s with ⟨r, hr⟩ | ⟨hr, -⟩
  · rw [hr]
    exact link_request s r
  · rw [hr]

theorem startup_request (r : Request) : (performRequest r s).state.startup = s.startup := by
  by_cases hr : ∃ x, r = .imageSave x
  · obtain ⟨x, rfl⟩ := hr
    show (performImageSave x s).state.startup = s.startup
    unfold performImageSave
    split
    · rfl
    · split_ifs <;> rfl
  · exact (sameStore_request s fun x hx => hr ⟨x, hx⟩).startup

end

end Sys2Proof.Machine
end

section
/-! PROOFS. Every step keeps the receiver consistent and the window count at most 4 (O20). -/

namespace Sys2Proof.Machine

/-! ### Effects that keep receiver and window -/

/-- From `s` to `t` the receiver stays one that R149 allows, and the window count within its room (R152). -/
structure KeepsLink (s t : State) : Prop where
  rx : s.link.rx.wf → t.link.rx.wf
  window : s.link.windowCount ≤ Config.windowRoom → t.link.windowCount ≤ Config.windowRoom

/-- An effect outside the link. -/
theorem KeepsLink.quiet {s t : State} (h : t.link = s.link) : KeepsLink s t := ⟨fun hs => h ▸ hs, fun hs => h ▸ hs⟩

theorem KeepsLink.refl (s : State) : KeepsLink s s := .quiet rfl

theorem KeepsLink.trans {s t u : State} (h : KeepsLink s t) (g : KeepsLink t u) : KeepsLink s u :=
  ⟨g.rx ∘ h.rx, g.window ∘ h.window⟩

/-- An event that the state may not give. -/
theorem KeepsLink.ite {s t : State} {p : Prop} [Decidable p] (h : KeepsLink s t) : KeepsLink s (if p then t else s) := by
  split
  · exact h
  · exact .refl s

/-- The receiver alone changes. -/
theorem KeepsLink.receive {s : State} {r : Rx} (h : s.link.rx.wf → r.wf) : KeepsLink s (s.setRx r) := ⟨h, id⟩

/-! ### The receiver's records (R149) -/

theorem Rx.wf_hunting : Rx.hunting.wf := rfl

theorem Rx.wf_header_iff {r : Rx} (h : r.state = .header) : r.wf ↔ r.bytes.length + r.expected = 3 ∧ 1 ≤ r.expected
    ∧ r.gap = true ∧ ∀ l rest, r.bytes = l :: rest → l.toNat ≤ 120 := by
  unfold Rx.wf
  rw [h]

theorem Rx.wf_body_iff {r : Rx} (h : r.state = .body) : r.wf ↔ 1 ≤ r.expected ∧ r.gap = true
    ∧ ∃ l tag kind body, r.bytes = l :: tag :: kind :: body ∧ l.toNat ≤ 120 ∧ body.length + r.expected = l.toNat := by
  unfold Rx.wf
  rw [h]

theorem Rx.wf_check_iff {r : Rx} (h : r.state = .check) : r.wf ↔ 1 ≤ r.expected ∧ r.expected ≤ 2 ∧ r.gap = true
    ∧ ∃ l tag kind rest, r.bytes = l :: tag :: kind :: rest ∧ l.toNat ≤ 120 ∧ rest.length + r.expected = l.toNat + 2 := by
  unfold Rx.wf
  rw [h]

/-- A body that has come as far as its length and the bytes still expected have it. -/
theorem Rx.wf_inBody {l tag kind : Byte} {body : List Byte} {n : Nat} (hn : 1 ≤ n) (hl : l.toNat ≤ 120)
    (hsum : body.length + n = l.toNat) : (⟨.body, l :: tag :: kind :: body, n, true⟩ : Rx).wf :=
  ⟨hn, rfl, l, tag, kind, body, rfl, hl, hsum⟩

/-- A body that is complete, with the CRC bytes that have come after it. -/
theorem Rx.wf_inCheck {l tag kind : Byte} {rest : List Byte} {n : Nat} (hn : 1 ≤ n) (htwo : n ≤ 2) (hl : l.toNat ≤ 120)
    (hsum : rest.length + n = l.toNat + 2) : (⟨.check, l :: tag :: kind :: rest, n, true⟩ : Rx).wf :=
  ⟨hn, htwo, rfl, l, tag, kind, rest, rfl, hl, hsum⟩

section
variable (s : State)

theorem keepsLink_endEvent : KeepsLink s s.endEvent :=
  ⟨fun h => (State.rx_endEvent s).symm ▸ h, fun h => (State.windowCount_endEvent s).symm ▸ h⟩

theorem keepsLink_hunt : KeepsLink s s.hunt := .receive fun _ => Rx.wf_hunting

theorem keepsLink_setMissed : KeepsLink s s.setMissed := ⟨id, id⟩

theorem keepsLink_abandonFrame : KeepsLink s (abandonFrame s) := (keepsLink_hunt s).trans (keepsLink_setMissed _)

/-! ### Taking a frame: with room in the window it grows by one (R151 to R153) -/

theorem windowCount_hold (tag kind : Byte) : (s.hold tag kind).link.windowCount = s.link.windowCount + 1 := by
  simp only [Link.windowCount, State.link_hold, List.length_append, List.length_singleton]
  omega

theorem windowCount_queueReply (tag kind : Byte) (st : Status) (l : List Byte) :
    (s.queueReply tag kind st l).link.windowCount = s.link.windowCount + 1 := by
  simp only [Link.windowCount, State.link_queueReply, List.length_append, List.length_singleton]
  omega

theorem keepsLink_takeFrame (tag kind : Byte) {perform : State → Done}
    (hp : ∀ u, (perform u).state.link = { u.link with restartTaken := (perform u).state.link.restartTaken }) :
    KeepsLink s (takeFrame tag kind perform s) := by
  rcases takeFrame_cases tag kind perform s with ⟨-, h⟩ | h | ⟨-, hroom, h⟩ | ⟨⟨-, hroom, -⟩, h⟩
  · rw [h]
    exact .refl s
  · rw [h]
    exact (keepsLink_abandonFrame s).trans (keepsLink_endEvent _)
  · rw [h]
    refine KeepsLink.trans ⟨fun _ => Rx.wf_hunting, fun _ => ?_⟩ (keepsLink_endEvent _)
    rw [windowCount_hold]
    exact hroom
  · rw [h]
    refine KeepsLink.trans ⟨fun _ => ?_, fun _ => ?_⟩ (keepsLink_endEvent _)
    · rw [State.link_queueReply, hp]
      exact Rx.wf_hunting
    · rw [windowCount_queueReply, hp]
      exact hroom

/-! ### The receiver, state by state (R149, R150) -/

/-- In HEADER the length, if it has come, is at most 120, and at most the tag after it. -/
theorem header_taken (h : s.link.rx.state = .header) (hr : s.link.rx.wf) :
    s.link.rx.bytes.length ≤ 2 ∧ ∀ l rest, s.link.rx.bytes = l :: rest → l.toNat ≤ 120 := by
  obtain ⟨hlen, hexp, -, hmax⟩ := (Rx.wf_header_iff h).mp hr
  exact ⟨by omega, hmax⟩

/-- With the kind a header is complete: the body follows, or the CRC where the length is 0. -/
theorem wf_afterKind {l tag kind : Byte} (hl : l.toNat ≤ 120) :
    (if l = 0#8 then ⟨.check, [l, tag, kind], 2, true⟩ else ⟨.body, [l, tag, kind], l.toNat, true⟩ : Rx).wf := by
  split
  · rename_i h0
    exact Rx.wf_inCheck one_le_two le_rfl hl (by rw [h0]; rfl)
  · rename_i h0
    have hpos : l.toNat ≠ 0 := fun hz => h0 (BitVec.eq_of_toNat_eq hz)
    exact Rx.wf_inBody (Nat.one_le_iff_ne_zero.mpr hpos) hl (Nat.zero_add _)

theorem keepsLink_receiveHeader (c : Byte) (h : s.link.rx.state = .header) : KeepsLink s (receiveHeader c s.link.rx s) := by
  have htaken := header_taken s h
  unfold receiveHeader
  split
  case h_1 =>
    split
    · exact keepsLink_abandonFrame s
    · rename_i hc
      exact .receive fun _ => ⟨rfl, one_le_two, rfl, fun l rest hl => by cases hl; exact Nat.le_of_not_lt hc⟩
  case h_2 l hb =>
    refine .receive fun hr => ?_
    obtain ⟨-, hmax⟩ := htaken hr
    exact ⟨rfl, le_rfl, rfl, fun l' rest hl => by cases hl; exact hmax l [] hb⟩
  case h_3 l rest hone hb =>
    refine .receive fun hr => ?_
    obtain ⟨hlen, hmax⟩ := htaken hr
    obtain ⟨tag, rfl⟩ : ∃ tag, rest = [tag] := by
      rw [hb, List.length_cons] at hlen
      exact List.length_eq_one_iff.mp (le_antisymm (Nat.le_of_succ_le_succ hlen) (List.length_pos_iff.mpr hone))
    exact wf_afterKind (hmax l [tag] hb)

theorem keepsLink_receiveBody (c : Byte) (h : s.link.rx.state = .body) : KeepsLink s
    (if s.link.rx.expected ≤ 1 then s.setRx ⟨.check, s.link.rx.bytes ++ [c], 2, true⟩
      else s.setRx ⟨.body, s.link.rx.bytes ++ [c], s.link.rx.expected - 1, true⟩) := by
  split
  · rename_i hlast
    refine .receive fun hr => ?_
    obtain ⟨hexp, -, l, tag, kind, body, hb, hl, hsum⟩ := (Rx.wf_body_iff h).mp hr
    rw [hb]
    refine Rx.wf_inCheck (rest := body ++ [c]) one_le_two le_rfl hl ?_
    rw [List.length_append, List.length_singleton]
    omega
  · rename_i hmore
    refine .receive fun hr => ?_
    obtain ⟨-, -, l, tag, kind, body, hb, hl, hsum⟩ := (Rx.wf_body_iff h).mp hr
    rw [hb]
    refine Rx.wf_inBody (body := body ++ [c]) (Nat.le_sub_one_of_lt (Nat.lt_of_not_le hmore)) hl ?_
    rw [List.length_append, List.length_singleton]
    omega

theorem keepsLink_completeFrame (bytes : List Byte) : KeepsLink s (completeFrame bytes s) := by
  unfold completeFrame
  dsimp only
  split
  · split
    · exact keepsLink_takeFrame s _ _ fun u => link_performFrame u _ _
    · exact (keepsLink_abandonFrame s).trans (keepsLink_endEvent _)
  · exact (keepsLink_abandonFrame s).trans (keepsLink_endEvent _)

theorem keepsLink_receiveCheck (c : Byte) (h : s.link.rx.state = .check) : KeepsLink s
    (if s.link.rx.expected ≤ 1 then completeFrame (s.link.rx.bytes ++ [c]) s
      else s.setRx ⟨.check, s.link.rx.bytes ++ [c], 1, true⟩) := by
  split
  · exact keepsLink_completeFrame s _
  · rename_i hmore
    refine .receive fun hr => ?_
    obtain ⟨-, htwo, -, l, tag, kind, rest, hb, hl, hsum⟩ := (Rx.wf_check_iff h).mp hr
    rw [hb]
    refine Rx.wf_inCheck (rest := rest ++ [c]) le_rfl one_le_two hl ?_
    rw [List.length_append, List.length_singleton]
    omega

theorem keepsLink_receiveChar (c : Byte) : KeepsLink s (receiveChar c s) := by
  unfold receiveChar
  dsimp only
  split
  case h_1 => exact .ite (.receive fun _ => ⟨rfl, Nat.le_add_left 1 2, rfl, fun _ _ hl => nomatch hl⟩)
  case h_2 h => exact keepsLink_receiveHeader s c h
  case h_3 h => exact keepsLink_receiveBody s c h
  case h_4 h => exact keepsLink_receiveCheck s c h

theorem keepsLink_receiveBad : KeepsLink s (receiveBad s) := by
  unfold receiveBad
  split
  · exact .refl s
  · exact keepsLink_abandonFrame s

/-! ### Link break and the end of a frame: the window shrinks (R145, R157) -/

theorem keepsLink_breakLink : KeepsLink s (breakLink s) :=
  ⟨fun _ => Rx.wf_hunting, fun h => Nat.le_trans (Nat.add_le_add_right (Nat.zero_le _) _) h⟩

theorem keepsLink_clearLtx : KeepsLink s { s with link := { s.link with onLtx := none } } :=
  ⟨id, fun h => Nat.le_trans (Nat.le_add_right _ _) h⟩

theorem keepsLink_restartTakesEffect : KeepsLink s (restartTakesEffect s) := by
  refine ⟨id, fun h => Nat.le_trans ?_ h⟩
  exact Nat.add_le_add_right (Nat.add_le_add_right (Nat.zero_le s.link.held.length) _) _

theorem keepsLink_endFrame : KeepsLink s (endFrame s) := by
  unfold endFrame
  split
  · exact .refl s
  · dsimp only
    split
    · exact (keepsLink_clearLtx s).trans (keepsLink_restartTakesEffect _)
    · exact keepsLink_clearLtx s

/-! ### Events outside the link -/

theorem link_performAction (a : Action) : (performAction a s).state.link = s.link := by
  unfold performAction
  split
  · exact link_changeStack ..
  · exact link_wakeEvent ..
  · exact (judged_resumeProfile s _).link
  · exact (judged_releaseEvery s _).link
  · exact (judged_releaseOne s _ _).link
  · exact (judged_selectOutput s _ _).link
  · rfl

theorem link_settleAction (a : Action) : (settleAction a s).link = s.link := by
  unfold settleAction
  split
  · exact State.link_testSettled s
  · exact State.link_testSettled s
  · rfl

theorem keepsLink_fireHead : KeepsLink s (fireHead s) := by
  unfold fireHead
  split
  · exact .refl s
  · exact .ite (.quiet ((link_settleAction _ _).trans (link_performAction _ _)))

theorem keepsLink_expireRevert (o : Fin 8) : KeepsLink s (expireRevert o s) := by
  unfold expireRevert
  split
  · split
    · exact .refl s
    · split
      · exact .quiet rfl
      · exact .quiet (link_reevaluate ..)
  · exact .refl s

theorem keepsLink_expireLease (n : Byte) (o : Fin 8) : KeepsLink s (expireLease n o s) := by
  unfold expireLease
  split
  · exact .ite (.quiet (link_reevaluate ..))
  · exact .refl s

theorem keepsLink_activateLine (l : Fin 8) : KeepsLink s (activateLine l s) := by
  unfold activateLine
  split
  · exact .refl s
  · refine .quiet ?_
    rw [link_offerWake, State.link_testSettled, link_reevaluate]
    rfl

theorem keepsLink_deactivateLine (l : Fin 8) : KeepsLink s (deactivateLine l s) :=
  .ite (.quiet ((link_reevaluate ..).trans (link_lineOff ..)))

theorem keepsLink_endCheck (good : Bool) : KeepsLink s (endCheck good s) := by
  unfold endCheck
  split
  · exact .ite (.quiet rfl)
  · exact .refl s

/-- Every event of the running part. -/
theorem keepsLink_event {i : Instr} {f : State → State} (hf : eventBody i = some f) : KeepsLink s (f s) := by
  cases i <;> cases hf
  case characterReceived c bad =>
    cases bad with
    | true => exact keepsLink_receiveBad s
    | false => exact keepsLink_receiveChar s c
  case gap => exact .ite (keepsLink_abandonFrame s)
  case linkBreak => exact keepsLink_breakLink s
  case frameSent => exact keepsLink_endFrame s
  case startDetection o => exact .ite (.quiet (link_runEvent ..))
  case startTimerExpiry o => exact .ite (.quiet (link_runEvent ..))
  case lockDetection => exact .ite (.quiet (link_runEvent ..))
  case lockTimerExpiry => exact .ite (.quiet (link_runEvent ..))
  case quarantineExpiry o => exact .ite (.quiet (link_runEvent ..))
  case rehabilitationExpiry o => exact .ite (.quiet rfl)
  case surveyCompletion => exact .quiet (link_runEvent ..)
  case releaseEnd o => exact .ite (.quiet (link_runEvent ..))
  case releaseTimeout o => exact .ite (.quiet (link_runEvent ..))
  case acquireEnd o => exact .ite (.quiet (link_runEvent ..))
  case acquireTimeout o => exact .ite (.quiet (link_runEvent ..))
  case dividerChange o => exact .quiet rfl
  case revertTimerExpiry o => exact keepsLink_expireRevert s o
  case leaseExpiry n o => exact keepsLink_expireLease s n o
  case lineActivation l => exact keepsLink_activateLine s l
  case lineDeactivation l => exact keepsLink_deactivateLine s l
  case holdExpiry l => exact .ite (.quiet (link_reevaluate ..))
  case wakePinEdge => exact .quiet (link_offerWake ..)
  case tick => exact .quiet rfl
  case actionFiring => exact keepsLink_fireHead s
  case eraseComplete => exact .quiet rfl
  case writeComplete => exact .quiet rfl
  case checkComplete good => exact keepsLink_endCheck s good

/-! ### Start-up events (R134, R161) -/

theorem keepsLink_coldStart (supply : Bool) : KeepsLink s (coldStart supply s) :=
  ⟨fun _ => Rx.wf_hunting, fun _ => Nat.zero_le _⟩

theorem keepsLink_endSelect : KeepsLink s (endSelect s) := by
  refine .ite ?_
  dsimp only
  split
  · exact .quiet rfl
  · exact .quiet rfl

theorem keepsLink_reachLive (pins : Byte) : KeepsLink s (reachLive pins s) := by
  refine .ite (KeepsLink.trans ?_ (keepsLink_endEvent _))
  split
  · rw [liveWarm_eq]
    exact .quiet (link_runEvent ..)
  · rw [liveCold_eq, coldReady_eq]
    exact .quiet (link_reevaluate ..)

theorem keepsLink_start {i : Instr} {f : State → State} (hf : startBody i = some f) : KeepsLink s (f s) := by
  cases i <;> cases hf
  case coldStart supply => exact keepsLink_coldStart s supply
  case resetRelease => exact .ite (.quiet rfl)
  case powerupEnd b1 b0 => exact .ite ⟨id, id⟩
  case selectDone => exact keepsLink_endSelect s
  case live pins => exact keepsLink_reachLive s pins

end

/-! ### Every step -/

theorem keepsLink_exec {i : Instr} {s t : State} (h : exec i s = .next t) : KeepsLink s t := by
  rcases exec_forms i s with ⟨tag, kind, perform, he, hp⟩ | ⟨f, hf, he⟩ | ⟨f, hf, he⟩
  · cases he.symm.trans h
    refine keepsLink_takeFrame s tag kind ?_
    rcases hp with ⟨r, -, -, rfl⟩ | ⟨-, rfl⟩
    · exact fun u => link_request u r
    · exact fun u => link_performFrame u kind []
  · cases he.symm.trans h
    exact .ite ((keepsLink_event s hf).trans (keepsLink_endEvent _))
  · cases he.symm.trans h
    exact keepsLink_start s hf

theorem keepsLink_step {s t : State} (h : step s = .next t) : KeepsLink s t := by
  unfold step at h
  split at h
  · cases h
    exact .refl s
  · rename_i i rest _
    exact KeepsLink.trans (t := { s with pending := rest }) (.quiet rfl) (keepsLink_exec h)

/-- Settles O20: a character takes the receiver from one record that R149 allows to the next, a frame enters the window only with
room for it, what leaves the link shrinks the window, and all else leaves the link (`KeepsLink`). -/
theorem stepKeepsLink : Obligations.StepKeepsLink :=
  ⟨fun _ _ h hs => (keepsLink_step hs).rx h, fun _ _ h hs => (keepsLink_step hs).window h⟩

end Sys2Proof.Machine
end

section
/-! PROOFS. A request command is its frame, and a request reads back from its kind and body (O4). -/

namespace Sys2Proof.Machine

/-! ### Frames as commands -/

/-- A request command is the completed frame of its tag and kind, handed to the owner of the kind (log 6). -/
theorem exec_request {i : Instr} {tag : Byte} {r : Request} (h : i.request? = some (tag, r)) (s : State) :
    exec i s = .next (takeFrame tag r.kind (performRequest r) s) := by
  cases i <;> cases h <;> rfl

/-! ### Fields of more than one byte (R172) -/

theorem half_bytes (h : Half) : half (h.extractLsb' 8 8) (h.extractLsb' 0 8) = h :=
  BitVec.extractLsb'_append_extractLsb' (w := 8) (len := 8)

theorem word_bytes (w : Word) :
    word (w.extractLsb' 24 8) (w.extractLsb' 16 8) (w.extractLsb' 8 8) (w.extractLsb' 0 8) = w := by
  have htop : w.extractLsb' 24 8 ++ w.extractLsb' 16 8 = w.extractLsb' 16 16 :=
    BitVec.extractLsb'_append_extractLsb'_eq_extractLsb' rfl
  have hmid : w.extractLsb' 16 16 ++ w.extractLsb' 8 8 = w.extractLsb' 8 24 :=
    BitVec.extractLsb'_append_extractLsb'_eq_extractLsb' rfl
  have hall : w.extractLsb' 8 24 ++ w.extractLsb' 0 8 = w := BitVec.extractLsb'_append_extractLsb' (w := 24) (len := 8)
  rw [word, htop, hmid, hall]

/-! ### Bodies with a count of items -/

theorem readEntries_bytes (es : List RawEntry) :
    readEntries es.length (es.flatMap fun e => [e.source] ++ b2 e.divider) = some es := by
  induction es with
  | nil => rfl
  | cons e es ih =>
    rw [List.flatMap_cons]
    refine (congrArg (Option.map _) ih).trans ?_
    rw [half_bytes]
    rfl

theorem readPairs_bytes (ps : List RawPair) : readPairs ps.length (ps.flatMap fun p => [p.output, p.level]) = some ps := by
  induction ps with
  | nil => rfl
  | cons p ps ih =>
    rw [List.flatMap_cons]
    exact congrArg (Option.map _) ih

/-- A count that a body of at most 120 bytes can hold fits its byte. -/
theorem toNat_count {n : Nat} (h : n ≤ 120) : (BitVec.ofNat 8 n).toNat = n := by
  rw [BitVec.toNat_ofNat]
  omega

/-! ### Bodies read back (R172, section 11.4) -/

theorem parseSourceSet_body (r : SourceSetReq) : parseSourceSet (Request.sourceSet r).body = .request (.sourceSet r) := by
  show Parsed.request (.sourceSet ⟨_, word _ _ _ _, half _ _, half _ _, _, half _ _, _, _, _⟩) = _
  simp only [half_bytes, word_bytes]

theorem parseMonitorSet_body (r : MonitorSetReq) : parseMonitorSet (Request.monitorSet r).body = .request (.monitorSet r) := by
  show Parsed.request (.monitorSet ⟨half _ _, _, _⟩) = _
  rw [half_bytes]

theorem parseOutputSet_body (r : OutputSetReq) : parseOutputSet (Request.outputSet r).body = .request (.outputSet r) := by
  show Parsed.request (.outputSet ⟨_, _, _, _, half _ _, _, _, half _ _⟩) = _
  simp only [half_bytes]

theorem parseChainSet_body {r : ChainSetReq} (h : r.entries.length ≤ 120) :
    parseChainSet (Request.chainSet r).body = .request (.chainSet r) := by
  show Parsed.ofOption ((readEntries (BitVec.ofNat 8 r.entries.length).toNat
    (r.entries.flatMap fun e => [e.source] ++ b2 e.divider)).map fun es => .chainSet ⟨_, half _ _, _, _, half _ _, es⟩) = _
  rw [toNat_count h, readEntries_bytes]
  simp only [half_bytes]
  rfl

theorem parseClaim_body (r : ClaimReq) : parseClaim (Request.claim r).body = .request (.claim r) := by
  show Parsed.request (.claim ⟨half _ _, _, _, word _ _ _ _, half _ _⟩) = _
  simp only [half_bytes, word_bytes]

theorem parseLineMapSet_body {r : LineMapReq} (h : r.pairs.length ≤ 120) :
    parseLineMapSet (Request.lineMapSet r).body = .request (.lineMapSet r) := by
  show Parsed.ofOption ((readPairs (BitVec.ofNat 8 r.pairs.length).toNat (r.pairs.flatMap fun p => [p.output, p.level])).map
    fun ps => .lineMapSet ⟨_, _, half _ _, ps⟩) = _
  rw [toNat_count h, readPairs_bytes, half_bytes]
  rfl

theorem parseProfileSet_body (r : ProfileSetReq) : parseProfileSet (Request.profileSet r).body = .request (.profileSet r) := by
  show Parsed.request (.profileSet ⟨_, _, _, _, half _ _, _⟩) = _
  rw [half_bytes]

theorem parseActionAdd_body (r : ActionAddReq) : parseActionAdd (Request.actionAdd r).body = .request (.actionAdd r) := by
  show Parsed.request (.actionAdd ⟨_, _, word _ _ _ _, word _ _ _ _, _, _, _, _⟩) = _
  simp only [word_bytes]

theorem oneHalf_bytes (f : Half → Request) (h : Half) : oneHalf f (b2 h) = .request (f h) :=
  congrArg (fun x => Parsed.request (f x)) (half_bytes h)

/-- Every request that a frame can carry reads back from its kind and body. -/
theorem parseRequest_body {r : Request} (h : r.fits = true) : parseRequest r.kind r.body = .request r := by
  cases r with
  | echo b => exact if_pos (of_decide_eq_true h)
  | sourceSet r => exact parseSourceSet_body r
  | monitorSet r => exact parseMonitorSet_body r
  | outputSet r => exact parseOutputSet_body r
  | chainSet r =>
    have hlen : 8 + 3 * r.entries.length ≤ 120 := of_decide_eq_true h
    exact parseChainSet_body (by omega)
  | claim r => exact parseClaim_body r
  | release c o => exact congrArg (fun x => Parsed.request (.release x o)) (half_bytes c)
  | releaseAll c => exact oneHalf_bytes .releaseAll c
  | lineMapSet r =>
    have hlen : 5 + 2 * r.pairs.length ≤ 120 := of_decide_eq_true h
    exact parseLineMapSet_body (by omega)
  | profileSet r => exact parseProfileSet_body r
  | actionAdd r => exact parseActionAdd_body r
  | noticeAck n => exact oneHalf_bytes .noticeAck n
  | noticeFilter f => exact oneHalf_bytes .noticeFilter f
  | _ => rfl

/-- Settles O4: `exec_request` command by command, `parseRequest_body` request by request. -/
theorem requestsAreTheirFrames : Obligations.RequestsAreTheirFrames :=
  ⟨fun _ _ _ s h => exec_request h s, fun _ h => parseRequest_body h⟩

end Sys2Proof.Machine
end

section
/-! PROOFS. Frames that are not performed (O7), and requests that are answered in their own event (O8), ECHO among them (O32). -/

namespace Sys2Proof.Machine

/-! ### What a completed frame meets (R151 to R153, R161) -/

section
variable {s : State} (tag kind : Byte) (perform : State → Done)

theorem takeFrame_stopped (h : s.startup.running = false) : takeFrame tag kind perform s = s :=
  if_pos (by rw [h]; rfl)

theorem takeFrame_running (h : s.startup.running = true) : takeFrame tag kind perform s =
    if !s.isLive then s.hunt.setMissed.endEvent
    else if s.link.windowCount ≥ Config.windowRoom then s.hunt.setMissed.endEvent
    else if s.link.restartTaken then (s.hunt.hold tag kind).endEvent
    else ((perform s.hunt).state.queueReply tag kind (perform s.hunt).status (perform s.hunt).result).endEvent :=
  if_neg (by rw [h]; exact Bool.false_ne_true)

/-- Outside LIVE, or with no room in the window, the frame is discarded, and MISSED set. -/
theorem takeFrame_discarded (hrun : s.startup.running = true) (h : s.isLive = false ∨ Config.windowRoom ≤ s.link.windowCount) :
    takeFrame tag kind perform s = s.hunt.setMissed.endEvent := by
  rw [takeFrame_running tag kind perform hrun]
  rcases h with h | h
  · rw [h]
    rfl
  · rw [if_pos h, ite_self]

/-- Behind a RESTART the frame is held. -/
theorem takeFrame_held (hlive : s.isLive = true) (hroom : s.link.windowCount < Config.windowRoom)
    (h : s.link.restartTaken = true) : takeFrame tag kind perform s = (s.hunt.hold tag kind).endEvent := by
  have hrun : s.startup.running = true := by rw [Startup.running, of_decide_eq_true hlive]
  rw [takeFrame_running tag kind perform hrun, if_neg (by rw [hlive]; exact Bool.false_ne_true),
    if_neg (Nat.not_le.mpr hroom), if_pos h]

end

/-- A command that is a frame on LRX is a completed frame with its tag and kind. -/
theorem exec_frame {i : Instr} {tag kind : Byte} (h : i.header? = some (tag, kind)) :
    ∃ perform, ∀ s, exec i s = .next (takeFrame tag kind perform s) := by
  by_cases hi : ∃ t k, i = .unknownKind t k
  · obtain ⟨t, k, rfl⟩ := hi
    cases h
    exact ⟨_, fun s => rfl⟩
  · have hreq : i.header? = i.request?.map fun x => (x.1, x.2.kind) := by
      unfold Instr.header?
      split
      · exact absurd ⟨_, _, rfl⟩ hi
      · rfl
    obtain ⟨⟨t, r⟩, hr, hx⟩ := Option.map_eq_some_iff.mp (hreq.symm.trans h)
    cases hx
    exact ⟨_, fun s => exec_request hr s⟩

/-- Settles O7: the branches of `takeFrame` that do not reach the owner. -/
theorem framesNotPerformed : Obligations.FramesNotPerformed := by
  intro i tag kind s h
  obtain ⟨perform, hexec⟩ := exec_frame h
  rw [hexec]
  refine ⟨fun hstop => ?_, fun hrun hfull => ?_, fun hlive hroom hrestart => ?_⟩
  · rw [takeFrame_stopped tag kind perform hstop]
  · rw [takeFrame_discarded tag kind perform hrun hfull]
    rfl
  · rw [takeFrame_held tag kind perform hlive hroom hrestart]
    rfl

/-! ### Taken requests (R153 to R156) -/

/-- A taken request is answered with what its owner makes of it. -/
theorem answered_request {s : State} (h : s.takes) (tag : Byte) (r : Request) :
    answered s (takeFrame tag r.kind (performRequest r) s)
      (replyTo tag r.kind (performRequest r s.hunt).status (performRequest r s.hunt).result) := by
  have hlink := link_request s.hunt r
  rw [takeFrame_takes h]
  obtain ⟨hlive, -, -⟩ := h
  exact answered_endEvent tag r.kind _ _ hlive (startup_request s.hunt r) (by rw [hlink]; rfl) (by rw [hlink]; rfl)
    (by rw [hlink]; rfl)

/-- A request refused leaves the state and gives no result fields. -/
theorem request_refused {r : Request} {s : State} (hok : (performRequest r s).status ≠ .ok)
    (hacc : (performRequest r s).status ≠ .accepted) : (performRequest r s).state = s ∧ (performRequest r s).result = [] := by
  by_cases h : r = .restart
  · subst h
    exact absurd rfl hok
  · exact (judged_request s h).of_not_accepted hok hacc

/-- Settles O8: the reply joins the queue as the event ends (`answered_request`), and what is not accepted is a refusal
(`Done.Judged`). -/
theorem takenRequestIsAnswered : Obligations.TakenRequestIsAnswered :=
  ⟨fun _ tag r s hr h => ⟨_, exec_request hr s, answered_request h tag r⟩, fun _ _ hok hacc => request_refused hok hacc⟩

/-! ### ECHO (R160) -/

/-- A reply body is the status, the link flags and the result fields (R171). -/
theorem length_replyBody (st : Status) (missed waiting : Bool) (result : List Byte) :
    (st.code :: linkFlags missed waiting :: result).length = result.length + 2 := rfl

/-- Settles O32: ECHO is accepted up to 118 bytes and refused above, and a reply body is its result with two bytes before. -/
theorem echoReturnsItsBody : Obligations.EchoReturnsItsBody := by
  refine fun s tag body ht => ⟨fun hlen => ⟨?_, fun m w => ?_⟩, fun hlen => ?_, fun hlen m w => ?_⟩
  · exact accepted_of_ok ht rfl (if_pos hlen)
  · rw [length_replyBody]
    omega
  · exact refuses_of_refuse ht rfl (if_neg (Nat.not_le.mpr hlen))
  · rw [length_replyBody, hlen]

end Sys2Proof.Machine
end

section
/-! PROOFS. The bytes of a frame, received one by one, are that frame taken and performed (O5). -/

namespace Sys2Proof.Machine

/-! ### Commands in turn -/

theorem runAll_cons {i : Instr} {is : List Instr} {s t : State} (h : exec i s = .next t) : runAll (i :: is) s = runAll is t := by
  rw [runAll, h]

theorem runAll_last {i : Instr} {s t : State} (h : exec i s = .next t) : runAll [i] s = .next t := runAll_cons h

/-- Bytes received one after another without framing error. -/
def characters (bs : List Byte) : List Instr := bs.map fun c => .characterReceived c false

/-! ### The receiver alone moves -/

theorem setRx_self (s : State) : s.setRx s.link.rx = s := rfl

theorem rx_setRx (s : State) (r : Rx) : (s.setRx r).link.rx = r := rfl

/-- The settling test does not see the receiver. -/
theorem testSettled_setRx (s : State) (r : Rx) : (s.setRx r).testSettled = s.testSettled.setRx r := by
  cases hg : s.settling with
  | none => rw [testSettled_idle hg, testSettled_idle (s := s.setRx r) hg]
  | some g =>
    by_cases hm : ∃ o, (s.out o).moving = true
    · obtain ⟨o, ho⟩ := hm
      rw [testSettled_unsettled hg ho, testSettled_unsettled (s := s.setRx r) hg ho]
    · have hstill : ∀ o, (s.out o).moving = false := fun o => Bool.eq_false_iff.mpr fun ho => hm ⟨o, ho⟩
      rw [testSettled_settled hg hstill, testSettled_settled (s := s.setRx r) hg hstill]
      rfl

/-- Nor does the transmitter. -/
theorem transmit_setRx (s : State) (r : Rx) : (s.setRx r).transmit = s.transmit.setRx r := by
  by_cases hlive : s.isLive = true
  · cases hltx : s.link.onLtx with
    | some f => rw [State.transmit_busy (s := s) (by rw [hltx]; rfl),
        State.transmit_busy (s := s.setRx r) (by rw [State.link_setRx, hltx]; rfl)]
    | none =>
      cases hq : s.link.queued with
      | cons x xs =>
        rw [State.transmit_reply hlive hltx hq, State.transmit_reply (s := s.setRx r) hlive hltx hq]
        rfl
      | nil =>
        cases hn : takeUnsent s.notices.records with
        | none => rw [State.transmit_nothing hlive hltx hq hn, State.transmit_nothing (s := s.setRx r) hlive hltx hq hn]
        | some x =>
          rw [State.transmit_notice hlive hltx hq hn, State.transmit_notice (s := s.setRx r) hlive hltx hq hn]
          rfl
  · have hstop : s.isLive = false := Bool.eq_false_iff.mpr hlive
    rw [State.transmit_notLive hstop, State.transmit_notLive (s := s.setRx r) hstop]

theorem endEvent_setRx (s : State) (r : Rx) : (s.setRx r).endEvent = s.endEvent.setRx r := by
  unfold State.endEvent
  rw [testSettled_setRx, transmit_setRx]

/-- A completed frame leaves nothing to do at the end of its event. -/
theorem endEvent_takeFrame {s : State} (h : s.startup.running = true) (tag kind : Byte) (perform : State → Done) :
    (takeFrame tag kind perform s).endEvent = takeFrame tag kind perform s := by
  rw [takeFrame_running tag kind perform h]
  split_ifs <;> exact State.endEvent_endEvent _

/-- Where the receiver stands as the frame completes is nothing to the frame (log 6). -/
theorem takeFrame_setRx {s : State} (h : s.startup.running = true) (r : Rx) (tag kind : Byte) (perform : State → Done) :
    takeFrame tag kind perform (s.setRx r) = takeFrame tag kind perform s := by
  rw [takeFrame_running tag kind perform h, takeFrame_running (s := s.setRx r) tag kind perform h]
  rfl

/-! ### A frame, part by part -/

/-- The byte that completes a CRC that matches (R151). -/
theorem exec_lastByte {s : State} (hrun : s.startup.running = true) {l tag kind hi lo : Byte} {body : List Byte}
    (hcrc : half hi lo = crc16 (l :: tag :: kind :: body)) :
    exec (.characterReceived lo false) (s.setRx ⟨.check, l :: tag :: kind :: body ++ [hi], 1, true⟩) =
      .next (takeFrame tag kind (performFrame kind body) s) := by
  have hlast : receiveChar lo (s.setRx ⟨.check, l :: tag :: kind :: body ++ [hi], 1, true⟩) =
      takeFrame tag kind (performFrame kind body) s := by
    rw [receiveChar_crcLow lo (rx_setRx ..), List.append_assoc]
    exact ((completeFrame_eq ..).trans (if_pos hcrc.symm)).trans (takeFrame_setRx hrun ..)
  rw [exec_running (State.startup_setRx s _ ▸ hrun) rfl hlast, endEvent_takeFrame hrun]

section
variable {s : State} (hrun : s.startup.running = true) (hend : s.endEvent = s)
include hrun hend

/-- A byte that only moves the receiver on. -/
theorem runAll_character {c : Byte} {cs : List Byte} {r r' : Rx} (h : receiveChar c (s.setRx r) = (s.setRx r).setRx r') :
    runAll (characters (c :: cs)) (s.setRx r) = runAll (characters cs) (s.setRx r') := by
  refine runAll_cons ?_
  rw [exec_running (s := s.setRx r) hrun rfl h, endEvent_setRx, endEvent_setRx, hend]
  rfl

/-- Sync byte, length, tag and kind. -/
theorem runAll_header {l : Byte} (hl : l.toNat ≤ 120) (tag kind : Byte) (cs : List Byte) :
    runAll (characters (Config.syncByte :: l :: tag :: kind :: cs)) (s.setRx .hunting) = runAll (characters cs)
      (s.setRx (if l = 0#8 then ⟨.check, [l, tag, kind], 2, true⟩ else ⟨.body, [l, tag, kind], l.toNat, true⟩)) := by
  show runAll (characters (0xA5#8 :: l :: tag :: kind :: cs)) _ = _
  rw [runAll_character hrun hend (receiveChar_sync (rx_setRx ..)),
    runAll_character hrun hend (receiveChar_length l (rx_setRx ..) hl),
    runAll_character hrun hend (receiveChar_tag tag (rx_setRx ..)),
    runAll_character hrun hend (receiveChar_kind kind (rx_setRx ..))]

/-- The body, of which at least one byte is to come. -/
theorem runAll_body (c : Byte) (body cs : List Byte) (bs : List Byte) :
    runAll (characters (c :: body ++ cs)) (s.setRx ⟨.body, bs, (c :: body).length, true⟩) =
      runAll (characters cs) (s.setRx ⟨.check, bs ++ c :: body, 2, true⟩) := by
  induction body generalizing c bs with
  | nil => exact runAll_character hrun hend (receiveChar_bodyEnd c (rx_setRx ..))
  | cons d body ih =>
    refine (runAll_character hrun hend (receiveChar_body (n := body.length) c (rx_setRx ..))).trans ?_
    refine (ih d (bs ++ [c])).trans ?_
    rw [List.append_assoc]
    rfl

/-- The two bytes of a CRC that matches. -/
theorem runAll_crc (l tag kind : Byte) (body : List Byte) :
    runAll (characters (b2 (crc16 (l :: tag :: kind :: body)))) (s.setRx ⟨.check, l :: tag :: kind :: body, 2, true⟩) =
      .next (takeFrame tag kind (performFrame kind body) s) :=
  (runAll_character hrun hend (receiveChar_crcHigh _ (rx_setRx ..))).trans
    (runAll_last (exec_lastByte hrun (half_bytes _)))

/-- From the header's end, body and CRC. -/
theorem runAll_rest {tag kind : Byte} {body : List Byte} {l : Byte} (hl : l.toNat = body.length) :
    runAll (characters (body ++ b2 (crc16 (l :: tag :: kind :: body))))
      (s.setRx (if l = 0#8 then ⟨.check, [l, tag, kind], 2, true⟩ else ⟨.body, [l, tag, kind], l.toNat, true⟩)) =
      .next (takeFrame tag kind (performFrame kind body) s) := by
  cases body with
  | nil =>
    rw [if_pos (BitVec.eq_of_toNat_eq hl)]
    exact runAll_crc hrun hend l tag kind []
  | cons c body =>
    have hne : l ≠ 0#8 := by
      rintro rfl
      exact absurd hl.symm (Nat.succ_ne_zero _)
    rw [if_neg hne, hl]
    exact (runAll_body hrun hend c body _ _).trans (runAll_crc hrun hend l tag kind (c :: body))

end

/-- Settles O5: header, body and CRC in turn move the receiver alone, and the last byte completes the frame. -/
theorem charactersMakeTheFrame : Obligations.CharactersMakeTheFrame := by
  intro tag kind body s hlen hrun hrx hend
  have hl : (BitVec.ofNat 8 body.length).toNat = body.length := toNat_count hlen
  have hs : s.setRx .hunting = s := by rw [← hrx, setRx_self]
  have hheader := runAll_header hrun hend (hl.trans_le hlen) tag kind
    (body ++ b2 (crc16 (BitVec.ofNat 8 body.length :: tag :: kind :: body)))
  rw [hs] at hheader
  exact hheader.trans (runAll_rest hrun hend hl)

end Sys2Proof.Machine
end

section
/-! SUPPORT. What an event can do to the notice queue, said once (`Notices.Evolves`): it posts notices with the details of their kind,
lets records leave, changes sent marks or the filter, or makes the queue cold. Each of these keeps both forms of the queue. -/

namespace Sys2Proof.Machine

/-! ### The operations on the queue (R163 to R170) -/

/-- The second queue is the first after some operations. -/
inductive Notices.Evolves (q : Notices) : Notices → Prop where
  | refl : Evolves q q
  /-- A notice is offered (R163). -/
  | post {r : Notices} (h : Evolves q r) (tick : Tick) {p : Posting} (hp : p.laidOut) : Evolves q (r.post tick p)
  /-- The oldest records leave, and the lost count is tested (R164). -/
  | leave {r : Notices} (h : Evolves q r) (k : Nat) (tick : Tick) :
      Evolves q (({ r with records := r.records.drop k } : Notices).testLost tick)
  /-- Every record is marked unsent (R157, R167). -/
  | unsend {r : Notices} (h : Evolves q r) : Evolves q r.unsend
  /-- The oldest unsent record is marked sent (R165). -/
  | take {r : Notices} (h : Evolves q r) {x : NoticeRec} {l : List NoticeRec} (ht : takeUnsent r.records = some (x, l)) :
      Evolves q { r with records := l }
  /-- A filter comes into force (R168, R170). -/
  | filter {r : Notices} (h : Evolves q r) (f : Half) : Evolves q { r with filter := f }
  /-- A cold start (R169). -/
  | cold (f : Half) : Evolves q (.cold f)

theorem Notices.Evolves.trans {q r u : Notices} (h : q.Evolves r) (g : r.Evolves u) : q.Evolves u := by
  induction g with
  | refl => exact h
  | post _ tick hp ih => exact ih.post tick hp
  | leave _ k tick ih => exact ih.leave k tick
  | unsend _ ih => exact ih.unsend
  | take _ ht ih => exact ih.take ht
  | filter _ f ih => exact ih.filter f
  | cold f => exact .cold f

/-- R162. -/
theorem Notices.Evolves.wf {q r : Notices} (h : q.Evolves r) (hq : q.wf) : r.wf := by
  induction h with
  | refl => exact hq
  | post _ tick _ ih => exact Notices.wf_post ih tick _
  | leave _ k tick ih => exact Notices.wf_testLost (Notices.wf_drop ih k) tick
  | unsend _ ih => exact Notices.wf_unsend ih
  | take _ ht ih => exact Notices.wf_taken ih ht
  | filter _ f ih => exact Notices.wf_filter ih f
  | cold f => exact Notices.wf_cold f

/-- R173. -/
theorem Notices.Evolves.laidOut {q r : Notices} (h : q.Evolves r) (hq : q.laidOut) : r.laidOut := by
  induction h with
  | refl => exact hq
  | post _ tick hp ih => exact Notices.laidOut_post ih tick hp
  | leave _ k tick ih => exact Notices.laidOut_testLost (Notices.laidOut_drop ih k) tick
  | unsend _ ih => exact Notices.laidOut_unsend ih
  | take _ ht ih => exact Notices.laidOut_taken ih ht
  | filter _ f ih => exact ih
  | cold f => exact fun _ hr => nomatch hr

/-! ### Effects on the state -/

/-- From `s` to `t` the notice queue has gone through operations on it alone. -/
def QueueEvolves (s t : State) : Prop := s.notices.Evolves t.notices

theorem QueueEvolves.quiet {s t : State} (h : t.notices = s.notices) : QueueEvolves s t := by
  unfold QueueEvolves
  rw [h]
  exact .refl

theorem QueueEvolves.refl (s : State) : QueueEvolves s s := .quiet rfl

theorem QueueEvolves.trans {s t u : State} (h : QueueEvolves s t) (g : QueueEvolves t u) : QueueEvolves s u :=
  Notices.Evolves.trans h g

theorem QueueEvolves.post {s t : State} (h : QueueEvolves s t) {p : Posting} (hp : p.laidOut) : QueueEvolves s (t.post p) :=
  Notices.Evolves.post h t.tick hp

theorem QueueEvolves.postAll {s t : State} (h : QueueEvolves s t) {ps : List Posting} (hp : ∀ p ∈ ps, p.laidOut) :
    QueueEvolves s (t.postAll ps) := by
  induction ps generalizing t with
  | nil => exact h
  | cons p ps ih =>
    obtain ⟨hhead, htail⟩ := List.forall_mem_cons.mp hp
    exact ih (t := t.post p) (h.post hhead) htail

/-- An event that the state may not give. -/
theorem QueueEvolves.ite {s t : State} {c : Prop} [Decidable c] (h : QueueEvolves s t) : QueueEvolves s (if c then t else s) := by
  split
  · exact h
  · exact .refl s

/-- A check that may refuse the request. -/
theorem QueueEvolves.unless {s : State} {st : Status} {d : Done} {c : Prop} [Decidable c] (h : QueueEvolves s d.state) :
    QueueEvolves s (if c then Done.refuse s st else d).state := by
  split
  · exact .refl s
  · exact h

/-- A request that only answers. -/
theorem QueueEvolves.answer {p : State → Done} {s : State} (h : (p s).state = s) : QueueEvolves s (p s).state :=
  .quiet (congrArg State.notices h)

/-! ### The notices of an event's course (R14, R55, R75) -/

/-- The notices of sources that the event has caused have the details of their kind. -/
def Ev.LaidOut (v : Ev) : Prop := ∀ p ∈ v.srcNotes, p.laidOut

theorem Ev.LaidOut.none {k : Clocks} {ns : List (Fin 8 × OutNote)} : Ev.LaidOut ⟨k, ns, []⟩ := fun _ hp => nomatch hp

theorem Ev.LaidOut.one {k : Clocks} {ns : List (Fin 8 × OutNote)} {code before after budget : Nat} {why : Option FaultKind} :
    Ev.LaidOut ⟨k, ns, [sourceNote code before after budget why]⟩ := fun p hp => by
  rw [List.mem_singleton.mp hp]
  exact sourceNote_laidOut ..

theorem Ev.Sound.laidOut {k : Clocks} {v : Ev} (h : Ev.Sound ⟨k, [], []⟩ v) : v.LaidOut := h.notes Ev.LaidOut.none

theorem laidOut_postings {v : Ev} (h : v.LaidOut) (e : Env) : ∀ p ∈ v.postings e, p.laidOut := by
  intro p hp
  rcases List.mem_append.mp hp with hout | hsrc
  · obtain ⟨o, -, hmem⟩ := List.mem_flatMap.mp hout
    obtain ⟨x, -, rfl⟩ := List.mem_map.mp hmem
    exact OutNote.laidOut o _
  · exact h p hsrc

/-- An event posts the notices of its course after those of its own change. -/
theorem QueueEvolves.runEvent {s s0 s' : State} {cause : Cause} {f : Env → Ev → Ev} (hs : QueueEvolves s s')
    (hf : ∀ e, (f e ⟨s'.clk, [], []⟩).LaidOut) : QueueEvolves s (runEvent cause s0 s' f) := by
  unfold Machine.runEvent
  dsimp only
  refine QueueEvolves.postAll ?_ (laidOut_postings ?_ _)
  · exact hs
  · exact (sound_settle _ _).notes (hf _)

theorem QueueEvolves.reevaluate {s s0 s' : State} {cause : Cause} (hs : QueueEvolves s s') :
    QueueEvolves s (reevaluate cause s0 s') := .runEvent hs fun _ => .none

/-! ### The end of an event (R114, R165) -/

theorem queueEvolves_testSettled (s : State) : QueueEvolves s s.testSettled := by
  unfold State.testSettled
  split
  · exact .refl s
  · rename_i g _
    split
    · exact .refl s
    · exact (QueueEvolves.refl s).post (settledPosting_laidOut s g)

theorem queueEvolves_transmit (s : State) : QueueEvolves s s.transmit := by
  unfold State.transmit
  split
  · exact .refl s
  · split
    · exact .quiet rfl
    · split
      · exact .refl s
      · rename_i ht
        exact Notices.Evolves.refl.take ht

theorem queueEvolves_endEvent (s : State) : QueueEvolves s s.endEvent :=
  (queueEvolves_testSettled s).trans (queueEvolves_transmit _)

end Sys2Proof.Machine
end

section
/-! PROOFS. Every step keeps the notice queue numbered without a gap and laid out by kind (O16). -/

namespace Sys2Proof.Machine

section
variable (s : State)

/-! ### Stack and lines -/

/-- A transition posts PROFILE ENTERED before the notices of what it moves (R113). -/
theorem queueEvolves_beginTransition (c : TransitionCause) (s0 : State) : QueueEvolves s (beginTransition c s0 s) := by
  refine .reevaluate ?_
  exact Notices.Evolves.refl.post s.tick rfl

theorem queueEvolves_changeStack (c : TransitionCause) (k : Stack) : QueueEvolves s (changeStack c k s) := by
  unfold changeStack
  split
  · exact .quiet rfl
  · exact queueEvolves_beginTransition { s with stack := k } c s

theorem queueEvolves_wakeEvent (c : WakeCause) : QueueEvolves s (wakeEvent c s) :=
  QueueEvolves.trans (t := s.post (wakePosting c s)) ((QueueEvolves.refl s).post rfl) (queueEvolves_changeStack _ .wake _)

theorem queueEvolves_offerWake (c : WakeCause) : QueueEvolves s (offerWake c s) := .ite (queueEvolves_wakeEvent s c)

theorem queueEvolves_resumeProfile (c : TransitionCause) : QueueEvolves s (resumeProfile c s).state := by
  unfold resumeProfile
  split
  · exact .refl s
  · exact queueEvolves_changeStack s c _

@[simp] theorem notices_lineOff (l : Fin 8) : (lineOff l s).notices = s.notices := by
  unfold lineOff
  dsimp only
  split <;> rfl

@[simp] theorem notices_remapLine (l : Fin 8) (was : Bool) : (remapLine l was s).notices = s.notices := by
  unfold remapLine
  dsimp only
  split
  · rfl
  · exact notices_lineOff ..
  · rfl
  · rfl

/-! ### Requests on sources, outputs and chains -/

theorem queueEvolves_sourceSet (r : SourceSetReq) : QueueEvolves s (performSourceSet r s).state := by
  unfold performSourceSet
  split
  · exact .refl s
  · exact .refl s
  · refine .unless (.unless (.unless ?_))
    rw [Done.state_ok]
    refine .runEvent (.quiet rfl) fun e => ?_
    dsimp only
    split
    · exact (sound_enterStarting e .syn _).laidOut
    · exact .none

theorem queueEvolves_sourceKeep (x f : Byte) : QueueEvolves s (performSourceKeep x f s).state := by
  unfold performSourceKeep
  split
  · exact .refl s
  · exact .refl s
  · split
    · exact .refl s
    · exact .reevaluate (.quiet rfl)

theorem queueEvolves_clearSource (o : Osc) : QueueEvolves s (clearSource o s) := by
  unfold clearSource
  dsimp only
  split
  · exact .runEvent (.quiet rfl) fun e => (sound_unquarantine e o _).laidOut
  · exact .runEvent (.quiet rfl) fun _ => (sound_enterOff o _).laidOut
  · exact .quiet rfl

theorem queueEvolves_sourceClear (x : Byte) : QueueEvolves s (performSourceClear x s).state := by
  unfold performSourceClear
  split
  · exact .refl s
  · exact .ite (.runEvent (.refl s) fun _ => .one)
  · exact queueEvolves_clearSource s _

theorem queueEvolves_outputSet (r : OutputSetReq) : QueueEvolves s (performOutputSet r s).state := by
  unfold performOutputSet
  split
  · exact .refl s
  · split
    · exact .refl s
    · exact .unless (.reevaluate (.quiet rfl))

theorem queueEvolves_selectOutput (o : Fin 8) (entry : Option (Fin 4)) : QueueEvolves s (selectOutput o entry s).state := by
  unfold selectOutput
  split
  · exact .refl s
  · exact .unless (.reevaluate (.quiet rfl))

theorem queueEvolves_outputSelect (x i : Byte) : QueueEvolves s (performOutputSelect x i s).state := by
  unfold performOutputSelect
  split
  · exact .refl s
  · split
    · exact .refl s
    · split
      · exact .refl s
      · exact queueEvolves_selectOutput s _ _

theorem queueEvolves_outputQuery (x : Byte) : QueueEvolves s (performOutputQuery x s).state := by
  unfold performOutputQuery
  split
  · exact .refl s
  · split
    · exact .refl s
    · exact .quiet rfl

theorem queueEvolves_chainSet (r : ChainSetReq) : QueueEvolves s (performChainSet r s).state := by
  unfold performChainSet
  split
  · exact .refl s
  · rename_i k _
    split
    · exact .refl s
    · split
      · exact .refl s
      · refine .unless (.unless ?_)
        rw [Done.state_ok]
        exact .runEvent (.quiet rfl) fun e => (sound_chainReplacedAll e k _).laidOut

/-! ### Requests on claims, lines and profiles -/

theorem queueEvolves_claim (r : ClaimReq) : QueueEvolves s (performClaim r s).state := by
  unfold performClaim
  split
  · exact .refl s
  · exact .refl s
  · split
    · exact .refl s
    · split
      · exact .refl s
      · exact .unless (.reevaluate (.quiet rfl))

theorem queueEvolves_releaseOne (n : Byte) (o : Fin 8) : QueueEvolves s (releaseOne n o s).state := by
  unfold releaseOne
  split
  · exact .reevaluate (.quiet rfl)
  · exact .refl s

theorem queueEvolves_releaseEvery (n : Byte) : QueueEvolves s (releaseEvery n s).state := .reevaluate (.quiet rfl)

theorem queueEvolves_release (c : Half) (x : Byte) : QueueEvolves s (performRelease c x s).state := by
  unfold performRelease
  split
  · exact .refl s
  · exact .refl s
  · split
    · exact .refl s
    · exact queueEvolves_releaseOne s _ _

theorem queueEvolves_releaseAll (c : Half) : QueueEvolves s (performReleaseAll c s).state := by
  unfold performReleaseAll
  split
  · exact .refl s
  · exact .refl s
  · exact queueEvolves_releaseEvery s _

theorem queueEvolves_lineMapSet (r : LineMapReq) : QueueEvolves s (performLineMapSet r s).state := by
  unfold performLineMapSet
  split
  · exact .refl s
  · split
    · exact .refl s
    · exact .unless (.unless (.reevaluate (.quiet (notices_remapLine ..))))

theorem queueEvolves_profileSet (r : ProfileSetReq) : QueueEvolves s (performProfileSet r s).state := by
  unfold performProfileSet
  split
  · exact .refl s
  · split
    · exact .refl s
    · rename_i p _ _ q _
      dsimp only
      rw [Done.state_ok]
      split
      · exact queueEvolves_beginTransition { s with profiles := s.profiles.set p q } .request s
      · exact .quiet rfl

theorem queueEvolves_profileEnter (x : Byte) : QueueEvolves s (performProfileEnter x s).state := by
  unfold performProfileEnter
  split
  · exact .refl s
  · exact queueEvolves_changeStack s _ _

theorem queueEvolves_resumeTarget (x : Byte) : QueueEvolves s (performResumeTarget x s).state := by
  unfold performResumeTarget
  split
  · exact .refl s
  · exact .unless (.quiet rfl)

/-! ### Requests on actions, notices and images -/

theorem queueEvolves_actionAdd (r : ActionAddReq) : QueueEvolves s (performActionAdd r s).state := by
  unfold performActionAdd
  split
  · exact .refl s
  · exact .unless (.unless (.quiet rfl))

theorem queueEvolves_actionCancel (n : Byte) : QueueEvolves s (performActionCancel n s).state := by
  refine .unless ?_
  split
  · exact .refl s
  · exact .quiet rfl

theorem queueEvolves_noticeAck (n : Half) : QueueEvolves s (performNoticeAck n s).state := by
  refine .unless ?_
  split
  · exact .refl s
  · rename_i k _
    exact Notices.Evolves.refl.leave k s.tick

theorem queueEvolves_imageSave (x : Byte) : QueueEvolves s (performImageSave x s).state := by
  unfold performImageSave
  split
  · exact .refl s
  · exact .unless (.unless (.quiet rfl))

theorem queueEvolves_request (r : Request) : QueueEvolves s (performRequest r s).state := by
  cases r with
  | identify => exact .refl s
  | echo b => exact .answer (p := performEcho b) (by unfold performEcho; split <;> rfl)
  | restart => exact .quiet rfl
  | sourceSet r => exact queueEvolves_sourceSet s r
  | sourceQuery x => exact .answer (p := performSourceQuery x) (by unfold performSourceQuery; split <;> rfl)
  | sourceKeep x f => exact queueEvolves_sourceKeep s x f
  | sourceClear x => exact queueEvolves_sourceClear s x
  | monitorSet r => exact .unless (.quiet rfl)
  | monitorQuery => exact .refl s
  | outputSet r => exact queueEvolves_outputSet s r
  | outputQuery x => exact queueEvolves_outputQuery s x
  | outputSelect x i => exact queueEvolves_outputSelect s x i
  | chainSet r => exact queueEvolves_chainSet s r
  | chainQuery x => exact .answer (p := performChainQuery x) (by unfold performChainQuery; split <;> rfl)
  | claim r => exact queueEvolves_claim s r
  | release c x => exact queueEvolves_release s c x
  | releaseAll c => exact queueEvolves_releaseAll s c
  | claimList f => exact .unless (.refl s)
  | lineMapSet r => exact queueEvolves_lineMapSet s r
  | lineQuery x => exact .answer (p := performLineQuery x) (by unfold performLineQuery; split <;> rfl)
  | profileSet r => exact queueEvolves_profileSet s r
  | profileQuery x => exact .answer (p := performProfileQuery x) (by unfold performProfileQuery; split <;> rfl)
  | profileEnter x => exact queueEvolves_profileEnter s x
  | resume => exact queueEvolves_resumeProfile s _
  | resumeTarget x => exact queueEvolves_resumeTarget s x
  | stackQuery => exact .refl s
  | timeQuery => exact .refl s
  | actionAdd r => exact queueEvolves_actionAdd s r
  | actionCancel n => exact queueEvolves_actionCancel s n
  | actionList f => exact .unless (.refl s)
  | noticeAck n => exact queueEvolves_noticeAck s n
  | noticeResend => exact Notices.Evolves.refl.unsend
  | noticeFilter f => exact .unless (Notices.Evolves.refl.filter f)
  | imageSave x => exact queueEvolves_imageSave s x
  | imageInfo => exact .refl s

/-! ### Events of the running part -/

theorem queueEvolves_detectStart (o : Osc) : QueueEvolves s (detectStart o s) := .ite (.runEvent (.refl s) fun _ => .one)

theorem queueEvolves_detectLock : QueueEvolves s (detectLock s) := .ite (.runEvent (.refl s) fun _ => .one)

theorem queueEvolves_failStart (o : Osc) (k : TimerKind) : QueueEvolves s (failStart o k s) :=
  .ite (.runEvent (.refl s) fun e => (sound_fault e o _ _).laidOut)

theorem queueEvolves_expireQuarantine (o : Osc) : QueueEvolves s (expireQuarantine o s) := by
  unfold expireQuarantine
  split
  · rename_i h
    rw [Bool.and_eq_true, decide_eq_true_eq] at h
    exact .runEvent (.refl s) fun e => (sound_leaveQuarantine (v := ⟨s.clk, [], []⟩) e h.1).laidOut
  · exact .refl s

/-- The end of a phase posts notices of the output alone. -/
theorem queueEvolves_outputEvent {o : Fin 8} {m : Env → Ev → Moved} :
    QueueEvolves s (runEvent .ordinary s s fun e v => v.putOut o (m e v)) := .runEvent (.refl s) fun _ => .none

theorem queueEvolves_expireRevert (o : Fin 8) : QueueEvolves s (expireRevert o s) := by
  unfold expireRevert
  split
  · split
    · exact .refl s
    · split
      · exact .quiet rfl
      · exact .reevaluate (.quiet rfl)
  · exact .refl s

theorem queueEvolves_expireLease (n : Byte) (o : Fin 8) : QueueEvolves s (expireLease n o s) := by
  unfold expireLease
  split
  · refine .ite (.reevaluate ?_)
    exact Notices.Evolves.refl.post s.tick rfl
  · exact .refl s

theorem queueEvolves_activateLine (l : Fin 8) : QueueEvolves s (activateLine l s) := by
  unfold activateLine
  split
  · exact .refl s
  · refine QueueEvolves.trans (QueueEvolves.trans ?_ (queueEvolves_testSettled _)) (queueEvolves_offerWake _ _)
    exact .reevaluate (.quiet rfl)

theorem queueEvolves_deactivateLine (l : Fin 8) : QueueEvolves s (deactivateLine l s) :=
  .ite (.reevaluate (.quiet (notices_lineOff ..)))

theorem queueEvolves_expireHold (l : Fin 8) : QueueEvolves s (expireHold l s) := .ite (.reevaluate (.quiet rfl))

theorem queueEvolves_performAction (a : Action) : QueueEvolves s (performAction a s).state := by
  unfold performAction
  split
  · exact queueEvolves_changeStack s _ _
  · exact queueEvolves_wakeEvent s _
  · exact queueEvolves_resumeProfile s _
  · exact queueEvolves_releaseEvery s _
  · exact queueEvolves_releaseOne s _ _
  · exact queueEvolves_selectOutput s _ _
  · exact .refl s

theorem queueEvolves_settleAction (a : Action) : QueueEvolves s (settleAction a s) := by
  unfold settleAction
  split
  · exact queueEvolves_testSettled s
  · exact queueEvolves_testSettled s
  · exact .refl s

theorem queueEvolves_fireHead : QueueEvolves s (fireHead s) := by
  unfold fireHead
  split
  · exact .refl s
  · rename_i a rest _
    refine .ite ?_
    have hdone : QueueEvolves s (settleAction a (performAction a { s with actions := rest }).state) :=
      (queueEvolves_performAction { s with actions := rest } a).trans (queueEvolves_settleAction _ a)
    exact QueueEvolves.post (hdone.trans (.quiet rfl)) rfl

theorem savePosting_laidOut (good : Bool) (v : Save) : (savePosting good v).laidOut := by
  cases good <;> rfl

theorem queueEvolves_endCheck (good : Bool) : QueueEvolves s (endCheck good s) := by
  unfold endCheck
  split
  · refine .ite (QueueEvolves.post ?_ (savePosting_laidOut ..))
    exact .quiet rfl
  · exact .refl s

/-- A warm restart empties the queue (R170). -/
theorem evolves_emptyQueue (tick : Tick) (q : Notices) : q.Evolves (emptyQueue tick q) := by
  unfold emptyQueue
  split
  · exact .refl
  · have h := (Notices.Evolves.refl (q := q)).leave q.records.length tick
    rw [List.drop_length] at h
    exact h

theorem queueEvolves_endFrame : QueueEvolves s (endFrame s) := by
  unfold endFrame
  split
  · exact .refl s
  · dsimp only
    split
    · exact evolves_emptyQueue s.tick s.notices
    · exact .quiet rfl

/-- Every event of the running part; a character received is a step of its own. -/
theorem queueEvolves_event {i : Instr} {f : State → State} (hf : eventBody i = some f)
    (hc : ∀ c b, i ≠ .characterReceived c b) : QueueEvolves s (f s) := by
  cases i <;> cases hf
  case characterReceived c b => exact absurd rfl (hc c b)
  case gap => exact .ite (.quiet rfl)
  case linkBreak => exact Notices.Evolves.refl.unsend
  case frameSent => exact queueEvolves_endFrame s
  case startDetection o => exact queueEvolves_detectStart s o
  case startTimerExpiry o => exact queueEvolves_failStart s o _
  case lockDetection => exact queueEvolves_detectLock s
  case lockTimerExpiry => exact queueEvolves_failStart s _ _
  case quarantineExpiry o => exact queueEvolves_expireQuarantine s o
  case rehabilitationExpiry o => exact .ite (.quiet rfl)
  case surveyCompletion => exact .runEvent (.refl s) fun e => (sound_completeSurvey _ e _).laidOut
  case releaseEnd o => exact .ite (queueEvolves_outputEvent s)
  case releaseTimeout o => exact .ite (queueEvolves_outputEvent s)
  case acquireEnd o => exact .ite (queueEvolves_outputEvent s)
  case acquireTimeout o => exact .ite (queueEvolves_outputEvent s)
  case dividerChange o => exact .quiet rfl
  case revertTimerExpiry o => exact queueEvolves_expireRevert s o
  case leaseExpiry n o => exact queueEvolves_expireLease s n o
  case lineActivation l => exact queueEvolves_activateLine s l
  case lineDeactivation l => exact queueEvolves_deactivateLine s l
  case holdExpiry l => exact queueEvolves_expireHold s l
  case wakePinEdge => exact queueEvolves_offerWake s _
  case tick => exact .quiet rfl
  case actionFiring => exact queueEvolves_fireHead s
  case eraseComplete => exact .quiet rfl
  case writeComplete => exact .quiet rfl
  case checkComplete good => exact queueEvolves_endCheck s good

/-! ### Start-up events -/

theorem startedPosting_laidOut (r : StartRecord) : (startedPosting r).laidOut := rfl

theorem queueEvolves_endSelect : QueueEvolves s (endSelect s) := by
  refine .ite ?_
  dsimp only
  split
  · exact .quiet rfl
  · exact Notices.Evolves.cold _

/-- STARTED is posted under the filter that the restart has put in force (R170). -/
theorem queueEvolves_liveWarm : QueueEvolves s (liveWarm s) := by
  rw [liveWarm_eq]
  refine .runEvent ?_ fun e => (sound_restartSources _ e _).laidOut
  exact (Notices.Evolves.refl.filter _).post s.tick (startedPosting_laidOut _)

theorem queueEvolves_liveCold (pins : Byte) : QueueEvolves s (liveCold pins s) := by
  rw [liveCold_eq, coldReady_eq]
  refine .reevaluate ?_
  exact Notices.Evolves.refl.post 0#32 (startedPosting_laidOut _)

theorem queueEvolves_reachLive (pins : Byte) : QueueEvolves s (reachLive pins s) := by
  refine .ite (QueueEvolves.trans ?_ (queueEvolves_endEvent _))
  split
  · exact queueEvolves_liveWarm s
  · exact queueEvolves_liveCold s pins

theorem queueEvolves_start {i : Instr} {f : State → State} (hf : startBody i = some f) : QueueEvolves s (f s) := by
  cases i <;> cases hf
  case coldStart supply => exact Notices.Evolves.cold _
  case resetRelease => exact .ite (.quiet rfl)
  case powerupEnd b1 b0 => exact .ite (.quiet rfl)
  case selectDone => exact queueEvolves_endSelect s
  case live pins => exact queueEvolves_reachLive s pins

end

/-! ### Every step -/

/-- A step does nothing to the queue but operations on it. -/
theorem step_queueEvolves {s t : State} (hs : step s = .next t) : QueueEvolves s t :=
  step_keeps (P := QueueEvolves s) (fun _ _ h => h) (fun _ _ h => h) (fun u h => h.trans (queueEvolves_endEvent u))
    (fun r u _ h => h.trans (queueEvolves_request u r)) (fun _ _ u hf hc _ h => h.trans (queueEvolves_event u hf hc))
    (fun _ _ u hf h => h.trans (queueEvolves_start u hf)) (.refl s) hs

/-- Settles O16: a step takes the queue through operations on it alone, and each operation keeps the run of numbers and the details. -/
theorem stepKeepsNoticeQueue : Obligations.StepKeepsNoticeQueue :=
  ⟨fun _ _ hwf hs => (step_queueEvolves hs).wf hwf, fun _ _ hlaid hs => (step_queueEvolves hs).laidOut hlaid⟩

end Sys2Proof.Machine
end

section
/-! PROOFS. NOTICE ACK, NOTICE RESEND and NOTICE FILTER (O56). -/

namespace Sys2Proof.Machine

/-! ### The number acknowledged (R166) -/

theorem countThrough_absent {n : Half} {l : List NoticeRec} (h : ∀ r ∈ l, r.number ≠ n) : countThrough n l = none := by
  induction l with
  | nil => rfl
  | cons r l ih =>
    obtain ⟨hr, hl⟩ := List.forall_mem_cons.mp h
    rw [countThrough, if_neg hr, ih hl, Option.map_none]

theorem countThrough_present {r : NoticeRec} {pre : List NoticeRec} (post : List NoticeRec)
    (h : ∀ x ∈ pre, x.number ≠ r.number) : countThrough r.number (pre ++ r :: post) = some (pre.length + 1) := by
  induction pre with
  | nil => exact if_pos rfl
  | cons x pre ih =>
    obtain ⟨hx, hpre⟩ := List.forall_mem_cons.mp h
    rw [List.cons_append, countThrough, if_neg hx, ih hpre, Option.map_some, List.length_cons]

/-! ### What the requests answer -/

section
variable {s : State}

theorem performNoticeAck_zero : performNoticeAck 0#16 s = .refuse s .badValue := if_pos rfl

theorem performNoticeAck_absent {n : Half} (hn : n ≠ 0#16) (h : ∀ r ∈ s.notices.records, r.number ≠ n) :
    performNoticeAck n s = .refuse s .noSuch := by
  rw [performNoticeAck, if_neg hn, countThrough_absent h]

/-- The records behind the acknowledged one stay, and the lost count is tested (R164, R166). -/
theorem performNoticeAck_present {r : NoticeRec} {pre post : List NoticeRec} (hs : s.notices.records = pre ++ r :: post)
    (hn : r.number ≠ 0#16) (h : ∀ x ∈ pre, x.number ≠ r.number) :
    performNoticeAck r.number s =
      let q := ({ s.notices with records := post } : Notices).testLost s.tick
      .ok { s with notices := q } (b1 (pre.length + 1) ++ b1 q.records.length) := by
  have hdrop : (pre ++ r :: post).drop (pre.length + 1) = post := by
    rw [List.append_cons, List.drop_left' (by simp)]
  rw [performNoticeAck, if_neg hn, hs, countThrough_present post h]
  dsimp only
  rw [hdrop]

theorem performNoticeFilter_unknown {f : Half} (h : f &&& 0xE001#16 ≠ 0#16) : performNoticeFilter f s = .refuse s .badValue :=
  if_pos h

theorem performNoticeFilter_known {f : Half} (h : f &&& 0xE001#16 = 0#16) : performNoticeFilter f s =
    .ok { s with notices := { s.notices with filter := f } } (b2 f) := if_neg (not_not_intro h)

end

/-- Settles O56: ACK by whether a record carries the number, FILTER by whether every bit names a kind; RESEND has no check. -/
theorem noticeRequests : Obligations.NoticeRequests := by
  intro s tag ht
  refine ⟨refuses_of_refuse ht rfl performNoticeAck_zero, fun n hn habsent => ?_, fun pre r post hs hn hfirst => ?_,
    accepted_of_ok ht rfl rfl, fun f => ⟨fun h => ?_, fun h => ?_⟩⟩
  · exact refuses_of_refuse ht rfl (performNoticeAck_absent hn habsent)
  · exact accepted_of_ok ht rfl (performNoticeAck_present (s := s.hunt) hs hn hfirst)
  · exact refuses_of_refuse ht rfl (performNoticeFilter_unknown h)
  · exact accepted_of_ok ht rfl (performNoticeFilter_known h)

end Sys2Proof.Machine
end

section
/-! PROOFS. Layout of a frame and the check value of the CRC-16 (O6). -/

namespace Sys2Proof.Machine

/-- The layout with the CRC still as one two-byte field. -/
theorem frameBytes_layout (tag kind : Byte) (body : List Byte) : frameBytes tag kind body =
    [0xA5#8, BitVec.ofNat 8 body.length, tag, kind] ++ body ++
      b2 (crc16 (BitVec.ofNat 8 body.length :: tag :: kind :: body)) := rfl

/-- The check value that R171 gives, over the characters 1 to 9. -/
theorem crc16_checkValue :
    crc16 [0x31#8, 0x32#8, 0x33#8, 0x34#8, 0x35#8, 0x36#8, 0x37#8, 0x38#8, 0x39#8] = 0x29B1#16 := by
  decide +kernel

/-- Settles O6: the last two bytes are those of the CRC, high byte first, and together are the CRC again; the check value is computed. -/
theorem framesAreLaidOut : Obligations.FramesAreLaidOut := by
  refine ⟨fun tag kind body => ?_, crc16_checkValue⟩
  exact ⟨_, _, frameBytes_layout tag kind body, half_bytes (crc16 (BitVec.ofNat 8 body.length :: tag :: kind :: body))⟩

end Sys2Proof.Machine
end

section
/-! PROOFS. A step takes the front command (O1), and the state after power-on meets the invariants (O11). -/

namespace Sys2Proof.Machine

/-- Settles O1: `step` by the two forms of the queue. -/
theorem stepTakesFrontCommand : Obligations.StepTakesFrontCommand := by
  refine ⟨fun c rest s h => ?_, fun s h => ?_⟩
  · rw [step, h]
  · rw [step, h]

/-! ### Right after power-on (R134) -/

/-- The built-in default maps no pairs (R140). -/
theorem claimsOk_reset : claimsOk State.reset :=
  claimsOk_empty rfl (Nat.zero_le _) ⟨trivial, trivial, fun _ hv => nomatch hv⟩

theorem saveOk_reset : saveOk State.reset := fun _ hv => nomatch hv

/-- The part is not running yet, so that what holds of the running part holds of it. -/
theorem not_running_reset {P : Prop} : State.reset.startup.running = true → P := fun h => nomatch h

/-- Settles O11: outputs and sources are cold records, the tables and the link are empty, and the part is not running. -/
theorem resetMeetsInvariants : Obligations.ResetMeetsInvariants :=
  ⟨gateLaw_cold _ fun _ => .inl rfl, outputsOk_cold _ fun _ => .inl rfl, not_running_reset, sourcesOk_cold _ _,
    Notices.wf_cold _, List.forall_mem_nil _, Nat.zero_le _, claimsOk_reset, by decide, actionsOk_nil, saveOk_reset,
    Rx.wf_hunting, not_running_reset⟩

end Sys2Proof.Machine
end

section
/-! SUPPORT. Frames: which parts of the state an effect may change. -/

namespace Sys2Proof.Machine

/-! ### Frames (95_what_each_step_holds.md) -/

/-- From `s` to `t` every part outside `ps` is the same. -/
def Frame (ps : List Part) (s t : State) : Prop := ∀ p, p ∉ ps → p.same s t

theorem Part.same_refl (p : Part) (s : State) : p.same s s := by
  cases p
  case monState => exact ⟨rfl, rfl, rfl, rfl⟩
  all_goals rfl

theorem Part.same_trans {p : Part} {s t u : State} (h : p.same s t) (g : p.same t u) : p.same s u := by
  cases p
  case monState =>
    obtain ⟨hosc, hrco, hnum, hstart⟩ := h
    obtain ⟨gosc, grco, gnum, gstart⟩ := g
    exact ⟨gosc.trans hosc, grco.trans hrco, gnum.trans hnum, gstart.trans hstart⟩
  case link =>
    have hg : ({ u.link with rate := s.link.rate } : Link) = { t.link with rate := s.link.rate } :=
      congrArg (fun l : Link => { l with rate := s.link.rate }) g
    exact hg.trans h
  case notices =>
    have hg : ({ u.notices with filter := s.notices.filter } : Notices) = { t.notices with filter := s.notices.filter } :=
      congrArg (fun q : Notices => { q with filter := s.notices.filter }) g
    exact hg.trans h
  all_goals exact Eq.trans g h

/-- The state `s` with the parts of `ps` taken from `t`; sources and outputs only where both configuration and state are. -/
def State.withParts (ps : List Part) (s t : State) : State where
  clk :=
    { src := if .srcConfig ∈ ps ∧ .srcState ∈ ps then t.clk.src else s.clk.src
      mon := { (if .monState ∈ ps then t.clk.mon else s.clk.mon) with
        settings := if .monSettings ∈ ps then t.clk.mon.settings else s.clk.mon.settings }
      outs := if .outConfig ∈ ps ∧ .outState ∈ ps then t.clk.outs else s.clk.outs }
  chains := if .chains ∈ ps then t.chains else s.chains
  claims := if .claims ∈ ps then t.claims else s.claims
  lines := if .lines ∈ ps then t.lines else s.lines
  profiles := if .profiles ∈ ps then t.profiles else s.profiles
  stack := if .stack ∈ ps then t.stack else s.stack
  settling := if .settling ∈ ps then t.settling else s.settling
  tick := if .tick ∈ ps then t.tick else s.tick
  actions := if .actions ∈ ps then t.actions else s.actions
  startup := if .startup ∈ ps then t.startup else s.startup
  image := if .image ∈ ps then t.image else s.image
  link := { (if .link ∈ ps then t.link else s.link) with rate := if .rate ∈ ps then t.link.rate else s.link.rate }
  notices := { (if .notices ∈ ps then t.notices else s.notices) with
    filter := if .filter ∈ ps then t.notices.filter else s.notices.filter }
  freeCount := if .freeCount ∈ ps then t.freeCount else s.freeCount
  pending := if .pending ∈ ps then t.pending else s.pending

section
variable {ps qs : List Part} {s t u : State}

theorem Frame.refl (ps : List Part) (s : State) : Frame ps s s := fun p _ => p.same_refl s

theorem Frame.trans (h : Frame ps s t) (g : Frame ps t u) : Frame ps s u :=
  fun p hp => Part.same_trans (h p hp) (g p hp)

theorem Frame.mono (h : Frame ps s t) (hsub : ps ⊆ qs) : Frame qs s t := fun p hp => h p fun hin => hp (hsub hin)

/-- An event that the state may not give. -/
theorem Frame.ite {p : Prop} [Decidable p] (h : Frame ps s t) : Frame ps s (if p then t else s) := by
  split
  · exact h
  · exact .refl ps s

/-- A check that may refuse the request. -/
theorem Frame.unless {st : Status} {d : Done} {p : Prop} [Decidable p] (h : Frame ps s d.state) :
    Frame ps s (if p then Done.refuse s st else d).state := by
  split
  · exact .refl ps s
  · exact h

/-- A request that only answers. -/
theorem Frame.answer {d : Done} (h : d.state = s) : Frame ps s d.state := by
  rw [h]
  exact .refl ps s

/-- Where only parts of `ps` are written, the others are the same. -/
theorem Frame.written (h : t = s.withParts ps t) : Frame ps s t := by
  intro p hp
  rw [h]
  cases p <;> simp [Part.same, State.withParts, hp]

end

end Sys2Proof.Machine
end

section
/-! SUPPORT. The frames of the operations that requests and events share: posting, the end of an event, an event's course, and the writes of
one record. -/

namespace Sys2Proof.Machine

section
variable (s : State)

/-! ### Queue, link and the end of an event (R114, R156) -/

/-- The queue written, with its filter as it was. -/
theorem frame_notices {q : Notices} (h : q.filter = s.notices.filter) : Frame [.notices] s { s with notices := q } := by
  obtain ⟨records, next, lost, filter⟩ := q
  cases h
  exact .written rfl

/-- The link written, with its rate as it was. -/
theorem frame_link {l : Link} (h : l.rate = s.link.rate) : Frame [.link] s { s with link := l } := by
  obtain ⟨rate, rx, held, queued, onLtx, missed, restartTaken⟩ := l
  cases h
  exact .written rfl

theorem frame_post (p : Posting) : Frame [.notices] s (s.post p) := frame_notices s (Notices.filter_post ..)

theorem frame_testSettled : Frame endParts s s.testSettled := by
  rw [State.testSettled_eq]
  have hnotices := frame_notices s (State.filter_testSettled s)
  exact (hnotices.mono (by decide)).trans (.written rfl)

theorem frame_endEvent : Frame endParts s s.endEvent := by
  rw [State.endEvent_eq]
  have hlink := frame_link s (State.rate_endEvent s)
  have hnotices := frame_notices { s with link := s.endEvent.link } (State.filter_endEvent s)
  exact ((hlink.mono (by decide)).trans (hnotices.mono (by decide))).trans (.written rfl)

/-! ### Records of sources and outputs -/

theorem configs_congr {c d : Sources} (hosc : ∀ o, (d.osc.get o).cfg = (c.osc.get o).cfg) (hsyn : d.syn = c.syn) :
    d.configs = c.configs := Prod.ext (BankOsc.ofFn_congr hosc) hsyn

/-- A source's record rewritten under its configuration. -/
theorem frame_putOsc {o : Osc} {r : OscRec} (h : r.cfg = (s.osc o).cfg) : Frame [.srcState] s (s.putOsc o r) := by
  intro p hp
  cases p
  case srcConfig =>
    refine configs_congr (fun x => ?_) rfl
    rw [State.clk_putOsc, BankOsc.get_set]
    split
    · rename_i hx
      rw [hx]
      exact h
    · rfl
  case srcState => exact absurd (List.mem_singleton_self _) hp
  case monState => exact ⟨rfl, rfl, rfl, rfl⟩
  all_goals rfl

/-- An output's record rewritten under its configuration. -/
theorem frame_putOut {o : Fin 8} {r : OutRec} (h : r.cfg = (s.out o).cfg) : Frame [.outState] s (s.putOut o r) := by
  intro p hp
  cases p
  case outConfig =>
    refine Bank8.ofFn_congr fun x => ?_
    rw [State.clk_putOut, Bank8.get_set]
    split
    · rename_i hx
      rw [hx]
      exact h
    · rfl
  case outState => exact absurd (List.mem_singleton_self _) hp
  case monState => exact ⟨rfl, rfl, rfl, rfl⟩
  all_goals rfl

/-- An output's record replaced, configuration and all. -/
theorem frame_replaceOut (o : Fin 8) (r : OutRec) : Frame [.outConfig, .outState] s (s.putOut o r) := .written rfl

/-! ### An event's course -/

/-- An event moves sources, monitor and outputs under their configurations, and posts notices. -/
theorem frame_runEvent {s : State} (cause : Cause) (s0 : State) {f : Env → Ev → Ev}
    (h : ∀ e, Ev.Sound ⟨s.clk, [], []⟩ (f e ⟨s.clk, [], []⟩)) : Frame eventParts s (runEvent cause s0 s f) := by
  have hsound := sound_runEvent cause s0 s h
  have hmoved : Frame eventParts s { s with clk := (runEvent cause s0 s f).clk } := by
    intro p hp
    cases p
    case srcConfig => exact configs_congr hsound.srcCfg hsound.syn
    case monSettings => exact hsound.settings
    case outConfig => exact Bank8.ofFn_congr hsound.outCfg
    case srcState | monState | outState => exact absurd (by decide) hp
    all_goals rfl
  have hnotices := frame_notices { s with clk := (runEvent cause s0 s f).clk } (filter_runEvent cause s0 s f)
  rw [runEvent_eq]
  exact hmoved.trans (hnotices.mono (by decide))

/-- An event after its own change of configuration, claims or profile. -/
theorem Frame.course {ps : List Part} {s s' : State} (h : Frame ps s s') (cause : Cause) (s0 : State) {f : Env → Ev → Ev}
    (hf : ∀ e, Ev.Sound ⟨s'.clk, [], []⟩ (f e ⟨s'.clk, [], []⟩)) (hps : eventParts ⊆ ps := by decide) :
    Frame ps s (runEvent cause s0 s' f) := h.trans ((frame_runEvent cause s0 hf).mono hps)

/-- The blocks evaluate a change of configuration, claims or profile. -/
theorem Frame.reevaluated {ps : List Part} {s s' : State} (h : Frame ps s s') (cause : Cause) (s0 : State)
    (hps : eventParts ⊆ ps := by decide) : Frame ps s (reevaluate cause s0 s') :=
  h.course cause s0 (fun _ => .refl _) hps

/-! ### Claims and lines -/

theorem frame_setClaims (cs : List Claim) : Frame (.claims :: eventParts) s (setClaims s cs) :=
  Frame.reevaluated (s' := { s with claims := cs }) (.written rfl) _ _

theorem frame_lineOff (l : Fin 8) : Frame [.lines, .claims] s (lineOff l s) := by
  unfold lineOff
  dsimp only
  split
  · exact .written rfl
  · exact .written rfl

theorem frame_remapLine (l : Fin 8) (was : Bool) : Frame [.lines, .claims] s (remapLine l was s) := by
  unfold remapLine
  dsimp only
  split
  · exact .written rfl
  · exact Frame.trans (.written rfl) (frame_lineOff _ l)
  · exact .written rfl
  · exact .written rfl

/-! ### Stack and transitions (R103, R104, R113) -/

theorem frame_beginTransition (c : TransitionCause) (s0 : State) : Frame eventParts s (beginTransition c s0 s) := by
  have hpost := frame_post s (enteredPosting s0.stack.top c s.stack)
  exact ((hpost.mono (by decide)).trans (.written rfl)).reevaluated _ _

theorem frame_changeStack (c : TransitionCause) (k : Stack) : Frame (.stack :: eventParts) s (changeStack c k s) := by
  have hstack : Frame (.stack :: eventParts) s { s with stack := k } := .written rfl
  unfold changeStack
  split
  · exact hstack
  · exact hstack.trans ((frame_beginTransition _ c s).mono (by decide))

theorem frame_wakeEvent (c : WakeCause) : Frame (.stack :: eventParts) s (wakeEvent c s) :=
  ((frame_post s _).mono (by decide)).trans (frame_changeStack _ .wake _)

theorem frame_offerWake (c : WakeCause) : Frame (.stack :: eventParts) s (offerWake c s) := .ite (frame_wakeEvent s c)

end

end Sys2Proof.Machine
end

section
/-! SUPPORT. The frames of the requests: each changes only the parts that its rules name. -/

namespace Sys2Proof.Machine

section
variable (s : State)

/-! ### Requests on sources and the monitor (R15 to R18, R35) -/

theorem frame_sourceSet (r : SourceSetReq) : Frame (.srcConfig :: eventParts) s (performSourceSet r s).state := by
  unfold performSourceSet
  split
  · exact .refl _ s
  · exact .refl _ s
  · rename_i o _
    have hset : Frame (.srcConfig :: eventParts) s { s with clk := { s.clk with src := sourceSetSources o r s.clk.src } } :=
      .written rfl
    have hdone : Frame (.srcConfig :: eventParts) s (runEvent .ordinary s
        { s with clk := { s.clk with src := sourceSetSources o r s.clk.src } }
        fun e v => if synRestarts s.clk.src (sourceSetSources o r s.clk.src) then restartSyn e v else v) := by
      refine hset.course _ s fun e => ?_
      split
      · exact sound_enterStarting e .syn _
      · exact .refl _
    exact .unless (.unless (.unless hdone))

theorem frame_sourceKeep (x f : Byte) : Frame (.srcConfig :: eventParts) s (performSourceKeep x f s).state := by
  unfold performSourceKeep
  split
  · exact .refl _ s
  · exact .refl _ s
  · split
    · exact .refl _ s
    · exact Frame.reevaluated (s' := s.putOsc _ _) (.written rfl) _ s

theorem frame_clearSource (o : Osc) : Frame eventParts s (clearSource o s) := by
  have hbudget : Frame eventParts s (s.putOsc o { s.osc o with budget := (s.osc o).cfg.retryCount }) :=
    Frame.mono (frame_putOsc s rfl) (by decide)
  unfold clearSource
  dsimp only
  split
  · exact hbudget.course _ s fun e => sound_unquarantine e o _
  · exact hbudget.course _ s fun _ => sound_enterOff o _
  · exact hbudget

theorem frame_clearRco : Frame eventParts s (clearRco s) := by
  unfold clearRco
  split
  · rename_i hf
    refine frame_runEvent _ s fun e => sound_changeRco _ _ fun h => ?_
    obtain ⟨hs, hk, -⟩ := h
    exact ⟨by simpa [hf] using hs, hk, by simp⟩
  · exact .refl _ s

theorem frame_sourceClear (x : Byte) : Frame eventParts s (performSourceClear x s).state := by
  unfold performSourceClear
  split
  · exact .refl _ s
  · exact frame_clearRco s
  · exact frame_clearSource s _

theorem frame_withMonitor (tick : Tick) (m : MonitorSettings) :
    Frame [.monSettings, .monState] s { s with clk := s.clk.withMonitor tick m } := by
  unfold Clocks.withMonitor
  dsimp only
  split
  · exact .written rfl
  · exact .written rfl

theorem frame_monitorSet (r : MonitorSetReq) :
    Frame ([.monSettings, .monState] ++ endParts) s (performMonitorSet r s).state := by
  have hset := frame_withMonitor s s.tick (monitorOfReq r)
  exact .unless (hset.mono (by decide))

/-! ### Requests on outputs and chains (R57 to R60, R76) -/

theorem frame_outputSet (r : OutputSetReq) : Frame (.outConfig :: eventParts) s (performOutputSet r s).state := by
  unfold performOutputSet
  split
  · exact .refl _ s
  · split
    · exact .refl _ s
    · exact .unless (((frame_replaceOut s _ _).mono (by decide)).reevaluated _ s)

theorem frame_outputQuery (x : Byte) : Frame (.freeCount :: endParts) s (performOutputQuery x s).state := by
  unfold performOutputQuery
  split
  · exact .refl _ s
  · split
    · exact .refl _ s
    · exact .written rfl

theorem frame_selectOutput (o : Fin 8) (entry : Option (Fin 4)) : Frame eventParts s (selectOutput o entry s).state := by
  unfold selectOutput
  split
  · exact .refl _ s
  · have hpin : Frame eventParts s (s.putOut o ((s.out o).pinned entry)) := (frame_putOut s (cfg_pinned ..)).mono (by decide)
    exact .unless (hpin.reevaluated _ s)

theorem frame_outputSelect (x i : Byte) : Frame eventParts s (performOutputSelect x i s).state := by
  unfold performOutputSelect
  split
  · exact .refl _ s
  · split
    · exact .refl _ s
    · split
      · exact .refl _ s
      · exact frame_selectOutput s _ _

theorem frame_chainSet (r : ChainSetReq) : Frame (.chains :: eventParts) s (performChainSet r s).state := by
  unfold performChainSet
  split
  · exact .refl _ s
  · rename_i k _
    refine .unless ?_
    split
    · exact .refl _ s
    · rename_i c _
      have hset : Frame (.chains :: eventParts) s { s with chains := s.chains.set k c } := .written rfl
      have hdone : Frame (.chains :: eventParts) s (chainSetDone k c s) := hset.course _ s fun e => sound_chainReplacedAll e k _
      exact .unless (.unless hdone)

/-! ### Requests on claims and lines (R85, R88, R89, R95) -/

theorem frame_claim (r : ClaimReq) : Frame (.claims :: eventParts) s (performClaim r s).state := by
  unfold performClaim
  split
  · exact .refl _ s
  · exact .refl _ s
  · split
    · exact .refl _ s
    · split
      · exact .refl _ s
      · exact .unless (frame_setClaims s _)

theorem frame_releaseOne (n : Byte) (o : Fin 8) : Frame (.claims :: eventParts) s (releaseOne n o s).state := by
  unfold releaseOne
  split
  · exact frame_setClaims s _
  · exact .refl _ s

theorem frame_releaseEvery (n : Byte) : Frame (.claims :: eventParts) s (releaseEvery n s).state := frame_setClaims s _

theorem frame_release (c : Half) (x : Byte) : Frame (.claims :: eventParts) s (performRelease c x s).state := by
  unfold performRelease
  split
  · exact .refl _ s
  · exact .refl _ s
  · split
    · exact .refl _ s
    · exact frame_releaseOne s _ _

theorem frame_releaseAll (c : Half) : Frame (.claims :: eventParts) s (performReleaseAll c s).state := by
  unfold performReleaseAll
  split
  · exact .refl _ s
  · exact .refl _ s
  · exact frame_releaseEvery s _

theorem frame_lineMapSet (r : LineMapReq) : Frame ([.lines, .claims] ++ eventParts) s (performLineMapSet r s).state := by
  unfold performLineMapSet
  split
  · exact .refl _ s
  · rename_i l _
    split
    · exact .refl _ s
    · rename_i g _
      have hset : Frame [.lines, .claims] s (withSettings l g s) := .written rfl
      have hmap := (hset.trans (frame_remapLine _ l (s.line l).active)).mono (qs := [.lines, .claims] ++ eventParts) (by decide)
      exact .unless (.unless (hmap.reevaluated _ s))

/-! ### Requests on profiles and the stack (R106 to R110) -/

theorem frame_profileSet (r : ProfileSetReq) : Frame (.profiles :: eventParts) s (performProfileSet r s).state := by
  unfold performProfileSet
  split
  · exact .refl _ s
  · rename_i p _
    split
    · exact .refl _ s
    · rename_i q _
      have hset : Frame (.profiles :: eventParts) s { s with profiles := s.profiles.set p q } := .written rfl
      show Frame _ s (if p = s.stack.top then _ else _)
      split
      · exact hset.trans ((frame_beginTransition _ .request s).mono (by decide))
      · exact hset

theorem frame_profileEnter (x : Byte) : Frame (.stack :: eventParts) s (performProfileEnter x s).state := by
  unfold performProfileEnter
  split
  · exact .refl _ s
  · exact frame_changeStack s _ _

theorem frame_resumeProfile (c : TransitionCause) : Frame (.stack :: eventParts) s (resumeProfile c s).state := by
  unfold resumeProfile
  split
  · exact .refl _ s
  · exact frame_changeStack s _ _

theorem frame_resumeTarget (x : Byte) : Frame (.stack :: endParts) s (performResumeTarget x s).state := by
  unfold performResumeTarget
  split
  · exact .refl _ s
  · exact .unless (.written rfl)

/-! ### Requests on actions, notices and images (R125, R130, R141, R166 to R168) -/

theorem frame_actionAdd (r : ActionAddReq) : Frame (.actions :: endParts) s (performActionAdd r s).state := by
  unfold performActionAdd
  split
  · exact .refl _ s
  · exact .unless (.unless (.written rfl))

theorem frame_actionCancel (n : Byte) : Frame (.actions :: endParts) s (performActionCancel n s).state := by
  refine .unless ?_
  split
  · exact .refl _ s
  · exact .written rfl

theorem frame_noticeAck (n : Half) : Frame endParts s (performNoticeAck n s).state := by
  refine .unless ?_
  split
  · exact .refl _ s
  · exact Frame.mono (frame_notices s (Notices.filter_testLost ..)) (by decide)

theorem frame_imageSave (x : Byte) : Frame (.image :: endParts) s (performImageSave x s).state := by
  unfold performImageSave
  split
  · exact .refl _ s
  · exact .unless (.unless (.written rfl))

/-! ### Requests that only answer (R19, R77, R96, R112, R160) -/

theorem state_echo (b : List Byte) : (performEcho b s).state = s := by
  unfold performEcho
  split <;> rfl

theorem state_sourceQuery (x : Byte) : (performSourceQuery x s).state = s := by
  unfold performSourceQuery
  split <;> rfl

theorem state_chainQuery (x : Byte) : (performChainQuery x s).state = s := by
  unfold performChainQuery
  split <;> rfl

theorem state_lineQuery (x : Byte) : (performLineQuery x s).state = s := by
  unfold performLineQuery
  split <;> rfl

theorem state_profileQuery (x : Byte) : (performProfileQuery x s).state = s := by
  unfold performProfileQuery
  split <;> rfl

end

/-! ### Every request -/

/-- The request command whose frame has the tag and carries the request. -/
def Request.command (tag : Byte) : Request → Instr
  | .identify => .identify tag | .echo b => .echo tag b | .restart => .restart tag
  | .sourceSet r => .sourceSet tag r | .sourceQuery x => .sourceQuery tag x | .sourceKeep x f => .sourceKeep tag x f
  | .sourceClear x => .sourceClear tag x | .monitorSet r => .monitorSet tag r | .monitorQuery => .monitorQuery tag
  | .outputSet r => .outputSet tag r | .outputQuery o => .outputQuery tag o | .outputSelect o i => .outputSelect tag o i
  | .chainSet r => .chainSet tag r | .chainQuery c => .chainQuery tag c
  | .claim r => .claim tag r | .release c o => .release tag c o | .releaseAll c => .releaseAll tag c
  | .claimList f => .claimList tag f | .lineMapSet r => .lineMapSet tag r | .lineQuery l => .lineQuery tag l
  | .profileSet r => .profileSet tag r | .profileQuery p => .profileQuery tag p | .profileEnter p => .profileEnter tag p
  | .resume => .resume tag | .resumeTarget p => .resumeTarget tag p | .stackQuery => .stackQuery tag
  | .timeQuery => .timeQuery tag | .actionAdd r => .actionAdd tag r | .actionCancel n => .actionCancel tag n
  | .actionList f => .actionList tag f | .noticeAck n => .noticeAck tag n | .noticeResend => .noticeResend tag
  | .noticeFilter f => .noticeFilter tag f | .imageSave p => .imageSave tag p | .imageInfo => .imageInfo tag

theorem request?_eq_some_iff {i : Instr} {tag : Byte} {r : Request} : i.request? = some (tag, r) ↔ i = r.command tag := by
  refine ⟨fun h => ?_, fun h => ?_⟩
  · cases i <;> cases h <;> rfl
  · subst h
    cases r <;> rfl

/-- A request changes the parts that its command may touch. -/
theorem frame_request (tag : Byte) (r : Request) (s : State) :
    Frame (mayTouch (r.command tag)) s (performRequest r s).state := by
  cases r with
  | identify => exact .refl _ s
  | echo b => exact .answer (state_echo s b)
  | restart => exact Frame.written (ps := endParts) rfl
  | sourceSet r => exact frame_sourceSet s r
  | sourceQuery x => exact .answer (state_sourceQuery s x)
  | sourceKeep x f => exact frame_sourceKeep s x f
  | sourceClear x => exact frame_sourceClear s x
  | monitorSet r => exact frame_monitorSet s r
  | monitorQuery => exact .refl _ s
  | outputSet r => exact frame_outputSet s r
  | outputQuery x => exact frame_outputQuery s x
  | outputSelect x i => exact frame_outputSelect s x i
  | chainSet r => exact frame_chainSet s r
  | chainQuery x => exact .answer (state_chainQuery s x)
  | claim r => exact frame_claim s r
  | release c x => exact frame_release s c x
  | releaseAll c => exact frame_releaseAll s c
  | claimList f => exact .unless (.refl _ s)
  | lineMapSet r => exact frame_lineMapSet s r
  | lineQuery x => exact .answer (state_lineQuery s x)
  | profileSet r => exact frame_profileSet s r
  | profileQuery x => exact .answer (state_profileQuery s x)
  | profileEnter x => exact frame_profileEnter s x
  | resume => exact frame_resumeProfile s _
  | resumeTarget x => exact frame_resumeTarget s x
  | stackQuery => exact .refl _ s
  | timeQuery => exact .refl _ s
  | actionAdd r => exact frame_actionAdd s r
  | actionCancel n => exact frame_actionCancel s n
  | actionList f => exact .unless (.refl _ s)
  | noticeAck n => exact frame_noticeAck s n
  | noticeResend => exact Frame.written (ps := endParts) rfl
  | noticeFilter f => exact Frame.unless (ps := .filter :: endParts) (.written rfl)
  | imageSave x => exact frame_imageSave s x
  | imageInfo => exact .refl _ s

end Sys2Proof.Machine
end

section
/-! SUPPORT. The frames of the events, the receiver's among them, and of the start-up events. -/

namespace Sys2Proof.Machine

section
variable (s : State)

/-! ### Frames on the link (R149 to R153, R157) -/

theorem frame_takeFrame {ps : List Part} (hend : endParts ⊆ ps) {perform : State → Done}
    (hp : ∀ u, Frame ps u (perform u).state) (tag kind : Byte) : Frame ps s (takeFrame tag kind perform s) := by
  have hevent : ∀ {u}, Frame ps s u → Frame ps s u.endEvent := fun h => h.trans ((frame_endEvent _).mono hend)
  have hlink : ∀ {u v}, Frame endParts u v → Frame ps u v := fun h => h.mono hend
  rcases takeFrame_cases tag kind perform s with ⟨-, h⟩ | h | ⟨-, -, h⟩ | ⟨-, h⟩
  · rw [h]
    exact .refl ps s
  · rw [h]
    exact hevent (hlink (.written rfl))
  · rw [h]
    exact hevent (hlink (.written rfl))
  · rw [h]
    have hhunt : Frame ps s s.hunt := hlink (.written rfl)
    exact hevent ((hhunt.trans (hp s.hunt)).trans (hlink (.written rfl)))

theorem frame_abandonFrame : Frame endParts s (abandonFrame s) := .written rfl

theorem frame_setRx (r : Rx) : Frame endParts s (s.setRx r) := .written rfl

/-- A request that a frame may carry changes what any request may. -/
theorem frame_anyRequest (r : Request) : Frame requestParts s (performRequest r s).state := by
  have hsub : mayTouch (r.command 0#8) ⊆ requestParts := by cases r <;> exact of_decide_eq_true rfl
  exact (frame_request 0#8 r s).mono hsub

theorem frame_performFrame (kind : Byte) (body : List Byte) : Frame requestParts s (performFrame kind body s).state := by
  rcases performFrame_forms kind body s with ⟨r, hr⟩ | ⟨hr, -⟩
  · rw [hr]
    exact frame_anyRequest s r
  · exact .answer hr

theorem frame_completeFrame (bytes : List Byte) : Frame requestParts s (completeFrame bytes s) := by
  have habandon : Frame requestParts s (abandonFrame s).endEvent :=
    ((frame_abandonFrame s).trans (frame_endEvent _)).mono (by decide)
  unfold completeFrame
  dsimp only
  split
  · split
    · exact frame_takeFrame s (by decide) (fun u => frame_performFrame u _ _) _ _
    · exact habandon
  · exact habandon

theorem frame_receiveHeader (c : Byte) (r : Rx) : Frame endParts s (receiveHeader c r s) := by
  unfold receiveHeader
  split
  · split
    · exact frame_abandonFrame s
    · exact frame_setRx s _
  · exact frame_setRx s _
  · exact frame_setRx s _

theorem frame_receiveChar (c : Byte) : Frame requestParts s (receiveChar c s) := by
  have hrx : ∀ r, Frame requestParts s (s.setRx r) := fun r => (frame_setRx s r).mono (by decide)
  unfold receiveChar
  dsimp only
  split
  case h_1 => exact .ite (hrx _)
  case h_2 => exact (frame_receiveHeader s c _).mono (by decide)
  case h_3 =>
    split
    · exact hrx _
    · exact hrx _
  case h_4 =>
    split
    · exact frame_completeFrame s _
    · exact hrx _

theorem frame_receiveBad : Frame requestParts s (receiveBad s) := by
  unfold receiveBad
  split
  · exact .refl _ s
  · exact (frame_abandonFrame s).mono (by decide)

/-! ### The end of a frame on LTX, and the warm restart after it (R145, R146) -/

theorem frame_cutSave : Frame [.image, .freeCount] s (cutSave s) := by
  rw [cutSave_eq]
  exact .written rfl

@[simp] theorem filter_emptyQueue (tick : Tick) (q : Notices) : (emptyQueue tick q).filter = q.filter := by
  unfold emptyQueue
  split
  · rfl
  · exact Notices.filter_testLost ..

/-- What the command for the end of a frame may touch. -/
def frameSentParts : List Part := [.actions, .image, .startup, .freeCount] ++ endParts

theorem frame_restartTakesEffect : Frame frameSentParts s (restartTakesEffect s) := by
  have hcut : Frame frameSentParts s (cutSave s) := (frame_cutSave s).mono (by decide)
  have hrate : (restartTakesEffect s).link.rate = (cutSave s).link.rate := by
    rw [State.link_cutSave]
    rfl
  have hfilter : (restartTakesEffect s).notices.filter = (cutSave s).notices.filter := by
    rw [State.notices_cutSave]
    exact filter_emptyQueue ..
  have hlink := frame_link (cutSave s) hrate
  have hqueue := frame_notices { cutSave s with link := (restartTakesEffect s).link } hfilter
  exact ((hcut.trans (hlink.mono (by decide))).trans (hqueue.mono (by decide))).trans (.written rfl)

theorem frame_endFrame : Frame frameSentParts s (endFrame s) := by
  unfold endFrame
  split
  · exact .refl _ s
  · have hltx : Frame frameSentParts s { s with link := { s.link with onLtx := none } } := .written rfl
    dsimp only
    split
    · exact hltx.trans (frame_restartTakesEffect _)
    · exact hltx

/-! ### Events of sources and outputs (R5 to R12, R47 to R52, R71) -/

theorem frame_detectStart (o : Osc) : Frame eventParts s (detectStart o s) := by
  unfold detectStart
  split
  · rename_i h
    simp only [Bool.and_eq_true, decide_eq_true_eq] at h
    exact frame_runEvent _ s fun _ => sound_enterVerifying h.1
  · exact .refl _ s

theorem frame_detectLock : Frame eventParts s (detectLock s) := by
  unfold detectLock
  split
  · rename_i h
    simp only [Bool.and_eq_true, decide_eq_true_eq] at h
    exact frame_runEvent _ s fun _ => sound_enterVerifying h.1
  · exact .refl _ s

theorem frame_failStart (o : Osc) (k : TimerKind) : Frame eventParts s (failStart o k s) :=
  .ite (frame_runEvent _ s fun e => sound_fault e o _ _)

theorem frame_expireQuarantine (o : Osc) : Frame eventParts s (expireQuarantine o s) := by
  unfold expireQuarantine
  split
  · rename_i h
    simp only [Bool.and_eq_true, decide_eq_true_eq] at h
    exact frame_runEvent _ s fun e => sound_leaveQuarantine e h.1
  · exact .refl _ s

/-- The end of a phase rewrites the output under its configuration. -/
theorem frame_outputEvent {s : State} (o : Fin 8) {m : Env → Sources → OutRec → Moved}
    (hc : ∀ e c, (m e c (s.out o)).1.cfg = (s.out o).cfg) (hw : ∀ e c, (s.out o).wf → (m e c (s.out o)).1.wf) :
    Frame eventParts s (runEvent .ordinary s s fun e v => v.putOut o (m e v.clk.src (v.clk.outs.get o))) :=
  frame_runEvent _ s fun e => sound_putOut (v := ⟨s.clk, [], []⟩) (hc e _) (hw e _)

theorem frame_finishRelease (o : Fin 8) (why : OutReason) : Frame eventParts s (finishRelease o why s) :=
  .ite (frame_outputEvent o (m := fun e c r => endRelease e c o r why) (fun _ _ => cfg_endRelease ..)
    fun _ _ h => wf_endRelease _ _ _ h _)

theorem frame_finishAcquire (o : Fin 8) : Frame eventParts s (finishAcquire o s) := by
  unfold finishAcquire
  split
  · rename_i hopen
    simp only [canOpen, Bool.and_eq_true, decide_eq_true_eq] at hopen
    exact frame_outputEvent o (m := fun _ _ r => openedGate r) (fun _ _ => rfl) fun _ _ h => wf_openGate h hopen.1
  · exact .refl _ s

theorem frame_timeoutAcquire (o : Fin 8) : Frame eventParts s (timeoutAcquire o s) :=
  .ite (frame_outputEvent o (m := fun e c r => timedOut e c o r) (fun _ _ => cfg_timedOut ..) fun _ _ => wf_timedOut _ _ _)

theorem cfg_takeDivider (r : OutRec) : (takeDivider r).cfg = r.cfg := by
  unfold takeDivider
  split <;> rfl

theorem frame_expireRevert (o : Fin 8) : Frame eventParts s (expireRevert o s) := by
  have hrevert : ∀ v, Frame eventParts s (s.putOut o { s.out o with revert := v }) :=
    fun _ => Frame.mono (frame_putOut s rfl) (by decide)
  unfold expireRevert
  split
  · split
    · exact .refl _ s
    · split
      · exact hrevert _
      · exact (hrevert _).reevaluated _ s
  · exact .refl _ s

/-! ### Events of claims and lines (R86, R92, R93) -/

theorem frame_expireLease (n : Byte) (o : Fin 8) : Frame (.claims :: eventParts) s (expireLease n o s) := by
  unfold expireLease
  split
  · rename_i c _
    have hpost : Frame (.claims :: eventParts) s (s.post (expiredPosting n c)) := (frame_post s _).mono (by decide)
    exact .ite ((hpost.trans (.written rfl)).reevaluated _ s)
  · exact .refl _ s

/-- What the commands for an edge and for the end of a hold may touch, but for an edge's wake event. -/
def lineParts : List Part := [.lines, .claims] ++ eventParts

theorem frame_activateLine (l : Fin 8) : Frame ([.lines, .claims, .stack] ++ eventParts) s (activateLine l s) := by
  unfold activateLine
  split
  · exact .refl _ s
  · have hon : Frame lineParts s (lineOn l (s.putLine l { s.line l with pinHigh := (s.line l).set.activeHigh })) := .written rfl
    have hclaims := (hon.reevaluated .ordinary s).trans ((frame_testSettled _).mono (by decide))
    exact (hclaims.mono (by decide)).trans ((frame_offerWake _ (.line l)).mono (by decide))

theorem frame_deactivateLine (l : Fin 8) : Frame lineParts s (deactivateLine l s) := by
  have hpin : Frame lineParts s (s.putLine l { s.line l with pinHigh := !(s.line l).set.activeHigh }) := .written rfl
  exact .ite ((hpin.trans ((frame_lineOff _ l).mono (by decide))).reevaluated _ s)

theorem frame_expireHold (l : Fin 8) : Frame lineParts s (expireHold l s) := by
  have hoff : Frame lineParts s
      { (s.putLine l { s.line l with hold := none }) with claims := dropClaimant s.claims (.line l) } := .written rfl
  exact .ite (hoff.reevaluated _ s)

/-! ### Events of actions and images (R127, R142) -/

/-- What the command for a firing may touch. -/
def firingParts : List Part := [.actions, .claims, .stack] ++ eventParts

theorem frame_performAction (a : Action) : Frame firingParts s (performAction a s).state := by
  unfold performAction
  split
  · exact (frame_changeStack s _ _).mono (by decide)
  · exact (frame_wakeEvent s _).mono (by decide)
  · exact (frame_resumeProfile s _).mono (by decide)
  · exact (frame_releaseEvery s _).mono (by decide)
  · exact (frame_releaseOne s _ _).mono (by decide)
  · exact (frame_selectOutput s _ _).mono (by decide)
  · exact .refl _ s

theorem frame_settleAction (a : Action) : Frame endParts s (settleAction a s) := by
  unfold settleAction
  split
  · exact frame_testSettled s
  · exact frame_testSettled s
  · exact .refl _ s

theorem frame_fireAction (a : Action) (rest : List Action) : Frame firingParts s (fireAction a rest s) := by
  have hrest : Frame firingParts s { s with actions := rest } := .written rfl
  have hperformed := hrest.trans (frame_performAction _ a)
  have hsettled := hperformed.trans ((frame_settleAction _ a).mono (by decide))
  have hback := hsettled.trans (Frame.written (t := { settleAction a (performAction a { s with actions := rest }).state with
    actions := reinsert s.tick a (settleAction a (performAction a { s with actions := rest }).state).actions }) rfl)
  exact hback.trans ((frame_post _ _).mono (by decide))

theorem frame_fireHead : Frame firingParts s (fireHead s) := by
  unfold fireHead
  split
  · exact .refl _ s
  · exact .ite (frame_fireAction s _ _)

theorem frame_endCheck (good : Bool) : Frame (.image :: endParts) s (endCheck good s) := by
  unfold endCheck
  split
  · rename_i v _
    have himage : Frame (.image :: endParts) s
      { s with image := if good then saveSucceeded s.image v else saveFailed s.image v } := .written rfl
    exact .ite (himage.trans ((frame_post _ _).mono (by decide)))
  · exact .refl _ s

/-- An event of the running part changes the parts that its command may touch. -/
theorem frame_runningEvent {i : Instr} {f : State → State} (hf : eventBody i = some f) : Frame (mayTouch i) s (f s) := by
  cases i <;> cases hf
  case characterReceived c bad =>
    cases bad with
    | true => exact frame_receiveBad s
    | false => exact frame_receiveChar s c
  case gap => exact .ite (frame_abandonFrame s)
  case linkBreak => exact Frame.written (ps := endParts) rfl
  case frameSent => exact frame_endFrame s
  case startDetection o => exact frame_detectStart s o
  case startTimerExpiry o => exact frame_failStart s o .start
  case lockDetection => exact frame_detectLock s
  case lockTimerExpiry => exact frame_failStart s .syn .lock
  case quarantineExpiry o => exact frame_expireQuarantine s o
  case rehabilitationExpiry o => exact .ite (Frame.mono (frame_putOsc s rfl) (of_decide_eq_true rfl))
  case surveyCompletion => exact frame_runEvent _ s fun e => sound_completeSurvey _ e _
  case releaseEnd o => exact frame_finishRelease s o .complete
  case releaseTimeout o => exact frame_finishRelease s o .forced
  case acquireEnd o => exact frame_finishAcquire s o
  case acquireTimeout o => exact frame_timeoutAcquire s o
  case dividerChange o => exact Frame.mono (frame_putOut s (cfg_takeDivider _)) (of_decide_eq_true rfl)
  case revertTimerExpiry o => exact frame_expireRevert s o
  case leaseExpiry n o => exact frame_expireLease s n o
  case lineActivation l => exact frame_activateLine s l
  case lineDeactivation l => exact frame_deactivateLine s l
  case holdExpiry l => exact frame_expireHold s l
  case wakePinEdge => exact frame_offerWake s .pin
  case tick => exact Frame.written (ps := .tick :: endParts) rfl
  case actionFiring => exact frame_fireHead s
  case eraseComplete => exact Frame.written (ps := .image :: endParts) rfl
  case writeComplete => exact Frame.written (ps := .image :: endParts) rfl
  case checkComplete good => exact frame_endCheck s good

/-! ### Start-up events (R134 to R136, R146) -/

theorem frame_coldStart (supply : Bool) : Frame (mayTouch (.coldStart supply)) s (coldStart supply s) := by
  unfold coldStart cutSave
  split
  · exact .written rfl
  · exact .written rfl

theorem frame_endSelect : Frame (mayTouch .selectDone) s (endSelect s) := by
  refine .ite ?_
  dsimp only
  split
  · exact .written rfl
  · exact .written rfl

theorem frame_reachLive (pins : Byte) : Frame (mayTouch (.live pins)) s (reachLive pins s) := by
  have hevent : eventParts ⊆ mayTouch (.live pins) := of_decide_eq_true rfl
  have hend : endParts ⊆ mayTouch (.live pins) := of_decide_eq_true rfl
  refine .ite (Frame.trans ?_ ((frame_endEvent _).mono hend))
  split
  · have hready : Frame (mayTouch (.live pins)) s (warmReady s) := .written rfl
    rw [liveWarm_eq]
    exact hready.course _ s (fun e => sound_restartSources _ e _) hevent
  · have hready : Frame (mayTouch (.live pins)) s (coldReady pins s) := by
      rw [coldReady_eq]
      exact .written rfl
    rw [liveCold_eq]
    exact hready.reevaluated _ _ hevent

/-- A start-up event changes the parts that its command may touch. -/
theorem frame_start {i : Instr} {f : State → State} (hf : startBody i = some f) : Frame (mayTouch i) s (f s) := by
  cases i <;> cases hf
  case coldStart supply => exact frame_coldStart s supply
  case resetRelease => exact .ite (Frame.written (ps := [.startup]) rfl)
  case powerupEnd b1 b0 => exact .ite (Frame.written (ps := [.rate, .startup]) rfl)
  case selectDone => exact frame_endSelect s
  case live pins => exact frame_reachLive s pins

end

end Sys2Proof.Machine
end

section
/-! PROOFS. Every command changes only the parts that its rules name (O3), and completes with the waiting commands as they were (O2). -/

namespace Sys2Proof.Machine

/-- A frame of a request kind may touch what any request may, and a frame of no request kind the parts that every event ends with. -/
theorem mayTouch_unknownKind (tag kind : Byte) : (kind ∈ requestKinds ∧ mayTouch (.unknownKind tag kind) = requestParts)
    ∨ (kind ∉ requestKinds ∧ mayTouch (.unknownKind tag kind) = endParts) := by
  by_cases h : kind ∈ requestKinds
  · exact .inl ⟨h, if_pos (List.contains_iff_mem.mpr h)⟩
  · exact .inr ⟨h, if_neg (mt List.contains_iff_mem.mp h)⟩

/-- Every command but the start-up events ends with the end of an event. -/
theorem endParts_subset_mayTouch {i : Instr} (h : startBody i = none) : endParts ⊆ mayTouch i := by
  cases i
  case unknownKind tag kind =>
    rcases mayTouch_unknownKind tag kind with ⟨-, hp⟩ | ⟨-, hp⟩
    · rw [hp]
      decide
    · rw [hp]
      decide
  case coldStart | resetRelease | powerupEnd | selectDone | live => cases h
  all_goals exact of_decide_eq_true rfl

/-- A frame whose kind names no request is answered without effect. -/
theorem frame_unknownKind (tag kind : Byte) (s : State) :
    Frame (mayTouch (.unknownKind tag kind)) s (performFrame kind [] s).state := by
  rcases mayTouch_unknownKind tag kind with ⟨-, hp⟩ | ⟨h, hp⟩
  · rw [hp]
    exact frame_performFrame s kind []
  · rw [performFrame_unknownKind h]
    exact .refl _ s

theorem startBody_eq_none_of_request {i : Instr} {tag : Byte} {r : Request} (h : i.request? = some (tag, r)) : startBody i = none := by
  cases i <;> cases h <;> rfl

theorem startBody_eq_none_of_event {i : Instr} {f : State → State} (h : eventBody i = some f) : startBody i = none := by
  cases i <;> cases h <;> rfl

/-- The frame of every command. -/
theorem frame_exec {i : Instr} {s t : State} (h : exec i s = .next t) : Frame (mayTouch i) s t := by
  rcases exec_forms i s with ⟨tag, kind, perform, he, ⟨r, hr, -, rfl⟩ | ⟨rfl, rfl⟩⟩ | ⟨f, hf, he⟩ | ⟨f, hf, he⟩
  · cases he.symm.trans h
    refine frame_takeFrame s (endParts_subset_mayTouch (startBody_eq_none_of_request hr)) (fun u => ?_) tag kind
    rw [request?_eq_some_iff.mp hr]
    exact frame_request tag r u
  · cases he.symm.trans h
    exact frame_takeFrame s (endParts_subset_mayTouch rfl) (frame_unknownKind tag kind) tag kind
  · cases he.symm.trans h
    have hend := endParts_subset_mayTouch (startBody_eq_none_of_event hf)
    exact .ite ((frame_runningEvent s hf).trans ((frame_endEvent _).mono hend))
  · cases he.symm.trans h
    exact frame_start s hf

/-- Settles O3: `frame_exec`, by the three forms of a command. -/
theorem commandsTouchOnlyTheirParts : Obligations.CommandsTouchOnlyTheirParts := fun _ _ _ h => frame_exec h

/-- Every command gives a next state. -/
theorem exec_next (i : Instr) (s : State) : ∃ t, exec i s = .next t := by
  rcases exec_forms i s with ⟨_, _, _, he, -⟩ | ⟨_, -, he⟩ | ⟨_, -, he⟩
  · exact ⟨_, he⟩
  · exact ⟨_, he⟩
  · exact ⟨_, he⟩

/-- No command may touch the waiting commands. -/
theorem pending_not_mem_mayTouch (i : Instr) : .pending ∉ mayTouch i := by
  cases i
  case unknownKind tag kind =>
    rcases mayTouch_unknownKind tag kind with ⟨-, hp⟩ | ⟨-, hp⟩
    · rw [hp]
      decide
    · rw [hp]
      decide
  all_goals exact of_decide_eq_true rfl

/-- Settles O2: a command completes by its form (`exec_forms`), and the waiting commands stand outside its frame. -/
theorem everyCommandCompletes : Obligations.EveryCommandCompletes := fun i s => by
  obtain ⟨t, ht⟩ := exec_next i s
  exact ⟨t, ht, frame_exec ht .pending (pending_not_mem_mayTouch i)⟩

end Sys2Proof.Machine
end
